-- ==== Sys2Proof/Word.lean ====
section
/-! DEFINITION. The word types of the Porwen 4820: a byte, a 48-bit Ethernet address, a 32-bit check
word and a way number. -/

namespace Sys2Proof

/-- A byte of a frame, of a volume record or of the configuration memory. -/
abbrev Byte := BitVec 8

/-- A 48-bit Ethernet address (R176). -/
abbrev Mac := BitVec 48

/-- A 32-bit check word (R187). -/
abbrev CheckWord := BitVec 32

/-- A way, 0 to 3 (R26). -/
abbrev Way := Fin 4

end Sys2Proof
end

