-- ==== Sys2Proof/Config.lean ====
section
/-! DEFINITION. The fixed quantities of the spec (00_scope, section 6) and the FREE VALUES: what the
spec leaves open is an opaque constant, so no proof can see it. -/

namespace Sys2Proof.Config

/-- Feed contexts per station (R1). -/
def maxContexts : Nat := 32
/-- Feeds on the segment, numbered 0 to 63 (R18). -/
def feeds : Nat := 64
/-- Buffers of the cell pool (R61). -/
def poolBuffers : Nat := 131072
/-- Bytes of one cell buffer (R61). -/
def bufferBytes : Nat := 8192
/-- Chunk entries of the Retention Ring (R62). -/
def ringEntries : Nat := 16384
/-- Sequence numbers of an intake window's span (R73). -/
def span : Nat := 512
/-- Positions of one landing batch (R120). -/
def batchMax : Nat := 8
/-- Mend asks sent before the lost procedure (R93). -/
def maxAttempts : Nat := 4
/-- Suppression restarts of one position (R96). -/
def maxRestarts : Nat := 8
/-- Rewrites of one position (R125). -/
def maxRewrites : Nat := 4
/-- Pending answers (R99). -/
def maxAnswers : Nat := 32
/-- Adopted triples (R39). -/
def maxAdopted : Nat := 16
/-- Jobs of the browse queue (R152). -/
def browseQueue : Nat := 64
/-- The browse shed wait, ms (R159). -/
def shedWait : Nat := 1000
/-- The LISTENING period, ms (R183). -/
def listeningPeriod : Nat := 3000
/-- The linger, ms (R6). -/
def lingerTime : Nat := 10000
/-- The storage timeout, ms (R114). -/
def storageTimeout : Nat := 2000
/-- The stale period of a storage request table entry, ms (R114). -/
def stalePeriod : Nat := 2000
/-- The start-up storage quiet time, ms (R118). -/
def quietTime : Nat := 2000
/-- The timeouts in a row that set the local hold (R116). -/
def holdRun : Nat := 3
/-- Bytes of the landing file header (R119). -/
def fileHeader : Nat := 4096
/-- Bytes of a slot trailer, a mark slot and a browse index record (R190). -/
def recordBytes : Nat := 64
/-- Type of a capture frame (R186). -/
def captureType : BitVec 16 := 0x88B5#16
/-- Type of a storage frame (R186). -/
def storageType : BitVec 16 := 0x88B6#16
/-- The longest storage frame taken, counted after the Ethernet header (R189, log 4). -/
def storageFrameMax : Nat := 9000
/-- Bytes of the fragment header of a storage frame (R189). -/
def fragmentHeader : Nat := 12

/-! ### Free values: no body, so nothing in Lean can evaluate one -/

/-- FREE (log 7). Whether byte `i` of the configuration memory holds the new record after a record
write that was cut off or FAILED (R185: "may leave the memory holding part of the new record and part
of the old"); the first argument is the model's draw counter. A choice whose mix of the two would pass
its check word is not used (R185: "its stored check word then differs from its contents"). -/
opaque recordMix : Nat → Nat → Bool

/-- FREE (log 5). How many message bytes the station puts into one storage frame, as a choice that
`fragmentBytes` brings into the range R189 leaves it. -/
opaque fragmentChoice : Nat

/-- FREE (log 5). The source address of a storage frame; the spec gives one for capture frames alone
(R188). -/
opaque storageSource : Mac

/-- FREE (log 6). Byte `i` of the missing-cell field of an ask whose WHOLE flag is set (R94: "no
missing-cell set"; the field is ignored on receipt, R188). -/
opaque unusedMissing : Nat → Byte

/-- FREE (log 6). The three refusal bytes of a beacon that carries no last refusal (R188). -/
opaque absentRefusal : Nat → Byte

/-- FREE (log 6). The reason byte of a storage request (R189: used when the outcome is REFUSED). -/
opaque requestReason : Byte

/-- FREE (log 6). The item count of a MARK or PROBE request, whose bodies do not use it (R189). -/
opaque unusedItemCount : BitVec 16

/-- The message bytes of one storage frame: at least 1, and never so many that the frame is longer
than the 9,000 bytes R189 allows. -/
def fragmentBytes : Nat :=
  1 + fragmentChoice % (storageFrameMax - fragmentHeader)

end Sys2Proof.Config
end

