-- ==== Sys2Proof/Syntax.lean ====
section
/-! DEFINITION. The commands of the block: one constructor per row of spec/opcode_table.json, with
what the row's event carries. -/

namespace Sys2Proof

/-- A whole Ethernet frame that has passed its port's own frame check. `body` is everything after
the 14-byte Ethernet header; the layouts of R188 and R189 count from its first byte. -/
structure Frame where
  dest  : Mac
  src   : Mac
  ftype : BitVec 16
  body  : List Byte
  deriving DecidableEq, Repr, Inhabited

/-- One decoded picture at the source size in 8-bit 4:2:0: three planes, row by row (R154). -/
structure Picture where
  width  : Nat
  height : Nat
  luma   : List Byte
  cb     : List Byte
  cr     : List Byte
  deriving DecidableEq, Repr, Inhabited

/-- The commands: every row of the opcode table. A receive command carries the frame that arrives; an
expiry names the timer that expires; an operation of the part itself carries nothing. -/
inductive Instr where
  /-- POWER_RESET (R177). -/
  | powerReset
  /-- LOADING_COMPLETE (R177); the operand says whether the configuration memory answered. -/
  | loadingComplete (memoryAnswers : Bool)
  /-- STORAGE_QUIET_TIME_END (R118). -/
  | storageQuietTimeEnd
  /-- CAPTURE_LINK_LOST (R181). -/
  | captureLinkLost
  /-- CAPTURE_LINK_RETURN (R182). -/
  | captureLinkReturn
  /-- LISTENING_PERIOD_END (R183). -/
  | listeningPeriodEnd
  /-- BEACON_TIMER_EXPIRY (R28). -/
  | beaconTimerExpiry
  /-- PORT_TRANSMIT (R92): the capture port is free to send. -/
  | portTransmit
  /-- UNSORTED_SEGMENT_FRAME (R49). -/
  | unsortedSegmentFrame (f : Frame)
  /-- FEED_CELL (R53). -/
  | feedCell (f : Frame)
  /-- MEND_CELL (R53). -/
  | mendCell (f : Frame)
  /-- BEACON (R47). -/
  | beacon (f : Frame)
  /-- PEER_SILENT (R35): the entry of that station number. -/
  | peerSilent (number : Nat)
  /-- PEER_REMOVED (R36). -/
  | peerRemoved (number : Nat)
  /-- MEND_ASK (R97). -/
  | mendAsk (f : Frame)
  /-- ANSWER_BACKOFF_EXPIRY (R100): the WAITING answer for that chunk. -/
  | answerBackoffExpiry (feed seq : Nat)
  /-- GAP_WAIT_EXPIRY (R93): the position of that feed and sequence number. -/
  | gapWaitExpiry (feed seq : Nat)
  /-- OPEN (R10). -/
  | openFeed (f : Frame)
  /-- CLOSE (R14). -/
  | closeFeed (f : Frame)
  /-- ABORT (R16). -/
  | abortFeed (f : Frame)
  /-- HOLD_LAND (R169). -/
  | holdLand (f : Frame)
  /-- HOLD_BROWSE (R169). -/
  | holdBrowse (f : Frame)
  /-- HOLD_BOTH (R169). -/
  | holdBoth (f : Frame)
  /-- RELEASE_LAND (R169). -/
  | releaseLand (f : Frame)
  /-- RELEASE_BROWSE (R169). -/
  | releaseBrowse (f : Frame)
  /-- RELEASE_BOTH (R169). -/
  | releaseBoth (f : Frame)
  /-- STATION_RESET (R174). -/
  | stationReset (f : Frame)
  /-- STORAGE_ISSUE (R115). -/
  | storageIssue
  /-- WRITE_ANSWER (R122): the oldest whole answer to a WRITE is taken. -/
  | writeAnswer
  /-- CHECK_ANSWER (R124). -/
  | checkAnswer
  /-- MARK_ANSWER (R128). -/
  | markAnswer
  /-- PROBE_ANSWER (R117). -/
  | probeAnswer
  /-- STORAGE_TIMEOUT (R114): the entry of that tag. -/
  | storageTimeout (tag : Fin 16)
  /-- STALE_PERIOD_END (R114). -/
  | stalePeriodEnd (tag : Fin 16)
  /-- PROBE_TIMER_EXPIRY (R117). -/
  | probeTimerExpiry
  /-- LINGER_EXPIRY (R6). -/
  | lingerExpiry (feed : Nat)
  /-- PACING_TIMER_EXPIRY (R138). -/
  | pacingTimerExpiry (feed : Nat)
  /-- LANDING_DELAY_REACHED (R89). -/
  | landingDelayReached (feed : Nat)
  /-- BROWSE_QUEUE_ENTRY (R153). -/
  | browseQueueEntry
  /-- REDUCER_TAKES_JOB (R154). -/
  | reducerTakesJob
  /-- DECODE_COMPLETE (R154): the decoded pictures, or none where the chunk does not decode. -/
  | decodeComplete (pictures : Option (List Picture))
  /-- SHED_AGE_EXPIRY (R159): the job of that feed and sequence number. -/
  | shedAgeExpiry (feed seq : Nat)
  /-- READ_STATUS (R184). -/
  | readStatus
  /-- READ_RECORD (R184); the operand says whether the read of the memory succeeds. -/
  | readRecord (readOk : Bool)
  /-- WRITE_RECORD (R185): the 64 bytes of a record. -/
  | writeRecord (record : List Byte)
  /-- RECORD_WRITE_COMPLETE (R185); the operand says whether the memory completed the write. -/
  | recordWriteComplete (completed : Bool)
  /-- STORAGE_FRAGMENT_RECEIVED (R189). -/
  | storageFragmentReceived (f : Frame)
  /-- MAINTENANCE_ANSWER_SENT (R184). -/
  | maintenanceAnswerSent
  deriving DecidableEq, Repr, Inhabited

end Sys2Proof
end

