-- ==== Sys2Proof/WellFormed.lean ====
section
/-! DEFINITION. Which commands are well-formed: the command's name agrees with the frame it carries,
and its feed, station and record operands are ones the part can have. -/

namespace Sys2Proof

/-- The kind byte of a capture frame (R188, offset 0). -/
def Frame.kindByte (f : Frame) : Option Byte := f.body[0]?

/-- The directive kind byte of a directive frame (R188, offset 3). -/
def Frame.directiveByte (f : Frame) : Option Byte := f.body[3]?

/-- The scope byte of a HOLD or RELEASE (R188, offset 5). -/
def Frame.scopeByte (f : Frame) : Option Byte := f.body[5]?

/-- A capture frame of one kind (R188). -/
def Frame.hasKind (f : Frame) (k : Byte) : Bool :=
  f.ftype == Config.captureType && f.kindByte == some k

/-- A directive frame of one directive kind (R188). -/
def Frame.isDirective (f : Frame) (d : Byte) : Bool :=
  f.hasKind 0x05#8 && f.directiveByte == some d

/-- A HOLD (4) or RELEASE (5) of one scope: 1 LAND, 2 BROWSE, 3 BOTH (R188). -/
def Frame.isHold (f : Frame) (d scope : Byte) : Bool :=
  f.isDirective d && f.scopeByte == some scope

/-- A decoded picture whose three planes have the sizes of 8-bit 4:2:0 (R190, log 8). -/
def Picture.wellFormed (p : Picture) : Bool :=
  p.luma.length == p.width * p.height
    && p.cb.length == (p.width + 1) / 2 * ((p.height + 1) / 2)
    && p.cr.length == (p.width + 1) / 2 * ((p.height + 1) / 2)

/-- The well-formed commands. The receive side sorts a frame by the frame's own bytes (R49), so a
command that is not well-formed still runs as the hardware takes its frame; this predicate holds a
command's NAME to the frame. -/
def Instr.wellFormed : Instr → Bool
  | .unsortedSegmentFrame f => f.ftype == Config.captureType
  | .feedCell f => f.hasKind 0x01#8
  | .mendCell f => f.hasKind 0x02#8
  | .beacon f => f.hasKind 0x03#8
  | .mendAsk f => f.hasKind 0x04#8
  | .openFeed f => f.isDirective 1#8
  | .closeFeed f => f.isDirective 2#8
  | .abortFeed f => f.isDirective 3#8
  | .holdLand f => f.isHold 4#8 1#8
  | .holdBrowse f => f.isHold 4#8 2#8
  | .holdBoth f => f.isHold 4#8 3#8
  | .releaseLand f => f.isHold 5#8 1#8
  | .releaseBrowse f => f.isHold 5#8 2#8
  | .releaseBoth f => f.isHold 5#8 3#8
  | .stationReset f => f.isDirective 6#8
  | .storageFragmentReceived f => f.ftype == Config.storageType
  | .peerSilent n | .peerRemoved n => decide (1 ≤ n ∧ n ≤ 8)
  | .answerBackoffExpiry feed seq | .gapWaitExpiry feed seq | .shedAgeExpiry feed seq =>
      decide (feed < Config.feeds ∧ seq < 2 ^ 32)
  | .lingerExpiry feed | .pacingTimerExpiry feed | .landingDelayReached feed =>
      decide (feed < Config.feeds)
  | .decodeComplete (some ps) => ps.all Picture.wellFormed
  | .decodeComplete none => true
  | .writeRecord r => r.length == 64
  | .powerReset | .loadingComplete _ | .storageQuietTimeEnd | .captureLinkLost
  | .captureLinkReturn | .listeningPeriodEnd | .beaconTimerExpiry | .portTransmit
  | .storageIssue | .writeAnswer | .checkAnswer | .markAnswer | .probeAnswer
  | .storageTimeout _ | .stalePeriodEnd _ | .probeTimerExpiry | .browseQueueEntry
  | .reducerTakesJob | .readStatus | .readRecord _ | .recordWriteComplete _
  | .maintenanceAnswerSent => true

end Sys2Proof
end

