-- ==== Sys2Proof/Decode.lean ====
section
/-! DEFINITION. The command a word of spec/opcode_table.json spells. No row of the table gives bits
(every row's "fields" is empty: a command is an event of the part, not a code), so no word spells one.
The frames a receive command carries are decoded in Machine/Operands.lean. -/

namespace Sys2Proof

/-- No row of the table has an encoding, so no word is a command (log 12). -/
def decodeTableWord (_nbits _w : Nat) : Option Instr := none

end Sys2Proof
end

