-- ==== Sys2Proof/Machine/State.lean ====
section
/-! DEFINITION. The state of the part, block by block (00_scope, section 3), and its value after a
POWER reset. Plain data only; a time is a reading of the model's millisecond clock `now`, and a running
timer is held as the time at which it expires. -/

namespace Sys2Proof.Machine

/-- A sequence number, mark, commit, E or H, or none (00_scope, section 5): none compares as −1. -/
abbrev Mark := Option Nat

/-- One value for each way 0 to 3. -/
structure PerWay (α : Type) where
  w0 : α
  w1 : α
  w2 : α
  w3 : α
  deriving DecidableEq, Repr, Inhabited

/-- The five station states (R180). -/
inductive StationState where
  | loading | setupFault | listening | live | detached
  deriving DecidableEq, Repr, Inhabited

/-- The fault reasons of SETUP FAULT (R177). -/
inductive FaultReason where
  | recordCheck | badStationNumber | badRanges
  deriving DecidableEq, Repr, Inhabited

/-- The two kinds of work a way is held for (R27). -/
inductive WorkKind where
  | landing | browse
  deriving DecidableEq, Repr, Inhabited

/-- The hold kind of a way (R27). -/
inductive HoldKind where
  | unheld | configured | adopted
  deriving DecidableEq, Repr, Inhabited

/-- A participation range (R25): it covers the feeds up to, but not including, its limit. -/
structure Range where
  limit  : Nat
  land   : PerWay Bool
  browse : PerWay Bool
  deriving DecidableEq, Repr, Inhabited

/-- The loaded configuration (R176). -/
structure Settings where
  station       : Nat
  groupAddr     : Mac
  headAddr      : Mac
  ranges        : List Range
  adoptEligible : Bool
  keepContexts  : Bool
  beaconPeriod  : Nat
  gapWait       : Nat
  landingDelay  : Nat
  batch         : Nat
  margin        : Nat
  deriving DecidableEq, Repr, Inhabited

/-- The clamped indication of each setting (R178). -/
structure Clamped where
  beaconPeriod : Bool
  gapWait      : Bool
  landingDelay : Bool
  batch        : Bool
  margin       : Bool
  deriving DecidableEq, Repr, Inhabited

/-- An answer on the maintenance line (R184, R185). -/
inductive MaintAnswer where
  | status (station : StationState) (reason : Option FaultReason) (clamped : Clamped) (writing : Bool)
  | record (bytes : List Byte)
  | busy | failed | badCheck | done
  deriving DecidableEq, Repr, Inhabited

/-- The given open parameters, exactly as received (R2, R188). `wayFn` is the way function code. -/
structure OpenParams where
  fileId      : BitVec 64
  landingBase : Nat
  browseBase  : Nat
  landingSlot : Nat
  slotCount   : Nat
  browseSlot  : Nat
  browseSlots : Nat
  width       : Nat
  height      : Nat
  sourceRate  : Nat
  browseRate  : Nat
  factor      : Nat
  wayFn       : Nat
  depth       : Nat
  cueCount    : Nat
  cues        : List Nat
  deriving DecidableEq, Repr, Inhabited

/-- A frame rate as a fraction (R146). -/
structure Rate where
  num : Nat
  den : Nat
  deriving DecidableEq, Repr, Inhabited

/-- The context states (R2). -/
inductive CtxState where
  | active | closing | final | aborted | faulted
  deriving DecidableEq, Repr, Inhabited

/-- The origin of a context (R2). -/
inductive Origin where
  | directed | learned
  deriving DecidableEq, Repr, Inhabited

/-- The seven latched flags (R22). -/
structure Flags where
  allotLow      : Bool
  landOverrun   : Bool
  browseOverrun : Bool
  poolOverrun   : Bool
  rateClamped   : Bool
  factorRaised  : Bool
  conflict      : Bool
  deriving DecidableEq, Repr, Inhabited

/-- The nine feed counts (R23), each wrapping to 0 after 4,294,967,295. -/
structure FeedCounts where
  landed       : BitVec 32
  lost         : BitVec 32
  truncated    : BitVec 32
  rewrites     : BitVec 32
  ahead        : BitVec 32
  late         : BitVec 32
  browseDone   : BitVec 32
  browseShed   : BitVec 32
  browseFailed : BitVec 32
  deriving DecidableEq, Repr, Inhabited

/-- The eight station counters (R30), in its order. -/
structure StationCounters where
  cellsAccepted   : BitVec 32
  cellsMalformed  : BitVec 32
  cellMismatches  : BitVec 32
  poolOverruns    : BitVec 32
  asksSent        : BitVec 32
  mendCellsSent   : BitVec 32
  storageTimeouts : BitVec 32
  storageRefusals : BitVec 32
  deriving DecidableEq, Repr, Inhabited

/-- The reasons of the last-refusal record (R168). -/
inductive RefusalReason where
  | conflict | noContext | badRate | badSize | badGeometry | slotTooSmall
  deriving DecidableEq, Repr, Inhabited

/-- The directive kinds (R188). -/
inductive DirectiveKind where
  | openFeed | closeFeed | abortFeed | hold | release | stationReset
  deriving DecidableEq, Repr, Inhabited

/-- The last-refusal record (R168). -/
structure LastRefusal where
  feed   : Nat
  kind   : DirectiveKind
  reason : RefusalReason
  deriving DecidableEq, Repr, Inhabited

/-- The landing state of a position (R75). -/
inductive LandState where
  | absent | gathering | ready | landing | checking | landed | lost
  deriving DecidableEq, Repr, Inhabited

/-- The browse state of a position (R75). -/
inductive BrowseState where
  | waiting | queued | done | shed
  deriving DecidableEq, Repr, Inhabited

/-- How far a position's lost procedure has come (R104, R106): not begun, at its trailer CHECK, at its
fill, or begun for a position that wants a browse job alone. -/
inductive LostPhase where
  | idle | trailerCheck | fill | browseOnly
  deriving DecidableEq, Repr, Inhabited

/-- The states of a slot trailer (R190); any other state byte is a trailer never written. -/
inductive TrailerState where
  | present | truncated | lost
  deriving DecidableEq, Repr, Inhabited

/-- A position of an intake window (R75). `pinned`: it holds a pin on its ring entry (R63).
`dueRewrite`: READY and due for a rewrite (R125). `req`: the request (by its number) that its landing
work waits for or is in. `wrote`: the trailer state and landed check word its last landing WRITE
carried (R124). -/
structure Position where
  seq         : Nat
  way         : Way
  wantsLand   : Bool
  wantsBrowse : Bool
  hasRef      : Bool
  pinned      : Bool
  land        : LandState
  browse      : Option BrowseState
  attempts    : Nat
  restarts    : Nat
  rewrites    : Nat
  gapWait     : Option Nat
  readySince  : Option Nat
  dueRewrite  : Bool
  lost        : LostPhase
  req         : Option Nat
  wrote       : Option (TrailerState × CheckWord)
  deriving DecidableEq, Repr, Inhabited

/-- A feed context (R2), with its hold kinds and retained marks (R27), its intake window (R71), its
mark pacing state (R137) and its MARK request (R128). `delayReached`: LANDING_DELAY_REACHED has been
taken for its ready set (R89). `markReq`: its ISSUED MARK; `markAgain`: a MARK fell due while that one
was ISSUED. `storageEnded`: a FINAL or ABORTED context that issues no further request (R5, R7). -/
structure FeedContext where
  feed           : Nat
  state          : CtxState
  origin         : Origin
  params         : OpenParams
  effRate        : Rate
  effFactor      : Nat
  e              : Mark
  h              : Mark
  landKind       : PerWay HoldKind
  browseKind     : PerWay HoldKind
  lv             : PerWay Mark
  bv             : PerWay Mark
  retainedLand   : PerWay Mark
  retainedBrowse : PerWay Mark
  published      : Mark
  landHold       : Bool
  browseHold     : Bool
  flags          : Flags
  counts         : FeedCounts
  linger         : Option Nat
  carried        : Mark
  pacing         : Option Nat
  markWrites     : BitVec 32
  markReq        : Option Nat
  markAgain      : Bool
  storageEnded   : Bool
  windowBuilt    : Bool
  positions      : List Position
  delayReached   : Bool
  deriving DecidableEq, Repr, Inhabited

/-- An adopted triple (R39). -/
structure Triple where
  feed : Nat
  way  : Way
  kind : WorkKind
  deriving DecidableEq, Repr, Inhabited

/-- A beacon feed record (R31): what a peer's beacon carries for one feed. `counts` are the eight
reported counts in the order of R188. -/
structure FeedRecord where
  feed       : Nat
  state      : CtxState
  origin     : Origin
  landHold   : Bool
  browseHold : Bool
  flags      : Flags
  params     : OpenParams
  e          : Mark
  h          : Mark
  published  : Mark
  landKind   : PerWay HoldKind
  browseKind : PerWay HoldKind
  lv         : PerWay Mark
  bv         : PerWay Mark
  counts     : List (BitVec 32)
  deriving DecidableEq, Repr, Inhabited

/-- The states of a Peer Table entry (R33). -/
inductive PeerState where
  | listening | live | silent
  deriving DecidableEq, Repr, Inhabited

/-- A Peer Table entry (R33); `arrived` is when its last beacon arrived. -/
structure PeerEntry where
  number        : Nat
  state         : PeerState
  period        : Nat
  adoptEligible : Bool
  adoptRoom     : Nat
  records       : List FeedRecord
  arrived       : Nat
  deriving DecidableEq, Repr, Inhabited

/-- The first-cell header of a ring entry (R54). -/
structure ChunkHeader where
  cells  : Nat
  length : Nat
  first  : Nat
  frames : Nat
  check  : CheckWord
  last   : Bool
  deriving DecidableEq, Repr, Inhabited

/-- A ring entry (R54). `cells` is the received set with its buffers, in ascending cell index; an
entry's place is its place in the ring's list. -/
structure RingEntry where
  feed  : Nat
  seq   : Nat
  whole : Bool
  hdr   : ChunkHeader
  cells : List (Nat × List Byte)
  pins  : Nat
  deriving DecidableEq, Repr, Inhabited

/-- A queued mend ask (R94); `missing` is empty when the WHOLE flag is set. -/
structure Ask where
  feed    : Nat
  seq     : Nat
  whole   : Bool
  missing : List Nat
  attempt : Nat
  deriving DecidableEq, Repr, Inhabited

/-- A queued mend cell (R100); `answer` is the number of the pending answer it belongs to. -/
structure MendCell where
  answer  : Nat
  feed    : Nat
  seq     : Nat
  index   : Nat
  hdr     : ChunkHeader
  payload : List Byte
  deriving DecidableEq, Repr, Inhabited

/-- A pending answer (R100); `uid` tells two answers for one chunk apart. -/
structure PendingAnswer where
  uid     : Nat
  feed    : Nat
  seq     : Nat
  cells   : List Nat
  sending : Bool
  due     : Nat
  deriving DecidableEq, Repr, Inhabited

/-- The request kinds of the storage port (R111). -/
inductive ReqKind where
  | write | check | mark | probe
  deriving DecidableEq, Repr, Inhabited

/-- The states a mark slot carries (R139). -/
inductive MarkState where
  | live | final | aborted
  deriving DecidableEq, Repr, Inhabited

/-- The purpose of a request (R112). A browse write names its job, a MARK the state its contents
carry. -/
inductive Purpose where
  | landing | rewrite | fill
  | browse (job : Nat)
  | landingCheck | trailerCheck
  | mark (carries : MarkState)
  | probe
  deriving DecidableEq, Repr, Inhabited

/-- An extent of a WRITE (R111). -/
structure Extent where
  addr  : Nat
  bytes : List Byte
  deriving DecidableEq, Repr, Inhabited

/-- A slot named by a CHECK (R111), with the sequence number of its position. -/
structure SlotRef where
  seq   : Nat
  start : Nat
  size  : Nat
  deriving DecidableEq, Repr, Inhabited

/-- The content of an ISSUED or STALE table entry (R112). `seqs` are the positions of a WRITE. -/
structure Request where
  uid       : Nat
  purpose   : Purpose
  feed      : Option Nat
  extents   : List Extent
  slots     : List SlotRef
  seqs      : List Nat
  issueNo   : Nat
  issueTime : Nat
  deriving DecidableEq, Repr, Inhabited

/-- A Storage Request Table entry (R112); a STALE one ends its stale period at `until_`. -/
inductive TableEntry where
  | free
  | issued (r : Request)
  | stale (r : Request) (until_ : Nat)
  deriving DecidableEq, Repr, Inhabited

/-- A CHECK waiting for turn 2 (R115): a landing CHECK, or the trailer CHECK of a lost procedure. -/
structure WaitCheck where
  uid     : Nat
  feed    : Nat
  seqs    : List Nat
  trailer : Bool
  issueNo : Nat
  deriving DecidableEq, Repr, Inhabited

/-- Work waiting for turn 3 (R115): the rewrite batch of a feed, or a fill. -/
inductive WaitRewrite where
  | batch (feed : Nat)
  | fill (feed seq : Nat)
  deriving DecidableEq, Repr, Inhabited

/-- The fragments gathered under one tag (R189): offset and bytes, in order of arrival. -/
structure Gather where
  tag    : Byte
  total  : Nat
  pieces : List (Nat × List Byte)
  deriving DecidableEq, Repr, Inhabited

/-- The kinds of a browse job (R152). -/
inductive JobKind where
  | withChunk | chunkless | shedRecord
  deriving DecidableEq, Repr, Inhabited

/-- The stages of a browse job (R152). -/
inductive JobStage where
  | waiting | queued | decoding | writing | shedding
  deriving DecidableEq, Repr, Inhabited

/-- What a browse job writes (R152): frames with a PRESENT index record, or one record alone. -/
inductive JobContent where
  | present | missing | shed | failed
  deriving DecidableEq, Repr, Inhabited

/-- A frame of a written set (R151): its browse frame number, the source frame it pictures and its
cue flag. -/
structure PlannedFrame where
  number : Nat
  source : Nat
  cue    : Bool
  deriving DecidableEq, Repr, Inhabited

/-- A browse job (R152). `naturalFirst` is K1 (R155); `pictures` are the reduced pictures, one for
each frame of `written`, once decoded; `inFlight` is its ISSUED write. The shed age is `shedAge` plus,
while it runs, the time since `shedSince`. -/
structure Job where
  uid          : Nat
  feed         : Nat
  seq          : Nat
  kind         : JobKind
  chunk        : Option ChunkHeader
  written      : List PlannedFrame
  naturalFirst : Nat
  stage        : JobStage
  content      : JobContent
  retrySpent   : Bool
  shedAge      : Nat
  shedSince    : Option Nat
  pictures     : List (List Byte)
  inFlight     : Option Nat
  deriving DecidableEq, Repr, Inhabited

/-- No command of this block stops the part: the spec gives it no such end, and every command's
meaning answers a next state. The type is closed and empty; SETUP FAULT (R179) is a station state. -/
inductive Fault where
  deriving DecidableEq, Repr

/-- Why a command is refused. -/
inductive Refusal where
  /-- Raised by `exec` for a row that has no meaning yet, under its mnemonic; no arm raises it now.
  Safe: the machine stops. -/
  | notModelled (mnemonic : String)
  deriving DecidableEq, Repr

/-- The state of the station. The fields follow the blocks of 00_scope, section 3. -/
structure State where
  /-- The commands that wait, first in, first out. -/
  pending : List Instr
  /-- The model's clock, ms (log 1). -/
  now : Nat
  /-- The model's next number for a request, answer or job (log 9). -/
  nextUid : Nat
  /-- Free values drawn so far (log 7). -/
  draws : Nat
  -- Configuration Loader (R176 to R185)
  station : StationState
  faultReason : Option FaultReason
  settings : Settings
  clamped : Clamped
  confMem : List Byte
  recordWrite : Option (List Byte)
  maintAnswers : List MaintAnswer
  maintTx : Option MaintAnswer
  listenUntil : Option Nat
  -- Capture port and Beacon Unit (R28, R30, R92)
  linkUp : Bool
  beaconTimer : Option Nat
  beaconWaiting : Bool
  askQueue : List Ask
  mendQueue : List MendCell
  captureTx : Option Frame
  counters : StationCounters
  dupNumber : Bool
  -- Peer Table, Participation Unit (R33, R39)
  peers : List PeerEntry
  adopted : List Triple
  -- Feed Context Table, Directive Unit (R1, R18, R168)
  contexts : List FeedContext
  closedIds : Vector (Option (BitVec 64)) 64
  lastRefusal : Option LastRefusal
  -- Retention Ring (R54)
  ring : List RingEntry
  -- Mend Unit (R100)
  answers : List PendingAnswer
  -- Storage Port, Landing Engine (R112 to R118)
  table : Vector TableEntry 16
  quietUntil : Option Nat
  localHold : Bool
  timeoutRun : Nat
  probeTimer : Option Nat
  probeWaiting : Bool
  waitChecks : List WaitCheck
  waitRewrites : List WaitRewrite
  waitMarks : List Nat
  lastServed : Option Nat
  gathers : List Gather
  arrived : List (List Byte)
  storageTx : List Frame
  -- Browse Engine (R152)
  waitJobs : List Job
  queueJobs : List Job
  shedJobs : List Job
  browseReady : List Nat
  deriving DecidableEq, Repr

/-- No latched flag (R22). -/
def Flags.clear : Flags := ⟨false, false, false, false, false, false, false⟩

/-- All feed counts 0 (R23). -/
def FeedCounts.zero : FeedCounts := ⟨0, 0, 0, 0, 0, 0, 0, 0, 0⟩

/-- All station counters 0 (R30). -/
def StationCounters.zero : StationCounters := ⟨0, 0, 0, 0, 0, 0, 0, 0⟩

/-- No setting clamped (R178). -/
def Clamped.none : Clamped := ⟨false, false, false, false, false⟩

/-- The settings before a record is loaded: nothing named, the defaults of R176 (DESIGN CHOICE, log 2:
no block reads them before loading ends). -/
def Settings.unloaded : Settings :=
  { station := 0, groupAddr := 0, headAddr := 0, ranges := [], adoptEligible := false,
    keepContexts := false, beaconPeriod := 100, gapWait := 40, landingDelay := 10, batch := 4,
    margin := 256 }

/-- The machine right after a POWER reset (R177): LOADING, and every block at its POWER value (R24,
R48, R70, R91, R110, R132, R145, R165, R168). The configuration memory holds 64 zero bytes, the
capture link is up and LOADING shows no fault reason (DESIGN CHOICE, log 2); no answer waits on the
maintenance line (DESIGN CHOICE, log 20). -/
def State.reset : State :=
  { pending := [], now := 0, nextUid := 0, draws := 0,
    station := .loading, faultReason := none, settings := .unloaded, clamped := .none,
    confMem := List.replicate 64 0, recordWrite := none, maintAnswers := [], maintTx := none,
    listenUntil := none,
    linkUp := true, beaconTimer := none, beaconWaiting := false, askQueue := [], mendQueue := [],
    captureTx := none, counters := .zero, dupNumber := false,
    peers := [], adopted := [],
    contexts := [], closedIds := Vector.replicate 64 none, lastRefusal := none,
    ring := [], answers := [],
    table := Vector.replicate 16 .free, quietUntil := none, localHold := false, timeoutRun := 0,
    probeTimer := none, probeWaiting := false, waitChecks := [], waitRewrites := [], waitMarks := [],
    lastServed := none, gathers := [], arrived := [], storageTx := [],
    waitJobs := [], queueJobs := [], shedJobs := [], browseReady := [] }

end Sys2Proof.Machine
end

