-- ==== Sys2Proof/Machine/Flags.lean ====
section
/-! DEFINITION. The named updates of counters, counts and latched flags, and the order of marks. -/

namespace Sys2Proof.Machine

/-! ### Marks: none compares as −1 (00_scope, section 5) -/

/-- A mark's place in the order of marks: none lowest. A sequence number `s` lies above mark `m`
exactly when `Mark.ord m ≤ s`. -/
def Mark.ord : Mark → Nat
  | none => 0
  | some n => n + 1

/-- The mark at a place in the order. -/
def Mark.ofOrd : Nat → Mark
  | 0 => none
  | n + 1 => some n

/-- The higher of two marks. -/
def Mark.higher (a b : Mark) : Mark := if Mark.ord a < Mark.ord b then b else a

/-- The highest of a list of marks, none for an empty list. -/
def Mark.highest (l : List Mark) : Mark := l.foldl Mark.higher none

/-! ### Values per way -/

/-- The value of a way. -/
def PerWay.get {α : Type} (p : PerWay α) (w : Way) : α :=
  match w with
  | 0 => p.w0
  | 1 => p.w1
  | 2 => p.w2
  | 3 => p.w3

/-- `p` with the value of one way replaced. -/
def PerWay.set {α : Type} (p : PerWay α) (w : Way) (x : α) : PerWay α :=
  match w with
  | 0 => { p with w0 := x }
  | 1 => { p with w1 := x }
  | 2 => { p with w2 := x }
  | 3 => { p with w3 := x }

/-- One value for every way. -/
def PerWay.same {α : Type} (x : α) : PerWay α := ⟨x, x, x, x⟩

/-- A value computed for each way. -/
def PerWay.ofFn {α : Type} (f : Way → α) : PerWay α := ⟨f 0, f 1, f 2, f 3⟩

/-- The values of ways 0 to 3 in order. -/
def PerWay.toList {α : Type} (p : PerWay α) : List α := [p.w0, p.w1, p.w2, p.w3]

/-- The ways 0 to 3 in order. -/
def ways : List Way := [0, 1, 2, 3]

/-! ### Station counters (R30): each rises by one and wraps -/

/-- Cells accepted +1. -/
def State.countAccepted (s : State) : State :=
  { s with counters := { s.counters with cellsAccepted := s.counters.cellsAccepted + 1 } }

/-- Cells malformed +1. -/
def State.countMalformed (s : State) : State :=
  { s with counters := { s.counters with cellsMalformed := s.counters.cellsMalformed + 1 } }

/-- Cell mismatches +1. -/
def State.countMismatch (s : State) : State :=
  { s with counters := { s.counters with cellMismatches := s.counters.cellMismatches + 1 } }

/-- Pool overruns +1. -/
def State.countPoolOverrun (s : State) : State :=
  { s with counters := { s.counters with poolOverruns := s.counters.poolOverruns + 1 } }

/-- Mend asks sent +1. -/
def State.countAskSent (s : State) : State :=
  { s with counters := { s.counters with asksSent := s.counters.asksSent + 1 } }

/-- Mend cells sent +1. -/
def State.countMendCellSent (s : State) : State :=
  { s with counters := { s.counters with mendCellsSent := s.counters.mendCellsSent + 1 } }

/-- Storage timeouts +1. -/
def State.countStorageTimeout (s : State) : State :=
  { s with counters := { s.counters with storageTimeouts := s.counters.storageTimeouts + 1 } }

/-- Storage refusals +1. -/
def State.countStorageRefusal (s : State) : State :=
  { s with counters := { s.counters with storageRefusals := s.counters.storageRefusals + 1 } }

/-! ### Feed counts (R23) -/

/-- Chunks landed +1. -/
def FeedContext.countLanded (c : FeedContext) : FeedContext :=
  { c with counts := { c.counts with landed := c.counts.landed + 1 } }

/-- Chunks lost +1. -/
def FeedContext.countLost (c : FeedContext) : FeedContext :=
  { c with counts := { c.counts with lost := c.counts.lost + 1 } }

/-- Truncated chunks +1. -/
def FeedContext.countTruncated (c : FeedContext) : FeedContext :=
  { c with counts := { c.counts with truncated := c.counts.truncated + 1 } }

/-- Rewrites +1. -/
def FeedContext.countRewrite (c : FeedContext) : FeedContext :=
  { c with counts := { c.counts with rewrites := c.counts.rewrites + 1 } }

/-- Chunks ahead of window +1. -/
def FeedContext.countAhead (c : FeedContext) : FeedContext :=
  { c with counts := { c.counts with ahead := c.counts.ahead + 1 } }

/-- Late chunks +1. -/
def FeedContext.countLate (c : FeedContext) : FeedContext :=
  { c with counts := { c.counts with late := c.counts.late + 1 } }

/-- Browse jobs done +1. -/
def FeedContext.countBrowseDone (c : FeedContext) : FeedContext :=
  { c with counts := { c.counts with browseDone := c.counts.browseDone + 1 } }

/-- Browse shed +1. -/
def FeedContext.countBrowseShed (c : FeedContext) : FeedContext :=
  { c with counts := { c.counts with browseShed := c.counts.browseShed + 1 } }

/-- Browse failed +1. -/
def FeedContext.countBrowseFailed (c : FeedContext) : FeedContext :=
  { c with counts := { c.counts with browseFailed := c.counts.browseFailed + 1 } }

/-! ### Latched flags (R22): raised once, cleared with the context -/

/-- LAND OVERRUN latched (R21). -/
def FeedContext.latchLandOverrun (c : FeedContext) : FeedContext :=
  { c with flags := { c.flags with landOverrun := true } }

/-- BROWSE OVERRUN latched (R151). -/
def FeedContext.latchBrowseOverrun (c : FeedContext) : FeedContext :=
  { c with flags := { c.flags with browseOverrun := true } }

/-- POOL OVERRUN latched (R67). -/
def FeedContext.latchPoolOverrun (c : FeedContext) : FeedContext :=
  { c with flags := { c.flags with poolOverrun := true } }

/-- CONFLICT latched (R10, R19). -/
def FeedContext.latchConflict (c : FeedContext) : FeedContext :=
  { c with flags := { c.flags with conflict := true } }

/-- The allotment assessed with warning margin `m` (R20): ALLOT LOW is latched when the remaining
allotment C − (H + 1) − M is 0 or less, H + 1 being 0 when H is none. -/
def FeedContext.assessAllotment (m : Nat) (c : FeedContext) : FeedContext :=
  if c.params.slotCount ≤ Mark.ord c.h + m then
    { c with flags := { c.flags with allotLow := true } }
  else c

end Sys2Proof.Machine
end

