-- ==== Sys2Proof/Machine/Ops.lean ====
section
/-! DEFINITION. The named operations over contexts, positions, ring entries, holds and the clock that
every meaning is built from. -/

namespace Sys2Proof.Machine

/-! ### The station -/

/-- Frames are handed to the blocks in LISTENING and LIVE alone (R50). -/
def State.receives (s : State) : Bool := s.station == .listening || s.station == .live

/-- Positions are created and ring reports taken in LIVE and DETACHED (R71). -/
def State.windowsRun (s : State) : Bool := s.station == .live || s.station == .detached

/-- The part runs its storage work once loading has ended well (R177, R179). -/
def State.operating (s : State) : Bool :=
  s.station == .listening || s.station == .live || s.station == .detached

/-- A running timer has expired: the clock has reached its time. -/
def State.reached (s : State) (timer : Option Nat) : Bool :=
  match timer with
  | none => false
  | some t => decide (t ≤ s.now)

/-- The source address of this station's capture frames, 02-00-00-00-00-0n (R188). -/
def State.sourceMac (s : State) : Mac := 0x020000000000#48 ||| BitVec.ofNat 48 s.settings.station

/-! ### The Feed Context Table -/

/-- The context of a feed, when there is one (R1: at most one). -/
def State.ctx? (s : State) (feed : Nat) : Option FeedContext :=
  s.contexts.find? (fun c => c.feed == feed)

/-- A change of the context of one feed; nothing where the feed has none. -/
def State.mapCtx (s : State) (feed : Nat) (f : FeedContext → FeedContext) : State :=
  { s with contexts := s.contexts.map (fun c => if c.feed == feed then f c else c) }

/-- A context put in its place, in ascending feed number (R1). -/
def insertCtx (c : FeedContext) : List FeedContext → List FeedContext
  | [] => [c]
  | d :: rest => if c.feed < d.feed then c :: d :: rest else d :: insertCtx c rest

/-- A context added to the table. -/
def State.addCtx (s : State) (c : FeedContext) : State :=
  { s with contexts := insertCtx c s.contexts }

/-- The place of a feed's context emptied (R1). -/
def State.removeCtx (s : State) (feed : Nat) : State :=
  { s with contexts := s.contexts.filter (fun c => c.feed != feed) }

/-- The feeds that have a context, in ascending order. -/
def State.feeds (s : State) : List Nat := s.contexts.map (·.feed)

/-- The context works on its feed: ACTIVE or CLOSING (R3). -/
def FeedContext.working (c : FeedContext) : Bool := c.state == .active || c.state == .closing

/-- The range that covers a feed (R25). -/
def rangeOf (ranges : List Range) (feed : Nat) : Option Range :=
  ranges.find? (fun r => decide (feed < r.limit))

/-! ### Ways (R26) -/

/-- The effective way of sequence number `s` under a way function code and a stripe depth (R26):
w = floor(s / d) mod 4, then ONE, TWO-LOW, TWO-HIGH or FOUR. -/
def effectiveWay (wayFn depth s : Nat) : Way :=
  let w := s / depth % 4
  match wayFn with
  | 0 => 0
  | 1 => Fin.ofNat 4 (w % 2)
  | 2 => Fin.ofNat 4 (w - w % 2)
  | _ => Fin.ofNat 4 w

/-- The ways in use under a way function code (R26). -/
def waysInUse (wayFn : Nat) : List Way :=
  match wayFn with
  | 0 => [0]
  | 1 => [0, 1]
  | 2 => [0, 2]
  | _ => [0, 1, 2, 3]

/-- The effective way of a sequence number of a context's feed (R26). -/
def FeedContext.wayOf (c : FeedContext) (s : Nat) : Way :=
  effectiveWay c.params.wayFn c.params.depth s

/-- The ways in use of a context's feed (R26). -/
def FeedContext.waysInUse (c : FeedContext) : List Way := Machine.waysInUse c.params.wayFn

/-- The hold kind of a way and kind (R27). -/
def FeedContext.kindOf (c : FeedContext) (k : WorkKind) (w : Way) : HoldKind :=
  match k with
  | .landing => c.landKind.get w
  | .browse => c.browseKind.get w

/-- The way is held for the kind (R27): its hold kind is not none. -/
def FeedContext.holds (c : FeedContext) (k : WorkKind) (w : Way) : Bool := c.kindOf k w != .unheld

/-- The mark Lv or Bv of a way (R27). -/
def FeedContext.markOf (c : FeedContext) (k : WorkKind) (w : Way) : Mark :=
  match k with
  | .landing => c.lv.get w
  | .browse => c.bv.get w

/-- The retained mark of a way and kind (R27). -/
def FeedContext.retainedOf (c : FeedContext) (k : WorkKind) (w : Way) : Mark :=
  match k with
  | .landing => c.retainedLand.get w
  | .browse => c.retainedBrowse.get w

/-- The hold kind of a way and kind set. -/
def FeedContext.setKind (c : FeedContext) (k : WorkKind) (w : Way) (h : HoldKind) : FeedContext :=
  match k with
  | .landing => { c with landKind := c.landKind.set w h }
  | .browse => { c with browseKind := c.browseKind.set w h }

/-- The mark of a way and kind set. -/
def FeedContext.setMark (c : FeedContext) (k : WorkKind) (w : Way) (m : Mark) : FeedContext :=
  match k with
  | .landing => { c with lv := c.lv.set w m }
  | .browse => { c with bv := c.bv.set w m }

/-- The retained mark of a way and kind set. -/
def FeedContext.setRetained (c : FeedContext) (k : WorkKind) (w : Way) (m : Mark) : FeedContext :=
  match k with
  | .landing => { c with retainedLand := c.retainedLand.set w m }
  | .browse => { c with retainedBrowse := c.retainedBrowse.set w m }

/-- Every way and kind, ways ascending and landing before browse (R43). -/
def waysAndKinds : List (Way × WorkKind) :=
  ways.flatMap (fun w => [(w, .landing), (w, .browse)])

/-- The ways and kinds a context holds. -/
def FeedContext.held (c : FeedContext) : List (Way × WorkKind) :=
  waysAndKinds.filter (fun wk => c.holds wk.2 wk.1)

/-- The marks of the held ways, landing and browse taken together (R73). -/
def FeedContext.heldMarks (c : FeedContext) : List Mark :=
  c.held.map (fun wk => c.markOf wk.2 wk.1)

/-- The highest sequence number the context's marks may take: E when it is known and lies below
C − 1, else C − 1 (R72). -/
def FeedContext.cap (c : FeedContext) : Nat :=
  match c.e with
  | none => c.params.slotCount - 1
  | some e => min e (c.params.slotCount - 1)

/-! ### Positions -/

/-- The position of a sequence number, when there is one (R74: at most one). -/
def FeedContext.pos? (c : FeedContext) (seq : Nat) : Option Position :=
  c.positions.find? (fun p => p.seq == seq)

/-- The position of a feed and sequence number. -/
def State.pos? (s : State) (feed seq : Nat) : Option Position :=
  (s.ctx? feed).bind (fun c => c.pos? seq)

/-- A change of one position of a context. -/
def FeedContext.mapPos (c : FeedContext) (seq : Nat) (f : Position → Position) : FeedContext :=
  { c with positions := c.positions.map (fun p => if p.seq == seq then f p else p) }

/-- A change of one position. -/
def State.mapPos (s : State) (feed seq : Nat) (f : Position → Position) : State :=
  s.mapCtx feed (fun c => c.mapPos seq f)

/-- A position put in its place, in ascending sequence number. -/
def insertPos (p : Position) : List Position → List Position
  | [] => [p]
  | q :: rest => if p.seq < q.seq then p :: q :: rest else q :: insertPos p rest

/-- A landing job is done when the landing state is LANDED or LOST (R84). -/
def Position.landDone (p : Position) : Bool := p.land == .landed || p.land == .lost

/-- A browse job is done when the browse state is DONE or SHED (R84). -/
def Position.browseDone (p : Position) : Bool := p.browse == some .done || p.browse == some .shed

/-- A position is complete when each job it wants is done (R84). -/
def Position.complete (p : Position) : Bool :=
  (!p.wantsLand || p.landDone) && (!p.wantsBrowse || p.browseDone)

/-- The position waits for its chunk: ABSENT or GATHERING. -/
def Position.empty (p : Position) : Bool := p.land == .absent || p.land == .gathering

/-- The position is in the ready set (R88). -/
def Position.inReadySet (p : Position) : Bool := p.wantsLand && p.land == .ready

/-! ### The Retention Ring -/

/-- The entry of a feed and sequence number (R54: at most one). -/
def State.entry? (s : State) (feed seq : Nat) : Option RingEntry :=
  s.ring.find? (fun e => e.feed == feed && e.seq == seq)

/-- A change of one ring entry, in its place. -/
def State.mapEntry (s : State) (feed seq : Nat) (f : RingEntry → RingEntry) : State :=
  { s with ring := s.ring.map (fun e => if e.feed == feed && e.seq == seq then f e else e) }

/-- An entry removed; the entries after it close up (R62). -/
def State.dropEntry (s : State) (feed seq : Nat) : State :=
  { s with ring := s.ring.filter (fun e => !(e.feed == feed && e.seq == seq)) }

/-- The cell buffers in use: one for each retained cell (R61). -/
def State.buffersUsed (s : State) : Nat := (s.ring.map (fun e => e.cells.length)).sum

/-- The payload of an entry: its cells in index order, to the chunk length (R58). -/
def RingEntry.payload (e : RingEntry) : List Byte :=
  (e.cells.flatMap (·.2)).take e.hdr.length

/-- A pin placed on an entry (R63). -/
def State.pin (s : State) (feed seq : Nat) : State :=
  s.mapEntry feed seq (fun e => { e with pins := e.pins + 1 })

/-- A pin released (R63). -/
def State.unpin (s : State) (feed seq : Nat) : State :=
  s.mapEntry feed seq (fun e => { e with pins := e.pins - 1 })

/-- The pin a position holds is released, if it holds one (R63, R84). -/
def State.releasePin (s : State) (feed seq : Nat) : State :=
  match s.pos? feed seq with
  | some p =>
    if p.pinned then (s.mapPos feed seq (fun q => { q with pinned := false })).unpin feed seq else s
  | none => s

/-! ### Holds (R170) -/

/-- The land hold of a context is in force. -/
def State.landHeld (s : State) (c : FeedContext) : Bool := c.landHold || s.localHold

/-- The browse hold of a feed is in force. -/
def State.browseHeld (s : State) (feed : Nat) : Bool :=
  (match s.ctx? feed with
    | some c => c.browseHold
    | none => false) || s.localHold

/-! ### Transmit queue (R92) -/

/-- An ask of this position waits in the queue. -/
def State.askQueued (s : State) (feed seq : Nat) : Bool :=
  s.askQueue.any (fun a => a.feed == feed && a.seq == seq)

/-- The queued ask of a position withdrawn (R95). -/
def State.withdrawAsk (s : State) (feed seq : Nat) : State :=
  { s with askQueue := s.askQueue.filter (fun a => !(a.feed == feed && a.seq == seq)) }

/-! ### The Storage Request Table (R112) -/

/-- The lowest-numbered FREE entry (R112). -/
def State.freeTag (s : State) : Option (Fin 16) :=
  (List.finRange 16).find? (fun t => s.table[t] == .free)

/-- A table entry set. -/
def State.setEntry (s : State) (t : Fin 16) (x : TableEntry) : State :=
  { s with table := s.table.set t x }

/-- The kind of a request of a purpose (R112). -/
def Purpose.kind : Purpose → ReqKind
  | .landing | .rewrite | .fill | .browse _ => .write
  | .landingCheck | .trailerCheck => .check
  | .mark _ => .mark
  | .probe => .probe

/-- A PROBE is ISSUED (R117). -/
def State.probeIssued (s : State) : Bool :=
  s.table.toList.any (fun x => match x with
    | .issued r => r.purpose == .probe
    | _ => false)

/-! ### Waiting landing work -/

/-- A position's waiting CHECKs and fill leave the service order, and a waiting CHECK left with no
position is discarded (R130). -/
def State.withdrawWaiting (s : State) (feed seq : Nat) : State :=
  { s with
    waitChecks := (s.waitChecks.map (fun w =>
        if w.feed == feed then { w with seqs := w.seqs.filter (· != seq) } else w)).filter
          (fun w => !w.seqs.isEmpty)
    waitRewrites := s.waitRewrites.filter (· != .fill feed seq) }

/-- A READY position of the feed is due for a rewrite (R125). -/
def State.hasDueRewrite (s : State) (feed : Nat) : Bool :=
  match s.ctx? feed with
  | some c => c.positions.any (fun p => p.inReadySet && p.dueRewrite)
  | none => false

/-- The rewrite batch of a feed waits in turn 3 exactly while a READY position of the feed is due for
a rewrite (R126). A batch that waits keeps its place. -/
def State.syncRewrite (s : State) (feed : Nat) : State :=
  if s.hasDueRewrite feed then
    if s.waitRewrites.contains (.batch feed) then s
    else { s with waitRewrites := s.waitRewrites ++ [.batch feed] }
  else { s with waitRewrites := s.waitRewrites.filter (· != .batch feed) }

/-- The next number for a request, answer or job is spent. -/
def State.bumpUid (s : State) : State := { s with nextUid := s.nextUid + 1 }

end Sys2Proof.Machine
end

