-- ==== Sys2Proof/Machine/Commit.lean ====
section
/-! DEFINITION. The peer view (R38), the commit (R133 to R136) and when a MARK falls due (R128, R137,
R138), with the command PACING_TIMER_EXPIRY. -/

namespace Sys2Proof.Machine

/-! ### The peer view (R38) -/

/-- An entry in state LIVE or SILENT is in the view. -/
def PeerEntry.inView (p : PeerEntry) : Bool := p.state == .live || p.state == .silent

/-- The peer's stored record for a context's feed, when it carries the same file identity. -/
def PeerEntry.recordFor (p : PeerEntry) (c : FeedContext) : Option FeedRecord :=
  p.records.find? (fun r => r.feed == c.feed && r.params.fileId == c.params.fileId)

/-- The hold kind a record shows. -/
def FeedRecord.kindOf (r : FeedRecord) (k : WorkKind) (w : Way) : HoldKind :=
  match k with
  | .landing => r.landKind.get w
  | .browse => r.browseKind.get w

/-- The record shows the way held. -/
def FeedRecord.holds (r : FeedRecord) (k : WorkKind) (w : Way) : Bool := r.kindOf k w != .unheld

/-- The mark a record reports. -/
def FeedRecord.markOf (r : FeedRecord) (k : WorkKind) (w : Way) : Mark :=
  match k with
  | .landing => r.lv.get w
  | .browse => r.bv.get w

/-- The peers in the view with their records for a context's feed. -/
def State.viewRecords (s : State) (c : FeedContext) : List (PeerEntry × FeedRecord) :=
  (s.peers.filter PeerEntry.inView).filterMap (fun p => (p.recordFor c).map (fun r => (p, r)))

/-- The peers of the view that are holders of a way for a kind. -/
def State.peerHolders (s : State) (c : FeedContext) (k : WorkKind) (w : Way) :
    List (PeerEntry × FeedRecord) :=
  (s.viewRecords c).filter (fun pr => pr.2.holds k w)

/-! ### The computed commit (R133, R134) -/

/-- The places in the order of marks of the landing marks of a way's holders, this station's first. -/
def State.holderOrds (s : State) (c : FeedContext) (w : Way) : List Nat :=
  (if c.holds .landing w then [Mark.ord (c.markOf .landing w)] else [])
    ++ (s.peerHolders c .landing w).map (fun pr => Mark.ord (pr.2.markOf .landing w))

/-- The way high of a way (R133): none where the way has no holder. -/
def State.wayHigh (s : State) (c : FeedContext) (w : Way) : Option Nat := (s.holderOrds c w).max?

/-- The computed commit (R133): none if a way in use has no holder, else the lowest way high, lowered
to E and to C − 1. -/
def State.computedCommit (s : State) (c : FeedContext) : Mark :=
  match c.waysInUse.mapM (s.wayHigh c) with
  | none => none
  | some highs => Mark.ofOrd (min (highs.min?.getD 0) (c.cap + 1))

/-! ### MARKs falling due (R128, R138) -/

/-- A MARK falls due (R128): it waits in turn 4; it is absorbed by one that waits already; while one
is ISSUED it waits until that one is answered. A context whose storage requests have ended (R5, R7) or
that is FAULTED (R143) writes none. -/
def State.markFallsDue (s : State) (feed : Nat) : State :=
  match s.ctx? feed with
  | none => s
  | some c =>
    if c.storageEnded || c.state == .faulted then s
    else if c.markReq.isSome then s.mapCtx feed (fun c => { c with markAgain := true })
    else if s.waitMarks.contains feed then s
    else { s with waitMarks := s.waitMarks ++ [feed] }

/-- The context computes its commit and paces its MARKs: ACTIVE, CLOSING or FINAL (R135, R141). -/
def FeedContext.computes (c : FeedContext) : Bool := c.working || c.state == .final

/-- The pacing condition (R138): a MARK falls due when the published commit is higher than the carried
commit and the pacing timer is stopped. -/
def State.paceTest (s : State) (feed : Nat) : State :=
  match s.ctx? feed with
  | none => s
  | some c =>
    if c.computes && c.pacing.isNone && decide (Mark.ord c.carried < Mark.ord c.published) then
      s.markFallsDue feed
    else s

/-- The commit computed and taken by the published commit if it is higher (R135, R136). -/
def State.recomputeCommit (s : State) (feed : Nat) : State :=
  match s.ctx? feed with
  | none => s
  | some c =>
    let x := s.computedCommit c
    if c.computes && decide (Mark.ord c.published < Mark.ord x) then
      (s.mapCtx feed (fun c => { c with published := x })).paceTest feed
    else s

/-- The commit of every context recomputed (R47 step 5). -/
def State.recomputeCommits (s : State) : State :=
  s.feeds.foldl (fun s f => s.recomputeCommit f) s

/-- The pacing timer of a context expires and stops, and the pacing condition is tested (R137, R138). -/
def State.pacingExpires (s : State) (feed : Nat) : State :=
  match s.ctx? feed with
  | none => s
  | some c =>
    if s.reached c.pacing then
      (s.mapCtx feed (fun c => { c with pacing := none })).paceTest feed
    else s

/-- PACING_TIMER_EXPIRY (R138). -/
def execPacingTimerExpiry (feed : Nat) (s : State) : Host.Outcome State Fault Refusal :=
  .next (s.pacingExpires feed)

end Sys2Proof.Machine
end

