-- ==== Sys2Proof/Machine/Bytes.lean ====
section
/-! DEFINITION. Byte order, fields and the check word (R186, R187). -/

namespace Sys2Proof.Machine

/-- The value of a byte string, most significant byte first (R186). -/
def beNat (bytes : List Byte) : Nat := bytes.foldl (fun acc b => acc * 256 + b.toNat) 0

/-- The `n`-byte field at offset `off`, most significant byte first (R186). -/
def field (bytes : List Byte) (off n : Nat) : Nat := beNat ((bytes.drop off).take n)

/-- The byte at offset `off`; 0 beyond the end (a layout's length is checked before it is read). -/
def byteAt (bytes : List Byte) (off : Nat) : Byte := bytes.getD off 0

/-- The low `8 * n` bits of a value as `n` bytes, most significant first (R186). -/
def beBytes : Nat → Nat → List Byte
  | 0, _ => []
  | n + 1, v => BitVec.ofNat 8 (v / 256 ^ n) :: beBytes n v

/-- Reserved bytes: the station writes 0 (R186). -/
def reserved (n : Nat) : List Byte := List.replicate n 0

/-- A 32-bit field that carries none as 0xFFFFFFFF (R186). -/
def markField (v : Nat) : Mark := if v = 0xFFFFFFFF then none else some v

/-- The encoding of a mark, commit, E or H (R186). -/
def markBytes (m : Mark) : List Byte :=
  match m with
  | none => beBytes 4 0xFFFFFFFF
  | some n => beBytes 4 n

/-- A Bool as a bit of weight `2 ^ i`. -/
def bitAt (b : Bool) (i : Nat) : Nat := if b then 2 ^ i else 0

/-! ### The check word (R187) -/

/-- One bit taken into the CRC register: generator polynomial 0x1EDC6F41. -/
def crcBit (reg : CheckWord) (bit : Bool) : CheckWord :=
  if reg.msb ^^ bit then (reg <<< 1) ^^^ 0x1EDC6F41#32 else reg <<< 1

/-- One byte taken into the register, least significant bit first. -/
def crcByte (reg : CheckWord) (b : Byte) : CheckWord :=
  (List.range 8).foldl (fun r i => crcBit r (b.getLsbD i)) reg

/-- The check word of a byte string (R187): register preset to all ones, the result bit-reversed and
XORed with all ones. -/
def checkWord (bytes : List Byte) : CheckWord :=
  (bytes.foldl crcByte 0xFFFFFFFF#32).reverse ^^^ 0xFFFFFFFF#32

end Sys2Proof.Machine
end

