-- ==== Sys2Proof/Machine/Operands.lean ====
section
/-! DEFINITION. The layouts of everything the part receives and sends (R188 to R191): the frames of
the capture port, the messages of the storage port, the volume's records and the configuration record.
A parser answers none where the frame is too short for what its own fields declare (R186), or where a
field's code lies outside its table and the owner's rule discards the frame for it. -/

namespace Sys2Proof.Machine

/-! ### Cells (R188) -/

/-- A received cell: its header as carried and its payload. -/
structure Cell where
  senderKind   : Nat
  senderNumber : Nat
  feed         : Nat
  seq          : Nat
  index        : Nat
  hdr          : ChunkHeader
  payload      : List Byte
  deriving DecidableEq, Repr, Inhabited

/-- A cell read from a frame's body (R188). None where the frame is shorter than the header, or
carries fewer payload bytes than its payload length field declares; bytes past the payload are
padding (R186). -/
def parseCell (b : List Byte) : Option Cell :=
  if b.length < 32 then none
  else
    let n := field b 24 2
    if b.length < 32 + n then none
    else some
      { senderKind := field b 1 1, senderNumber := field b 2 1, feed := field b 3 1,
        seq := field b 4 4, index := field b 8 1,
        hdr := { cells := field b 9 1, length := field b 12 4, first := field b 16 4,
                 frames := field b 11 1, check := BitVec.ofNat 32 (field b 20 4),
                 last := (byteAt b 10).getLsbD 0 },
        payload := (b.drop 32).take n }

/-- The frame body of a cell of one kind code (R188). -/
def encodeCell (kind : Byte) (c : Cell) : List Byte :=
  [kind, BitVec.ofNat 8 c.senderKind, BitVec.ofNat 8 c.senderNumber, BitVec.ofNat 8 c.feed]
    ++ beBytes 4 c.seq
    ++ [BitVec.ofNat 8 c.index, BitVec.ofNat 8 c.hdr.cells, BitVec.ofNat 8 (bitAt c.hdr.last 0),
        BitVec.ofNat 8 c.hdr.frames]
    ++ beBytes 4 c.hdr.length ++ beBytes 4 c.hdr.first ++ beBytes 4 c.hdr.check.toNat
    ++ beBytes 2 c.payload.length ++ reserved 6 ++ c.payload

/-! ### Mend asks (R188) -/

/-- A received mend ask. -/
structure ReceivedAsk where
  asker   : Nat
  feed    : Nat
  seq     : Nat
  attempt : Nat
  whole   : Bool
  missing : List Nat
  deriving DecidableEq, Repr, Inhabited

/-- The missing-cell set of an ask: cell index i is bit (i mod 8) of byte 16 + floor(i / 8). -/
def missingSet (b : List Byte) : List Nat :=
  (List.range 128).filter (fun i => (byteAt b (16 + i / 8)).getLsbD (i % 8))

/-- A mend ask read from a frame's body; the set is ignored when WHOLE is set (R188). Its sender kind is not
checked, for R97 lists no check of it (DESIGN CHOICE, log 34). -/
def parseAsk (b : List Byte) : Option ReceivedAsk :=
  if b.length < 32 then none
  else
    let whole := (byteAt b 9).getLsbD 0
    some { asker := field b 2 1, feed := field b 3 1, seq := field b 4 4, attempt := field b 8 1,
           whole := whole, missing := if whole then [] else missingSet b }

/-- The byte `j` of the missing-cell field of a set of cell indexes. -/
def missingByte (missing : List Nat) (j : Nat) : Byte :=
  BitVec.ofNat 8 (((List.range 8).map (fun i => bitAt (missing.contains (8 * j + i)) i)).sum)

/-- The missing-cell field of an ask. With the WHOLE flag it is not stated (log 6). -/
def missingField (a : Ask) : List Byte :=
  (List.range 16).map (fun j => if a.whole then Config.unusedMissing j else missingByte a.missing j)

/-- The frame body of an ask of station `n` (R94, R188). -/
def encodeAsk (n : Nat) (a : Ask) : List Byte :=
  [0x04#8, 1#8, BitVec.ofNat 8 n, BitVec.ofNat 8 a.feed] ++ beBytes 4 a.seq
    ++ [BitVec.ofNat 8 a.attempt, BitVec.ofNat 8 (bitAt a.whole 0)] ++ reserved 6 ++ missingField a

/-! ### The open parameter block (R188) -/

/-- The open parameter block, 84 bytes. Cue numbers beyond the cue count are reserved. -/
def parseParams (b : List Byte) : OpenParams :=
  let n := field b 49 1
  { fileId := BitVec.ofNat 64 (field b 0 8), landingBase := field b 8 8, browseBase := field b 16 8,
    landingSlot := field b 24 4, slotCount := field b 28 4, browseSlot := field b 32 4,
    browseSlots := field b 36 4, width := field b 40 2, height := field b 42 2,
    sourceRate := field b 44 1, browseRate := field b 45 1, factor := field b 46 1,
    wayFn := field b 47 1, depth := field b 48 1, cueCount := n,
    cues := (List.range (min n 8)).map (fun i => field b (52 + 4 * i) 4) }

/-- The open parameter block of a context, as given (R31). -/
def encodeParams (p : OpenParams) : List Byte :=
  beBytes 8 p.fileId.toNat ++ beBytes 8 p.landingBase ++ beBytes 8 p.browseBase
    ++ beBytes 4 p.landingSlot ++ beBytes 4 p.slotCount ++ beBytes 4 p.browseSlot
    ++ beBytes 4 p.browseSlots ++ beBytes 2 p.width ++ beBytes 2 p.height
    ++ [BitVec.ofNat 8 p.sourceRate, BitVec.ofNat 8 p.browseRate, BitVec.ofNat 8 p.factor,
        BitVec.ofNat 8 p.wayFn, BitVec.ofNat 8 p.depth, BitVec.ofNat 8 p.cueCount]
    ++ reserved 2 ++ (p.cues.take 8).flatMap (beBytes 4) ++ reserved (4 * (8 - p.cues.length))

/-! ### Beacons (R188) -/

/-- A beacon as a peer reads it: the fields an entry holds (R33). -/
structure PeerBeacon where
  number        : Nat
  live          : Bool
  period        : Nat
  adoptEligible : Bool
  adoptRoom     : Nat
  records       : List FeedRecord
  deriving DecidableEq, Repr, Inhabited

/-- Context state codes (R188). -/
def ctxStateOf : Nat → Option CtxState
  | 0 => some .active
  | 1 => some .closing
  | 2 => some .final
  | 3 => some .aborted
  | 4 => some .faulted
  | _ => none

/-- The code of a context state (R188). -/
def CtxState.code : CtxState → Byte
  | .active => 0
  | .closing => 1
  | .final => 2
  | .aborted => 3
  | .faulted => 4

/-- Origin codes (R188). -/
def originOf : Nat → Option Origin
  | 0 => some .directed
  | 1 => some .learned
  | _ => none

/-- The code of an origin (R188). -/
def Origin.code : Origin → Byte
  | .directed => 0
  | .learned => 1

/-- Hold kind codes (R188). -/
def holdKindOf : Nat → Option HoldKind
  | 0 => some .unheld
  | 1 => some .configured
  | 2 => some .adopted
  | _ => none

/-- The code of a hold kind (R188). -/
def HoldKind.code : HoldKind → Byte
  | .unheld => 0
  | .configured => 1
  | .adopted => 2

/-- Four hold kinds, one byte each (R188). -/
def parseKinds (b : List Byte) (off : Nat) : Option (PerWay HoldKind) := do
  let k0 ← holdKindOf (field b off 1)
  let k1 ← holdKindOf (field b (off + 1) 1)
  let k2 ← holdKindOf (field b (off + 2) 1)
  let k3 ← holdKindOf (field b (off + 3) 1)
  pure ⟨k0, k1, k2, k3⟩

/-- Four marks, four bytes each (R188). -/
def parseMarks (b : List Byte) (off : Nat) : PerWay Mark :=
  ⟨markField (field b off 4), markField (field b (off + 4) 4), markField (field b (off + 8) 4),
    markField (field b (off + 12) 4)⟩

/-- The latched flags of a feed record, bits 0 to 6 of the two-byte field's value, so of its second byte
(R188, log 33). -/
def parseFlags (v : BitVec 16) : Flags :=
  { allotLow := v.getLsbD 0, landOverrun := v.getLsbD 1, browseOverrun := v.getLsbD 2,
    poolOverrun := v.getLsbD 3, rateClamped := v.getLsbD 4, factorRaised := v.getLsbD 5,
    conflict := v.getLsbD 6 }

/-- The bits of the latched flags, numbered in the value of the two-byte field (R188, log 33). -/
def Flags.bits (f : Flags) : Nat :=
  bitAt f.allotLow 0 + bitAt f.landOverrun 1 + bitAt f.browseOverrun 2 + bitAt f.poolOverrun 3
    + bitAt f.rateClamped 4 + bitAt f.factorRaised 5 + bitAt f.conflict 6

/-- A feed record of 176 bytes; none where its context state, origin or a hold kind lies outside its
table (R186). -/
def parseFeedRecord (b : List Byte) : Option FeedRecord := do
  let st ← ctxStateOf (field b 1 1)
  let org ← originOf (field b 2 1)
  let lk ← parseKinds b 104
  let bk ← parseKinds b 108
  pure
    { feed := field b 0 1, state := st, origin := org,
      landHold := (byteAt b 3).getLsbD 0, browseHold := (byteAt b 3).getLsbD 1,
      flags := parseFlags (BitVec.ofNat 16 (field b 4 2)),
      params := parseParams ((b.drop 8).take 84),
      e := markField (field b 92 4), h := markField (field b 96 4),
      published := markField (field b 100 4), landKind := lk, browseKind := bk,
      lv := parseMarks b 112, bv := parseMarks b 128,
      counts := (List.range 8).map (fun i => BitVec.ofNat 32 (field b (144 + 4 * i) 4)) }

/-- A feed record in its layout (R31, R188). -/
def encodeFeedRecord (r : FeedRecord) : List Byte :=
  [BitVec.ofNat 8 r.feed, r.state.code, r.origin.code,
    BitVec.ofNat 8 (bitAt r.landHold 0 + bitAt r.browseHold 1)]
    ++ beBytes 2 r.flags.bits ++ reserved 2 ++ encodeParams r.params
    ++ markBytes r.e ++ markBytes r.h ++ markBytes r.published
    ++ r.landKind.toList.map HoldKind.code ++ r.browseKind.toList.map HoldKind.code
    ++ r.lv.toList.flatMap markBytes ++ r.bv.toList.flatMap markBytes
    ++ r.counts.flatMap (fun c => beBytes 4 c.toNat)

/-- The feed records name feeds in strictly ascending order (R32). -/
def ascendingFeeds : List FeedRecord → Bool
  | r :: q :: rest => decide (r.feed < q.feed) && ascendingFeeds (q :: rest)
  | _ => true

/-- `n` feed records, 176 bytes each. -/
def parseRecords : Nat → List Byte → Option (List FeedRecord)
  | 0, _ => some []
  | n + 1, b => do
    let r ← parseFeedRecord (b.take 176)
    let rest ← parseRecords n (b.drop 176)
    pure (r :: rest)

/-- A beacon read from a frame's body, with every check of R32 and R186: none where it is discarded
whole. Its sender kind is not checked, for R32 and R186 list no check of it (DESIGN CHOICE, log 34). -/
def parseBeacon (b : List Byte) : Option PeerBeacon :=
  if b.length < 48 then none
  else
    let number := field b 2 1
    let state := field b 3 1
    let period := field b 4 2
    let n := field b 44 1
    if number < 1 ∨ 8 < number then none
    else if 1 < state then none
    else if period < 20 ∨ 1000 < period then none
    else if 32 < n then none
    else if b.length < 48 + 176 * n then none
    else match parseRecords n (b.drop 48) with
      | none => none
      | some records =>
        if records.any (fun r => decide (Config.feeds ≤ r.feed)) then none
        else if !ascendingFeeds records then none
        else some
          { number := number, live := state == 1, period := period,
            adoptEligible := (byteAt b 6).getLsbD 0, adoptRoom := field b 7 1,
            records := records }

/-! ### Directives (R166, R188) -/

/-- A well-formed directive. -/
inductive Directive where
  | openFeed (feed : Nat) (params : OpenParams)
  | closeFeed (feed : Nat) (endSeq : Mark)
  | abortFeed (feed : Nat)
  | hold (feed : Nat) (land browse : Bool)
  | release (feed : Nat) (land browse : Bool)
  | stationReset (station : Nat)
  deriving DecidableEq, Repr, Inhabited

/-- The holds a scope names: LAND, BROWSE or BOTH (R166, R188). -/
def scopeOf : Nat → Option (Bool × Bool)
  | 1 => some (true, false)
  | 2 => some (false, true)
  | 3 => some (true, true)
  | _ => none

/-- A directive read from a frame's body, with the checks of form of R166: none where it is
discarded. -/
def parseDirective (b : List Byte) : Option Directive :=
  if b.length < 100 then none
  else if field b 1 1 ≠ 2 then none
  else
    let kind := field b 3 1
    let feed := field b 4 1
    if kind = 6 then
      if feed < 1 ∨ 8 < feed then none else some (.stationReset feed)
    else if Config.feeds ≤ feed then none
    else match kind with
      | 1 => some (.openFeed feed (parseParams ((b.drop 16).take 84)))
      | 2 => some (.closeFeed feed (markField (field b 8 4)))
      | 3 => some (.abortFeed feed)
      | 4 => (scopeOf (field b 5 1)).map (fun lb => .hold feed lb.1 lb.2)
      | 5 => (scopeOf (field b 5 1)).map (fun lb => .release feed lb.1 lb.2)
      | _ => none

/-! ### Volume records (R190) -/

/-- A slot trailer as stored; `state` is none for a trailer never written (R190). -/
structure Trailer where
  seq    : Nat
  state  : Option TrailerState
  stored : Nat
  check  : CheckWord
  writer : Nat
  first  : Nat
  frames : Nat
  deriving DecidableEq, Repr, Inhabited

/-- Trailer state codes (R190). -/
def trailerStateOf : Nat → Option TrailerState
  | 1 => some .present
  | 2 => some .truncated
  | 3 => some .lost
  | _ => none

/-- The code of a trailer state (R190). -/
def TrailerState.code : TrailerState → Byte
  | .present => 1
  | .truncated => 2
  | .lost => 3

/-- A trailer read from its 64 bytes (R190). -/
def parseTrailer (b : List Byte) : Trailer :=
  { seq := field b 0 4, state := trailerStateOf (field b 4 1), writer := field b 5 1,
    frames := field b 6 1, stored := field b 8 4, check := BitVec.ofNat 32 (field b 12 4),
    first := field b 16 4 }

/-- The 64 bytes of a trailer (R190). -/
def encodeTrailer (seq : Nat) (st : TrailerState) (writer frames stored : Nat) (check : CheckWord)
    (first : Nat) : List Byte :=
  beBytes 4 seq ++ [st.code, BitVec.ofNat 8 writer, BitVec.ofNat 8 frames, 0#8] ++ beBytes 4 stored
    ++ beBytes 4 check.toNat ++ beBytes 4 first ++ reserved 44

/-- The code of a mark slot's state (R190). -/
def MarkState.code : MarkState → Byte
  | .live => 1
  | .final => 2
  | .aborted => 3

/-- The 64 bytes of a mark slot (R139, R190). -/
def encodeMarkSlot (station : Nat) (st : MarkState) (published : Mark) (fileId : BitVec 64) (e : Mark)
    (lost truncated writes : BitVec 32) : List Byte :=
  [BitVec.ofNat 8 station, st.code] ++ reserved 2 ++ markBytes published ++ beBytes 8 fileId.toNat
    ++ markBytes e ++ beBytes 4 lost.toNat ++ beBytes 4 truncated.toNat ++ beBytes 4 writes.toNat
    ++ reserved 32

/-- The code of an index record's state (R190). -/
def JobContent.code : JobContent → Byte
  | .present => 1
  | .missing => 2
  | .shed => 3
  | .failed => 4

/-- The 64 bytes of a browse index record (R155, R190). -/
def encodeIndexRecord (seq : Nat) (st : JobContent) (cue : Bool) (frames first firstWritten count : Nat)
    (check : CheckWord) : List Byte :=
  beBytes 4 seq ++ [st.code, BitVec.ofNat 8 (bitAt cue 0), BitVec.ofNat 8 frames, 0#8]
    ++ beBytes 4 first ++ beBytes 4 firstWritten ++ beBytes 2 count ++ reserved 2
    ++ beBytes 4 check.toNat ++ reserved 40

/-- A browse frame record: its 32-byte header and the picture (R155, R190). -/
def encodeFrameRecord (f : PlannedFrame) (width height : Nat) (picture : List Byte) : List Byte :=
  beBytes 4 f.number ++ beBytes 4 f.source ++ beBytes 2 width ++ beBytes 2 height
    ++ [BitVec.ofNat 8 (bitAt f.cue 0)] ++ reserved 19 ++ picture

/-! ### Storage messages (R189) -/

/-- The code of a request kind (R189). -/
def ReqKind.code : ReqKind → Byte
  | .write => 1
  | .check => 2
  | .mark => 3
  | .probe => 4

/-- Request kind codes (R189). -/
def reqKindOf : Nat → Option ReqKind
  | 1 => some .write
  | 2 => some .check
  | 3 => some .mark
  | 4 => some .probe
  | _ => none

/-- The outcome of a storage answer (R111). -/
inductive AnswerOutcome where
  | done | full | denied | range
  deriving DecidableEq, Repr, Inhabited

/-- The outcome and reason codes of an answer (R189): none where either lies outside its table; the
reason is read when the outcome is REFUSED alone. -/
def outcomeOf (outcome reason : Nat) : Option AnswerOutcome :=
  match outcome, reason with
  | 0, _ => some .done
  | 1, 1 => some .full
  | 1, 2 => some .denied
  | 1, 3 => some .range
  | _, _ => none

/-- A storage answer: what R113 reads of its message. -/
structure StorageAnswer where
  kind    : ReqKind
  tag     : Fin 16
  outcome : AnswerOutcome
  entries : List (Trailer × CheckWord)
  deriving DecidableEq, Repr, Inhabited

/-- The 72-byte entries of a DONE to a CHECK: the stored trailer and the head's check word (R189). -/
def parseCheckEntries (n : Nat) (b : List Byte) : List (Trailer × CheckWord) :=
  (List.range n).map (fun i =>
    let e := (b.drop (72 * i)).take 72
    (parseTrailer (e.take 64), BitVec.ofNat 32 (field e 64 4)))

/-- A storage answer read from its whole message. None where R113 ignores it for its own bytes: a
message shorter than what it declares (R186), a kind, outcome or reason outside its table, or a tag
above 15. -/
def parseAnswer (b : List Byte) : Option StorageAnswer :=
  if b.length < 8 then none
  else match reqKindOf (field b 0 1), outcomeOf (field b 2 1) (field b 3 1) with
    | some kind, some outcome =>
      if h : field b 1 1 < 16 then
        let n := if kind = .check ∧ outcome = .done then field b 4 2 else 0
        if b.length < 8 + 72 * n then none
        else some { kind := kind, tag := ⟨field b 1 1, h⟩, outcome := outcome,
                    entries := parseCheckEntries n (b.drop 8) }
      else none
    | _, _ => none

/-- The item count of a request (R189). A MARK or PROBE has no items: its count is not stated
(log 6). -/
def Request.itemCount (r : Request) : Nat :=
  match r.purpose.kind with
  | .write => r.extents.length
  | .check => r.slots.length
  | .mark | .probe => Config.unusedItemCount.toNat

/-- The body of a request (R189). -/
def Request.body (r : Request) : List Byte :=
  match r.purpose.kind with
  | .write =>
    r.extents.flatMap (fun x => beBytes 8 x.addr ++ beBytes 4 x.bytes.length ++ reserved 4)
      ++ r.extents.flatMap (·.bytes)
  | .check => r.slots.flatMap (fun x => beBytes 8 x.start ++ beBytes 4 x.size ++ reserved 4)
  | .mark => r.extents.flatMap (fun x => beBytes 8 x.addr ++ x.bytes)
  | .probe => []

/-- The message of a request in table entry `tag` (R189). -/
def Request.message (r : Request) (tag : Fin 16) : List Byte :=
  [r.purpose.kind.code, BitVec.ofNat 8 tag.val, 0#8, Config.requestReason]
    ++ beBytes 2 r.itemCount ++ reserved 2 ++ r.body

/-- The frame bodies of a message of tag `tag`: consecutive fragments of `size` message bytes, each
after its 12-byte fragment header (R189). `fuel` bounds the number of fragments. -/
def fragments (tag : Fin 16) (size total : Nat) : Nat → Nat → List Byte → List (List Byte)
  | 0, _, _ => []
  | fuel + 1, off, bytes =>
    if bytes.isEmpty then []
    else ([BitVec.ofNat 8 tag.val] ++ reserved 3 ++ beBytes 4 off ++ beBytes 4 total
            ++ bytes.take size)
      :: fragments tag size total fuel (off + size) (bytes.drop size)

/-- The frames a request is sent in (R176, R189). -/
def State.requestFrames (s : State) (tag : Fin 16) (r : Request) : List Frame :=
  let m := r.message tag
  (fragments tag Config.fragmentBytes m.length m.length 0 m).map (fun b =>
    { dest := s.settings.headAddr, src := Config.storageSource, ftype := Config.storageType,
      body := b })

/-! ### The configuration record (R191) -/

/-- A way set: the low four bits of its byte; the bits above are ignored (R186, R191). -/
def waySet (b : Byte) : PerWay Bool := ⟨b.getLsbD 0, b.getLsbD 1, b.getLsbD 2, b.getLsbD 3⟩

/-- The participation ranges of a record: as many as the range count says (R191). -/
def recordRanges (b : List Byte) : List Range :=
  (List.range (field b 1 1)).map (fun i =>
    { limit := field b (28 + 4 * i) 1, land := waySet (byteAt b (29 + 4 * i)),
      browse := waySet (byteAt b (30 + 4 * i)) })

/-- The record check word agrees with the one computed over bytes 0 to 59 (R191). -/
def recordCheckOk (b : List Byte) : Bool :=
  b.length == 64 && checkWord (b.take 60) == BitVec.ofNat 32 (field b 60 4)

/-- `v` brought to the nearer bound of a range (R178). -/
def clampTo (lo hi v : Nat) : Nat := if v < lo then lo else if hi < v then hi else v

/-- A setting as loaded: its default where its present bit is clear, else its field clamped (R176,
R178). -/
def loadedSetting (b : List Byte) (bit off size lo hi dflt : Nat) : Nat :=
  if (byteAt b 3).getLsbD bit then clampTo lo hi (field b off size) else dflt

/-- The clamped indication of a setting (R178). -/
def clampedSetting (b : List Byte) (bit off size lo hi : Nat) : Bool :=
  (byteAt b 3).getLsbD bit && (clampTo lo hi (field b off size) != field b off size)

/-- The settings a record loads (R176, R178, R191). -/
def loadSettings (b : List Byte) : Settings :=
  { station := field b 0 1, groupAddr := BitVec.ofNat 48 (field b 4 6),
    headAddr := BitVec.ofNat 48 (field b 10 6), ranges := recordRanges b,
    adoptEligible := (byteAt b 2).getLsbD 0, keepContexts := (byteAt b 2).getLsbD 1,
    beaconPeriod := loadedSetting b 0 16 2 20 1000 100,
    gapWait := loadedSetting b 1 18 2 5 1000 40,
    landingDelay := loadedSetting b 2 20 2 1 200 10,
    batch := loadedSetting b 3 22 1 1 8 4,
    margin := loadedSetting b 4 24 2 0 65535 256 }

/-- The clamped indications of a load (R178). -/
def loadClamped (b : List Byte) : Clamped :=
  { beaconPeriod := clampedSetting b 0 16 2 20 1000, gapWait := clampedSetting b 1 18 2 5 1000,
    landingDelay := clampedSetting b 2 20 2 1 200, batch := clampedSetting b 3 22 1 1 8,
    margin := clampedSetting b 4 24 2 0 65535 }

/-- The limits lie in 1 to 64 and strictly rise (R177). -/
def rangesOk : Nat → List Range → Bool
  | _, [] => true
  | low, r :: rest => decide (low < r.limit ∧ r.limit ≤ 64) && rangesOk r.limit rest

/-- What loading finds wrong with a record, in the order of R177. -/
def recordFault (b : List Byte) : Option FaultReason :=
  if !recordCheckOk b then some .recordCheck
  else if field b 0 1 < 1 ∨ 8 < field b 0 1 then some .badStationNumber
  else if 6 < field b 1 1 then some .badRanges
  else if !rangesOk 0 (recordRanges b) then some .badRanges
  else none

end Sys2Proof.Machine
end

