-- ==== Sys2Proof/Machine/Browse.lean ====
section
/-! DEFINITION. The browse arithmetic (R146 to R151), the browse file's addresses (R148), the reducer
(R154), and the jobs of the Browse Engine (R152, R153, R159 to R162) with the commands
BROWSE_QUEUE_ENTRY, REDUCER_TAKES_JOB, DECODE_COMPLETE and SHED_AGE_EXPIRY. -/

namespace Sys2Proof.Machine

/-! ### Rates and picture sizes -/

/-- The frame rate of a rate code (R146). -/
def rateOf : Nat → Option Rate
  | 1 => some ⟨5, 1⟩
  | 2 => some ⟨10, 1⟩
  | 3 => some ⟨25, 2⟩
  | 4 => some ⟨15000, 1001⟩
  | 5 => some ⟨15, 1⟩
  | 6 => some ⟨24000, 1001⟩
  | 7 => some ⟨24, 1⟩
  | 8 => some ⟨25, 1⟩
  | 9 => some ⟨30000, 1001⟩
  | 10 => some ⟨30, 1⟩
  | 11 => some ⟨50, 1⟩
  | 12 => some ⟨60000, 1001⟩
  | 13 => some ⟨60, 1⟩
  | _ => none

/-- The rate of a code that has passed its check (R11). -/
def rateAt (code : Nat) : Rate := (rateOf code).getD ⟨1, 1⟩

/-- The browse rate is higher than the source rate, by cross-multiplication (R146). -/
def OpenParams.rateExceeds (p : OpenParams) : Bool :=
  decide ((rateAt p.sourceRate).num * (rateAt p.browseRate).den
    < (rateAt p.browseRate).num * (rateAt p.sourceRate).den)

/-- The effective browse rate (R12, R146). -/
def OpenParams.effRate (p : OpenParams) : Rate :=
  if p.rateExceeds then rateAt p.sourceRate else rateAt p.browseRate

/-- floor and ceil of a quotient (00_scope, section 5). -/
def ceilDiv (a b : Nat) : Nat := (a + b - 1) / b

/-- A browse dimension: ceil(source / factor), raised by one if it is odd (R147). -/
def browseDim (source factor : Nat) : Nat :=
  let x := ceilDiv source factor
  x + x % 2

/-- The size of a browse frame record at a factor (R147). -/
def OpenParams.recordSize (p : OpenParams) (factor : Nat) : Nat :=
  32 + browseDim p.width factor * browseDim p.height factor * 3 / 2

/-- The record fits the browse slot at a factor (R147). -/
def OpenParams.fitsAt (p : OpenParams) (factor : Nat) : Bool :=
  decide (p.recordSize factor ≤ p.browseSlot)

/-- The effective decimation factor (R12, R147): the given D if the record fits, else the next of 4
and 8 above D at which it fits. -/
def OpenParams.effFactor (p : OpenParams) : Nat :=
  if p.fitsAt p.factor then p.factor
  else if p.factor < 4 ∧ p.fitsAt 4 then 4
  else 8

/-! ### The browse file (R148) -/

/-- The size of the index area: C × 64 rounded up to a multiple of 4,096. -/
def OpenParams.indexArea (p : OpenParams) : Nat := ceilDiv (p.slotCount * 64) 4096 * 4096

/-- The address of the index record of a sequence number. -/
def OpenParams.indexAddr (p : OpenParams) (seq : Nat) : Nat := p.browseBase + seq * 64

/-- The address of browse frame `k`. -/
def OpenParams.frameAddr (p : OpenParams) (k : Nat) : Nat :=
  p.browseBase + p.indexArea + k * p.browseSlot

/-! ### Which browse frames a chunk writes (R149 to R151) -/

/-- Nb × Ds of the effective rates. -/
def FeedContext.rateUp (c : FeedContext) : Nat :=
  c.effRate.num * (rateAt c.params.sourceRate).den

/-- Db × Ns of the effective rates. -/
def FeedContext.rateDown (c : FeedContext) : Nat :=
  c.effRate.den * (rateAt c.params.sourceRate).num

/-- The source frame n_k that browse frame `k` pictures (R149). -/
def FeedContext.pictured (c : FeedContext) (k : Nat) : Nat := k * c.rateDown / c.rateUp

/-- ceil(x × Nb × Ds / (Db × Ns)): K1 at x = a, and K2 + 1 at x = a + m (R149). -/
def FeedContext.naturalFrom (c : FeedContext) (x : Nat) : Nat := ceilDiv (x * c.rateUp) c.rateDown

/-- The cue frame of a cued source frame (R150). -/
def FeedContext.cueFrame (c : FeedContext) (x : Nat) : Nat := x * c.rateUp / c.rateDown

/-- The governing cue of a browse frame: the smallest cue whose cue frame it is (R150). -/
def FeedContext.governing (c : FeedContext) (k : Nat) : Option Nat :=
  (c.params.cues.filter (fun x => c.cueFrame x == k)).min?

/-- What a chunk does with browse frame `k` (R149, R150): it owns a cue frame whose governing cue it
contains, with that picture; omits one whose governing cue it does not contain; and owns the other
frames of its natural range. -/
def FeedContext.planFrame (c : FeedContext) (h : ChunkHeader) (k : Nat) : Option PlannedFrame :=
  match c.governing k with
  | some x =>
    if h.first ≤ x ∧ x < h.first + h.frames then some ⟨k, x, true⟩ else none
  | none =>
    if c.naturalFrom h.first ≤ k ∧ k < c.naturalFrom (h.first + h.frames) then
      some ⟨k, c.pictured k, false⟩
    else none

/-- The owned set of a chunk, in ascending frame number: frames K1 − 1 to K2 (R151). -/
def FeedContext.ownedSet (c : FeedContext) (h : ChunkHeader) : List PlannedFrame :=
  let k1 := c.naturalFrom h.first
  (List.range' (k1 - 1) (c.naturalFrom (h.first + h.frames) - (k1 - 1))).filterMap (c.planFrame h)

/-- The written set: the owned set below the browse slot count (R151). -/
def FeedContext.writtenSet (c : FeedContext) (h : ChunkHeader) : List PlannedFrame :=
  (c.ownedSet h).filter (fun f => decide (f.number < c.params.browseSlots))

/-- A frame of the owned set lies at or above the browse slot count (R151). -/
def FeedContext.overruns (c : FeedContext) (h : ChunkHeader) : Bool :=
  (c.ownedSet h).any (fun f => decide (c.params.browseSlots ≤ f.number))

/-! ### The reducer (R154) -/

/-- A sample of a plane; beyond the right and bottom edges the last column and row are repeated. -/
def sampleAt (w h : Nat) (plane : List Byte) (x y : Nat) : Nat :=
  (plane.getD (min y (h - 1) * w + min x (w - 1)) 0).toNat

/-- The mean of the `f × f` source samples an output sample covers, halves rounded up. -/
def meanSample (f w h : Nat) (plane : List Byte) (x y : Nat) : Byte :=
  let sum := ((List.range f).map (fun j =>
    ((List.range f).map (fun i => sampleAt w h plane (x * f + i) (y * f + j))).sum)).sum
  BitVec.ofNat 8 ((2 * sum + f * f) / (2 * (f * f)))

/-- A plane reduced by a factor to `ow × oh` samples, row by row. -/
def reducePlane (f w h ow oh : Nat) (plane : List Byte) : List Byte :=
  (List.range oh).flatMap (fun y => (List.range ow).map (fun x => meanSample f w h plane x y))

/-- The browse picture of a decoded picture: luma, then blue difference, then red difference (R154,
R190). The source's chroma planes are half its size, rounded up (log 8). -/
def reducePicture (f : Nat) (p : Picture) : List Byte :=
  let ow := browseDim p.width f
  let oh := browseDim p.height f
  let cw := (p.width + 1) / 2
  let ch := (p.height + 1) / 2
  reducePlane f p.width p.height ow oh p.luma ++ reducePlane f cw ch (ow / 2) (oh / 2) p.cb
    ++ reducePlane f cw ch (ow / 2) (oh / 2) p.cr

/-- A decoding succeeds when it gives m pictures of the source width and height (R154). -/
def FeedContext.decodes (c : FeedContext) (h : ChunkHeader) (ps : List Picture) : Bool :=
  ps.length == h.frames
    && ps.all (fun p => p.width == c.params.width && p.height == c.params.height)

/-- The reduced pictures of a written set: the picture of source frame f is the decoded picture at
place f − a (R154). -/
def FeedContext.reduced (c : FeedContext) (h : ChunkHeader) (w : List PlannedFrame)
    (ps : List Picture) : List (List Byte) :=
  w.map (fun f => reducePicture c.effFactor (ps.getD (f.source - h.first) default))

/-! ### Jobs (R152) -/

/-- The job of a position. -/
def Job.isFor (j : Job) (feed seq : Nat) : Bool := j.feed == feed && j.seq == seq

/-- The shed age of a job now (R159). -/
def Job.ageAt (j : Job) (now : Nat) : Nat :=
  j.shedAge + (match j.shedSince with
    | none => 0
    | some t => now - t)

/-- The shed age runs for a WITH CHUNK job in WAITING or QUEUED, its feed not browse-held (R159). -/
def Job.ageRuns (j : Job) (held : Bool) : Bool :=
  j.kind == .withChunk && (j.stage == .waiting || j.stage == .queued) && !held

/-- The shed age set running, or stood still where it stands (R159). -/
def Job.syncAge (now : Nat) (held : Bool) (j : Job) : Job :=
  if j.ageRuns held then
    match j.shedSince with
    | none => { j with shedSince := some now }
    | some _ => j
  else { j with shedAge := j.ageAt now, shedSince := none }

/-- Every shed age brought to what the browse holds now say (R159, R161). -/
def State.syncShedAges (s : State) : State :=
  { s with
    waitJobs := s.waitJobs.map (fun j => j.syncAge s.now (s.browseHeld j.feed))
    queueJobs := s.queueJobs.map (fun j => j.syncAge s.now (s.browseHeld j.feed)) }

/-- A WITH CHUNK job: the written set computed, the shed age at 0, the retry not spent (R153). -/
def FeedContext.chunkJob (c : FeedContext) (uid seq : Nat) (h : ChunkHeader) : Job :=
  { uid := uid, feed := c.feed, seq := seq, kind := .withChunk, chunk := some h,
    written := c.writtenSet h, naturalFirst := c.naturalFrom h.first, stage := .waiting,
    content := .present, retrySpent := false, shedAge := 0, shedSince := none, pictures := [],
    inFlight := none }

/-- A CHUNKLESS job, whose content is a MISSING index record (R160). -/
def FeedContext.chunklessJob (c : FeedContext) (uid seq : Nat) : Job :=
  { uid := uid, feed := c.feed, seq := seq, kind := .chunkless, chunk := none, written := [],
    naturalFirst := 0, stage := .waiting, content := .missing, retrySpent := false, shedAge := 0,
    shedSince := none, pictures := [], inFlight := none }

/-- BROWSE OVERRUN is latched when the written set is computed and a frame is removed (R151). -/
def State.latchOverrun (s : State) (feed : Nat) (h : ChunkHeader) : State :=
  s.mapCtx feed (fun c => if c.overruns h then c.latchBrowseOverrun else c)

/-- A browse job handed over WITH CHUNK (R153): it joins the end of the waiting list. A CHUNKLESS job
of the position that still waits there becomes WITH CHUNK in its place (R160); one already taken into
the queue keeps its MISSING content (R108). -/
def State.handOverChunk (s : State) (feed seq : Nat) (h : ChunkHeader) : State :=
  match s.ctx? feed with
  | none => s
  | some c =>
    let held := s.browseHeld feed
    if s.queueJobs.any (·.isFor feed seq) || s.shedJobs.any (·.isFor feed seq) then s
    else if s.waitJobs.any (·.isFor feed seq) then
      ({ s with waitJobs := s.waitJobs.map (fun j =>
          if j.isFor feed seq then (c.chunkJob j.uid seq h).syncAge s.now held else j) }
        : State).latchOverrun feed h
    else
      (({ s with waitJobs := s.waitJobs ++ [(c.chunkJob s.nextUid seq h).syncAge s.now held] }
        : State).bumpUid).latchOverrun feed h

/-- The engine keeps a job of the position already. -/
def State.hasJob (s : State) (feed seq : Nat) : Bool :=
  s.waitJobs.any (·.isFor feed seq) || s.queueJobs.any (·.isFor feed seq)
    || s.shedJobs.any (·.isFor feed seq)

/-- A browse job handed over CHUNKLESS (R108, R153). A position has at most one job in the engine
(R152), so one that is there already stays. -/
def State.handOverChunkless (s : State) (feed seq : Nat) : State :=
  match s.ctx? feed with
  | none => s
  | some c =>
    if s.hasJob feed seq then s
    else ({ s with waitJobs := s.waitJobs ++ [c.chunklessJob s.nextUid seq] } : State).bumpUid

/-- The browse job of a position withdrawn (R162): it leaves the waiting list, queue or shed list in
any stage, with its write if that is not issued; a decoding of it is abandoned. -/
def State.withdrawJob (s : State) (feed seq : Nat) : State :=
  let gone := ((s.waitJobs ++ s.queueJobs ++ s.shedJobs).filter (·.isFor feed seq)).map (·.uid)
  { s with
    waitJobs := s.waitJobs.filter (fun j => !j.isFor feed seq)
    queueJobs := s.queueJobs.filter (fun j => !j.isFor feed seq)
    shedJobs := s.shedJobs.filter (fun j => !j.isFor feed seq)
    browseReady := s.browseReady.filter (fun u => !gone.contains u) }

/-- Every browse job of a feed leaves the engine, with its write if that is not issued (R6, R7, R162). -/
def State.withdrawJobs (s : State) (feed : Nat) : State :=
  let gone := ((s.waitJobs ++ s.queueJobs ++ s.shedJobs).filter (·.feed == feed)).map (·.uid)
  { s with
    waitJobs := s.waitJobs.filter (fun j => j.feed != feed)
    queueJobs := s.queueJobs.filter (fun j => j.feed != feed)
    shedJobs := s.shedJobs.filter (fun j => j.feed != feed)
    browseReady := s.browseReady.filter (fun u => !gone.contains u) }

/-- A job leaves its queue or list (R156). -/
def State.removeJob (s : State) (uid : Nat) : State :=
  { s with
    waitJobs := s.waitJobs.filter (fun j => j.uid != uid)
    queueJobs := s.queueJobs.filter (fun j => j.uid != uid)
    shedJobs := s.shedJobs.filter (fun j => j.uid != uid)
    browseReady := s.browseReady.filter (· != uid) }

/-- A change of one job in the browse queue or the shed list. -/
def State.mapJob (s : State) (uid : Nat) (f : Job → Job) : State :=
  { s with
    queueJobs := s.queueJobs.map (fun j => if j.uid == uid then f j else j)
    shedJobs := s.shedJobs.map (fun j => if j.uid == uid then f j else j) }

/-- The job of a number in the browse queue or the shed list. -/
def State.job? (s : State) (uid : Nat) : Option Job :=
  (s.queueJobs ++ s.shedJobs).find? (fun j => j.uid == uid)

/-- A job's write becomes ready for turn 6 (R156). -/
def State.readyWrite (s : State) (uid : Nat) : State :=
  { s with browseReady := s.browseReady ++ [uid] }

/-! ### Entry into the queue (R153) -/

/-- The oldest job of the waiting list whose feed is not browse-held (R153). -/
def State.movableJob (s : State) : Option Job :=
  s.waitJobs.find? (fun j => !s.browseHeld j.feed)

/-- The oldest movable job enters the browse queue when a place is free; its position's browse state
becomes QUEUED. A CHUNKLESS job goes at once to WRITING (R160). -/
def State.enterQueue (s : State) : State :=
  if s.queueJobs.length < Config.browseQueue then
    match s.movableJob with
    | none => s
    | some j =>
      let s1 := { s with waitJobs := s.waitJobs.filter (fun k => k.uid != j.uid) }
      let s2 := s1.mapPos j.feed j.seq (fun p => { p with browse := some .queued })
      if j.kind == .chunkless then
        ({ s2 with queueJobs := s2.queueJobs ++ [{ j with stage := .writing }] }
          : State).readyWrite j.uid
      else { s2 with queueJobs := s2.queueJobs ++ [{ j with stage := .queued }] }
  else s

/-- Held CHUNKLESS jobs in QUEUED go to WRITING when their feed's hold lifts (R160). -/
def State.wakeChunkless (s : State) : State :=
  let wake := fun (j : Job) =>
    j.kind == .chunkless && j.stage == .queued && !s.browseHeld j.feed
  { s with
    queueJobs := s.queueJobs.map (fun j => if wake j then { j with stage := .writing } else j)
    browseReady := s.browseReady ++ (s.queueJobs.filter wake).map (·.uid) }

/-! ### The reducer's commands -/

/-- The reducer is decoding a job of the queue (R152). -/
def State.decoding? (s : State) : Option Job := s.queueJobs.find? (fun j => j.stage == .decoding)

/-- The job the idle reducer takes: the oldest WITH CHUNK job in QUEUED whose feed is not browse-held
(R154). -/
def State.reducible? (s : State) : Option Job :=
  s.queueJobs.find? (fun j => j.kind == .withChunk && j.stage == .queued && !s.browseHeld j.feed)

/-- The idle reducer takes a job: DECODING, its shed age stopped (R154). -/
def State.reducerTakes (s : State) : State :=
  match s.decoding?, s.reducible? with
  | none, some j =>
    s.mapJob j.uid (fun k => { k with stage := .decoding, shedAge := k.ageAt s.now,
                                      shedSince := none })
  | _, _ => s

/-- A decode failure (R157): the first spends the retry and is decoded again at once; after it the
job's content becomes the FAILED index record alone. -/
def State.decodeFailed (s : State) (j : Job) : State :=
  if j.retrySpent then
    (s.mapJob j.uid (fun k => { k with stage := .writing, content := .failed })).readyWrite j.uid
  else s.mapJob j.uid (fun k => { k with retrySpent := true })

/-- Decoding ends (R154): with the pictures, the job's stage becomes WRITING with frames and a PRESENT
record; a chunk that does not decode into m pictures of the source size is a decode failure. -/
def State.decodeEnds (s : State) (pictures : Option (List Picture)) : State :=
  match s.decoding? with
  | none => s
  | some j =>
    match s.ctx? j.feed, j.chunk, pictures with
    | some c, some h, some ps =>
      if c.decodes h ps then
        (s.mapJob j.uid (fun k => { k with stage := .writing, content := .present,
                                           pictures := c.reduced h k.written ps })).readyWrite j.uid
      else s.decodeFailed j
    | _, _, _ => s.decodeFailed j

/-- The job of a position that may be shed: WITH CHUNK, in WAITING or QUEUED, its age at 1,000 ms
(R159). -/
def State.sheddable? (s : State) (feed seq : Nat) : Option Job :=
  (s.waitJobs ++ s.queueJobs).find? (fun j =>
    j.isFor feed seq && j.kind == .withChunk && (j.stage == .waiting || j.stage == .queued)
      && decide (Config.shedWait ≤ j.ageAt s.now))

/-- A job is shed (R159): it joins the end of the shed list as a SHED RECORD job, its record ready for
turn 6. -/
def State.shed (s : State) (feed seq : Nat) : State :=
  match s.sheddable? feed seq with
  | none => s
  | some j =>
    let s1 := s.removeJob j.uid
    let j1 := { j with
      kind := .shedRecord, stage := .shedding, content := .shed, retrySpent := false
      shedAge := j.ageAt s.now, shedSince := none }
    ({ s1 with shedJobs := s1.shedJobs ++ [j1] } : State).readyWrite j.uid

/-! ### What a job writes (R155) -/

/-- The index record of a job (R155). -/
def Job.indexRecord (j : Job) : List Byte :=
  match j.chunk, j.content with
  | some h, .present =>
    encodeIndexRecord j.seq .present (j.written.any (·.cue)) h.frames h.first
      ((j.written.head?.map (·.number)).getD j.naturalFirst) j.written.length h.check
  | some h, k => encodeIndexRecord j.seq k false h.frames h.first j.naturalFirst 0 h.check
  | none, k => encodeIndexRecord j.seq k false 0 0 0 0 0

/-- The extents of a job's write: its frames in ascending frame number, then its index record (R155). -/
def FeedContext.jobExtents (c : FeedContext) (j : Job) : List Extent :=
  let w := browseDim c.params.width c.effFactor
  let h := browseDim c.params.height c.effFactor
  (if j.content == .present then
      (j.written.zip j.pictures).map (fun fp =>
        { addr := c.params.frameAddr fp.1.number, bytes := encodeFrameRecord fp.1 w h fp.2 })
    else [])
    ++ [{ addr := c.params.indexAddr j.seq, bytes := j.indexRecord }]

/-! ### The commands -/

/-- BROWSE_QUEUE_ENTRY (R153). -/
def execBrowseQueueEntry (s : State) : Host.Outcome State Fault Refusal := .next s.enterQueue

/-- REDUCER_TAKES_JOB (R154). -/
def execReducerTakesJob (s : State) : Host.Outcome State Fault Refusal := .next s.reducerTakes

/-- DECODE_COMPLETE (R154, R157). -/
def execDecodeComplete (pictures : Option (List Picture)) (s : State) :
    Host.Outcome State Fault Refusal := .next (s.decodeEnds pictures)

/-- SHED_AGE_EXPIRY (R159). -/
def execShedAgeExpiry (feed seq : Nat) (s : State) : Host.Outcome State Fault Refusal :=
  .next (s.shed feed seq)

end Sys2Proof.Machine
end

