-- ==== Sys2Proof/Machine/Window.lean ====
section
/-! DEFINITION. The intake window: its base and span (R73), its positions (R74), taking chunks from the
ring (R78 to R81), the start of a gap wait (R83), completion and removal (R84 to R87), the landing-due
condition (R89) and the command LANDING_DELAY_REACHED. -/

namespace Sys2Proof.Machine

/-! ### Base, span and the jobs wanted -/

/-- The window base (R73): one more than the lowest held mark, none counted as −1; a window that holds
no way has none. -/
def FeedContext.base (c : FeedContext) : Option Nat := (c.heldMarks.map Mark.ord).min?

/-- The sequence number lies in the span, below C and not above E (R74). -/
def FeedContext.inSpan (c : FeedContext) (seq : Nat) : Bool :=
  match c.base with
  | none => false
  | some b =>
    decide (b ≤ seq ∧ seq < b + Config.span ∧ seq < c.params.slotCount)
      && (match c.e with
        | none => true
        | some e => decide (seq ≤ e))

/-- A job of the kind is wanted for a sequence number (R74): its way is held for the kind and it lies
above the way's mark. -/
def FeedContext.wants (c : FeedContext) (k : WorkKind) (seq : Nat) : Bool :=
  c.holds k (c.wayOf seq) && decide (Mark.ord (c.markOf k (c.wayOf seq)) ≤ seq)

/-- A position exists for the sequence number (R74). -/
def FeedContext.callsFor (c : FeedContext) (seq : Nat) : Bool :=
  c.inSpan seq && (c.wants .landing seq || c.wants .browse seq)

/-- A position is kept while it lies in the span and a job it wants is not yet passed by its mark
(R85, R86). -/
def FeedContext.keeps (c : FeedContext) (p : Position) : Bool :=
  c.inSpan p.seq && ((p.wantsLand && c.wants .landing p.seq)
    || (p.wantsBrowse && c.wants .browse p.seq))

/-! ### Marks (R72) -/

/-- The job of a kind is done at a sequence number: a position whose landing state is LANDED or LOST,
or whose browse state is DONE or SHED; no position counts as not done. -/
def FeedContext.doneAt (c : FeedContext) (k : WorkKind) (seq : Nat) : Bool :=
  match c.pos? seq, k with
  | none, _ => false
  | some p, .landing => p.landDone
  | some p, .browse => p.browseDone

/-- The lowest sequence number of a way from `start` on (a way recurs within 32, R26). -/
def FeedContext.nextOfWay (c : FeedContext) (w : Way) (start : Nat) : Option Nat :=
  (List.range' start 33).find? (fun s => c.wayOf s == w)

/-- The lowest sequence number of a way above a mark whose job is not done (R72). Every position lies
within the span, so the search ends within 640 of the mark. -/
def FeedContext.firstUndone (c : FeedContext) (k : WorkKind) (w : Way) (m : Mark) : Nat :=
  ((List.range' (Mark.ord m) 640).find? (fun s => c.wayOf s == w && !c.doneAt k s)).getD
    (Mark.ord m + 640)

/-- The mark of a held way as R72 computes it: one below the lowest sequence number not done, lowered
to E and to C − 1. It stays none while the first sequence number of its way is not done (log 13). -/
def FeedContext.computedMark (c : FeedContext) (k : WorkKind) (w : Way) : Mark :=
  let m := c.markOf k w
  let s := c.firstUndone k w m
  if c.cap < s then some c.cap
  else if m = none ∧ c.nextOfWay w 0 = some s then none
  else Mark.ofOrd s

/-- Every held mark recomputed (R72). -/
def FeedContext.recomputeMarks (c : FeedContext) : FeedContext :=
  { c with
    lv := PerWay.ofFn (fun w =>
      if c.holds .landing w then c.computedMark .landing w else c.lv.get w)
    bv := PerWay.ofFn (fun w =>
      if c.holds .browse w then c.computedMark .browse w else c.bv.get w) }

/-- The mark of a held way with no sequence number left between it and E stands at E (R72, log 13). -/
def FeedContext.endMark (c : FeedContext) (k : WorkKind) (w : Way) : Mark :=
  let m := c.markOf k w
  if c.e.isSome && c.holds k w && (match c.nextOfWay w (Mark.ord m) with
      | none => true
      | some s => decide (c.cap < s)) then
    Mark.higher m (some c.cap)
  else m

/-- Every held mark brought to E where nothing is left below E (R72). -/
def FeedContext.reachEnd (c : FeedContext) : FeedContext :=
  if c.working then
    { c with lv := PerWay.ofFn (c.endMark .landing), bv := PerWay.ofFn (c.endMark .browse) }
  else c

/-! ### The start of a gap wait (R83) -/

/-- The gap wait condition: H above the position, or the context CLOSING with E at or above it. -/
def FeedContext.isBehind (c : FeedContext) (seq : Nat) : Bool :=
  decide (seq + 1 < Mark.ord c.h)
    || (c.state == .closing && (match c.e with
      | none => false
      | some e => decide (seq ≤ e)))

/-- The gap wait started on a position where the condition holds and the timer is stopped. A complete
position does no further work (R84, log 14). -/
def FeedContext.startWait (c : FeedContext) (due : Nat) (p : Position) : Position :=
  if p.gapWait.isNone && p.empty && !p.complete && c.isBehind p.seq then { p with gapWait := some due } else p

/-- The gap wait condition tested on every position of a context, in LIVE and DETACHED: when H rises, when
E is first set or lowered, and at the move to LIVE (R83). -/
def State.gapTest (s : State) (feed : Nat) : State :=
  if s.windowsRun then
    s.mapCtx feed (fun c =>
      { c with positions := c.positions.map (c.startWait (s.now + s.settings.gapWait)) })
  else s

/-- The gap wait condition tested on one position, in LIVE and DETACHED: when it is created, when it
returns to ABSENT, and when it gains a landing job by a lookup (R83, R87). -/
def State.gapTestAt (s : State) (feed seq : Nat) : State :=
  if s.windowsRun then
    s.mapCtx feed (fun c => c.mapPos seq (c.startWait (s.now + s.settings.gapWait)))
  else s

/-! ### Taking chunks from the ring -/

/-- A position takes its WHOLE entry (R78, R80): READY, its reference set, the entry pinned, its gap
wait and any ask, trailer CHECK or fill of it withdrawn, its ready age started if it wants a landing
job or was in the lost procedure (R80 row 9), and a browse job that is WAITING handed over. -/
def State.takeChunk (s : State) (feed seq : Nat) (h : ChunkHeader) : State :=
  match s.pos? feed seq with
  | none => s
  | some p =>
    let s1 := (s.mapPos feed seq (fun p =>
      { p with land := .ready, hasRef := true, pinned := true, gapWait := none,
               readySince := if p.wantsLand || p.lost != .idle then some s.now else none,
               lost := .idle, req := none })).pin feed seq
    let s2 := (s1.withdrawAsk feed seq).withdrawWaiting feed seq
    if p.browse == some .waiting then s2.handOverChunk feed seq h else s2

/-- A position looks up the ring (R78): ABSENT, GATHERING, or READY with the entry taken. -/
def State.lookup (s : State) (feed seq : Nat) : State :=
  match s.entry? feed seq with
  | none => s.mapPos feed seq (fun p => { p with land := .absent, hasRef := false })
  | some e =>
    if e.whole then s.takeChunk feed seq e.hdr
    else s.mapPos feed seq (fun p => { p with land := .gathering, hasRef := true })

/-- A position as it is created (R75). -/
def FeedContext.newPosition (c : FeedContext) (seq : Nat) : Position :=
  { seq := seq, way := c.wayOf seq, wantsLand := c.wants .landing seq,
    wantsBrowse := c.wants .browse seq, hasRef := false, pinned := false, land := .absent,
    browse := if c.wants .browse seq then some .waiting else none,
    attempts := 0, restarts := 0, rewrites := 0, gapWait := none, readySince := none,
    dueRewrite := false, lost := .idle, req := none, wrote := none }

/-- The position of a sequence number is created and looks up the ring, unless it exists, and the gap wait
condition is tested on it (R78). -/
def State.createPos (s : State) (feed seq : Nat) : State :=
  match s.ctx? feed with
  | none => s
  | some c =>
    if c.callsFor seq && (c.pos? seq).isNone then
      ((s.mapCtx feed (fun c =>
        { c with positions := insertPos (c.newPosition seq) c.positions })).lookup feed seq).gapTestAt
        feed seq
    else s

/-- The positions the span calls for are created, in LIVE and DETACHED (R71, R74). -/
def State.fillSpan (s : State) (feed : Nat) : State :=
  match s.ctx? feed with
  | none => s
  | some c =>
    if s.windowsRun && c.working && c.windowBuilt then
      match c.base with
      | none => s
      | some b =>
        ((List.range' b Config.span).filter c.callsFor).foldl (fun s q => s.createPos feed q) s
    else s

/-! ### Removal and completion -/

/-- A position removed with its work withdrawn (R85, R86): its pin released, its gap wait and lost
procedure stopped, its ask, its browse job and its waiting CHECK, batch and fill withdrawn. Requests
in flight for it find no position when they are answered. -/
def State.dropPos (s : State) (feed seq : Nat) : State :=
  let s1 := (((s.releasePin feed seq).withdrawAsk feed seq).withdrawJob feed seq).withdrawWaiting
    feed seq
  (s1.mapCtx feed (fun c => { c with positions := c.positions.filter (·.seq != seq) })).syncRewrite
    feed

/-- A list of positions removed. -/
def State.dropPositions (s : State) (feed : Nat) (seqs : List Nat) : State :=
  seqs.foldl (fun s q => s.dropPos feed q) s

/-- Every position of a context removed, with every browse job of its feed, and its window dropped (R6,
R7, R71). -/
def State.dropWindow (s : State) (feed : Nat) : State :=
  match s.ctx? feed with
  | none => s
  | some c =>
    ((s.dropPositions feed (c.positions.map (·.seq))).withdrawJobs feed).mapCtx feed (fun c =>
      { c with windowBuilt := false, delayReached := false })

/-- The positions that the marks or the span no longer allow are removed (R73). -/
def State.trim (s : State) (feed : Nat) : State :=
  match s.ctx? feed with
  | none => s
  | some c =>
    s.dropPositions feed ((c.positions.filter (fun p => !c.keeps p)).map (·.seq))

/-- The recomputation of the window (R73): removal, then creation. -/
def State.refreshWindow (s : State) (feed : Nat) : State := (s.trim feed).fillSpan feed

/-- A position that is complete releases its pin, its ready age stops, and it does no further work: no
gap wait runs on it and no ask of it is queued (R84, log 14). -/
def State.completePos (s : State) (feed seq : Nat) : State :=
  match s.pos? feed seq with
  | none => s
  | some p =>
    if p.complete then
      ((s.releasePin feed seq).mapPos feed seq (fun p =>
        { p with readySince := none, gapWait := none })).withdrawAsk feed seq
    else s

/-! ### Jobs gained and withdrawn (R44, R87) -/

/-- An existing position gains a landing job (R87): from READY where it holds a pin, else by a lookup,
after which the gap wait condition is tested. -/
def State.gainLanding (s : State) (feed seq : Nat) (p : Position) : State :=
  if p.pinned then
    s.mapPos feed seq (fun p => { p with wantsLand := true, land := .ready,
                                         readySince := some s.now, lost := .idle, req := none })
  else
    ((s.mapPos feed seq (fun p => { p with wantsLand := true, lost := .idle, req := none })).lookup
      feed seq).gapTestAt feed seq

/-- An existing position gains a browse job (R87): handed over at once where it holds a pin; WAITING
where its chunk is still awaited; and where it is LANDED or LOST without a pin, the ring is looked up
and the job handed over with the chunk or without. -/
def State.gainBrowse (s : State) (feed seq : Nat) (p : Position) : State :=
  let s1 := s.mapPos feed seq (fun p => { p with wantsBrowse := true, browse := some .waiting })
  match s.entry? feed seq with
  | some e =>
    if p.pinned then s1.handOverChunk feed seq e.hdr
    else if p.landDone then
      if e.whole then
        ((s1.mapPos feed seq (fun p => { p with pinned := true, hasRef := true })).pin
          feed seq).handOverChunk feed seq e.hdr
      else s1.handOverChunkless feed seq
    else s1
  | none => if p.landDone then s1.handOverChunkless feed seq else s1

/-- A position of a way gains the job of a kind if it lies above the way's mark for it (R87). -/
def State.gainJob (s : State) (feed : Nat) (k : WorkKind) (seq : Nat) : State :=
  match s.ctx? feed with
  | none => s
  | some c =>
    match c.pos? seq with
    | none => s
    | some p =>
      if c.wants k seq then
        match k with
        | .landing => if p.wantsLand then s else s.gainLanding feed seq p
        | .browse => if p.wantsBrowse then s else s.gainBrowse feed seq p
      else s

/-- A position loses its landing job (R44). One whose landing was under way stays with its chunk as a
READY one; a lost procedure goes on for the browse job alone (log 14). -/
def State.loseLanding (s : State) (feed seq : Nat) (p : Position) : State :=
  let inProcedure := p.lost == .trailerCheck || p.lost == .fill
  let s1 := (s.withdrawWaiting feed seq).mapPos feed seq (fun p =>
    { p with
      wantsLand := false, readySince := none, dueRewrite := false, req := none
      lost := if inProcedure then .browseOnly else p.lost
      land := if !inProcedure && (p.land == .landing || p.land == .checking) then .ready
              else p.land })
  let s2 := s1.syncRewrite feed
  if inProcedure && p.browse == some .waiting then s2.handOverChunkless feed seq else s2

/-- A position loses its browse job (R44, R162). -/
def State.loseBrowse (s : State) (feed seq : Nat) : State :=
  (s.withdrawJob feed seq).mapPos feed seq (fun p => { p with wantsBrowse := false, browse := none })

/-- A position of a released way loses its job of the kind: it is removed where no job is left, and may
be complete with the other (R44). -/
def State.loseJob (s : State) (feed : Nat) (k : WorkKind) (seq : Nat) : State :=
  match s.pos? feed seq with
  | none => s
  | some p =>
    match k with
    | .landing =>
      if !p.wantsLand then s
      else if !p.wantsBrowse then s.dropPos feed seq
      else (s.loseLanding feed seq p).completePos feed seq
    | .browse =>
      if !p.wantsBrowse then s
      else if !p.wantsLand then s.dropPos feed seq
      else (s.loseBrowse feed seq).completePos feed seq

/-! ### Ring reports (R79 to R81) -/

/-- The report that a PARTIAL entry was created (R79). -/
def State.reportCreated (s : State) (feed seq : Nat) : State :=
  if s.windowsRun then
    match s.pos? feed seq with
    | none => s
    | some p =>
      if p.land == .absent then
        s.mapPos feed seq (fun p => { p with land := .gathering, hasRef := true })
      else s
  else s

/-- The window's part of the report that an entry was removed (R81): a GATHERING position becomes
ABSENT, and the gap wait condition is tested on it. -/
def State.reportRemoved (s : State) (feed seq : Nat) : State :=
  if s.windowsRun then
    match s.pos? feed seq with
    | none => s
    | some p =>
      if p.land == .gathering && p.hasRef then
        (s.mapPos feed seq (fun p => { p with land := .absent, hasRef := false })).gapTestAt feed seq
      else s
  else s

/-- The report that an entry has become WHOLE, by the rows of R80 in their order. -/
def State.reportWhole (s : State) (feed seq : Nat) (h : ChunkHeader) : State :=
  match s.ctx? feed with
  | none => s
  | some c =>
    if !s.windowsRun || !c.working || !c.windowBuilt then s
    else if !(c.holds .landing (c.wayOf seq) || c.holds .browse (c.wayOf seq)) then s
    else if c.cap < seq then s
    else match c.base with
      | none => s
      | some b =>
        if seq < b then s.mapCtx feed FeedContext.countLate
        else if b + Config.span ≤ seq then s.mapCtx feed FeedContext.countAhead
        else match c.pos? seq with
          | none => s.mapCtx feed FeedContext.countLate
          | some p =>
            if p.landDone || p.complete then s.mapCtx feed FeedContext.countLate
            else if p.empty || (p.land == .checking && p.lost != .idle) then s.takeChunk feed seq h
            else s

/-! ### Landing-due (R88, R89) -/

/-- The ready set of a window (R88). -/
def FeedContext.readySet (c : FeedContext) : List Position := c.positions.filter Position.inReadySet

/-- A ready age of the set has reached the landing delay (R89). -/
def State.delayPassed (s : State) (c : FeedContext) : Bool :=
  c.readySet.any (fun p => match p.readySince with
    | none => false
    | some t => decide (t + s.settings.landingDelay ≤ s.now))

/-- The landing-due condition (R89): ACTIVE or CLOSING, not land-held, and at least B READY positions
or an age at the landing delay, which LANDING_DELAY_REACHED has noted. -/
def State.landingDue (s : State) (c : FeedContext) : Bool :=
  c.working && !s.landHeld c
    && (decide (s.settings.batch ≤ c.readySet.length ∧ 0 < c.readySet.length)
      || (c.delayReached && s.delayPassed c))

/-- The landing-due condition evaluated again: the landing delay noted where an age has reached it
(R89, R120, R173). -/
def State.noteDelay (s : State) (feed : Nat) : State :=
  s.mapCtx feed (fun c => { c with delayReached := s.delayPassed c })

/-- LANDING_DELAY_REACHED (R89): the oldest ready age of the feed has reached Ld. -/
def execLandingDelayReached (feed : Nat) (s : State) : Host.Outcome State Fault Refusal :=
  .next (s.noteDelay feed)

end Sys2Proof.Machine
end

