-- ==== Sys2Proof/Machine/Context.lean ====
section
/-! DEFINITION. The life of a feed context: its marks' consequences (R5, R72, R73), the end sequence E
(R13), FINAL, ABORTED and FAULTED (R5, R7, R8), the linger and freeing (R6), creation by OPEN or from a
peer's record (R10 to R12, R17), with the command LINGER_EXPIRY. -/

namespace Sys2Proof.Machine

/-! ### FINAL (R5, R140) -/

/-- Every held way has reached E (R5). -/
def FeedContext.allAtEnd (c : FeedContext) : Bool :=
  match c.e with
  | none => false
  | some e => c.heldMarks.all (fun m => m == some e)

/-- The context enters FINAL (R5): no position is left, the commit is computed afresh and a MARK falls
due at once (R140). -/
def State.enterFinal (s : State) (feed : Nat) : State :=
  (((s.mapCtx feed (fun c => { c with state := .final })).dropWindow feed).recomputeCommit
    feed).markFallsDue feed

/-- The FINAL condition tested (R5). -/
def State.finalTest (s : State) (feed : Nat) : State :=
  match s.ctx? feed with
  | none => s
  | some c => if c.state == .closing && c.allAtEnd then s.enterFinal feed else s

/-- The landing marks of a feed's context. -/
def State.landingMarks (s : State) (feed : Nat) : Option (PerWay Mark) := (s.ctx? feed).map (·.lv)

/-- What follows a change of the marks, of E or of the held ways (R73): the window is recomputed, the
commit is computed where the event calls for it (`commit`) or a landing mark came to E (R135), and the
FINAL condition is tested (R5). -/
def State.afterMarks (s : State) (feed : Nat) (commit : Bool) : State :=
  let s1 := s.mapCtx feed FeedContext.reachEnd
  let s2 := s1.refreshWindow feed
  (if commit || s1.landingMarks feed != s.landingMarks feed then s2.recomputeCommit feed
    else s2).finalTest feed

/-- A job of the context was done: its marks are recomputed (R72) with all that follows, the commit where
a landing mark changed (R135). -/
def State.afterDone (s : State) (feed : Nat) : State :=
  let s1 := s.mapCtx feed (fun c => if c.working then c.recomputeMarks else c)
  s1.afterMarks feed (s1.landingMarks feed != s.landingMarks feed)

/-! ### The end sequence (R13) -/

/-- The end floor (R13): the highest of the published commit and the marks of the held ways. -/
def FeedContext.endFloor (c : FeedContext) : Mark := Mark.highest (c.published :: c.heldMarks)

/-- E as a candidate leaves it (R13): clamped to C − 1; unchanged if E is known and not above the
clamped candidate; else the candidate, raised to the end floor. -/
def FeedContext.endAfter (c : FeedContext) (candidate : Nat) : Mark :=
  let x := min candidate (c.params.slotCount - 1)
  match c.e with
  | some e => if e ≤ x then some e else Mark.higher (some x) c.endFloor
  | none => Mark.higher (some x) c.endFloor

/-- A candidate changes E: the context is ACTIVE or CLOSING and R13 leaves another E. -/
def FeedContext.takesEnd (candidate : Nat) (c : FeedContext) : Bool :=
  c.working && c.e != c.endAfter candidate

/-- A candidate for E taken by a context in ACTIVE or CLOSING (R13): where it changes E the context is
then CLOSING (R4). -/
def FeedContext.offerEnd (candidate : Nat) (c : FeedContext) : FeedContext :=
  if c.takesEnd candidate then { c with e := c.endAfter candidate, state := .closing } else c

/-- A candidate for E that may be absent, taken by a context. -/
def FeedContext.offerEnd? (candidate : Mark) (c : FeedContext) : FeedContext :=
  match candidate with
  | none => c
  | some e => c.offerEnd e

/-- A candidate for E is taken (R13). Where it changes E, the window, the commit (R135) and the FINAL
condition (R5) follow, and the gap wait condition is tested (R83). -/
def State.takeEnd (s : State) (feed candidate : Nat) : State :=
  match s.ctx? feed with
  | none => s
  | some c =>
    if c.takesEnd candidate then
      ((s.mapCtx feed (FeedContext.offerEnd candidate)).afterMarks feed true).gapTest feed
    else s

/-! ### The linger and freeing (R6) -/

/-- The linger timer starts; it is not restarted once running (R6). -/
def State.startLinger (s : State) (feed : Nat) : State :=
  s.mapCtx feed (fun c =>
    if c.linger.isNone then { c with linger := some (s.now + Config.lingerTime) } else c)

/-- The waiting work of a context's feed but its MARK is discarded (R129, R130). -/
def State.discardWork (s : State) (feed : Nat) : State :=
  { s with
    waitChecks := s.waitChecks.filter (fun w => w.feed != feed)
    waitRewrites := s.waitRewrites.filter (fun w => match w with
      | .batch f => f != feed
      | .fill f _ => f != feed) }

/-- A context leaves the table with its positions, pins, jobs, adopted triples and waiting work (R6,
R24). Its ring entries and the pending answers are not touched. -/
def State.removeContext (s : State) (feed : Nat) : State :=
  let s1 := ((s.dropWindow feed).discardWork feed).removeCtx feed
  { s1 with
    adopted := s1.adopted.filter (fun t => t.feed != feed)
    waitMarks := s1.waitMarks.filter (· != feed) }

/-- The closed-identity entry of a feed written (R18). -/
def State.writeClosed (s : State) (feed : Nat) (id : BitVec 64) : State :=
  { s with closedIds := s.closedIds.setIfInBounds feed (some id) }

/-- The closed-identity entry of a feed (R18). -/
def State.closedId (s : State) (feed : Nat) : Option (BitVec 64) := (s.closedIds[feed]?).join

/-- The linger ends: the context is freed and its identity written to the closed-identity list (R6). -/
def State.lingerExpires (s : State) (feed : Nat) : State :=
  match s.ctx? feed with
  | none => s
  | some c =>
    if s.reached c.linger then (s.removeContext feed).writeClosed feed c.params.fileId else s

/-- LINGER_EXPIRY (R6). -/
def execLingerExpiry (feed : Nat) (s : State) : Host.Outcome State Fault Refusal :=
  .next (s.lingerExpires feed)

/-! ### ABORTED and FAULTED (R7, R8, R9) -/

/-- A context in ACTIVE or CLOSING enters ABORTED (R7): its window, jobs and waiting work are dropped
and one MARK falls due at once (R142). -/
def State.enterAborted (s : State) (feed : Nat) : State :=
  (((s.dropWindow feed).discardWork feed).mapCtx feed (fun c =>
    { c with state := .aborted })).markFallsDue feed

/-- A context in ACTIVE or CLOSING enters FAULTED (R8): all of its work is dropped, its waiting MARK
too, and an ISSUED MARK has no owner (R143). -/
def State.enterFaulted (s : State) (feed : Nat) : State :=
  let s1 := ((s.dropWindow feed).discardWork feed).mapCtx feed (fun c =>
    { c with state := .faulted, markReq := none, markAgain := false })
  { s1 with waitMarks := s1.waitMarks.filter (· != feed) }

/-- An ABORT, by directive (R16) or learned from a peer (R19). -/
def State.abortContext (s : State) (feed : Nat) : State :=
  match s.ctx? feed with
  | none => s
  | some c =>
    match c.state with
    | .active | .closing => s.enterAborted feed
    | .faulted => s.startLinger feed
    | .final | .aborted => s

/-- A CLOSE directive (R14). -/
def State.closeContext (s : State) (feed : Nat) (endSeq : Mark) : State :=
  match s.ctx? feed with
  | none => s
  | some c =>
    match c.state, endSeq with
    | .active, some e | .closing, some e => s.takeEnd feed e
    | .active, none | .closing, none => s
    | .faulted, _ => s.startLinger feed
    | .final, _ | .aborted, _ => s

/-! ### The checks of an OPEN (R11) -/

/-- A power of two in a range of slot sizes, `2 ^ lo` to `2 ^ hi`. -/
def isSlotSize (lo hi size : Nat) : Bool :=
  (List.range (hi - lo + 1)).any (fun i => size == 2 ^ (lo + i))

/-- Every address of a file up to its end is within 64 bits. -/
def within64 (x : Nat) : Bool := decide (x ≤ 2 ^ 64 - 1)

/-- The rate codes are in range (BAD RATE). -/
def OpenParams.ratesOk (p : OpenParams) : Bool :=
  decide (6 ≤ p.sourceRate ∧ p.sourceRate ≤ 13 ∧ 1 ≤ p.browseRate ∧ p.browseRate ≤ 13)

/-- The sizes, counts, bases and the cue count are in range (BAD SIZE). -/
def OpenParams.sizesOk (p : OpenParams) : Bool :=
  isSlotSize 16 21 p.landingSlot
    && decide (1 ≤ p.slotCount ∧ p.slotCount ≤ 16777216)
    && isSlotSize 14 18 p.browseSlot
    && decide (1 ≤ p.browseSlots ∧ p.browseSlots ≤ 1073741824)
    && decide (p.landingBase % 4096 = 0 ∧ p.browseBase % 4096 = 0)
    && within64 (p.landingBase + 4096 + p.slotCount * p.landingSlot)
    && within64 (p.browseBase + p.indexArea + p.browseSlots * p.browseSlot)
    && decide (p.cueCount ≤ 8)

/-- The geometry and way fields are in range (BAD GEOMETRY). -/
def OpenParams.geometryOk (p : OpenParams) : Bool :=
  (p.factor == 2 || p.factor == 4 || p.factor == 8)
    && decide (16 ≤ p.width ∧ p.width ≤ 4096 ∧ 16 ≤ p.height ∧ p.height ≤ 2160)
    && decide (p.wayFn ≤ 3)
    && (p.depth == 1 || p.depth == 2 || p.depth == 4 || p.depth == 8)

/-- What the field checks of R10 and R11 find, in their order. -/
def OpenParams.check (p : OpenParams) : Option RefusalReason :=
  if !p.ratesOk then some .badRate
  else if !p.sizesOk then some .badSize
  else if !p.geometryOk then some .badGeometry
  else if !p.fitsAt 8 then some .slotTooSmall
  else none

/-! ### Creation (R12, R17) -/

/-- The hold kinds of a new context (R27): configured where the way is in the range's way set and in
use. -/
def configuredKinds (set : PerWay Bool) (wayFn : Nat) : PerWay HoldKind :=
  PerWay.ofFn (fun w =>
    if set.get w && (waysInUse wayFn).contains w then .configured else .unheld)

/-- A context as it is created (R2, R12, R17): `start` is none for a DIRECTED one and the start commit
for a LEARNED one. -/
def FeedContext.fresh (feed : Nat) (r : Range) (p : OpenParams) (origin : Origin) (start h : Mark) :
    FeedContext :=
  let lk := configuredKinds r.land p.wayFn
  let bk := configuredKinds r.browse p.wayFn
  { feed := feed, state := .active, origin := origin, params := p, effRate := p.effRate,
    effFactor := p.effFactor, e := none, h := h, landKind := lk, browseKind := bk,
    lv := PerWay.ofFn (fun w => if lk.get w != .unheld then start else none),
    bv := PerWay.ofFn (fun w => if bk.get w != .unheld then start else none),
    retainedLand := PerWay.same none, retainedBrowse := PerWay.same none, published := start,
    landHold := false, browseHold := false,
    flags := { Flags.clear with rateClamped := p.rateExceeds, factorRaised := !p.fitsAt p.factor },
    counts := .zero, linger := none, carried := none, pacing := none, markWrites := 0,
    markReq := none, markAgain := false, storageEnded := false, windowBuilt := false,
    positions := [], delayReached := false }

/-- The highest sequence number below C among the ring entries of a feed (R20). -/
def State.ringHigh (s : State) (feed slotCount : Nat) : Mark :=
  Mark.highest ((s.ring.filter (fun e => e.feed == feed && decide (e.seq < slotCount))).map
    (fun e => some e.seq))

/-- The lowest sequence number among the WHOLE entries of a feed that carry the LAST flag (R15). -/
def State.ringLast (s : State) (feed : Nat) : Mark :=
  ((s.ring.filter (fun e => e.feed == feed && e.whole && e.hdr.last)).map (·.seq)).min?

/-- A candidate for E that may be absent. -/
def State.takeEnd? (s : State) (feed : Nat) (candidate : Mark) : State :=
  match candidate with
  | none => s
  | some e => s.takeEnd feed e

/-- The window of a context is built (R71). -/
def State.buildWindow (s : State) (feed : Nat) : State :=
  (s.mapCtx feed (fun c => if c.working then { c with windowBuilt := true } else c)).refreshWindow feed

/-- A context is created (R12, R17): H and the allotment set (R20), the candidates for E from a peer's
record and from the ring both taken through R13 (R15, R17), its place taken, its marks brought to E where
nothing is left below it (R72), the window built if the station is LIVE or DETACHED (R71), the commit
computed (R135), the FINAL condition tested (R5) and its first MARK paced (R138). -/
def State.createContext (s : State) (feed : Nat) (r : Range) (p : OpenParams) (origin : Origin)
    (start recordH recordE : Mark) : State :=
  let h := Mark.higher (s.ringHigh feed p.slotCount) recordH
  let c := (((FeedContext.fresh feed r p origin start h).assessAllotment s.settings.margin).offerEnd?
    recordE).offerEnd? (s.ringLast feed)
  let s1 := (s.addCtx c).mapCtx feed FeedContext.reachEnd
  let s2 := if s.windowsRun then s1.buildWindow feed else s1
  ((s2.recomputeCommit feed).finalTest feed).paceTest feed

/-- The last-refusal record replaced (R168). -/
def State.refuse (s : State) (feed : Nat) (reason : RefusalReason) : State :=
  { s with lastRefusal := some { feed := feed, kind := .openFeed, reason := reason } }

/-- An OPEN directive, by the decisions of R10 in their order. -/
def State.openContext (s : State) (feed : Nat) (p : OpenParams) : State :=
  match rangeOf s.settings.ranges feed with
  | none => s
  | some r =>
    match s.ctx? feed with
    | some c =>
      if c.params.fileId == p.fileId then s
      else (s.mapCtx feed FeedContext.latchConflict).refuse feed .conflict
    | none =>
      match p.check with
      | some reason => s.refuse feed reason
      | none =>
        if Config.maxContexts ≤ s.contexts.length then s.refuse feed .noContext
        else s.createContext feed r p .directed none none none

end Sys2Proof.Machine
end

