-- ==== Sys2Proof/Machine/Adoption.lean ====
section
/-! DEFINITION. Adoption of orphaned ways: holders and candidates (R38), orphans and the adopter (R40,
R41), adopting (R42, R43) and release (R44 to R46), with the Peer Table's own commands PEER_SILENT and
PEER_REMOVED (R35, R36, R47). -/

namespace Sys2Proof.Machine

/-- There is a configured holder of the way for the kind in the view (R38). -/
def State.hasConfiguredHolder (s : State) (c : FeedContext) (k : WorkKind) (w : Way) : Bool :=
  c.kindOf k w == .configured || (s.viewRecords c).any (fun pr => pr.2.kindOf k w == .configured)

/-- A peer's record makes it a LIVE holder of the way (R38). -/
def isLiveHolder (pr : PeerEntry × FeedRecord) (k : WorkKind) (w : Way) : Bool :=
  pr.1.state == .live && pr.2.holds k w
    && (pr.2.state == .active || pr.2.state == .closing || pr.2.state == .final)

/-- There is a LIVE holder of the way for the kind in the view (R38). -/
def State.hasLiveHolder (s : State) (c : FeedContext) (k : WorkKind) (w : Way) : Bool :=
  (s.station == .live && c.working && c.holds k w)
    || (s.viewRecords c).any (fun pr => isLiveHolder pr k w)

/-- The station numbers of the candidate adopters (R38). -/
def State.candidates (s : State) (c : FeedContext) : List Nat :=
  (if s.station == .live && s.settings.adoptEligible && c.working
      && decide (s.adopted.length < Config.maxAdopted) then [s.settings.station] else [])
    ++ ((s.viewRecords c).filter (fun pr =>
        pr.1.state == .live && pr.1.adoptEligible && decide (0 < pr.1.adoptRoom)
          && (pr.2.state == .active || pr.2.state == .closing))).map (fun pr => pr.1.number)

/-- A triple is orphaned in this station's view (R40). -/
def State.orphaned (s : State) (c : FeedContext) (k : WorkKind) (w : Way) : Bool :=
  s.station == .live && c.working && c.waysInUse.contains w && s.hasConfiguredHolder c k w
    && !s.hasLiveHolder c k w

/-- The start mark of an adopted way (R42). -/
def State.startMark (s : State) (c : FeedContext) (k : WorkKind) (w : Way) : Mark :=
  let silent := (s.peerHolders c k w).filter (fun pr => pr.1.state == .silent)
  let m := if silent.isEmpty then c.published
           else Mark.highest (silent.map (fun pr => pr.2.markOf k w))
  let raised := Mark.higher m (c.retainedOf k w)
  match c.e with
  | none => raised
  | some e => if e + 1 < Mark.ord raised then some e else raised

/-- The existing positions of a way gain the job of a kind (R87), in ascending sequence number (log 28). -/
def State.gainJobs (s : State) (feed : Nat) (k : WorkKind) (w : Way) : State :=
  match s.ctx? feed with
  | none => s
  | some c =>
    ((c.positions.filter (fun p => p.way == w)).map (·.seq)).foldl
      (fun s q => s.gainJob feed k q) s

/-- A triple is adopted (R42); the commit is computed for a landing way alone (R135). The spec gives no
order to the hand-overs of R87: the gained jobs of existing positions go first, then those of the
positions the recomputed window creates, which lie lower where the base falls (log 28). -/
def State.adopt (s : State) (feed : Nat) (k : WorkKind) (w : Way) : State :=
  match s.ctx? feed with
  | none => s
  | some c =>
    let s1 := { s with adopted := s.adopted ++ [Triple.mk feed w k] }
    let m := s.startMark c k w
    let s2 := s1.mapCtx feed (fun c => (c.setKind k w .adopted).setMark k w m)
    ((s2.trim feed).gainJobs feed k w).afterMarks feed (k == .landing)

/-- One triple of an orphan search: adopted when it is orphaned and this station is its adopter, the
candidate of the lowest number (R41, R43). -/
def State.searchTriple (s : State) (feed : Nat) (k : WorkKind) (w : Way) : State :=
  match s.ctx? feed with
  | none => s
  | some c =>
    if s.orphaned c k w && (s.candidates c).min? == some s.settings.station
        && decide (s.adopted.length < Config.maxAdopted) && s.settings.adoptEligible then
      s.adopt feed k w
    else s

/-- A search for orphans (R43): contexts ascending, ways 0 to 3, landing before browse. -/
def State.searchOrphans (s : State) : State :=
  s.feeds.foldl (fun s f => waysAndKinds.foldl (fun s wk => s.searchTriple f wk.2 wk.1) s) s

/-- A triple leaves the adopted set (R44): the hold kind returns to none, the mark is retained, the
way's work is withdrawn, and the window, the commit and the FINAL condition follow. R44 has the commit
recomputed at the release of either kind (log 30). -/
def State.releaseTriple (s : State) (t : Triple) : State :=
  let s1 := { s with adopted := s.adopted.filter (· != t) }
  match s1.ctx? t.feed with
  | none => s1
  | some c =>
    let s2 := s1.mapCtx t.feed (fun c =>
      ((c.setRetained t.kind t.way (c.markOf t.kind t.way)).setKind t.kind t.way .unheld).setMark
        t.kind t.way none)
    let seqs := (c.positions.filter (fun p => p.way == t.way)).map (·.seq)
    (seqs.foldl (fun s q => s.loseJob t.feed t.kind q) s2).afterMarks t.feed true

/-- A release condition of an adopted triple holds: a returned configured holder has caught up (R45),
or a lower-numbered station has adopted it too (R46). -/
def State.releasable (s : State) (t : Triple) : Bool :=
  match s.ctx? t.feed with
  | none => false
  | some c =>
    s.station == .live && c.working
      && (s.viewRecords c).any (fun pr =>
        isLiveHolder pr t.kind t.way
          && ((pr.2.kindOf t.kind t.way == .configured
                && decide (Mark.ord (c.markOf t.kind t.way) ≤ Mark.ord (pr.2.markOf t.kind t.way)))
            || (pr.2.kindOf t.kind t.way == .adopted
                && decide (pr.1.number < s.settings.station))))

/-- The adopted set tested for release (R47 step 3), in the order of adoption; the spec gives none
(log 28). -/
def State.releaseTests (s : State) : State :=
  s.adopted.foldl (fun s t => if s.releasable t then s.releaseTriple t else s) s

/-- What follows a change of a peer entry by silence or removal (R47): in LIVE the release tests, the
orphan search and the commits; otherwise the commits alone. -/
def State.afterPeerChange (s : State) : State :=
  if s.station == .live then (s.releaseTests.searchOrphans).recomputeCommits
  else s.recomputeCommits

/-- The Peer Table entry of a station number (R33). -/
def State.peer? (s : State) (number : Nat) : Option PeerEntry :=
  s.peers.find? (fun p => p.number == number)

/-- 3 × P without a beacon: a LISTENING or LIVE entry becomes SILENT and keeps its content (R35). -/
def State.peerFallsSilent (s : State) (number : Nat) : State :=
  match s.peer? number with
  | none => s
  | some p =>
    if p.state != .silent && decide (p.arrived + 3 * p.period ≤ s.now) then
      ({ s with peers := s.peers.map (fun q =>
          if q.number == number then { q with state := .silent } else q) } : State).afterPeerChange
    else s

/-- 20 × P without a beacon: a SILENT entry is removed (R33, R36). -/
def State.peerRemoved (s : State) (number : Nat) : State :=
  match s.peer? number with
  | none => s
  | some p =>
    if p.state == .silent && decide (p.arrived + 20 * p.period ≤ s.now) then
      ({ s with peers := s.peers.filter (fun q => q.number != number) } : State).afterPeerChange
    else s

/-- PEER_SILENT (R35). -/
def execPeerSilent (number : Nat) (s : State) : Host.Outcome State Fault Refusal :=
  .next (s.peerFallsSilent number)

/-- PEER_REMOVED (R36). -/
def execPeerRemoved (number : Nat) (s : State) : Host.Outcome State Fault Refusal :=
  .next (s.peerRemoved number)

end Sys2Proof.Machine
end

