-- ==== Sys2Proof/Machine/Mend.lean ====
section
/-! DEFINITION. The Mend Unit: the asking side (R93 to R96), the answering side (R99 to R102) and the
beginning and end of the lost procedure (R104, R108), with the commands GAP_WAIT_EXPIRY and
ANSWER_BACKOFF_EXPIRY. -/

namespace Sys2Proof.Machine

/-! ### The asking side -/

/-- An ask formed from the ring (R94): the WHOLE flag where it holds no entry, else the indexes missing
from the PARTIAL entry's received set. -/
def State.formAsk (s : State) (feed : Nat) (p : Position) : Ask :=
  match s.entry? feed p.seq with
  | none => { feed := feed, seq := p.seq, whole := true, missing := [], attempt := p.attempts + 1 }
  | some e =>
    { feed := feed, seq := p.seq, whole := false,
      missing := (List.range e.hdr.cells).filter (fun i => !(e.cells.map (·.1)).contains i),
      attempt := p.attempts + 1 }

/-- The gap wait of a position restarted toward G (R93). -/
def State.restartWait (s : State) (feed seq : Nat) : State :=
  s.mapPos feed seq (fun p => { p with gapWait := some (s.now + s.settings.gapWait) })

/-- The lost procedure begins (R104): with a landing job, a trailer CHECK of the position's slot waits
for turn 2; with a browse job alone, the job is handed over CHUNKLESS at once. -/
def State.beginLost (s : State) (feed : Nat) (p : Position) : State :=
  if p.wantsLand then
    let s1 := s.mapPos feed p.seq (fun p =>
      { p with land := .checking, lost := .trailerCheck, gapWait := none, hasRef := false,
               req := some s.nextUid })
    ({ s1 with waitChecks := s1.waitChecks ++
        [{ uid := s.nextUid, feed := feed, seqs := [p.seq], trailer := true, issueNo := 1 }] }
      : State).bumpUid
  else
    (s.mapPos feed p.seq (fun p =>
      { p with land := .checking, lost := .browseOnly, gapWait := none,
               hasRef := false })).handOverChunkless feed p.seq

/-- A position's gap wait expires (R93). -/
def State.gapExpires (s : State) (feed seq : Nat) : State :=
  match s.pos? feed seq with
  | none => s
  | some p =>
    if s.reached p.gapWait then
      if s.station == .detached then s.restartWait feed seq
      else if s.station == .live then
        if s.askQueued feed seq then s.restartWait feed seq
        else if p.attempts < Config.maxAttempts then
          ({ s with askQueue := s.askQueue ++ [s.formAsk feed p] } : State).restartWait feed seq
        else s.beginLost feed p
      else s
    else s

/-- GAP_WAIT_EXPIRY (R93). -/
def execGapWaitExpiry (feed seq : Nat) (s : State) : Host.Outcome State Fault Refusal :=
  .next (s.gapExpires feed seq)

/-- Another station's ask at a position whose gap wait runs (R96): the wait restarts, a queued ask is
withdrawn and a suppression restart is spent, while fewer than 8 are. -/
def State.suppress (s : State) (feed seq : Nat) : State :=
  match s.pos? feed seq with
  | none => s
  | some p =>
    if p.gapWait.isSome && decide (p.restarts < Config.maxRestarts) then
      ((s.restartWait feed seq).mapPos feed seq (fun p =>
        { p with restarts := p.restarts + 1 })).withdrawAsk feed seq
    else s

/-! ### The answering side -/

/-- The back-off of an answer to an ask from station `asker`, ms (R100): 2 × ((own − asker) mod 8). -/
def State.backoff (s : State) (asker : Nat) : Nat := 2 * ((s.settings.station + 8 - asker) % 8)

/-- The cells an ask calls for of a WHOLE entry of `n` cells (R99). -/
def ReceivedAsk.cellsOf (a : ReceivedAsk) (n : Nat) : List Nat :=
  (List.range n).filter (fun i => a.whole || a.missing.contains i)

/-- The answering side takes an ask (R99). -/
def State.answerAsk (s : State) (a : ReceivedAsk) : State :=
  match s.entry? a.feed a.seq with
  | none => s
  | some e =>
    let cells := a.cellsOf e.hdr.cells
    let due := s.now + s.backoff a.asker
    if !e.whole || cells.isEmpty then s
    else if s.answers.any (fun x => x.feed == a.feed && x.seq == a.seq && !x.sending) then
      { s with answers := s.answers.map (fun x =>
          if x.feed == a.feed && x.seq == a.seq && !x.sending then
            { x with
              cells := (List.range e.hdr.cells).filter (fun i =>
                x.cells.contains i || cells.contains i)
              due := min x.due due }
          else x) }
    else if s.answers.length < Config.maxAnswers then
      ({ s with answers := s.answers ++
          [{ uid := s.nextUid, feed := a.feed, seq := a.seq, cells := cells, sending := false,
             due := due }] } : State).bumpUid
    else s

/-- The mend cells of an answer, in ascending index order (R100). -/
def mendCellsOf (x : PendingAnswer) (e : RingEntry) : List MendCell :=
  (e.cells.filter (fun c => x.cells.contains c.1)).map (fun c =>
    { answer := x.uid, feed := x.feed, seq := x.seq, index := c.1, hdr := e.hdr, payload := c.2 })

/-- The back-off of the WAITING answer for a chunk expires (R100): it becomes SENDING and its mend
cells are placed in the transmit queue. -/
def State.answerDue (s : State) (feed seq : Nat) : State :=
  match s.answers.find? (fun x => x.feed == feed && x.seq == seq && !x.sending),
      s.entry? feed seq with
  | some x, some e =>
    if x.due ≤ s.now then
      { s with
        answers := s.answers.map (fun y => if y.uid == x.uid then { y with sending := true } else y)
        mendQueue := s.mendQueue ++ mendCellsOf x e }
    else s
  | _, _ => s

/-- ANSWER_BACKOFF_EXPIRY (R100). -/
def execAnswerBackoffExpiry (feed seq : Nat) (s : State) : Host.Outcome State Fault Refusal :=
  .next (s.answerDue feed seq)

/-- The answer still has to send this index: WAITING with it in its set, or SENDING with its cell still
queued (R101). -/
def State.stillOwes (s : State) (x : PendingAnswer) (index : Nat) : Bool :=
  x.cells.contains index
    && (!x.sending || s.mendQueue.any (fun m => m.answer == x.uid && m.index == index))

/-- Another station's mend cell is seen (R101): its index leaves the pending answers for the chunk, a
queued cell of it is withdrawn, and an emptied answer is cancelled. -/
def State.seeMendCell (s : State) (feed seq index : Nat) : State :=
  let shrink := fun (x : PendingAnswer) =>
    if x.feed == feed && x.seq == seq && s.stillOwes x index then
      { x with cells := x.cells.filter (· != index) } else x
  { s with
    answers := (s.answers.map shrink).filter (fun x => !x.cells.isEmpty)
    mendQueue := s.mendQueue.filter (fun m => !(m.feed == feed && m.seq == seq && m.index == index)) }

/-- The ring entry of a chunk was removed (R102): its pending answers are cancelled and their queued
cells withdrawn. -/
def State.cancelAnswers (s : State) (feed seq : Nat) : State :=
  { s with
    answers := s.answers.filter (fun x => !(x.feed == feed && x.seq == seq))
    mendQueue := s.mendQueue.filter (fun m => !(m.feed == feed && m.seq == seq)) }

/-- A mend cell has left the port (R100): its index leaves its answer's set, and an emptied answer is
freed. -/
def State.mendCellLeft (s : State) (m : MendCell) : State :=
  { s with
    answers := (s.answers.map (fun x =>
        if x.uid == m.answer then { x with cells := x.cells.filter (· != m.index) } else x)).filter
          (fun x => !x.cells.isEmpty) }

/-- A received mend ask, with the checks of R97, taken by both sides (R96, R99). -/
def State.takeAsk (s : State) (a : ReceivedAsk) : State :=
  if a.asker < 1 ∨ 8 < a.asker ∨ Config.feeds ≤ a.feed ∨ a.attempt < 1 ∨ 4 < a.attempt
      ∨ (a.whole = false ∧ a.missing = []) then s
  else (s.suppress a.feed a.seq).answerAsk a

/-! ### The end of the lost procedure (R108) -/

/-- The lost procedure of a landing position ends LANDED or LOST: its browse job, if it wants one, is
handed over CHUNKLESS, and the marks follow (R84, R108). -/
def State.endLost (s : State) (feed seq : Nat) (outcome : LandState) : State :=
  match s.pos? feed seq with
  | none => s
  | some p =>
    let s1 := s.mapPos feed seq (fun p =>
      { p with land := outcome, lost := .idle, req := none })
    let s2 := if p.browse == some .waiting then s1.handOverChunkless feed seq else s1
    (s2.completePos feed seq).afterDone feed

end Sys2Proof.Machine
end

