-- ==== Sys2Proof/Machine/Beacon.lean ====
section
/-! DEFINITION. The Beacon Unit and the transmit side of the capture port: the beacon's content (R29,
R31), its timer (R28), the transmit queue (R92) and what a received beacon does (R32 to R37, R47, and
R17, R19), with the commands BEACON_TIMER_EXPIRY and PORT_TRANSMIT. -/

namespace Sys2Proof.Machine

/-! ### What a beacon carries (R29 to R31, R188) -/

/-- A mark per way as a record reports it: none where the way is not held for the kind (R31). -/
def FeedContext.reportedMarks (c : FeedContext) (k : WorkKind) : PerWay Mark :=
  PerWay.ofFn (fun w => if c.holds k w then c.markOf k w else none)

/-- The eight reported feed counts in the order of R188; the truncated count is not among them. -/
def FeedCounts.reported (x : FeedCounts) : List (BitVec 32) :=
  [x.landed, x.lost, x.rewrites, x.ahead, x.late, x.browseDone, x.browseShed, x.browseFailed]

/-- The feed record of a context (R31). -/
def FeedContext.record (c : FeedContext) : FeedRecord :=
  { feed := c.feed, state := c.state, origin := c.origin, landHold := c.landHold,
    browseHold := c.browseHold, flags := c.flags, params := c.params, e := c.e, h := c.h,
    published := c.published, landKind := c.landKind, browseKind := c.browseKind,
    lv := c.reportedMarks .landing, bv := c.reportedMarks .browse, counts := c.counts.reported }

/-- The station counters in the order of R30. -/
def StationCounters.reported (x : StationCounters) : List (BitVec 32) :=
  [x.cellsAccepted, x.cellsMalformed, x.cellMismatches, x.poolOverruns, x.asksSent, x.mendCellsSent,
    x.storageTimeouts, x.storageRefusals]

/-- The code of a directive kind (R188). -/
def DirectiveKind.code : DirectiveKind → Byte
  | .openFeed => 1
  | .closeFeed => 2
  | .abortFeed => 3
  | .hold => 4
  | .release => 5
  | .stationReset => 6

/-- The code of a refusal reason (R188). -/
def RefusalReason.code : RefusalReason → Byte
  | .conflict => 1
  | .noContext => 2
  | .badRate => 3
  | .badSize => 4
  | .badGeometry => 5
  | .slotTooSmall => 6

/-- The four refusal bytes of a beacon (R29, R188); where no refusal is held, the three after the first
are not stated (log 6). -/
def State.refusalBytes (s : State) : List Byte :=
  match s.lastRefusal with
  | none => 0#8 :: (List.range 3).map Config.absentRefusal
  | some r => [1#8, BitVec.ofNat 8 r.feed, r.kind.code, r.reason.code]

/-- The code of the station state a beacon carries: 0 LISTENING, 1 LIVE (R188). -/
def State.stateByte (s : State) : Byte := if s.station == .live then 1#8 else 0#8

/-- The adopt room (R39): 16 minus the triples of the adopted set. -/
def State.adoptRoom (s : State) : Nat := Config.maxAdopted - s.adopted.length

/-- The 48-byte station part of a beacon (R29, R188). -/
def State.beaconHead (s : State) : List Byte :=
  [0x03#8, 1#8, BitVec.ofNat 8 s.settings.station, s.stateByte]
    ++ beBytes 2 s.settings.beaconPeriod
    ++ [BitVec.ofNat 8 (bitAt s.settings.adoptEligible 0 + bitAt s.dupNumber 1
          + bitAt s.localHold 2), BitVec.ofNat 8 s.adoptRoom]
    ++ s.counters.reported.flatMap (fun c => beBytes 4 c.toNat)
    ++ s.refusalBytes ++ [BitVec.ofNat 8 s.contexts.length] ++ reserved 3

/-- The beacon as it stands now: one record per context, in ascending feed number (R29). -/
def State.beaconBody (s : State) : List Byte :=
  s.beaconHead ++ s.contexts.flatMap (fun c => encodeFeedRecord c.record)

/-! ### The beacon timer (R28) -/

/-- The beacon timer starts with a beacon due at once (R28). -/
def State.startBeacons (s : State) : State :=
  { s with beaconWaiting := true, beaconTimer := some (s.now + s.settings.beaconPeriod) }

/-- The beacon timer expires (R28): a beacon waits, unless one does already, and the timer runs on by
P. -/
def State.beaconDue (s : State) : State :=
  match s.beaconTimer with
  | none => s
  | some t =>
    if t ≤ s.now then
      { s with beaconWaiting := true, beaconTimer := some (t + s.settings.beaconPeriod) }
    else s

/-- BEACON_TIMER_EXPIRY (R28). -/
def execBeaconTimerExpiry (s : State) : Host.Outcome State Fault Refusal := .next s.beaconDue

/-! ### The transmit queue (R92) -/

/-- A capture frame of this station, to the segment group address (R176, R188). -/
def State.captureFrame (s : State) (body : List Byte) : Frame :=
  { dest := s.settings.groupAddr, src := s.sourceMac, ftype := Config.captureType, body := body }

/-- The mend cell as it is sent (R100). -/
def State.mendCellBody (s : State) (m : MendCell) : List Byte :=
  encodeCell 0x02#8
    { senderKind := 1, senderNumber := s.settings.station, feed := m.feed, seq := m.seq,
      index := m.index, hdr := m.hdr, payload := m.payload }

/-- The waiting beacon leaves the port, formed as it leaves (R28). -/
def State.sendBeacon (s : State) : State :=
  { s with beaconWaiting := false, captureTx := some (s.captureFrame s.beaconBody) }

/-- A mend ask leaves the port (R95): the counter and the position's mend attempts rise. -/
def State.sendAsk (s : State) (a : Ask) (rest : List Ask) : State :=
  (({ s with askQueue := rest,
             captureTx := some (s.captureFrame (encodeAsk s.settings.station a)) }
    : State).countAskSent).mapPos a.feed a.seq (fun p => { p with attempts := p.attempts + 1 })

/-- A mend cell leaves the port (R100): the counter rises and its index leaves its answer. -/
def State.sendMendCell (s : State) (m : MendCell) (rest : List MendCell) : State :=
  (({ s with mendQueue := rest, captureTx := some (s.captureFrame (s.mendCellBody m)) }
    : State).countMendCellSent).mendCellLeft m

/-- The free port takes its next frame (R92): the beacon, else the oldest ask, else the oldest mend
cell. -/
def State.transmit (s : State) : State :=
  if !s.receives then s
  else if s.beaconWaiting then s.sendBeacon
  else match s.askQueue, s.mendQueue with
    | a :: rest, _ => s.sendAsk a rest
    | [], m :: rest => s.sendMendCell m rest
    | [], [] => s

/-- PORT_TRANSMIT (R92). -/
def execPortTransmit (s : State) : Host.Outcome State Fault Refusal := .next s.transmit

/-! ### Receiving a beacon -/

/-- A peer entry put in its place, in ascending station number, over an older one of its number. -/
def insertPeer (p : PeerEntry) : List PeerEntry → List PeerEntry
  | [] => [p]
  | q :: rest =>
    if p.number < q.number then p :: q :: rest
    else if q.number == p.number then p :: rest
    else q :: insertPeer p rest

/-- The entry a beacon makes (R33): a beacon showing LISTENING stores no feed record (R34). -/
def PeerBeacon.entry (b : PeerBeacon) (now : Nat) : PeerEntry :=
  { number := b.number, state := if b.live then .live else .listening, period := b.period,
    adoptEligible := b.adoptEligible, adoptRoom := b.adoptRoom,
    records := if b.live then b.records else [], arrived := now }

/-- The entry of a received beacon created or replaced (R33). -/
def State.updatePeer (s : State) (b : PeerBeacon) : State :=
  { s with peers := insertPeer (b.entry s.now) s.peers }

/-- The commit a learned context starts from (R17): computed over the view with its own marks none. -/
def State.startCommit (s : State) (r : Range) (q : FeedRecord) : Mark :=
  s.computedCommit (FeedContext.fresh q.feed r q.params .learned none none)

/-- A learned open from a peer's record, where every condition of R17 holds. -/
def State.learnOpen (s : State) (q : FeedRecord) : State :=
  match rangeOf s.settings.ranges q.feed with
  | none => s
  | some r =>
    if (q.state == .active || q.state == .closing) && s.closedId q.feed != some q.params.fileId
        && decide (s.contexts.length < Config.maxContexts) && q.params.check.isNone then
      s.createContext q.feed r q.params .learned (s.startCommit r q) q.h q.e
    else s

/-- What one record of a LIVE peer does to a LIVE station (R17, R19). -/
def State.learnRecord (s : State) (q : FeedRecord) : State :=
  match s.ctx? q.feed with
  | none => s.learnOpen q
  | some c =>
    if c.params.fileId != q.params.fileId then s.mapCtx q.feed FeedContext.latchConflict
    else if q.state == .closing && c.state == .active && c.e.isNone then s.takeEnd? q.feed q.e
    else if q.state == .aborted then s.abortContext q.feed
    else s

/-- Step 2 of R47: the records of a beacon showing LIVE, in ascending feed number. -/
def State.learn (s : State) (b : PeerBeacon) : State :=
  if b.live then b.records.foldl (fun s q => s.learnRecord q) s else s

/-- A beacon of another station taken through the steps of R47. -/
def State.takeBeacon (s : State) (b : PeerBeacon) : State :=
  let s1 := s.updatePeer b
  if s1.station == .live then (((s1.learn b).releaseTests).searchOrphans).recomputeCommits
  else s1.recomputeCommits

/-- A received beacon (R32, R37): discarded whole, latching DUPLICATE NUMBER, or taken. -/
def State.receiveBeacon (s : State) (body : List Byte) : State :=
  match parseBeacon body with
  | none => s
  | some b =>
    if b.number == s.settings.station then { s with dupNumber := true } else s.takeBeacon b

end Sys2Proof.Machine
end

