-- ==== Sys2Proof/Machine/Storage.lean ====
section
/-! DEFINITION. The Storage Port and the Landing Engine: the service order (R115) and what each turn
issues (R104, R106, R117, R120, R123, R139, R155), the answers and their owners (R113, R122 to R129,
R156 to R158), the storage timeout (R114), the local hold (R116, R117), and the gathering of answer
fragments (R189). -/

namespace Sys2Proof.Machine

/-! ### Slots (R119, R121) -/

/-- The start of the landing slot of a sequence number (R119). -/
def OpenParams.slotStart (p : OpenParams) (seq : Nat) : Nat :=
  p.landingBase + Config.fileHeader + seq * p.landingSlot

/-- The address of a slot's trailer (R119). -/
def OpenParams.trailerAddr (p : OpenParams) (seq : Nat) : Nat :=
  p.slotStart seq + p.landingSlot - Config.recordBytes

/-- The address of the mark slot of station `n` (R119). -/
def OpenParams.markAddr (p : OpenParams) (n : Nat) : Nat := p.landingBase + (n - 1) * Config.recordBytes

/-- The payload bytes a slot stores at most (R121). -/
def OpenParams.slotRoom (p : OpenParams) : Nat := p.landingSlot - Config.recordBytes

/-- The payload bytes a landing WRITE stores of an entry (R121). -/
def OpenParams.storedBytes (p : OpenParams) (e : RingEntry) : List Byte := e.payload.take p.slotRoom

/-- The trailer state of a landed chunk (R121). -/
def OpenParams.landedState (p : OpenParams) (e : RingEntry) : TrailerState :=
  if e.hdr.length ≤ p.slotRoom then .present else .truncated

/-- The landed check word (R121): the chunk's own for a PRESENT one, computed afresh over the stored
bytes for a TRUNCATED one. -/
def OpenParams.landedWord (p : OpenParams) (e : RingEntry) : CheckWord :=
  if e.hdr.length ≤ p.slotRoom then e.hdr.check else checkWord (p.storedBytes e)

/-! ### The local hold (R116, R117, R170, R173) -/

/-- The local hold set, if it is clear (R116): the probe timer starts and the shed ages stand still. -/
def State.setLocalHold (s : State) : State :=
  if s.localHold then s
  else ({ s with localHold := true, probeTimer := some (s.now + s.settings.beaconPeriod) }
    : State).syncShedAges

/-- What follows when holds lift (R160, R173): shed ages run on, held CHUNKLESS jobs go to WRITING, and
the landing-due condition is evaluated. -/
def State.holdsLifted (s : State) : State :=
  s.feeds.foldl (fun s f => s.noteDelay f) s.syncShedAges.wakeChunkless

/-- The local hold cleared by a PROBE's DONE (R117). -/
def State.clearLocalHold (s : State) : State :=
  ({ s with localHold := false, probeTimer := none } : State).holdsLifted

/-! ### Issuing (R111, R112) -/

/-- A request issued into a table entry, and sent (R112, R189). -/
def State.issue (s : State) (tag : Fin 16) (r : Request) : State :=
  ({ s.setEntry tag (.issued r) with storageTx := s.requestFrames tag r } : State).bumpUid

/-- A request of a purpose with its next number. -/
def State.newRequest (s : State) (purpose : Purpose) (feed : Option Nat) : Request :=
  { uid := s.nextUid, purpose := purpose, feed := feed, extents := [], slots := [], seqs := [],
    issueNo := 1, issueTime := s.now }

/-- Turn 1 (R117): a PROBE that has fallen due. -/
def State.turnProbe (s : State) (tag : Fin 16) : Option State :=
  if s.probeWaiting then
    some (({ s with probeWaiting := false } : State).issue tag (s.newRequest .probe none))
  else none

/-- The positions a waiting CHECK still serves, in ascending sequence number (R123). -/
def State.checkSeqs (s : State) (w : WaitCheck) : List Nat :=
  match s.ctx? w.feed with
  | none => []
  | some c =>
    (c.positions.filter (fun p =>
      w.seqs.contains p.seq && p.land == .checking && p.req == some w.uid)).map (·.seq)

/-- Turn 2 (R104, R123): the first waiting CHECK with a position still CHECKING; one without is
discarded. -/
def State.turnCheck (s : State) (tag : Fin 16) : Option State :=
  match s.waitChecks.find? (fun w => !(s.checkSeqs w).isEmpty) with
  | none => none
  | some w =>
    match s.ctx? w.feed with
    | none => none
    | some c =>
      let r := { s.newRequest (if w.trailer then .trailerCheck else .landingCheck) (some w.feed) with
        uid := w.uid, issueNo := w.issueNo
        slots := (s.checkSeqs w).map (fun q =>
          { seq := q, start := c.params.slotStart q, size := c.params.landingSlot }) }
      some (({ s with waitChecks := s.waitChecks.filter (fun v =>
        v.uid != w.uid && !(s.checkSeqs v).isEmpty) } : State).issue tag r)

/-- The positions of a batch (R120): those due for a rewrite first, then the other READY ones, each in
ascending sequence number, up to 8. -/
def FeedContext.batchPositions (c : FeedContext) : List Position :=
  (c.readySet.filter (·.dueRewrite) ++ c.readySet.filter (fun p => !p.dueRewrite)).take Config.batchMax

/-- The two extents of a position of a batch (R120). -/
def State.landingExtents (s : State) (c : FeedContext) (p : Position) : List Extent :=
  match s.entry? c.feed p.seq with
  | none => []
  | some e =>
    let stored := c.params.storedBytes e
    [{ addr := c.params.slotStart p.seq, bytes := stored },
     { addr := c.params.trailerAddr p.seq,
       bytes := encodeTrailer p.seq (c.params.landedState e) s.settings.station e.hdr.frames
         stored.length (c.params.landedWord e) e.hdr.first }]

/-- What a landing WRITE of a position writes in its trailer, for R124 to compare. -/
def State.landingForm (s : State) (c : FeedContext) (seq : Nat) :
    Option (TrailerState × CheckWord) :=
  (s.entry? c.feed seq).map (fun e => (c.params.landedState e, c.params.landedWord e))

/-- A batch formed and issued (R120): its positions are LANDING. Where more than 8 were due for a rewrite
the feed's next rewrite batch goes to the end of turn 3; the spec gives it no place (log 32). -/
def State.issueBatch (s : State) (tag : Fin 16) (c : FeedContext) (purpose : Purpose) : State :=
  let batch := c.batchPositions
  let seqs := batch.map (·.seq)
  let r := { s.newRequest purpose (some c.feed) with
    extents := batch.flatMap (s.landingExtents c), seqs := seqs }
  let s1 := s.mapCtx c.feed (fun c => { c with positions := c.positions.map (fun p =>
    if seqs.contains p.seq then
      { p with land := .landing, readySince := none, dueRewrite := false, req := some s.nextUid,
               wrote := s.landingForm c p.seq }
    else p) })
  (((s1.issue tag r).syncRewrite c.feed).noteDelay c.feed)

/-- A fill issued (R106): one extent, the LOST trailer of the position's slot. -/
def State.issueFill (s : State) (tag : Fin 16) (c : FeedContext) (seq : Nat) : State :=
  let trailer := encodeTrailer seq .lost s.settings.station 0 0 0 0
  let r := { s.newRequest .fill (some c.feed) with
    extents := [{ addr := c.params.trailerAddr seq, bytes := trailer }], seqs := [seq] }
  ((s.mapPos c.feed seq (fun p => { p with req := some s.nextUid })).issue tag r)

/-- The feed of a piece of turn 3 work. -/
def WaitRewrite.feed : WaitRewrite → Nat
  | .batch f => f
  | .fill f _ => f

/-- The land hold of a feed's context is not in force. -/
def State.landFree (s : State) (feed : Nat) : Bool :=
  match s.ctx? feed with
  | none => false
  | some c => !s.landHeld c

/-- Turn 3 (R106, R126): the first rewrite batch or fill whose feed is not land-held. -/
def State.turnRewrite (s : State) (tag : Fin 16) : Option State :=
  match s.waitRewrites.find? (fun w => s.landFree w.feed) with
  | none => none
  | some w =>
    match s.ctx? w.feed with
    | none => none
    | some c =>
      let s1 := { s with waitRewrites := s.waitRewrites.filter (· != w) }
      match w with
      | .batch _ => some (s1.issueBatch tag c .rewrite)
      | .fill _ q => some (s1.issueFill tag c q)

/-- The state a mark slot carries (R139). -/
def FeedContext.markState (c : FeedContext) : MarkState :=
  match c.state with
  | .final => .final
  | .aborted => .aborted
  | .active | .closing | .faulted => .live

/-- The contents of a mark slot, formed when the MARK is issued (R139). -/
def FeedContext.markSlot (c : FeedContext) (station : Nat) : List Byte :=
  encodeMarkSlot station c.markState c.published c.params.fileId c.e c.counts.lost
    c.counts.truncated (c.markWrites + 1)

/-- Turn 4 (R128, R139): the first waiting MARK, unless the local hold is set. The mark write count
rises, the carried commit is set and the pacing timer starts (R137). The spec does not say what follows a
count of 4,294,967,295: it wraps to 0 (log 35). -/
def State.turnMark (s : State) (tag : Fin 16) : Option State :=
  if s.localHold then none
  else match s.waitMarks with
    | [] => none
    | feed :: rest =>
      match s.ctx? feed with
      | none => none
      | some c =>
        let r := { s.newRequest (.mark c.markState) (some feed) with
          extents := [{ addr := c.params.markAddr s.settings.station,
                        bytes := c.markSlot s.settings.station }] }
        let s1 := ({ s with waitMarks := rest } : State).mapCtx feed (fun c =>
          { c with markWrites := c.markWrites + 1, carried := c.published,
                   pacing := some (s.now + s.settings.beaconPeriod), markReq := some s.nextUid,
                   markAgain := false })
        some (s1.issue tag r)

/-- The landing-due feeds, in ascending order (R89). -/
def State.dueFeeds (s : State) : List Nat :=
  (s.contexts.filter s.landingDue).map (·.feed)

/-- The feed turn 5 serves (R115): the lowest landing-due feed above the last served, wrapping. -/
def State.nextFeed (s : State) : Option Nat :=
  match s.dueFeeds.find? (fun f => decide (Mark.ord s.lastServed ≤ f)) with
  | some f => some f
  | none => s.dueFeeds.head?

/-- Turn 5 (R115, R120): a landing batch of a landing-due feed. -/
def State.turnLanding (s : State) (tag : Fin 16) : Option State :=
  match s.nextFeed with
  | none => none
  | some f =>
    match s.ctx? f with
    | none => none
    | some c => some (({ s with lastServed := some f } : State).issueBatch tag c .landing)

/-- The write turn 6 issues: the first ready one whose feed is not browse-held (R156). -/
def State.readyJob (s : State) : Option Job :=
  (s.browseReady.filterMap s.job?).find? (fun j => !s.browseHeld j.feed)

/-- Turn 6 (R115, R155): a browse write. -/
def State.turnBrowse (s : State) (tag : Fin 16) : Option State :=
  match s.readyJob with
  | none => none
  | some j =>
    match s.ctx? j.feed with
    | none => none
    | some c =>
      let r := { s.newRequest (.browse j.uid) (some j.feed) with
        extents := c.jobExtents j, seqs := [j.seq] }
      let s1 := { s with browseReady := s.browseReady.filter (· != j.uid) }
      some ((s1.mapJob j.uid (fun k => { k with inFlight := some s.nextUid })).issue tag r)

/-- Issuing is allowed (R115, R118, R177): the station has left LOADING well and no quiet time runs. -/
def State.issuingAllowed (s : State) : Bool := s.operating && s.quietUntil.isNone

/-- The first work of the service order issued into the lowest FREE entry (R112, R115). -/
def State.serve (s : State) : State :=
  match s.freeTag with
  | none => s
  | some t =>
    if s.issuingAllowed then
      (s.turnProbe t <|> s.turnCheck t <|> s.turnRewrite t <|> s.turnMark t <|> s.turnLanding t
        <|> s.turnBrowse t).getD s
    else s

/-- STORAGE_ISSUE (R115). -/
def execStorageIssue (s : State) : Host.Outcome State Fault Refusal := .next s.serve

/-! ### Owners of requests (R113) -/

/-- Some work still owns the request: a position in it, its browse job, its context's MARK; a PROBE is
the Storage Port's own (R113). -/
def State.owned (s : State) (r : Request) : Bool :=
  match r.purpose, r.feed with
  | .probe, _ => true
  | .browse j, _ =>
    (match s.job? j with
      | none => false
      | some k => k.inFlight == some r.uid)
  | .mark _, some f =>
    (match s.ctx? f with
      | none => false
      | some c => c.markReq == some r.uid)
  | _, some f =>
    (match s.ctx? f with
      | none => false
      | some c => c.working && c.positions.any (fun p => p.req == some r.uid))
  | _, none => false

/-- The sequence numbers of the positions in a request that are in one landing state, ascending. -/
def State.inRequest (s : State) (feed uid : Nat) (st : LandState) : List Nat :=
  match s.ctx? feed with
  | none => []
  | some c => (c.positions.filter (fun p => p.req == some uid && p.land == st)).map (·.seq)

/-- Positions changed to wait for a CHECK: CHECKING, in a fresh waiting CHECK of turn 2 (R105, R122,
R127). -/
def State.awaitCheck (s : State) (feed : Nat) (seqs : List Nat) (trailer : Bool) (issueNo : Nat) :
    State :=
  if seqs.isEmpty then s
  else
    let s1 := s.mapCtx feed (fun c => { c with positions := c.positions.map (fun p =>
      if seqs.contains p.seq then
        { p with land := .checking, req := some s.nextUid,
                 lost := if trailer then .trailerCheck else p.lost }
      else p) })
    ({ s1 with waitChecks := s1.waitChecks ++
        [{ uid := s.nextUid, feed := feed, seqs := seqs, trailer := trailer, issueNo := issueNo }] }
      : State).bumpUid

/-- Positions returned to READY with no rewrite counted (R122, R127). -/
def State.backToReady (s : State) (feed : Nat) (seqs : List Nat) : State :=
  s.mapCtx feed (fun c => { c with positions := c.positions.map (fun p =>
    if seqs.contains p.seq then
      { p with land := .ready, readySince := some s.now, dueRewrite := false, req := none }
    else p) })

/-! ### Landing CHECKs (R124, R125) -/

/-- A stored trailer and check word match what this station wrote for a position (R124). -/
def Position.matches (p : Position) (t : Trailer) (head : CheckWord) : Bool :=
  match p.wrote with
  | none => false
  | some (st, w) => t.seq == p.seq && t.state == some st && t.check == w && head == w

/-- A matching position becomes LANDED (R124). -/
def State.landedPos (s : State) (feed : Nat) (p : Position) : State :=
  let truncated := match p.wrote with
    | some (.truncated, _) => true
    | _ => false
  let s1 := s.mapCtx feed (fun c =>
    let d := (c.mapPos p.seq (fun p => { p with land := .landed, req := none })).countLanded
    if truncated then d.countTruncated else d)
  s1.completePos feed p.seq

/-- A position that does not match (R125): due for a rewrite, or LOST after its 4th rewrite. -/
def State.mismatchedPos (s : State) (feed : Nat) (p : Position) : State :=
  if p.rewrites < Config.maxRewrites then
    s.mapCtx feed (fun c => (c.mapPos p.seq (fun p =>
      { p with land := .ready, rewrites := p.rewrites + 1, dueRewrite := true,
               readySince := some s.now, req := none })).countRewrite)
  else
    (s.mapCtx feed (fun c => (c.mapPos p.seq (fun p =>
      { p with land := .lost, req := none })).countLost)).completePos feed p.seq

/-- One position of a landing CHECK judged by its entry of the answer (R124). -/
def State.judge (s : State) (feed uid : Nat) (x : SlotRef × Trailer × CheckWord) : State :=
  match s.pos? feed x.1.seq with
  | none => s
  | some p =>
    if p.req == some uid && p.land == .checking then
      if p.matches x.2.1 x.2.2 then s.landedPos feed p else s.mismatchedPos feed p
    else s

/-- A landing CHECK answered DONE: each position judged on its own, then the marks (R72, R124). -/
def State.landingChecked (s : State) (feed : Nat) (r : Request)
    (entries : List (Trailer × CheckWord)) : State :=
  (((r.slots.zip entries).foldl (fun s x => s.judge feed r.uid x) s).syncRewrite feed).afterDone feed

/-! ### Trailer CHECKs and fills (R105, R106) -/

/-- A fill becomes waiting for turn 3 (R106). -/
def State.awaitFill (s : State) (feed seq : Nat) : State :=
  let s1 := s.mapPos feed seq (fun p => { p with lost := .fill, req := none })
  { s1 with waitRewrites := s1.waitRewrites ++ [.fill feed seq] }

/-- A trailer CHECK of a lost procedure answered DONE (R105): a mirror's landed copy, another station's
declaration, or no landed copy. -/
def State.trailerRead (s : State) (feed seq : Nat) (t : Trailer) (head : CheckWord) : State :=
  if t.seq == seq && (t.state == some .present || t.state == some .truncated) && head == t.check then
    (s.mapCtx feed (fun c =>
      if t.state == some .truncated then c.countLanded.countTruncated else c.countLanded)).endLost
      feed seq .landed
  else if t.seq == seq && t.state == some .lost then
    (s.mapCtx feed FeedContext.countLost).endLost feed seq .lost
  else s.awaitFill feed seq

/-! ### Browse writes (R156 to R158) -/

/-- A browse job ends (R156): its position's browse state and feed count, and what completes by it. -/
def State.jobEnds (s : State) (j : Job) (st : BrowseState) (count : FeedContext → FeedContext) :
    State :=
  ((((s.removeJob j.uid).mapPos j.feed j.seq (fun p => { p with browse := some st })).mapCtx j.feed
    count).completePos j.feed j.seq).afterDone j.feed

/-- A browse write answered DONE (R156). -/
def State.jobWritten (s : State) (j : Job) : State :=
  match j.content with
  | .present => s.jobEnds j .done FeedContext.countBrowseDone
  | .missing => s.jobEnds j .done id
  | .failed => s.jobEnds j .done FeedContext.countBrowseFailed
  | .shed => s.jobEnds j .shed FeedContext.countBrowseShed

/-- A browse write met FULL or the storage timeout (R157, R158). -/
def State.jobFails (s : State) (j : Job) : State :=
  if j.content == .failed then s.jobEnds j .done FeedContext.countBrowseFailed
  else if !j.retrySpent then
    (s.mapJob j.uid (fun k => { k with retrySpent := true, inFlight := none })).readyWrite j.uid
  else match j.kind with
    | .withChunk =>
      (s.mapJob j.uid (fun k => { k with content := .failed, inFlight := none })).readyWrite j.uid
    | .chunkless => s.jobEnds j .done FeedContext.countBrowseFailed
    | .shedRecord => s.jobEnds j .shed FeedContext.countBrowseShed

/-! ### MARKs (R128, R140, R142) -/

/-- The context's ISSUED MARK is over, and one that fell due meanwhile waits now (R128). -/
def State.markOver (s : State) (feed : Nat) (again : Bool) : State :=
  let s1 := s.mapCtx feed (fun c => { c with markReq := none, markAgain := false })
  if again then s1.markFallsDue feed else s1

/-- A MARK answered DONE (R128, R140, R142): the linger of a FINAL or ABORTED context starts when the
contents carried its state; after the ABORTED mark no other is written. -/
def State.markDone (s : State) (feed : Nat) (c : FeedContext) (carries : MarkState) : State :=
  let s1 := s.markOver feed c.markAgain
  if c.state == .final && carries == .final then s1.startLinger feed
  else if c.state == .aborted && carries == .aborted then
    (s1.mapCtx feed (fun c => { c with storageEnded := true })).startLinger feed
  else s1

/-- A MARK refused DENIED or RANGE (R128, R129): an ACTIVE or CLOSING context is FAULTED; a FINAL or
ABORTED one issues no further request and lingers. -/
def State.markDenied (s : State) (feed : Nat) (c : FeedContext) : State :=
  if c.working then s.enterFaulted feed
  else
    let s1 := (s.mapCtx feed (fun c =>
      { c with markReq := none, markAgain := false, storageEnded := true })).startLinger feed
    { s1 with waitMarks := s1.waitMarks.filter (· != feed) }

/-! ### Outcomes handed to the owners -/

/-- What an owner is handed: an answer's outcome, or the storage timeout (R111, R114). -/
inductive Handed where
  | done | full | denied | timeout
  deriving DecidableEq, Repr

/-- DENIED and RANGE are taken alike (R129). -/
def AnswerOutcome.handed : AnswerOutcome → Handed
  | .done => .done
  | .full => .full
  | .denied | .range => .denied

/-- A landing or rewrite WRITE's outcome (R122). -/
def State.writeOutcome (s : State) (feed : Nat) (r : Request) (o : Handed) : State :=
  match o with
  | .done => s.awaitCheck feed (s.inRequest feed r.uid .landing) false 1
  | .full | .timeout => s.backToReady feed (s.inRequest feed r.uid .landing)
  | .denied => s.enterFaulted feed

/-- A fill's outcome (R106). -/
def State.fillOutcome (s : State) (feed : Nat) (r : Request) (o : Handed) : State :=
  match o, s.inRequest feed r.uid .checking with
  | .denied, _ => s.enterFaulted feed
  | _, [] => s
  | .done, q :: _ => (s.mapCtx feed FeedContext.countLost).endLost feed q .lost
  | .full, q :: _ | .timeout, q :: _ => s.awaitCheck feed [q] true 1

/-- A landing CHECK's outcome (R124, R127). -/
def State.checkOutcome (s : State) (feed : Nat) (r : Request)
    (entries : List (Trailer × CheckWord)) (o : Handed) : State :=
  match o with
  | .done => s.landingChecked feed r entries
  | .full => s.awaitCheck feed (s.inRequest feed r.uid .checking) false r.issueNo
  | .timeout =>
    if r.issueNo = 1 then s.awaitCheck feed (s.inRequest feed r.uid .checking) false 2
    else s.backToReady feed (s.inRequest feed r.uid .checking)
  | .denied => s.enterFaulted feed

/-- A trailer CHECK's outcome (R105). -/
def State.trailerOutcome (s : State) (feed : Nat) (r : Request)
    (entries : List (Trailer × CheckWord)) (o : Handed) : State :=
  match o, s.inRequest feed r.uid .checking with
  | .denied, _ => s.enterFaulted feed
  | _, [] => s
  | .done, q :: _ =>
    (match entries with
      | [] => s
      | x :: _ => s.trailerRead feed q x.1 x.2)
  | .full, q :: _ | .timeout, q :: _ => s.awaitCheck feed [q] true 1

/-- A MARK's outcome (R128). -/
def State.markOutcome (s : State) (feed : Nat) (carries : MarkState) (o : Handed) : State :=
  match s.ctx? feed with
  | none => s
  | some c =>
    match o with
    | .done => s.markDone feed c carries
    | .full | .timeout => s.markOver feed true
    | .denied => s.markDenied feed c

/-- A browse write's outcome (R156, R157). -/
def State.browseOutcome (s : State) (job : Nat) (o : Handed) : State :=
  match s.job? job with
  | none => s
  | some j =>
    match o with
    | .done => s.jobWritten j
    | .full | .timeout => s.jobFails j
    | .denied => s.enterFaulted j.feed

/-- A PROBE's outcome (R117): DONE clears the local hold; any other leaves it set. -/
def State.probeOutcome (s : State) (o : Handed) : State :=
  match o with
  | .done => s.clearLocalHold
  | .full | .denied | .timeout => s

/-- An outcome handed to the owner of the request's purpose (R113, R114). -/
def State.handToOwner (s : State) (r : Request) (entries : List (Trailer × CheckWord)) (o : Handed) :
    State :=
  match r.purpose, r.feed with
  | .landing, some f | .rewrite, some f => s.writeOutcome f r o
  | .fill, some f => s.fillOutcome f r o
  | .landingCheck, some f => s.checkOutcome f r entries o
  | .trailerCheck, some f => s.trailerOutcome f r entries o
  | .mark m, some f => s.markOutcome f m o
  | .browse j, _ => s.browseOutcome j o
  | .probe, _ => s.probeOutcome o
  | _, none => s

/-! ### Answers (R113, R116) -/

/-- What a taken answer does to the timeout run, the local hold and the counter (R113, R116). -/
def State.answerEffects (s : State) (o : AnswerOutcome) : State :=
  match o with
  | .done => { s with timeoutRun := 0 }
  | .full => s.countStorageRefusal.setLocalHold
  | .denied | .range => s.countStorageRefusal

/-- A storage answer taken, or ignored, by the rows of R113. -/
def State.takeAnswer (s : State) (a : StorageAnswer) : State :=
  match s.table[a.tag] with
  | .free => s
  | .stale _ _ => s
  | .issued r =>
    if r.purpose.kind != a.kind then s
    else if a.kind == .check && a.outcome == .done && a.entries.length != r.slots.length then s
    else
      let s1 := s.setEntry a.tag .free
      if s.owned r then (s1.answerEffects a.outcome).handToOwner r a.entries a.outcome.handed
      else s1

/-- The kind of a whole answer message (R189). -/
def messageKind (m : List Byte) : Option ReqKind := reqKindOf (field m 0 1)

/-- The oldest whole answer of a request kind is taken (R113, R189); none has arrived: nothing. -/
def State.takeAnswerOf (s : State) (k : ReqKind) : State :=
  match s.arrived.find? (fun m => messageKind m == some k) with
  | none => s
  | some m =>
    let s1 := { s with arrived := s.arrived.erase m }
    match parseAnswer m with
    | none => s1
    | some a => s1.takeAnswer a

/-- WRITE_ANSWER (R106, R122, R156). -/
def execWriteAnswer (s : State) : Host.Outcome State Fault Refusal := .next (s.takeAnswerOf .write)

/-- CHECK_ANSWER (R105, R124). -/
def execCheckAnswer (s : State) : Host.Outcome State Fault Refusal := .next (s.takeAnswerOf .check)

/-- MARK_ANSWER (R128). -/
def execMarkAnswer (s : State) : Host.Outcome State Fault Refusal := .next (s.takeAnswerOf .mark)

/-- PROBE_ANSWER (R117). -/
def execProbeAnswer (s : State) : Host.Outcome State Fault Refusal := .next (s.takeAnswerOf .probe)

/-! ### Timeouts (R114, R116, R117, R118) -/

/-- The timeout counted: the storage timeouts counter and the timeout run rise, and the local hold is
set when the run reaches 3 (R114, R116). -/
def State.countTimeout (s : State) : State :=
  let s1 := { s.countStorageTimeout with timeoutRun := s.timeoutRun + 1 }
  if s1.timeoutRun = Config.holdRun then s1.setLocalHold else s1

/-- An ISSUED entry reaches the storage timeout (R114): STALE for 2,000 ms, and the owner reacts. -/
def State.timesOut (s : State) (tag : Fin 16) : State :=
  match s.table[tag] with
  | .issued r =>
    if r.issueTime + Config.storageTimeout ≤ s.now then
      let s1 := s.countTimeout.setEntry tag (.stale r (s.now + Config.stalePeriod))
      if s.owned r then s1.handToOwner r [] .timeout else s1
    else s
  | .free => s
  | .stale _ _ => s

/-- STORAGE_TIMEOUT (R114). -/
def execStorageTimeout (tag : Fin 16) (s : State) : Host.Outcome State Fault Refusal :=
  .next (s.timesOut tag)

/-- The stale period of an entry ends and it becomes FREE (R114). -/
def State.staleEnds (s : State) (tag : Fin 16) : State :=
  match s.table[tag] with
  | .stale _ t => if t ≤ s.now then s.setEntry tag .free else s
  | .free => s
  | .issued _ => s

/-- STALE_PERIOD_END (R114). -/
def execStalePeriodEnd (tag : Fin 16) (s : State) : Host.Outcome State Fault Refusal :=
  .next (s.staleEnds tag)

/-- The probe timer expires (R117): a PROBE falls due unless one waits or is ISSUED, and the timer runs
on by the beacon period. -/
def State.probeTimerExpires (s : State) : State :=
  match s.probeTimer with
  | none => s
  | some t =>
    if t ≤ s.now then
      { s with probeTimer := some (t + s.settings.beaconPeriod),
               probeWaiting := s.probeWaiting || !s.probeIssued }
    else s

/-- PROBE_TIMER_EXPIRY (R117). -/
def execProbeTimerExpiry (s : State) : Host.Outcome State Fault Refusal := .next s.probeTimerExpires

/-- The start-up storage quiet time ends and issuing is allowed (R118). -/
def State.quietEnds (s : State) : State :=
  if s.reached s.quietUntil then { s with quietUntil := none } else s

/-- STORAGE_QUIET_TIME_END (R118). -/
def execStorageQuietTimeEnd (s : State) : Host.Outcome State Fault Refusal := .next s.quietEnds

/-! ### Answer fragments (R189) -/

/-- The byte at a place of a message, from the last fragment gathered that covers it. -/
def Gather.byteAt (g : Gather) (i : Nat) : Option Byte :=
  (g.pieces.reverse.find? (fun p => decide (p.1 ≤ i ∧ i < p.1 + p.2.length))).bind
    (fun p => p.2[i - p.1]?)

/-- The whole message, once every byte of it has been received (R189). -/
def Gather.message (g : Gather) : Option (List Byte) := (List.range g.total).mapM g.byteAt

/-- A fragment gathered under its tag (R189): the gathering goes on, or, with every byte received, the
message has arrived; one of no request kind is ignored there (R113). -/
def State.gather (s : State) (g : Gather) : State :=
  let rest := s.gathers.filter (fun x => x.tag != g.tag)
  match g.message with
  | none => { s with gathers := rest ++ [g] }
  | some m =>
    { s with gathers := rest,
             arrived := if (messageKind m).isSome then s.arrived ++ [m] else s.arrived }

/-- A storage frame received (R189): of another type, over 9,000 bytes or shorter than its header it is
discarded; a total length that disagrees with earlier fragments of the tag discards what has been
gathered for it and is itself dropped (log 3). In SETUP FAULT no answer is taken (R132); in LOADING the spec
does not say whether fragments are gathered, and the model drops them (log 36). -/
def State.takeFragment (s : State) (f : Frame) : State :=
  if !s.operating || f.ftype != Config.storageType || decide (Config.storageFrameMax < f.body.length)
      || decide (f.body.length < Config.fragmentHeader) then s
  else
    let tag := byteAt f.body 0
    let piece := (field f.body 4 4, f.body.drop Config.fragmentHeader)
    let total := field f.body 8 4
    match s.gathers.find? (fun g => g.tag == tag) with
    | none => s.gather { tag := tag, total := total, pieces := [piece] }
    | some g =>
      if g.total = total then s.gather { g with pieces := g.pieces ++ [piece] }
      else { s with gathers := s.gathers.filter (fun x => x.tag != tag) }

/-- STORAGE_FRAGMENT_RECEIVED (R189). -/
def execStorageFragmentReceived (f : Frame) (s : State) : Host.Outcome State Fault Refusal :=
  .next (s.takeFragment f)

end Sys2Proof.Machine
end

