-- ==== Sys2Proof/Machine/Startup.lean ====
section
/-! DEFINITION. The Configuration Loader: the resets and the station states (R174, R177 to R183), the
move to LIVE (R91, R183) and the maintenance line (R184, R185), with the commands POWER_RESET,
LOADING_COMPLETE, CAPTURE_LINK_LOST, CAPTURE_LINK_RETURN, LISTENING_PERIOD_END, READ_STATUS,
READ_RECORD, WRITE_RECORD, RECORD_WRITE_COMPLETE and MAINTENANCE_ANSWER_SENT. -/

namespace Sys2Proof.Machine

/-! ### The configuration memory -/

/-- The 64 bytes of a memory, 0 where it holds fewer. -/
def recordBytes (b : List Byte) : List Byte := (List.range 64).map (byteAt b)

/-- The memory after a record write that did not complete (R185): each byte the new record's or the
old one's, freely (log 7). A memory that holds part of the one and part of the other fails its check
word; where the free choice would make one that agrees, the memory holds the old record. -/
def mixedRecord (draw : Nat) (old new : List Byte) : List Byte :=
  let m := (List.range 64).map (fun i => if Config.recordMix draw i then byteAt new i else byteAt old i)
  if m != recordBytes new && recordCheckOk m then recordBytes old else m

/-- A record write in progress ends without completing (R185). -/
def State.writeCutOff (s : State) : State :=
  match s.recordWrite with
  | none => s
  | some r =>
    { s with confMem := mixedRecord s.draws s.confMem r, draws := s.draws + 1, recordWrite := none }

/-! ### POWER (R177) -/

/-- A POWER reset (R177): LOADING, and every state of the part at its POWER value. The configuration
memory stands beside the part and keeps what it holds; the capture link is not the part's (log 2). An
answer waiting on the maintenance line is dropped (log 20), and LOADING shows no fault reason (log 2). -/
def State.powerReset (s : State) : State :=
  let cut := s.writeCutOff
  { State.reset with
    pending := s.pending, now := s.now, nextUid := s.nextUid, draws := cut.draws,
    linkUp := s.linkUp, confMem := cut.confMem }

/-- POWER_RESET (R177). -/
def execPowerReset (s : State) : Host.Outcome State Fault Refusal := .next s.powerReset

/-! ### Entries (R28, R118, R180, R183) -/

/-- The entry to LISTENING: a LISTENING period starts, and the beacon timer with a beacon due at once. -/
def State.enterListening (s : State) : State :=
  ({ s with station := .listening, listenUntil := some (s.now + Config.listeningPeriod) }
    : State).startBeacons

/-- The start-up storage quiet time starts (R118). -/
def State.startQuiet (s : State) : State := { s with quietUntil := some (s.now + Config.quietTime) }

/-- Loading finds a fault (R177, R179): SETUP FAULT, with its reason. -/
def State.setupFault (s : State) (r : FaultReason) : State :=
  { s with station := .setupFault, faultReason := some r }

/-- Loading ends well (R177, R178, R180): the settings are loaded, and the station enters LISTENING or
DETACHED with the quiet time. -/
def State.loadedWell (s : State) : State :=
  let s1 := ({ s with settings := loadSettings s.confMem, clamped := loadClamped s.confMem }
    : State).startQuiet
  if s.linkUp then s1.enterListening else { s1 with station := .detached }

/-- The loader's completion event (R177), by the findings in their order. -/
def State.loadingCompletes (s : State) (memoryAnswers : Bool) : State :=
  if s.station != .loading then s
  else if !memoryAnswers then s.setupFault .recordCheck
  else match recordFault s.confMem with
    | some r => s.setupFault r
    | none => s.loadedWell

/-- LOADING_COMPLETE (R177). -/
def execLoadingComplete (memoryAnswers : Bool) (s : State) : Host.Outcome State Fault Refusal :=
  .next (s.loadingCompletes memoryAnswers)

/-! ### STATION RESET (R174) -/

/-- A STATION RESET (R174): every state at its start-up value but the configuration record as loaded;
LISTENING starts, with the quiet time. The maintenance line and the configuration memory, which serve
the record, go on (log 20). -/
def State.stationReset (s : State) : State :=
  ({ State.reset with
      pending := s.pending, now := s.now, nextUid := s.nextUid, draws := s.draws, linkUp := s.linkUp,
      settings := s.settings, clamped := s.clamped, confMem := s.confMem,
      recordWrite := s.recordWrite, maintAnswers := s.maintAnswers, maintTx := s.maintTx,
      captureTx := s.captureTx, storageTx := s.storageTx } : State).startQuiet.enterListening

/-! ### DETACHED (R181) -/

/-- The entry to DETACHED from LISTENING or LIVE (R181): the beacon timer and a LISTENING period stop,
and the transmit queue and the pending answers are emptied. -/
def State.detach (s : State) : State :=
  { s with station := .detached, beaconTimer := none, beaconWaiting := false, askQueue := [],
           mendQueue := [], answers := [], listenUntil := none }

/-- The capture link is lost (R181); in the other states it is only observed (R179, R180). -/
def State.linkLost (s : State) : State :=
  let s1 := { s with linkUp := false }
  if s.receives then s1.detach else s1

/-- CAPTURE_LINK_LOST (R181). -/
def execCaptureLinkLost (s : State) : Host.Outcome State Fault Refusal := .next s.linkLost

/-! ### REJOIN (R182) -/

/-- The asking side starts afresh on every kept position (R110). -/
def State.stopGapWaits (s : State) : State :=
  { s with contexts := s.contexts.map (fun c =>
      { c with positions := c.positions.map (fun p =>
        { p with gapWait := none, attempts := 0, restarts := 0 }) }) }

/-- Every adopted triple leaves the adopted set (R44, R182). -/
def State.releaseAll (s : State) : State := s.adopted.foldl (fun s t => s.releaseTriple t) s

/-- Every context removed with no mark written and no closed identity (R24). -/
def State.removeAll (s : State) : State :=
  { s.feeds.foldl (fun s f => s.removeContext f) s with adopted := [] }

/-- A REJOIN (R182). The station shows LISTENING from its start, so that no position is created while
the adopted ways are withdrawn (R91). -/
def State.rejoin (s : State) : State :=
  let s1 := { s with station := .listening, peers := [] }
  (if s.settings.keepContexts then s1.releaseAll.stopGapWaits else s1.removeAll).enterListening

/-- The capture link is observed again (R182): a REJOIN in DETACHED. -/
def State.linkReturns (s : State) : State :=
  let s1 := { s with linkUp := true }
  if s.station == .detached then s1.rejoin else s1

/-- CAPTURE_LINK_RETURN (R182). -/
def execCaptureLinkReturn (s : State) : Host.Outcome State Fault Refusal := .next s.linkReturns

/-! ### The move to LIVE (R91, R183) -/

/-- The existing positions of a context in ABSENT or GATHERING look up the ring again (R91). -/
def State.lookAgain (s : State) (feed : Nat) : State :=
  match s.ctx? feed with
  | none => s
  | some c =>
    ((c.positions.filter Position.empty).map (·.seq)).foldl (fun s q => s.lookup feed q) s

/-- The window of a context brought up to date at the move to LIVE, and the gap wait condition tested on
every position (R91). The spec gives no order to the hand-overs of the one recomputation: the existing
positions look up first, then the created ones (log 28). -/
def State.updateWindow (s : State) (feed : Nat) : State :=
  ((s.lookAgain feed).buildWindow feed).gapTest feed

/-- The move to LIVE (R183): the windows, then the search for orphans, then the commits (R47). -/
def State.goLive (s : State) : State :=
  let s1 := { s with station := .live, listenUntil := none }
  ((s1.feeds.foldl (fun s f => s.updateWindow f) s1).searchOrphans).recomputeCommits

/-- The LISTENING period ends (R183): the station goes LIVE, or stays where DUPLICATE NUMBER is
latched (R37). -/
def State.listeningEnds (s : State) : State :=
  if s.station == .listening && s.reached s.listenUntil then
    if s.dupNumber then { s with listenUntil := none } else s.goLive
  else s

/-- LISTENING_PERIOD_END (R183). -/
def execListeningPeriodEnd (s : State) : Host.Outcome State Fault Refusal := .next s.listeningEnds

/-! ### The maintenance line (R184, R185) -/

/-- An answer waits to be sent on the maintenance line. -/
def State.answerLine (s : State) (a : MaintAnswer) : State :=
  { s with maintAnswers := s.maintAnswers ++ [a] }

/-- A command is discarded (R184): the answer to the last has not been sent, and no record write is in
progress. -/
def State.lineBusy (s : State) : Bool := s.recordWrite.isNone && !s.maintAnswers.isEmpty

/-- READ STATUS (R184). The answer is formed when the command is taken; the spec does not say whether
then or when it is sent (log 31). -/
def State.readStatus (s : State) : State :=
  if s.lineBusy then s
  else s.answerLine (.status s.station s.faultReason s.clamped s.recordWrite.isSome)

/-- READ RECORD (R184). -/
def State.readRecord (s : State) (readOk : Bool) : State :=
  if s.lineBusy then s
  else if s.recordWrite.isSome || s.station == .loading then s.answerLine .busy
  else s.answerLine (if readOk then .record s.confMem else .failed)

/-- WRITE RECORD (R185). -/
def State.writeRecord (s : State) (record : List Byte) : State :=
  if s.lineBusy then s
  else if s.recordWrite.isSome || s.station == .loading then s.answerLine .busy
  else if !recordCheckOk record then s.answerLine .badCheck
  else { s with recordWrite := some record }

/-- The record write in progress ends (R185): DONE with the record in the memory, or FAILED. -/
def State.recordWritten (s : State) (completed : Bool) : State :=
  match s.recordWrite with
  | none => s
  | some r =>
    if completed then ({ s with confMem := r, recordWrite := none } : State).answerLine .done
    else s.writeCutOff.answerLine .failed

/-- The oldest answer has been sent (R184). -/
def State.answerSent (s : State) : State :=
  match s.maintAnswers with
  | [] => s
  | a :: rest => { s with maintAnswers := rest, maintTx := some a }

/-- READ_STATUS (R184). -/
def execReadStatus (s : State) : Host.Outcome State Fault Refusal := .next s.readStatus

/-- READ_RECORD (R184). -/
def execReadRecord (readOk : Bool) (s : State) : Host.Outcome State Fault Refusal :=
  .next (s.readRecord readOk)

/-- WRITE_RECORD (R185). -/
def execWriteRecord (record : List Byte) (s : State) : Host.Outcome State Fault Refusal :=
  .next (s.writeRecord record)

/-- RECORD_WRITE_COMPLETE (R185). -/
def execRecordWriteComplete (completed : Bool) (s : State) : Host.Outcome State Fault Refusal :=
  .next (s.recordWritten completed)

/-- MAINTENANCE_ANSWER_SENT (R184). -/
def execMaintenanceAnswerSent (s : State) : Host.Outcome State Fault Refusal := .next s.answerSent

end Sys2Proof.Machine
end

