-- ==== Sys2Proof/Machine/Directive.lean ====
section
/-! DEFINITION. The Directive Unit: the directive holds (R169, R170, R173), STATION RESET (R174) and
handing each well-formed directive on (R166, R167). -/

namespace Sys2Proof.Machine

/-- A HOLD (R169): the named holds of the feed's context are set; its shed ages stand still under a
browse hold (R159). -/
def State.applyHold (s : State) (feed : Nat) (land browse : Bool) : State :=
  match s.ctx? feed with
  | none => s
  | some _ =>
    let s1 := s.mapCtx feed (fun c =>
      { c with landHold := c.landHold || land, browseHold := c.browseHold || browse })
    if browse then s1.syncShedAges else s1

/-- What follows when a RELEASE ends a land hold in force (R173). -/
def State.landLifted (s : State) (feed : Nat) (was : Bool) : State :=
  if was && !s.localHold then s.noteDelay feed else s

/-- What follows when a RELEASE ends a browse hold in force (R160, R173). -/
def State.browseLifted (s : State) (was : Bool) : State :=
  if was && !s.localHold then s.syncShedAges.wakeChunkless else s

/-- A RELEASE (R169): the named holds of the feed's context are cleared, with what follows where a hold
ceases to be in force (R173). -/
def State.applyRelease (s : State) (feed : Nat) (land browse : Bool) : State :=
  match s.ctx? feed with
  | none => s
  | some c =>
    ((s.mapCtx feed (fun c =>
      { c with landHold := c.landHold && !land, browseHold := c.browseHold && !browse })).landLifted
        feed (land && c.landHold)).browseLifted (browse && c.browseHold)

/-- A well-formed directive handed on (R167). -/
def State.applyDirective (s : State) (d : Directive) : State :=
  match d with
  | .openFeed feed p => s.openContext feed p
  | .closeFeed feed e => s.closeContext feed e
  | .abortFeed feed => s.abortContext feed
  | .hold feed land browse => s.applyHold feed land browse
  | .release feed land browse => s.applyRelease feed land browse
  | .stationReset n => if n == s.settings.station then s.stationReset else s

/-- A received directive (R166): discarded where it fails a check of form. -/
def State.receiveDirective (s : State) (body : List Byte) : State :=
  match parseDirective body with
  | none => s
  | some d => s.applyDirective d

end Sys2Proof.Machine
end

