-- ==== Sys2Proof/Machine/Intake.lean ====
section
/-! DEFINITION. Cell Intake and the Retention Ring: the checks of a cell (R51, R52), its steps (R53),
placing it (R55 to R58), making room (R65 to R67) and the reports (R59, R66). -/

namespace Sys2Proof.Machine

/-! ### The checks (R51, R52) -/

/-- The sender fields agree with the kind (R51): a feed cell from GATEWAY 0, a mend cell from STATION
1 to 8. -/
def Cell.senderOk (c : Cell) (mend : Bool) : Bool :=
  if mend then c.senderKind == 1 && decide (1 ≤ c.senderNumber ∧ c.senderNumber ≤ 8)
  else c.senderKind == 0 && c.senderNumber == 0

/-- The content fields are in range (R52). -/
def Cell.contentOk (c : Cell) : Bool :=
  let n := c.hdr.cells
  let l := c.hdr.length
  decide (c.feed < Config.feeds ∧ 1 ≤ n ∧ n ≤ 128 ∧ c.index < n
    ∧ 1 ≤ l ∧ l ≤ 1048576 ∧ (n - 1) * 8192 < l ∧ l ≤ n * 8192
    ∧ c.payload.length = (if c.index < n - 1 then 8192 else l - (n - 1) * 8192)
    ∧ 1 ≤ c.hdr.frames ∧ c.hdr.frames ≤ 64
    ∧ c.hdr.first + c.hdr.frames - 1 ≤ 4294967295)

/-! ### Making room (R65, R66) -/

/-- The report that an entry has left the ring (R66): to the window and to the Mend Unit. -/
def State.reportRemoval (s : State) (feed seq : Nat) : State :=
  (s.reportRemoved feed seq).cancelAnswers feed seq

/-- An entry removed with its report. -/
def State.removeEntry (s : State) (feed seq : Nat) : State :=
  (s.dropEntry feed seq).reportRemoval feed seq

/-- The oldest candidate for eviction (R65): not pinned, and not the arriving cell's own entry. -/
def State.victim (s : State) (feed seq : Nat) : Option RingEntry :=
  s.ring.find? (fun e => e.pins == 0 && !(e.feed == feed && e.seq == seq))

/-- The arriving cell has what it needs (R65): a free buffer, and a place where it makes an entry. -/
def State.hasRoom (s : State) (newEntry : Bool) : Bool :=
  decide (s.buffersUsed < Config.poolBuffers)
    && (!newEntry || decide (s.ring.length < Config.ringEntries))

/-- Eviction repeated until there is room or no candidate is left (R65); `fuel` is the number of
entries, each of which can be evicted once. -/
def State.evict (feed seq : Nat) (newEntry : Bool) : Nat → State → State
  | 0, s => s
  | fuel + 1, s =>
    if s.hasRoom newEntry then s
    else match s.victim feed seq with
      | none => s
      | some e => State.evict feed seq newEntry fuel (s.removeEntry e.feed e.seq)

/-- Room made for a cell (R65). -/
def State.makeRoom (s : State) (feed seq : Nat) (newEntry : Bool) : State :=
  State.evict feed seq newEntry s.ring.length s

/-- A cell dropped for want of room (R67). -/
def State.dropCell (s : State) (feed : Nat) : State :=
  s.countPoolOverrun.mapCtx feed FeedContext.latchPoolOverrun

/-! ### Completion (R58, R59) -/

/-- The received set of an entry holds all its indexes. -/
def RingEntry.full (e : RingEntry) : Bool := e.cells.length == e.hdr.cells

/-- A WHOLE entry with the LAST flag is a candidate for E (R15, R59). -/
def State.reportLast (s : State) (feed seq : Nat) (h : ChunkHeader) : State :=
  if h.last then s.takeEnd feed seq else s

/-- An entry whose received set is full is checked (R58): it becomes WHOLE and is reported (R59), or it
is removed. -/
def State.checkChunk (s : State) (feed seq : Nat) : State :=
  match s.entry? feed seq with
  | none => s
  | some e =>
    if e.full && !e.whole then
      if checkWord e.payload == e.hdr.check then
        ((s.mapEntry feed seq (fun e => { e with whole := true })).reportWhole feed seq
          e.hdr).reportLast feed seq e.hdr
      else s.removeEntry feed seq
    else s

/-! ### Placing a cell (R55 to R57) -/

/-- A cell buffer put in its place among an entry's cells, in ascending index. -/
def insertCell (i : Nat) (payload : List Byte) : List (Nat × List Byte) → List (Nat × List Byte)
  | [] => [(i, payload)]
  | c :: rest => if i < c.1 then (i, payload) :: c :: rest else c :: insertCell i payload rest

/-- A cell with no entry creates one at the newest place (R55). -/
def State.createEntry (s : State) (c : Cell) : State :=
  let s1 := s.makeRoom c.feed c.seq true
  if s1.hasRoom true then
    let e : RingEntry :=
      { feed := c.feed, seq := c.seq, whole := false, hdr := c.hdr,
        cells := [(c.index, c.payload)], pins := 0 }
    ((({ s1 with ring := s1.ring ++ [e] } : State).countAccepted).reportCreated c.feed
      c.seq).checkChunk c.feed c.seq
  else s1.dropCell c.feed

/-- A cell that agrees with its PARTIAL entry and brings a new index is stored (R57). -/
def State.storeCell (s : State) (c : Cell) : State :=
  let s1 := s.makeRoom c.feed c.seq false
  if s1.hasRoom false then
    ((s1.mapEntry c.feed c.seq (fun e =>
      { e with cells := insertCell c.index c.payload e.cells })).countAccepted).checkChunk c.feed c.seq
  else s1.dropCell c.feed

/-- A cell placed in the ring (R55, R56, R57). -/
def State.placeCell (s : State) (c : Cell) : State :=
  match s.entry? c.feed c.seq with
  | none => s.createEntry c
  | some e =>
    if e.hdr != c.hdr then s.countMismatch
    else if e.whole || (e.cells.map (·.1)).contains c.index then s
    else s.storeCell c

/-! ### The steps of a well-formed cell (R53) -/

/-- A sequence number below C offered as a sighting (R20): H rises to it, the allotment is assessed and
the gap wait condition tested. -/
def State.sight (s : State) (feed seq : Nat) : State :=
  match s.ctx? feed with
  | none => s
  | some c =>
    if seq < c.params.slotCount ∧ Mark.ord c.h ≤ seq then
      (s.mapCtx feed (fun c =>
        ({ c with h := some seq } : FeedContext).assessAllotment s.settings.margin)).gapTest feed
    else s

/-- The steps of R53 after the mend report: a cell at or beyond C of a feed with a context latches LAND
OVERRUN and goes no further (R21); otherwise it is a sighting and is placed. -/
def State.takeCell (s : State) (c : Cell) : State :=
  match s.ctx? c.feed with
  | some x =>
    if x.params.slotCount ≤ c.seq then s.mapCtx c.feed FeedContext.latchLandOverrun
    else (s.sight c.feed c.seq).placeCell c
  | none => s.placeCell c

/-- A received cell (R51 to R53): malformed and counted, or, a mend cell first reported to the Mend
Unit, taken through its steps. -/
def State.intakeCell (s : State) (mend : Bool) (body : List Byte) : State :=
  match parseCell body with
  | none => s.countMalformed
  | some c =>
    if c.senderOk mend && c.contentOk then
      (if mend then s.seeMendCell c.feed c.seq c.index else s).takeCell c
    else s.countMalformed

end Sys2Proof.Machine
end

