-- ==== Sys2Proof/Machine/Receive.lean ====
section
/-! DEFINITION. The receive side of the capture port (R49, R50) and the receive commands. The hardware
sorts a frame by the frame's own bytes, so every receive command hands its frame to the one sorter
(log 10); Instr.wellFormed holds the command's name to the frame. -/

namespace Sys2Proof.Machine

/-- A received mend ask (R97), too short ones discarded (R186). -/
def State.receiveAsk (s : State) (body : List Byte) : State :=
  match parseAsk body with
  | none => s
  | some a => s.takeAsk a

/-- A frame of the segment group address handed on by its kind code (R49); any other code is counted
malformed. -/
def State.sortFrame (s : State) (f : Frame) : State :=
  match f.body[0]? with
  | none => s.countMalformed
  | some k =>
    if k = 0x01#8 then s.intakeCell false f.body
    else if k = 0x02#8 then s.intakeCell true f.body
    else if k = 0x03#8 then s.receiveBeacon f.body
    else if k = 0x04#8 then s.receiveAsk f.body
    else if k = 0x05#8 then s.receiveDirective f.body
    else s.countMalformed

/-- A whole frame received on the capture port (R49, R50): handed on in LISTENING and LIVE alone; of
another type, discarded; to another address, counted malformed. -/
def State.receiveFrame (s : State) (f : Frame) : State :=
  if !s.receives then s
  else if f.ftype != Config.captureType then s
  else if f.dest != s.settings.groupAddr then s.countMalformed
  else s.sortFrame f

/-- UNSORTED_SEGMENT_FRAME (R49). -/
def execUnsortedSegmentFrame (f : Frame) (s : State) : Host.Outcome State Fault Refusal :=
  .next (s.receiveFrame f)

/-- FEED_CELL (R53). -/
def execFeedCell (f : Frame) (s : State) : Host.Outcome State Fault Refusal :=
  .next (s.receiveFrame f)

/-- MEND_CELL (R53). -/
def execMendCell (f : Frame) (s : State) : Host.Outcome State Fault Refusal :=
  .next (s.receiveFrame f)

/-- BEACON (R47). -/
def execBeacon (f : Frame) (s : State) : Host.Outcome State Fault Refusal :=
  .next (s.receiveFrame f)

/-- MEND_ASK (R97). -/
def execMendAsk (f : Frame) (s : State) : Host.Outcome State Fault Refusal :=
  .next (s.receiveFrame f)

/-- OPEN (R10). -/
def execOpenFeed (f : Frame) (s : State) : Host.Outcome State Fault Refusal :=
  .next (s.receiveFrame f)

/-- CLOSE (R14). -/
def execCloseFeed (f : Frame) (s : State) : Host.Outcome State Fault Refusal :=
  .next (s.receiveFrame f)

/-- ABORT (R16). -/
def execAbortFeed (f : Frame) (s : State) : Host.Outcome State Fault Refusal :=
  .next (s.receiveFrame f)

/-- HOLD_LAND (R169). -/
def execHoldLand (f : Frame) (s : State) : Host.Outcome State Fault Refusal :=
  .next (s.receiveFrame f)

/-- HOLD_BROWSE (R169). -/
def execHoldBrowse (f : Frame) (s : State) : Host.Outcome State Fault Refusal :=
  .next (s.receiveFrame f)

/-- HOLD_BOTH (R169). -/
def execHoldBoth (f : Frame) (s : State) : Host.Outcome State Fault Refusal :=
  .next (s.receiveFrame f)

/-- RELEASE_LAND (R169). -/
def execReleaseLand (f : Frame) (s : State) : Host.Outcome State Fault Refusal :=
  .next (s.receiveFrame f)

/-- RELEASE_BROWSE (R169). -/
def execReleaseBrowse (f : Frame) (s : State) : Host.Outcome State Fault Refusal :=
  .next (s.receiveFrame f)

/-- RELEASE_BOTH (R169). -/
def execReleaseBoth (f : Frame) (s : State) : Host.Outcome State Fault Refusal :=
  .next (s.receiveFrame f)

/-- STATION_RESET (R174). -/
def execStationReset (f : Frame) (s : State) : Host.Outcome State Fault Refusal :=
  .next (s.receiveFrame f)

end Sys2Proof.Machine
end

