-- ==== Sys2Proof/Machine/Dispatch.lean ====
section
/-! DEFINITION. The dispatch: one arm per command, each a direct call of its meaning. -/

namespace Sys2Proof.Machine

def exec (i : Instr) (s : State) : Host.Outcome State Fault Refusal :=
  match i with
  | .powerReset => Sys2Proof.Machine.execPowerReset s
  | .loadingComplete b => Sys2Proof.Machine.execLoadingComplete b s
  | .storageQuietTimeEnd => Sys2Proof.Machine.execStorageQuietTimeEnd s
  | .captureLinkLost => Sys2Proof.Machine.execCaptureLinkLost s
  | .captureLinkReturn => Sys2Proof.Machine.execCaptureLinkReturn s
  | .listeningPeriodEnd => Sys2Proof.Machine.execListeningPeriodEnd s
  | .beaconTimerExpiry => Sys2Proof.Machine.execBeaconTimerExpiry s
  | .portTransmit => Sys2Proof.Machine.execPortTransmit s
  | .unsortedSegmentFrame f => Sys2Proof.Machine.execUnsortedSegmentFrame f s
  | .feedCell f => Sys2Proof.Machine.execFeedCell f s
  | .mendCell f => Sys2Proof.Machine.execMendCell f s
  | .beacon f => Sys2Proof.Machine.execBeacon f s
  | .peerSilent number => Sys2Proof.Machine.execPeerSilent number s
  | .peerRemoved number => Sys2Proof.Machine.execPeerRemoved number s
  | .mendAsk f => Sys2Proof.Machine.execMendAsk f s
  | .answerBackoffExpiry feed seq => Sys2Proof.Machine.execAnswerBackoffExpiry feed seq s
  | .gapWaitExpiry feed seq => Sys2Proof.Machine.execGapWaitExpiry feed seq s
  | .openFeed f => Sys2Proof.Machine.execOpenFeed f s
  | .closeFeed f => Sys2Proof.Machine.execCloseFeed f s
  | .abortFeed f => Sys2Proof.Machine.execAbortFeed f s
  | .holdLand f => Sys2Proof.Machine.execHoldLand f s
  | .holdBrowse f => Sys2Proof.Machine.execHoldBrowse f s
  | .holdBoth f => Sys2Proof.Machine.execHoldBoth f s
  | .releaseLand f => Sys2Proof.Machine.execReleaseLand f s
  | .releaseBrowse f => Sys2Proof.Machine.execReleaseBrowse f s
  | .releaseBoth f => Sys2Proof.Machine.execReleaseBoth f s
  | .stationReset f => Sys2Proof.Machine.execStationReset f s
  | .storageIssue => Sys2Proof.Machine.execStorageIssue s
  | .writeAnswer => Sys2Proof.Machine.execWriteAnswer s
  | .checkAnswer => Sys2Proof.Machine.execCheckAnswer s
  | .markAnswer => Sys2Proof.Machine.execMarkAnswer s
  | .probeAnswer => Sys2Proof.Machine.execProbeAnswer s
  | .storageTimeout tag => Sys2Proof.Machine.execStorageTimeout tag s
  | .stalePeriodEnd tag => Sys2Proof.Machine.execStalePeriodEnd tag s
  | .probeTimerExpiry => Sys2Proof.Machine.execProbeTimerExpiry s
  | .lingerExpiry feed => Sys2Proof.Machine.execLingerExpiry feed s
  | .pacingTimerExpiry feed => Sys2Proof.Machine.execPacingTimerExpiry feed s
  | .landingDelayReached feed => Sys2Proof.Machine.execLandingDelayReached feed s
  | .browseQueueEntry => Sys2Proof.Machine.execBrowseQueueEntry s
  | .reducerTakesJob => Sys2Proof.Machine.execReducerTakesJob s
  | .decodeComplete ps => Sys2Proof.Machine.execDecodeComplete ps s
  | .shedAgeExpiry feed seq => Sys2Proof.Machine.execShedAgeExpiry feed seq s
  | .readStatus => Sys2Proof.Machine.execReadStatus s
  | .readRecord b => Sys2Proof.Machine.execReadRecord b s
  | .writeRecord r => Sys2Proof.Machine.execWriteRecord r s
  | .recordWriteComplete b => Sys2Proof.Machine.execRecordWriteComplete b s
  | .storageFragmentReceived f => Sys2Proof.Machine.execStorageFragmentReceived f s
  | .maintenanceAnswerSent => Sys2Proof.Machine.execMaintenanceAnswerSent s

end Sys2Proof.Machine
end

