-- ==== Sys2Proof/Machine/Step.lean ====
section
/-! DEFINITION. One step: the command at the front of the queue, or, on an empty queue, a tick of the
model's clock (log 1); and the interface's withFetchWord. -/

namespace Sys2Proof.Machine

/-- One millisecond passes. -/
def State.tick (s : State) : State := { s with now := s.now + 1 }

/-- The command at the front of the queue is taken with the queue's rest; on an empty queue a
millisecond passes. -/
def step (s : State) : Host.Outcome State Fault Refusal :=
  match s.pending with
  | [] => .next s.tick
  | c :: rest => exec c { s with pending := rest }

/-- A command put at the front of the queue. -/
def State.enqueueFront (s : State) (c : Instr) : State := { s with pending := c :: s.pending }

/-- The command a word of the table spells put at the front of the queue; no word spells one (log 12),
and the state is then as it was. -/
def State.withFetchWord (s : State) (nbits w : Nat) : State :=
  match decodeTableWord nbits w with
  | none => s
  | some c => s.enqueueFront c

end Sys2Proof.Machine
end

