-- ==== Sys2Proof/Safety.lean ====
section
/-! DEFINITION. What a safe state is: the bounds and the consistency that the spec says every state of
the station has. Each is a property of any state, so a claim may take one as its premise. -/

namespace Sys2Proof.Machine

/-- The Feed Context Table (R1): at most 32 contexts, at most one for a feed, feeds 0 to 63. -/
abbrev State.TableOk (s : State) : Prop :=
  s.feeds.Pairwise (· < ·) ∧ s.contexts.length ≤ Config.maxContexts ∧ ∀ f ∈ s.feeds, f < Config.feeds

/-- The key of a ring entry (R54). -/
abbrev RingEntry.key (e : RingEntry) : Nat × Nat := (e.feed, e.seq)

/-- The Retention Ring (R54, R61, R62, R63): at most one entry for a chunk, at most 16,384 entries, at
most 131,072 buffers in use; the indexes of an entry ascending, none twice, below its cell count; a WHOLE
entry has all of them, and only a WHOLE entry is pinned. -/
abbrev State.RingOk (s : State) : Prop :=
  (s.ring.map RingEntry.key).Nodup ∧ s.ring.length ≤ Config.ringEntries
    ∧ s.buffersUsed ≤ Config.poolBuffers
    ∧ ∀ e ∈ s.ring, (e.cells.map (·.1)).Pairwise (· < ·) ∧ (∀ i ∈ e.cells.map (·.1), i < e.hdr.cells)
        ∧ (e.whole = true → e.cells.length = e.hdr.cells) ∧ (0 < e.pins → e.whole = true)

/-- The adopted set (R39): each triple once, at most 16, each with a context that shows it adopted. -/
abbrev State.AdoptedOk (s : State) : Prop :=
  s.adopted.Nodup ∧ s.adopted.length ≤ Config.maxAdopted
    ∧ ∀ t ∈ s.adopted, (s.ctx? t.feed).map (fun c => c.kindOf t.kind t.way) = some .adopted

/-- The Peer Table (R33, R34): one entry for a number, numbers 1 to 8 other than this station's, and no
feed record in an entry in LISTENING. -/
abbrev State.PeersOk (s : State) : Prop :=
  (s.peers.map (·.number)).Pairwise (· < ·)
    ∧ ∀ p ∈ s.peers, 1 ≤ p.number ∧ p.number ≤ 8 ∧ p.number ≠ s.settings.station
        ∧ (p.state = .listening → p.records = [])

/-- The pending-answer table (R103) and the browse queue (R152) within their sizes. -/
abbrev State.QueuesOk (s : State) : Prop :=
  s.answers.length ≤ Config.maxAnswers ∧ s.queueJobs.length ≤ Config.browseQueue

/-- The transmit queue (R92, R181): empty, with the beacon timer stopped and no pending answer, unless
the station is LISTENING or LIVE; and mend asks wait in LIVE alone. -/
abbrev State.TransmitOk (s : State) : Prop :=
  (s.receives = false → s.beaconTimer = none ∧ s.beaconWaiting = false ∧ s.mendQueue = []
      ∧ s.answers = [])
    ∧ (s.station ≠ .live → s.askQueue = [])

/-- A station that is LOADING or in SETUP FAULT (R179, R132, R165): no context, range, ring entry, peer
entry, adopted triple or browse job, an empty Storage Request Table and a clear local hold. -/
abbrev State.SilentOk (s : State) : Prop :=
  s.station = .loading ∨ s.station = .setupFault →
    s.contexts = [] ∧ s.settings.ranges = [] ∧ s.ring = [] ∧ s.peers = [] ∧ s.adopted = []
      ∧ s.table = Vector.replicate 16 .free ∧ s.localHold = false
      ∧ s.waitJobs = [] ∧ s.queueJobs = [] ∧ s.shedJobs = []

/-- A sequence number lies in the span of 512 above a context's lowest held mark, below C and not above E
(R73, R74). -/
abbrev FeedContext.SpanHas (c : FeedContext) (seq : Nat) : Prop :=
  (∃ m ∈ c.heldMarks, (∀ n ∈ c.heldMarks, Mark.ord m ≤ Mark.ord n)
      ∧ Mark.ord m ≤ seq ∧ seq < Mark.ord m + 512)
    ∧ seq < c.params.slotCount ∧ ∀ e ∈ c.e, seq ≤ e

/-- The windows (R71, R74, R75): at most one position for a sequence number and at most 512, none but in
ACTIVE and CLOSING; each in the span, below C, not above E, of its effective way, and that way held. -/
abbrev State.WindowsOk (s : State) : Prop :=
  ∀ c ∈ s.contexts, (c.positions.map (·.seq)).Pairwise (· < ·) ∧ c.positions.length ≤ 512
    ∧ (c.positions ≠ [] → c.state = .active ∨ c.state = .closing)
    ∧ ∀ p ∈ c.positions, c.SpanHas p.seq ∧ p.way = c.wayOf p.seq
        ∧ (c.holds .landing p.way = true ∨ c.holds .browse p.way = true)

/-- The end sequence (R4, R5): unknown in ACTIVE, known in CLOSING and FINAL; and storage requests have
not ended for a context in ACTIVE or CLOSING (R5, R7). -/
abbrev State.EndsOk (s : State) : Prop :=
  ∀ c ∈ s.contexts, (c.state = .active → c.e = none)
    ∧ (c.state = .closing ∨ c.state = .final → c.e ≠ none)
    ∧ (c.state = .active ∨ c.state = .closing → c.storageEnded = false)

/-- A safe state. -/
abbrev State.Safe (s : State) : Prop :=
  s.TableOk ∧ s.RingOk ∧ s.AdoptedOk ∧ s.PeersOk ∧ s.QueuesOk ∧ s.TransmitOk ∧ s.SilentOk
    ∧ s.WindowsOk ∧ s.EndsOk

/-- The commands that name a frame received on the capture port. -/
def receiveCommands (f : Frame) : List Instr :=
  [.unsortedSegmentFrame f, .feedCell f, .mendCell f, .beacon f, .mendAsk f, .openFeed f,
    .closeFeed f, .abortFeed f, .holdLand f, .holdBrowse f, .holdBoth f, .releaseLand f,
    .releaseBrowse f, .releaseBoth f, .stationReset f]

/-- The station takes the frame: LISTENING or LIVE, a capture frame to the segment group address, of
one kind code (R49, R50). -/
abbrev State.Hears (s : State) (f : Frame) (kind : Byte) : Prop :=
  s.receives = true ∧ f.ftype = Config.captureType ∧ f.dest = s.settings.groupAddr
    ∧ f.body[0]? = some kind

/-- The station takes a well-formed cell, from a gateway or, `mend`, from a station (R51, R52). -/
abbrev State.HearsCell (s : State) (f : Frame) (mend : Bool) (c : Cell) : Prop :=
  s.Hears f (if mend then 0x02#8 else 0x01#8) ∧ parseCell f.body = some c ∧ c.senderOk mend = true
    ∧ c.contentOk = true

/-- The station takes a well-formed directive (R166). -/
abbrev State.HearsDirective (s : State) (f : Frame) (d : Directive) : Prop :=
  s.Hears f 0x05#8 ∧ parseDirective f.body = some d

/-- The feed a directive names, if it names one (R166). -/
def Directive.feed? : Directive → Option Nat
  | .openFeed f _ | .closeFeed f _ | .abortFeed f | .hold f _ _ | .release f _ _ => some f
  | .stationReset _ => none

/-- The oldest whole answer of a request kind that has arrived, and what it says (R113, R189). -/
abbrev State.Answered (s : State) (m : List Byte) (a : StorageAnswer) : Prop :=
  s.arrived.find? (fun x => messageKind x == some a.kind) = some m ∧ parseAnswer m = some a

/-- The command that takes an answer of a request kind. -/
def answerCommand : ReqKind → Instr
  | .write => .writeAnswer
  | .check => .checkAnswer
  | .mark => .markAnswer
  | .probe => .probeAnswer

/-- What a context keeps, and what only rises in it, from one state to a later one while it exists: its
parameters (R2), the published commit (R136), H (R20) and the latched flags (R22). -/
abbrev FeedContext.Carries (c d : FeedContext) : Prop :=
  d.params = c.params ∧ d.origin = c.origin ∧ d.effRate = c.effRate ∧ d.effFactor = c.effFactor
    ∧ Mark.ord c.published ≤ Mark.ord d.published ∧ Mark.ord c.h ≤ Mark.ord d.h
    ∧ (c.flags.allotLow → d.flags.allotLow) ∧ (c.flags.landOverrun → d.flags.landOverrun)
    ∧ (c.flags.browseOverrun → d.flags.browseOverrun) ∧ (c.flags.poolOverrun → d.flags.poolOverrun)
    ∧ (c.flags.rateClamped → d.flags.rateClamped) ∧ (c.flags.factorRaised → d.flags.factorRaised)
    ∧ (c.flags.conflict → d.flags.conflict)

/-! ### Terms of the statements -/

/-- A setting as R176, R178 and R191 load it: its default where it is absent, the stored value where that
is in range, else the nearer bound with the clamped indication. -/
abbrev SettingLoaded (present : Bool) (stored lo hi dflt loaded : Nat) (clamped : Bool) : Prop :=
  (present = false → loaded = dflt ∧ clamped = false)
    ∧ (present = true → (stored < lo → loaded = lo ∧ clamped = true)
        ∧ (hi < stored → loaded = hi ∧ clamped = true)
        ∧ (lo ≤ stored → stored ≤ hi → loaded = stored ∧ clamped = false))

/-- A job with its shed age left out. -/
def Job.ageless (j : Job) : Job := { j with shedAge := 0, shedSince := none }

/-- A CHUNKLESS job that waits QUEUED for its feed's browse hold, which is not in force (R160). -/
def State.wakes (s : State) (j : Job) : Bool :=
  j.kind == .chunkless && j.stage == .queued && !s.browseHeld j.feed

/-- `t` has the jobs of `s` after a browse hold was lifted (R159, R160, R173): a CHUNKLESS job QUEUED of a
feed that is not held goes to WRITING with its write ready, the ages stand where they stood, and run on
exactly for the WITH CHUNK jobs in WAITING or QUEUED of feeds that are not held; nothing else changes. -/
abbrev State.JobsLifted (s t : State) : Prop :=
  t.waitJobs.map Job.ageless = s.waitJobs.map Job.ageless
    ∧ t.queueJobs.map Job.ageless = s.queueJobs.map (fun j =>
        (if t.wakes j then { j with stage := .writing } else j : Job).ageless)
    ∧ t.shedJobs = s.shedJobs
    ∧ t.browseReady = s.browseReady ++ (s.queueJobs.filter t.wakes).map (·.uid)
    ∧ (t.waitJobs ++ t.queueJobs).map (·.ageAt s.now) = (s.waitJobs ++ s.queueJobs).map (·.ageAt s.now)
    ∧ ∀ j ∈ t.waitJobs ++ t.queueJobs, j.shedSince.isSome = true ↔
        (j.kind = .withChunk ∧ (j.stage = .waiting ∨ j.stage = .queued) ∧ t.browseHeld j.feed = false)

/-- A peer of the view with its record for a context's feed (R38): LIVE or SILENT, the record carrying
the context's file identity. -/
abbrev State.Views (s : State) (c : FeedContext) (p : PeerEntry) (r : FeedRecord) : Prop :=
  p ∈ s.peers ∧ (p.state = .live ∨ p.state = .silent)
    ∧ p.records.find? (fun q => q.feed == c.feed && q.params.fileId == c.params.fileId) = some r

/-- A mark that a holder of a way for landing has or reports (R134). -/
abbrev State.HolderMark (s : State) (c : FeedContext) (w : Way) (m : Mark) : Prop :=
  (c.landKind.get w ≠ .unheld ∧ m = c.lv.get w)
    ∨ ∃ p r, s.Views c p r ∧ r.landKind.get w ≠ .unheld ∧ m = r.lv.get w

/-- The commit as R133 computes it: none where a way in use has no holder; else no way high lies below it,
nor E, nor C − 1, and one of them is met. -/
abbrev State.CommitRule (s : State) (c : FeedContext) (x : Mark) : Prop :=
  ((∃ w ∈ c.waysInUse, ∀ m, ¬s.HolderMark c w m) → x = none)
    ∧ ((∀ w ∈ c.waysInUse, ∃ m, s.HolderMark c w m) →
        Mark.ord x ≤ c.cap + 1
        ∧ (∀ w ∈ c.waysInUse, ∃ m, s.HolderMark c w m ∧ Mark.ord x ≤ Mark.ord m)
        ∧ (Mark.ord x = c.cap + 1
          ∨ ∃ w ∈ c.waysInUse, ∀ m, s.HolderMark c w m → Mark.ord m ≤ Mark.ord x))

/-- The published commit at a computation (R136): the computed one where that is higher. -/
abbrev State.CommitTaken (s : State) (c d : FeedContext) : Prop :=
  (c.computes = true → Mark.ord d.published
      = max (Mark.ord c.published) (Mark.ord (s.computedCommit c)))
    ∧ (c.computes = false → d.published = c.published)

/-- A peer's record makes it a LIVE holder of a way (R38). -/
abbrev LiveHolder (p : PeerEntry) (r : FeedRecord) (k : WorkKind) (w : Way) : Prop :=
  p.state = .live ∧ r.kindOf k w ≠ .unheld
    ∧ (r.state = .active ∨ r.state = .closing ∨ r.state = .final)

/-- A triple is orphaned (R40): the station LIVE, the context ACTIVE or CLOSING, the way in use, with a
configured holder and no LIVE holder in the view. -/
abbrev State.Orphaned (s : State) (c : FeedContext) (k : WorkKind) (w : Way) : Prop :=
  s.station = .live ∧ c.working = true ∧ w ∈ c.waysInUse
    ∧ (c.kindOf k w = .configured ∨ ∃ p r, s.Views c p r ∧ r.kindOf k w = .configured)
    ∧ c.kindOf k w = .unheld ∧ ∀ p r, s.Views c p r → ¬LiveHolder p r k w

/-- This station is the adopter of an orphan (R38, R41): adopt-eligible, with fewer than 16 triples, and
no candidate among the peers has a lower number. -/
abbrev State.Adopter (s : State) (c : FeedContext) : Prop :=
  s.settings.adoptEligible = true ∧ s.adopted.length < 16
    ∧ ∀ p r, s.Views c p r → p.state = .live → p.adoptEligible = true → 0 < p.adoptRoom →
        (r.state = .active ∨ r.state = .closing) → s.settings.station ≤ p.number

/-- The start mark of an adopted way (R42): the highest mark of the SILENT holders, else the published
commit; raised to the retained mark; lowered to E. -/
abbrev State.StartMark (s : State) (c : FeedContext) (k : WorkKind) (w : Way) (m : Mark) : Prop :=
  ∃ b : Mark,
    ((∀ p r, s.Views c p r → p.state = .silent → r.kindOf k w = .unheld) → b = c.published)
    ∧ ((∃ p r, s.Views c p r ∧ p.state = .silent ∧ r.kindOf k w ≠ .unheld) →
        (∃ p r, s.Views c p r ∧ p.state = .silent ∧ r.kindOf k w ≠ .unheld ∧ b = r.markOf k w)
        ∧ ∀ p r, s.Views c p r → p.state = .silent → r.kindOf k w ≠ .unheld →
            Mark.ord (r.markOf k w) ≤ Mark.ord b)
    ∧ (c.e = none → Mark.ord m = max (Mark.ord b) (Mark.ord (c.retainedOf k w)))
    ∧ ∀ e, c.e = some e →
        Mark.ord m = min (max (Mark.ord b) (Mark.ord (c.retainedOf k w))) (e + 1)

/-- An adopted triple is to be released (R45, R46): a LIVE holder of the way reports it configured with a
mark at or above this station's, or a lower-numbered one reports it adopted. -/
abbrev State.Releases (s : State) (c : FeedContext) (x : Triple) : Prop :=
  s.station = .live ∧ c.working = true ∧ ∃ p r, s.Views c p r ∧ LiveHolder p r x.kind x.way
    ∧ ((r.kindOf x.kind x.way = .configured
          ∧ Mark.ord (c.markOf x.kind x.way) ≤ Mark.ord (r.markOf x.kind x.way))
        ∨ (r.kindOf x.kind x.way = .adopted ∧ p.number < s.settings.station))

/-- The job of a kind is done at a sequence number (R72, R84). -/
abbrev FeedContext.JobDoneAt (c : FeedContext) (k : WorkKind) (seq : Nat) : Prop :=
  ∃ p, c.pos? seq = some p ∧ (match k with
    | .landing => p.land = .landed ∨ p.land = .lost
    | .browse => p.browse = some .done ∨ p.browse = some .shed)

/-- Nb × Ds of a context's effective rates (R149). -/
abbrev FeedContext.up (c : FeedContext) : Nat := c.effRate.num * (rateAt c.params.sourceRate).den

/-- Db × Ns of a context's effective rates (R149). -/
abbrev FeedContext.down (c : FeedContext) : Nat := c.effRate.den * (rateAt c.params.sourceRate).num

/-- A chunk owns browse frame `k`, picturing source frame `x` (R149, R150): where a cue governs `k`, the
smallest cue `x` with cue frame `k`, if the chunk contains it; else `k` lies in the natural range, which is
a × Nb × Ds ≤ k × Db × Ns < (a + m) × Nb × Ds, and pictures floor(k × Db × Ns / (Nb × Ds)). -/
abbrev FeedContext.Owns (c : FeedContext) (h : ChunkHeader) (k x : Nat) (cue : Bool) : Prop :=
  (cue = true ∧ x ∈ c.params.cues ∧ x * c.up / c.down = k
      ∧ (∀ y ∈ c.params.cues, y * c.up / c.down = k → x ≤ y) ∧ h.first ≤ x ∧ x < h.first + h.frames)
    ∨ (cue = false ∧ (∀ y ∈ c.params.cues, y * c.up / c.down ≠ k)
      ∧ h.first * c.up ≤ k * c.down ∧ k * c.down < (h.first + h.frames) * c.up
      ∧ x = k * c.down / c.up)

/-- `out` is a plane of `w × h` samples reduced by a factor to `ow × oh` (R154): each sample the mean of
the `f × f` it covers, halves rounded up, the last column and row repeated beyond the edges. -/
abbrev PlaneReduced (f w h ow oh : Nat) (plane out : List Byte) : Prop :=
  out.length = ow * oh ∧ ∀ x y, x < ow → y < oh →
    out[y * ow + x]? = some (BitVec.ofNat 8 ((2 * ((List.range f).map (fun j =>
        ((List.range f).map (fun i =>
          (plane.getD (min (y * f + j) (h - 1) * w + min (x * f + i) (w - 1)) 0).toNat)).sum)).sum
      + f * f) / (2 * (f * f))))

/-- A browse dimension: ceil(source / factor), raised by one if odd (R147). -/
abbrev evenDim (source factor : Nat) : Nat :=
  (source + factor - 1) / factor + (source + factor - 1) / factor % 2

/-- The positions of a batch (R120): READY with a landing job wanted, those due for a rewrite first, each
group as it stands, up to 8. -/
abbrev FeedContext.batchOf (c : FeedContext) : List Position :=
  (c.positions.filter (fun p => p.wantsLand && p.land == .ready && p.dueRewrite)
    ++ c.positions.filter (fun p => p.wantsLand && p.land == .ready && !p.dueRewrite)).take 8

/-- The bytes of a chunk that its slot stores (R121): its first landing slot size − 64. -/
def OpenParams.slotBytes (p : OpenParams) (e : RingEntry) : List Byte :=
  ((e.cells.flatMap (·.2)).take e.hdr.length).take (p.landingSlot - 64)

/-- What the trailer of a landed chunk says of it, and R124 compares (R121): PRESENT with the chunk's check
word where it fits its slot, else TRUNCATED with the check word over the stored bytes. -/
def OpenParams.landedAs (p : OpenParams) (e : RingEntry) : TrailerState × CheckWord :=
  if e.hdr.length ≤ p.landingSlot - 64 then (.present, e.hdr.check)
  else (.truncated, checkWord (p.slotBytes e))

/-- The two extents of a chunk in its slot (R119, R120, R121): its stored bytes at the slot start, and its
trailer in the slot's last 64 bytes. -/
abbrev OpenParams.slotExtents (p : OpenParams) (station : Nat) (e : RingEntry) : List Extent :=
  let start := p.landingBase + 4096 + e.seq * p.landingSlot
  [Extent.mk start (p.slotBytes e),
   Extent.mk (start + p.landingSlot - 64)
    (encodeTrailer e.seq (p.landedAs e).1 station e.hdr.frames (p.slotBytes e).length (p.landedAs e).2
      e.hdr.first)]

/-- The message of a request in table entry `tag` (R189): 8 bytes that name the kind, the tag and the item
count, and the body of its kind. The reason byte of a request, and the count of a MARK or PROBE, are open
(log 6). -/
abbrev Request.MessageIs (r : Request) (tag : Fin 16) (m : List Byte) : Prop :=
  let head := fun (kind : Byte) (n : Nat) => ∃ reason : Byte,
    m.take 8 = [kind, BitVec.ofNat 8 tag.val, 0#8, reason] ++ beBytes 2 n ++ [0#8, 0#8]
  match r.purpose with
  | .landing | .rewrite | .fill | .browse _ => head 1#8 r.extents.length
      ∧ m.drop 8 = r.extents.flatMap (fun x =>
            beBytes 8 x.addr ++ beBytes 4 x.bytes.length ++ [0#8, 0#8, 0#8, 0#8])
          ++ r.extents.flatMap (·.bytes)
  | .landingCheck | .trailerCheck => head 2#8 r.slots.length
      ∧ m.drop 8 = r.slots.flatMap (fun x =>
          beBytes 8 x.start ++ beBytes 4 x.size ++ [0#8, 0#8, 0#8, 0#8])
  | .mark _ => (∃ n, head 3#8 n) ∧ m.drop 8 = r.extents.flatMap (fun x => beBytes 8 x.addr ++ x.bytes)
  | .probe => (∃ n, head 4#8 n) ∧ m.drop 8 = []

/-- The frames a request is sent in (R189): to the storage head address, one for each piece of its message in
order, none empty and none over 9,000 bytes, each after a header of tag, offset and total length. How many
bytes a piece has, and the source address, are open (log 5). -/
abbrev State.SentAs (s : State) (tag : Fin 16) (r : Request) (frames : List Frame) : Prop :=
  ∃ (m : List Byte) (pieces : List (List Byte)), r.MessageIs tag m ∧ pieces.flatten = m
    ∧ (∀ x ∈ pieces, x ≠ [] ∧ 12 + x.length ≤ 9000)
    ∧ frames.map (·.body) = (List.range pieces.length).map (fun i =>
        [BitVec.ofNat 8 tag.val, 0#8, 0#8, 0#8] ++ beBytes 4 (pieces.take i).flatten.length
          ++ beBytes 4 m.length ++ pieces.getD i [])
    ∧ ∀ f ∈ frames, f.dest = s.settings.headAddr ∧ f.ftype = 0x88B6#16

/-- A position of a feed holds a pin (R63). -/
def State.holdsPin (s : State) (feed seq : Nat) : Bool := ((s.pos? feed seq).map (·.pinned)).getD false

/-- The ring after a command that changes the positions of one feed alone (R63, R84, R86): an entry whose
position held a pin and holds none has one pin fewer, one whose position has come to hold one has one more,
and every other entry is as it was. -/
abbrev State.PinsFollow (s t : State) (feed : Nat) : Prop :=
  (∀ g n, g ≠ feed → t.entry? g n = s.entry? g n)
    ∧ ∀ n, (s.holdsPin feed n = true → t.holdsPin feed n = false →
        t.entry? feed n = (s.entry? feed n).map (fun e => { e with pins := e.pins - 1 }))
      ∧ (s.holdsPin feed n = false → t.holdsPin feed n = true →
        t.entry? feed n = (s.entry? feed n).map (fun e => { e with pins := e.pins + 1 }))
      ∧ (s.holdsPin feed n = false → t.holdsPin feed n = false → t.entry? feed n = s.entry? feed n)
      ∧ (s.holdsPin feed n = true → t.holdsPin feed n = true →
        (∀ e, s.entry? feed n = some e → 0 < e.pins) → t.entry? feed n = s.entry? feed n)

/-- Each job a position wants is done (R84). -/
abbrev Position.JobsDone (p : Position) : Prop :=
  (p.wantsLand = true → p.land = .landed ∨ p.land = .lost)
    ∧ (p.wantsBrowse = true → p.browse = some .done ∨ p.browse = some .shed)

/-- The browse job of a position is handed over WITH CHUNK: it waits (R77, R153). -/
abbrev State.HandedChunk (t : State) (feed seq : Nat) (h : ChunkHeader) : Prop :=
  ∃ j ∈ t.waitJobs, j.feed = feed ∧ j.seq = seq ∧ j.kind = .withChunk ∧ j.stage = .waiting
    ∧ j.chunk = some h

/-- The browse job of a position is handed over CHUNKLESS: it waits (R108, R160). -/
abbrev State.HandedChunkless (t : State) (feed seq : Nat) : Prop :=
  ∃ j ∈ t.waitJobs, j.feed = feed ∧ j.seq = seq ∧ j.kind = .chunkless ∧ j.stage = .waiting
    ∧ j.chunk = none ∧ j.content = .missing

/-- The extents of a browse job's write (R148, R155): a PRESENT one's frames in their order and the index
record, or the index record alone. K1 is the job's `naturalFirst`. -/
abbrev FeedContext.writeOf (c : FeedContext) (j : Job) (h : ChunkHeader) : List Extent :=
  let index := fun bytes => [Extent.mk (c.params.browseBase + j.seq * 64) bytes]
  match j.content with
  | .present =>
    (j.written.zip j.pictures).map (fun fp => Extent.mk
        (c.params.browseBase + (c.params.slotCount * 64 + 4095) / 4096 * 4096
          + fp.1.number * c.params.browseSlot)
        (encodeFrameRecord fp.1 (evenDim c.params.width c.effFactor)
          (evenDim c.params.height c.effFactor) fp.2))
      ++ index (encodeIndexRecord j.seq .present (j.written.any (·.cue)) h.frames h.first
          (match j.written with
            | [] => j.naturalFirst
            | f :: _ => f.number) j.written.length h.check)
  | .missing => index (encodeIndexRecord j.seq .missing false 0 0 0 0 0)
  | .shed => index (encodeIndexRecord j.seq .shed false h.frames h.first j.naturalFirst 0 h.check)
  | .failed => index (encodeIndexRecord j.seq .failed false h.frames h.first j.naturalFirst 0 h.check)

/-- `b` is the window base of a context (R73): one more than its lowest held mark, none counted as −1. -/
abbrev FeedContext.BaseIs (c : FeedContext) (b : Nat) : Prop :=
  (∃ m ∈ c.heldMarks, Mark.ord m = b) ∧ ∀ m ∈ c.heldMarks, b ≤ Mark.ord m

/-- What the removal of ring entry `v` does beside the ring and the counters (R66, R81, R102): its pending
answers and queued mend cells are gone, and a GATHERING position of its chunk that refers to it becomes
ABSENT, a wait that runs on it going on; nothing else changes. -/
abbrev State.RemovalReported (s t : State) (v : RingEntry) : Prop :=
  t.answers = s.answers.filter (fun x => !(x.feed == v.feed && x.seq == v.seq))
    ∧ t.mendQueue = s.mendQueue.filter (fun m => !(m.feed == v.feed && m.seq == v.seq))
    ∧ ((s.windowsRun = false ∨ ∀ p, s.pos? v.feed v.seq = some p →
          p.land ≠ .gathering ∨ p.hasRef = false) → t.contexts = s.contexts)
    ∧ (∀ p, s.windowsRun = true → s.pos? v.feed v.seq = some p → p.land = .gathering →
        p.hasRef = true →
        (∃ q, t.pos? v.feed v.seq = some q
          ∧ q = { p with land := .absent, hasRef := false, gapWait := q.gapWait }
          ∧ (p.gapWait ≠ none → q.gapWait = p.gapWait))
        ∧ ∀ g n, ¬(g = v.feed ∧ n = v.seq) → t.pos? g n = s.pos? g n)
    ∧ { t with contexts := s.contexts, ring := s.ring, counters := s.counters, answers := s.answers,
               mendQueue := s.mendQueue } = s

/-- What a removal tells, where more changes beside it (R66, R81, R102): the pending answers and queued mend
cells of ring entry `v` are gone, and a GATHERING position of its chunk that refers to it becomes ABSENT. -/
abbrev State.RemovalTold (s t : State) (v : RingEntry) : Prop :=
  t.answers = s.answers.filter (fun x => !(x.feed == v.feed && x.seq == v.seq))
    ∧ t.mendQueue = s.mendQueue.filter (fun m => !(m.feed == v.feed && m.seq == v.seq))
    ∧ ∀ p, s.windowsRun = true → s.pos? v.feed v.seq = some p → p.land = .gathering →
        p.hasRef = true → ∃ q, t.pos? v.feed v.seq = some q
          ∧ q = { p with land := .absent, hasRef := false, gapWait := q.gapWait }
          ∧ (p.gapWait ≠ none → q.gapWait = p.gapWait)

/-- What the answering side does at a mend cell seen (R101): the answers of its chunk that still owe its
index lose it, a queued cell of it is withdrawn, and an emptied answer is freed. -/
abbrev State.mendSeen (s : State) (c : Cell) : State :=
  { s with
    answers := (s.answers.map (fun x =>
      if x.feed = c.feed ∧ x.seq = c.seq ∧ c.index ∈ x.cells ∧ (x.sending = false
          ∨ ∃ m ∈ s.mendQueue, m.answer = x.uid ∧ m.index = c.index) then
        { x with cells := x.cells.filter (· != c.index) }
      else x)).filter (fun x => !x.cells.isEmpty)
    mendQueue := s.mendQueue.filter (fun m =>
      !(m.feed == c.feed && m.seq == c.seq && m.index == c.index)) }

/-- The state in which a heard cell goes to the ring (R53): a mend cell has first been reported to the
answering side. -/
abbrev State.seen (s : State) (mend : Bool) (c : Cell) : State := if mend then s.mendSeen c else s

/-- The command that brings a cell from a gateway, or, `mend`, from a station. -/
def cellCommand (mend : Bool) (f : Frame) : Instr := if mend then .mendCell f else .feedCell f

/-- A sequence number for which a window has a position (R74): in the span, below C, not above E, and a job
wanted by a held way whose mark lies below it. -/
abbrev FeedContext.CalledFor (c : FeedContext) (n : Nat) : Prop :=
  c.SpanHas n ∧ ((c.landKind.get (c.wayOf n) ≠ .unheld ∧ Mark.ord (c.lv.get (c.wayOf n)) ≤ n)
    ∨ (c.browseKind.get (c.wayOf n) ≠ .unheld ∧ Mark.ord (c.bv.get (c.wayOf n)) ≤ n))

/-- A position wants every job that is called for at its sequence number (R74). -/
abbrev FeedContext.WantsCalled (c : FeedContext) (p : Position) : Prop :=
  (c.landKind.get (c.wayOf p.seq) ≠ .unheld → Mark.ord (c.lv.get (c.wayOf p.seq)) ≤ p.seq →
      p.wantsLand = true)
    ∧ (c.browseKind.get (c.wayOf p.seq) ≠ .unheld → Mark.ord (c.bv.get (c.wayOf p.seq)) ≤ p.seq →
      p.wantsBrowse = true)

/-- The gap wait condition (R83): H above the sequence number, or the context CLOSING with E at or above
it. -/
abbrev FeedContext.Behind (c : FeedContext) (n : Nat) : Prop :=
  n + 1 < Mark.ord c.h ∨ (c.state = .closing ∧ n + 1 ≤ Mark.ord c.e)

/-- A position that waits for its chunk and has a job not done: ABSENT or GATHERING, and not complete
(R83, R84). -/
abbrev Position.Awaits (p : Position) : Prop :=
  (p.land = .absent ∨ p.land = .gathering)
    ∧ (p.wantsLand = true ∨ (p.wantsBrowse = true ∧ p.browse ≠ some .done ∧ p.browse ≠ some .shed))

/-- What the lookup of a position of a feed in the ring makes of it (R78): ABSENT where the ring holds no
entry, GATHERING where it holds a PARTIAL one, READY with its pin where it holds a WHOLE one. -/
abbrev State.LookedUp (s : State) (feed : Nat) (p : Position) : Prop :=
  (s.entry? feed p.seq = none → p.land = .absent ∧ p.hasRef = false)
    ∧ ∀ e, s.entry? feed p.seq = some e →
      (e.whole = false → p.land = .gathering ∧ p.hasRef = true)
      ∧ (e.whole = true → p.land = .ready ∧ p.hasRef = true ∧ p.pinned = true ∧ p.gapWait = none
          ∧ (p.wantsLand = true → p.readySince = some s.now))

/-- The FINAL test of a context `c` after its marks, its held ways or E changed, with `d` after it (R5,
R140): CLOSING is FINAL exactly where every held mark stands at E; a FINAL context has no position and its
MARK is due, waiting or noted behind the one ISSUED; in no other state does the test act. -/
abbrev State.EndTested (t : State) (c d : FeedContext) : Prop :=
  (d.state = c.state ∨ (c.state = .closing ∧ d.state = .final))
    ∧ (c.state = .closing → c.e ≠ none → (d.state = .final ↔ ∀ m ∈ d.heldMarks, m = d.e))
    ∧ (c.state = .closing → d.state = .final → d.positions = []
        ∧ (c.storageEnded = false → (c.markReq = none → c.feed ∈ t.waitMarks)
          ∧ (c.markReq ≠ none → d.markAgain = true)))

/-- A request with no owner left (R113): its feed's context is gone or not ACTIVE or CLOSING, or has no
position in it; its MARK or its browse job has gone. -/
abbrev State.Ownerless (s : State) (r : Request) : Prop :=
  ((r.purpose = .landing ∨ r.purpose = .rewrite ∨ r.purpose = .fill ∨ r.purpose = .landingCheck
      ∨ r.purpose = .trailerCheck) ∧ ∃ f, r.feed = some f ∧ ∀ c, s.ctx? f = some c →
        (c.state ≠ .active ∧ c.state ≠ .closing) ∨ ∀ p ∈ c.positions, p.req ≠ some r.uid)
    ∨ ((r.purpose = .mark .live ∨ r.purpose = .mark .final ∨ r.purpose = .mark .aborted)
        ∧ ∃ f, r.feed = some f ∧ ∀ c, s.ctx? f = some c → c.markReq ≠ some r.uid)
    ∨ ∃ u, r.purpose = .browse u ∧ ∀ j, s.job? u = some j → j.inFlight ≠ some r.uid

/-- What a landing CHECK makes of the position of one slot (R124, R125): none where the position has gone or
is no longer CHECKING in this request; LANDED where the stored trailer's sequence number, state and check
word and the head's check word are what the station wrote; else READY, due for a rewrite, or, with 4
rewrites spent, LOST. -/
def FeedContext.judgedAs (c : FeedContext) (uid : Nat) (z : SlotRef × Trailer × CheckWord) :
    Option LandState :=
  (c.pos? z.1.seq).bind (fun p =>
    if p.req = some uid ∧ p.land = .checking then
      some (if z.2.1.seq = p.seq ∧ z.2.1.state ≠ none ∧ z.2.2 = z.2.1.check
          ∧ p.wrote = z.2.1.state.map (fun st => (st, z.2.1.check)) then .landed
        else if p.rewrites < 4 then .ready else .lost)
    else none)

/-- The position of `seq` after an event that may complete it, from context `c` to `d` (R84, R85): it is there
as long as it is called for; complete, it holds no pin and its ready age is stopped; else it holds the pin it
held. -/
abbrev FeedContext.PosSettled (c d : FeedContext) (seq : Nat) : Prop :=
  (d.CalledFor seq → d.pos? seq ≠ none)
    ∧ ∀ q, d.pos? seq = some q → (q.JobsDone → q.pinned = false ∧ q.readySince = none)
      ∧ (¬q.JobsDone → ∀ p, c.pos? seq = some p → q.pinned = p.pinned)

/-- The end of the lost procedure of position `seq` (R108), from `s` and `c` to `t` and `d`: its WAITING browse
job, unless the engine keeps one of it, waits CHUNKLESS; and no other job of it comes or goes. -/
abbrev State.LostEnds (s t : State) (c d : FeedContext) (seq : Nat) : Prop :=
  ∀ p q, c.pos? seq = some p → d.pos? seq = some q →
    (p.browse = some .waiting → s.hasJob c.feed seq = false → t.HandedChunkless c.feed seq)
    ∧ ((p.browse ≠ some .waiting ∨ s.hasJob c.feed seq = true) →
        ∀ j : Job, j.feed = c.feed → j.seq = seq → (j ∈ t.waitJobs ↔ j ∈ s.waitJobs))

/-- An existing position `p` of context `c` has gained a landing job, and is `q` then (R87): from READY with
its ready age started where it holds a pin; else what the ring's entry makes of it, a gap wait started where
it waits for its chunk and is behind. -/
abbrev State.LandGained (s : State) (c : FeedContext) (p q : Position) : Prop :=
  q.wantsLand = true ∧ q.wantsBrowse = p.wantsBrowse
    ∧ (p.pinned = true → q.land = .ready ∧ q.pinned = true ∧ q.readySince = some s.now)
    ∧ (p.pinned = false → s.LookedUp c.feed q
        ∧ (q.Awaits → c.Behind q.seq → p.gapWait = none →
            q.gapWait = some (s.now + s.settings.gapWait))
        ∧ (q.Awaits → (¬c.Behind q.seq ∨ p.gapWait ≠ none) → q.gapWait = p.gapWait))

/-- An existing position `p` of context `c` has gained a browse job, and is `q` then (R87): WAITING, and handed
over WITH CHUNK where it holds a pin; not handed over where its chunk is awaited; and where it is LANDED or
LOST with no pin, pinned and handed over WITH CHUNK, or, with no WHOLE entry, handed over CHUNKLESS. -/
abbrev State.BrowseGained (s t : State) (c : FeedContext) (p q : Position) : Prop :=
  q.wantsBrowse = true ∧ q.browse = some .waiting ∧ q.wantsLand = p.wantsLand ∧ q.land = p.land
    ∧ (s.hasJob c.feed p.seq = false →
      (p.pinned = true → ∀ e, s.entry? c.feed p.seq = some e → t.HandedChunk c.feed p.seq e.hdr)
      ∧ (p.pinned = false → (p.land = .absent ∨ p.land = .gathering) →
          t.hasJob c.feed p.seq = false)
      ∧ (p.pinned = false → (p.land = .landed ∨ p.land = .lost) →
        (∀ e, s.entry? c.feed p.seq = some e → e.whole = true →
          q.pinned = true ∧ t.HandedChunk c.feed p.seq e.hdr)
        ∧ ((∀ e, s.entry? c.feed p.seq = some e → e.whole = false) →
          t.HandedChunkless c.feed p.seq)))

/-- How a LIVE station's window takes the report that chunk `seq` of the feed of context `x`, with header
`h`, is WHOLE, by the rows of R80: no count; late; ahead; late again; or taken, READY with its pin, its
gap wait, ask, trailer CHECK and fill withdrawn, and its browse job handed over WITH CHUNK (R77, R153), a
CHUNKLESS one that still waits in its place (R108, R160), at which BROWSE OVERRUN is latched where the chunk
overruns (R151). `d` is the context after it. -/
abbrev State.WholeReported (s t : State) (x d : FeedContext) (seq : Nat) (h : ChunkHeader) : Prop :=
  let reaches := x.working = true ∧ x.windowBuilt = true ∧ seq ≤ x.cap
    ∧ (x.holds .landing (x.wayOf seq) = true ∨ x.holds .browse (x.wayOf seq) = true)
  let late := { x.counts with late := x.counts.late + 1 }
  (¬reaches → d.counts = x.counts ∧ t.waitJobs = s.waitJobs ∧ ∀ p, x.pos? seq = some p →
      ∃ q, d.pos? seq = some q ∧ q.land = p.land ∧ q.pinned = p.pinned)
    ∧ (reaches → ∀ b, x.BaseIs b →
      (seq < b → d.counts = late)
      ∧ (b + 512 ≤ seq → d.counts = { x.counts with ahead := x.counts.ahead + 1 })
      ∧ (b ≤ seq → seq < b + 512 →
        (x.pos? seq = none → d.counts = late)
        ∧ ∀ p, x.pos? seq = some p →
          ((p.land = .landed ∨ p.land = .lost ∨ (p.wantsLand = false ∧ p.wantsBrowse = true
              ∧ (p.browse = some .done ∨ p.browse = some .shed))) → d.counts = late)
          ∧ ((p.land = .absent ∨ p.land = .gathering ∨ (p.land = .checking ∧ p.lost ≠ .idle)) →
            (p.wantsLand = true ∨ (p.wantsBrowse = true ∧ p.browse ≠ some .done
              ∧ p.browse ≠ some .shed)) →
            d.counts = x.counts
            ∧ (∃ q, d.pos? seq = some q ∧ q.land = .ready ∧ q.hasRef = true ∧ q.pinned = true
                ∧ q.gapWait = none ∧ q.lost = .idle
                ∧ q.readySince = (if p.wantsLand = true ∨ p.lost ≠ .idle then some s.now else none))
            ∧ (t.entry? x.feed seq).map (·.pins) = (s.entry? x.feed seq).map (·.pins + 1)
            ∧ t.askQueue = s.askQueue.filter (fun a => !(a.feed == x.feed && a.seq == seq))
            ∧ (∀ w ∈ t.waitChecks, w.feed = x.feed → seq ∉ w.seqs)
            ∧ WaitRewrite.fill x.feed seq ∉ t.waitRewrites
            ∧ (p.browse ≠ some .waiting → t.waitJobs = s.waitJobs
                ∧ d.flags.browseOverrun = x.flags.browseOverrun)
            ∧ (p.browse = some .waiting → s.hasJob x.feed seq = false →
                d.flags.browseOverrun = (x.flags.browseOverrun || x.overruns h)
                ∧ ∃ j, t.waitJobs = s.waitJobs ++ [j] ∧ j.feed = x.feed ∧ j.seq = seq
                  ∧ j.kind = .withChunk ∧ j.stage = .waiting ∧ j.chunk = some h
                  ∧ j.written = x.writtenSet h ∧ j.naturalFirst = x.naturalFrom h.first
                  ∧ j.retrySpent = false ∧ j.ageAt s.now = 0)
            ∧ (p.browse = some .waiting →
              (∃ j ∈ s.queueJobs ++ s.shedJobs, j.feed = x.feed ∧ j.seq = seq) →
              t.waitJobs = s.waitJobs ∧ d.flags.browseOverrun = x.flags.browseOverrun)
            ∧ (p.browse = some .waiting →
              (∀ j ∈ s.queueJobs ++ s.shedJobs, ¬(j.feed = x.feed ∧ j.seq = seq)) →
              (∃ j ∈ s.waitJobs, j.feed = x.feed ∧ j.seq = seq) →
              d.flags.browseOverrun = (x.flags.browseOverrun || x.overruns h)
              ∧ t.waitJobs.length = s.waitJobs.length
              ∧ ∀ (i : Nat) (j : Job), s.waitJobs[i]? = some j →
                (¬(j.feed = x.feed ∧ j.seq = seq) → t.waitJobs[i]? = some j)
                ∧ (j.feed = x.feed → j.seq = seq → ∃ k, t.waitJobs[i]? = some k ∧ k.uid = j.uid
                  ∧ k.feed = j.feed ∧ k.seq = j.seq ∧ k.kind = .withChunk ∧ k.stage = .waiting
                  ∧ k.chunk = some h ∧ k.content = .present ∧ k.written = x.writtenSet h
                  ∧ k.naturalFirst = x.naturalFrom h.first ∧ k.retrySpent = false
                  ∧ k.ageAt s.now = 0)))))

/-- The marks of `d` after a job of context `c` was done that leaves its positions as `f` says: every held
way's is computed afresh for its kind (R72, log 13), and stands at E where E is known and no sequence number
of its way is left between it and E. -/
abbrev FeedContext.MarksFollow (c d : FeedContext) (f : Position → Position) : Prop :=
  ∀ k w, c.kindOf k w ≠ .unheld →
    let m := ({ c with positions := c.positions.map f } : FeedContext).computedMark k w
    (c.e = none → d.markOf k w = m)
    ∧ (c.e ≠ none → c.params.geometryOk = true →
      ((∃ n, Mark.ord m ≤ n ∧ n ≤ c.cap ∧ c.wayOf n = w) → d.markOf k w = m)
      ∧ ((∀ n, Mark.ord m ≤ n → n ≤ c.cap → c.wayOf n ≠ w) →
          Mark.ord (d.markOf k w) = max (Mark.ord m) (c.cap + 1)))

/-- The landing job of position `seq` of context `c` came to its end in a landing state, with `d` after it:
the marks follow, and the FINAL test; the position is settled and the pins follow (R84). -/
abbrev State.LandDone (s t : State) (c d : FeedContext) (seq : Nat) (st : LandState) : Prop :=
  (∀ q, d.pos? seq = some q → q.land = st)
    ∧ c.MarksFollow d (fun p => if p.seq == seq then { p with land := st } else p) ∧ t.EndTested c d
    ∧ c.PosSettled d seq ∧ s.PinsFollow t c.feed

/-- A browse job of context `c` has ended (R156, R157): it is in no queue and no write of it waits; the counts
of its feed are as given; its position, unless the window has let it go, shows the browse state; the marks
follow, and the FINAL test; and the position is settled and the pins follow (R84). -/
abbrev State.JobEnded (s t : State) (c : FeedContext) (j : Job) (st : BrowseState)
    (counts : FeedCounts) : Prop :=
  t.job? j.uid = none ∧ j.uid ∉ t.browseReady
    ∧ ∃ d, t.ctx? j.feed = some d ∧ d.counts = counts
      ∧ (∀ q, d.pos? j.seq = some q → q.browse = some st)
      ∧ (c.working = true →
          c.MarksFollow d (fun p => if p.seq == j.seq then { p with browse := some st } else p))
      ∧ t.EndTested c d ∧ c.PosSettled d j.seq ∧ s.PinsFollow t j.feed

/-- What a job of context `c` does when its write meets FULL or the storage timeout (R157, R158). -/
abbrev State.WriteFailed (s t : State) (c : FeedContext) (j : Job) : Prop :=
  (j.content = .failed → s.JobEnded t c j .done
      { c.counts with browseFailed := c.counts.browseFailed + 1 })
    ∧ (j.content ≠ .failed → j.retrySpent = false → t.browseReady = s.browseReady ++ [j.uid]
        ∧ ∃ k, t.job? j.uid = some k
          ∧ k.ageless = ({ j with retrySpent := true, inFlight := none } : Job).ageless)
    ∧ (j.content ≠ .failed → j.retrySpent = true →
      (j.kind = .withChunk → t.browseReady = s.browseReady ++ [j.uid]
        ∧ ∃ k, t.job? j.uid = some k
          ∧ k.ageless = ({ j with content := .failed, inFlight := none } : Job).ageless)
      ∧ (j.kind = .chunkless → s.JobEnded t c j .done
          { c.counts with browseFailed := c.counts.browseFailed + 1 })
      ∧ (j.kind = .shedRecord → s.JobEnded t c j .shed
          { c.counts with browseShed := c.counts.browseShed + 1 }))

/-- The position at which a browse job of context `c` stands wants what is called for there, the job too,
and the positions of the window stand in ascending sequence number. -/
abbrev FeedContext.JobPlaced (c : FeedContext) (j : Job) : Prop :=
  (c.positions.map (·.seq)).Pairwise (· < ·)
    ∧ ∃ p, c.pos? j.seq = some p ∧ p.wantsBrowse = true ∧ c.WantsCalled p

end Sys2Proof.Machine
end

