-- ==== Sys2Proof/Certificates/Slice0/Obligations.lean ====
section
/-! DEFINITION. The statements for the provers: what each command does to the station, and what every
step keeps. A statement names the whole next state, or says which fields it may differ in. -/

open Sys2Proof Sys2Proof.Machine

/-! ### The step -/

/-- A step takes the command at the front of the queue with the queue's rest; on an empty queue one
millisecond passes and nothing else changes. The queue and the clock are the model's (log 1). -/
def Obligations.StepTakesFrontCommand : Prop :=
  (∀ (c : Instr) (rest : List Instr) (s : State),
      step { s with pending := c :: rest } = exec c { s with pending := rest })
    ∧ ∀ s : State, s.pending = [] → step s = .next { s with now := s.now + 1 }

/-! ### Resets and loading (R177 to R183) -/

/-- What the part holds right after POWER (R24, R48, R70, R110, R132, R165, R168, R177): no work waits
either, and no timer of the storage port runs. -/
def Obligations.ResetHoldsPowerValues : Prop :=
  State.reset.station = .loading ∧ State.reset.contexts = [] ∧ (∀ f, State.reset.closedId f = none)
    ∧ State.reset.lastRefusal = none ∧ State.reset.ring = [] ∧ State.reset.buffersUsed = 0
    ∧ State.reset.peers = [] ∧ State.reset.adopted = [] ∧ State.reset.counters = .zero
    ∧ State.reset.dupNumber = false ∧ State.reset.answers = [] ∧ State.reset.askQueue = []
    ∧ State.reset.mendQueue = [] ∧ State.reset.beaconWaiting = false
    ∧ (∀ t : Fin 16, State.reset.table[t] = .free) ∧ State.reset.localHold = false
    ∧ State.reset.timeoutRun = 0 ∧ State.reset.probeTimer = none ∧ State.reset.lastServed = none
    ∧ State.reset.gathers = [] ∧ State.reset.waitJobs = [] ∧ State.reset.queueJobs = []
    ∧ State.reset.shedJobs = [] ∧ State.reset.waitChecks = [] ∧ State.reset.waitRewrites = []
    ∧ State.reset.waitMarks = [] ∧ State.reset.probeWaiting = false ∧ State.reset.browseReady = []

/-- The state after reset is a safe one. -/
def Obligations.ResetIsSafe : Prop := State.reset.Safe

/-- POWER_RESET gives every state its POWER value. The clock, the queue, the model's numbers, the capture
link and the configuration memory are not the part's and stay (logs 1, 2, 7, 9). That no answer waits on
the maintenance line is log 20, that the three output latches are clear log 19, that LOADING shows no fault
reason log 2. With no record write in progress the memory is as it was; a write cut off leaves each byte
old or new, and where that mixes the two records the memory's check word differs (R185). -/
def Obligations.PowerResetRestoresPowerValues : Prop :=
  ∀ s : State, ∃ t, exec .powerReset s = .next t
    ∧ { t with pending := [], now := 0, nextUid := 0, draws := 0, linkUp := true,
               confMem := List.replicate 64 0 } = State.reset
    ∧ t.pending = s.pending ∧ t.now = s.now ∧ t.linkUp = s.linkUp
    ∧ (s.recordWrite = none → t.confMem = s.confMem)
    ∧ (∀ r, s.recordWrite = some r → t.confMem.length = 64 ∧ ∀ i, i < 64 →
        t.confMem[i]? = some (byteAt s.confMem i) ∨ t.confMem[i]? = some (byteAt r i))
    ∧ (∀ r, s.recordWrite = some r → t.confMem = recordBytes s.confMem ∨ t.confMem = recordBytes r
        ∨ recordCheckOk t.confMem = false)

/-- LOADING_COMPLETE (R177 to R180, R118, R28). A fault, found in the order of R177, changes nothing but
the station state and the fault reason. With a good record the settings are loaded, a quiet time of
2,000 ms starts, and the station enters LISTENING for 3,000 ms with a beacon due at once, or DETACHED
where the capture link is down. Elsewhere than in LOADING the command does nothing. -/
def Obligations.LoadingCompletes : Prop :=
  ∀ (s : State) (answers : Bool),
    (s.station ≠ .loading → exec (.loadingComplete answers) s = .next s)
    ∧ (s.station = .loading →
      ((answers = false ∨ recordCheckOk s.confMem = false) →
        exec (.loadingComplete answers) s
          = .next { s with station := .setupFault, faultReason := some .recordCheck })
      ∧ (answers = true → recordCheckOk s.confMem = true →
        ((field s.confMem 0 1 < 1 ∨ 8 < field s.confMem 0 1) →
          exec (.loadingComplete answers) s
            = .next { s with station := .setupFault, faultReason := some .badStationNumber })
        ∧ (1 ≤ field s.confMem 0 1 → field s.confMem 0 1 ≤ 8 →
          ((6 < field s.confMem 1 1 ∨ rangesOk 0 (recordRanges s.confMem) = false) →
            exec (.loadingComplete answers) s
              = .next { s with station := .setupFault, faultReason := some .badRanges })
          ∧ (field s.confMem 1 1 ≤ 6 → rangesOk 0 (recordRanges s.confMem) = true →
            (s.linkUp = true → exec (.loadingComplete answers) s = .next { s with
              station := .listening, settings := loadSettings s.confMem,
              clamped := loadClamped s.confMem, quietUntil := some (s.now + 2000),
              listenUntil := some (s.now + 3000), beaconWaiting := true,
              beaconTimer := some (s.now + (loadSettings s.confMem).beaconPeriod) })
            ∧ (s.linkUp = false → exec (.loadingComplete answers) s = .next { s with
              station := .detached, settings := loadSettings s.confMem,
              clamped := loadClamped s.confMem, quietUntil := some (s.now + 2000) })))))

/-- What a record loads (R176, R178, R191): the number, the two addresses and the flags as stored; as many
ranges as the range count says, each with its limit and way sets; and each of the five settings at its
present bit and offset: absent, its default; in its range, as stored; beyond it, the nearer bound with the
setting's clamped indication. So every loaded setting lies in its range. -/
def Obligations.LoadedSettingsInRange : Prop :=
  ∀ b : List Byte,
    (20 ≤ (loadSettings b).beaconPeriod ∧ (loadSettings b).beaconPeriod ≤ 1000
      ∧ 5 ≤ (loadSettings b).gapWait ∧ (loadSettings b).gapWait ≤ 1000
      ∧ 1 ≤ (loadSettings b).landingDelay ∧ (loadSettings b).landingDelay ≤ 200
      ∧ 1 ≤ (loadSettings b).batch ∧ (loadSettings b).batch ≤ 8 ∧ (loadSettings b).margin ≤ 65535)
    ∧ SettingLoaded ((byteAt b 3).getLsbD 0) (field b 16 2) 20 1000 100
        (loadSettings b).beaconPeriod (loadClamped b).beaconPeriod
    ∧ SettingLoaded ((byteAt b 3).getLsbD 1) (field b 18 2) 5 1000 40
        (loadSettings b).gapWait (loadClamped b).gapWait
    ∧ SettingLoaded ((byteAt b 3).getLsbD 2) (field b 20 2) 1 200 10
        (loadSettings b).landingDelay (loadClamped b).landingDelay
    ∧ SettingLoaded ((byteAt b 3).getLsbD 3) (field b 22 1) 1 8 4
        (loadSettings b).batch (loadClamped b).batch
    ∧ SettingLoaded ((byteAt b 3).getLsbD 4) (field b 24 2) 0 65535 256
        (loadSettings b).margin (loadClamped b).margin
    ∧ (loadSettings b).station = field b 0 1
    ∧ (loadSettings b).groupAddr = BitVec.ofNat 48 (field b 4 6)
    ∧ (loadSettings b).headAddr = BitVec.ofNat 48 (field b 10 6)
    ∧ (loadSettings b).adoptEligible = (byteAt b 2).getLsbD 0
    ∧ (loadSettings b).keepContexts = (byteAt b 2).getLsbD 1
    ∧ (loadSettings b).ranges.length = field b 1 1
    ∧ (∀ i r, (loadSettings b).ranges[i]? = some r → r.limit = field b (28 + 4 * i) 1
        ∧ ∀ w : Way, r.land.get w = (byteAt b (29 + 4 * i)).getLsbD w.val
          ∧ r.browse.get w = (byteAt b (30 + 4 * i)).getLsbD w.val)

/-- STATION_RESET (R174): another number, nothing; this station's, LISTENING with the record as loaded,
the quiet time and a beacon due at once, and every other state at its start-up value. The maintenance
line, the configuration memory and the two frame latches are kept (log 20). -/
def Obligations.StationResetRestarts : Prop :=
  ∀ (s : State) (f : Frame) (n : Nat), s.HearsDirective f (.stationReset n) →
    (n ≠ s.settings.station → exec (.stationReset f) s = .next s)
    ∧ (n = s.settings.station → exec (.stationReset f) s = .next { State.reset with
        station := .listening, listenUntil := some (s.now + 3000), quietUntil := some (s.now + 2000),
        beaconWaiting := true, beaconTimer := some (s.now + s.settings.beaconPeriod),
        settings := s.settings, clamped := s.clamped, pending := s.pending, now := s.now,
        nextUid := s.nextUid, draws := s.draws, linkUp := s.linkUp, confMem := s.confMem,
        recordWrite := s.recordWrite, maintAnswers := s.maintAnswers, maintTx := s.maintTx,
        captureTx := s.captureTx, storageTx := s.storageTx })

/-- CAPTURE_LINK_LOST in LISTENING or LIVE (R181): DETACHED, the beacon timer and a LISTENING period
stopped, the transmit queue and the pending answers emptied, and nothing else. CAPTURE_LINK_RETURN in
DETACHED (R182, R24, R48, R110): LISTENING for 3,000 ms with a beacon due at once and no quiet time of
its own; no peer, no adopted triple. With Keep Contexts clear no context stays. With it set every context
stays in its state with its fields: where no way was adopted, exactly as it was but that every position's
gap wait is stopped with no attempt and no restart spent, one in the lost procedure too (log 22); where
one was, its adopted ways are held no more (R44), and a CLOSING context may be FINAL by that. The ring's
chunks, the Storage Request Table, the local hold, the counters, the last refusal, the closed-identity
list, DUPLICATE NUMBER and the configuration stay. In other states a change of the link is only recorded
(log 21). -/
def Obligations.CaptureLinkFollowed : Prop :=
  ∀ s : State,
    (s.receives = true → exec .captureLinkLost s = .next { s with
        linkUp := false, station := .detached, beaconTimer := none, beaconWaiting := false,
        askQueue := [], mendQueue := [], answers := [], listenUntil := none })
    ∧ (s.receives = false → exec .captureLinkLost s = .next { s with linkUp := false })
    ∧ (s.station ≠ .detached → exec .captureLinkReturn s = .next { s with linkUp := true })
    ∧ (s.station = .detached → ∃ t, exec .captureLinkReturn s = .next t
      ∧ t.station = .listening ∧ t.linkUp = true ∧ t.listenUntil = some (s.now + 3000)
      ∧ t.beaconWaiting = true ∧ t.beaconTimer = some (s.now + s.settings.beaconPeriod)
      ∧ t.peers = [] ∧ t.adopted = []
      ∧ (s.settings.keepContexts = false → t.contexts = [])
      ∧ (s.settings.keepContexts = true → t.feeds = s.feeds
          ∧ ∀ c ∈ t.contexts, ∀ p ∈ c.positions,
              p.gapWait = none ∧ p.attempts = 0 ∧ p.restarts = 0)
      ∧ (s.settings.keepContexts = true → s.adopted = [] →
          t.contexts = s.contexts.map (fun c => { c with positions := c.positions.map (fun p =>
            { p with gapWait := none, attempts := 0, restarts := 0 }) }))
      ∧ (s.settings.keepContexts = true → s.TableOk → ∀ feed c, s.ctx? feed = some c →
          ∃ d, t.ctx? feed = some d
            ∧ (d.state = c.state ∨ (c.state = .closing ∧ d.state = .final))
            ∧ d.origin = c.origin ∧ d.params = c.params ∧ d.effRate = c.effRate
            ∧ d.effFactor = c.effFactor ∧ d.e = c.e ∧ d.h = c.h ∧ d.landHold = c.landHold
            ∧ d.browseHold = c.browseHold ∧ d.flags = c.flags ∧ d.counts = c.counts
            ∧ d.linger = c.linger ∧ d.carried = c.carried ∧ d.pacing = c.pacing
            ∧ d.markWrites = c.markWrites ∧ d.markReq = c.markReq
            ∧ ∀ k w, d.kindOf k w =
                (if Triple.mk feed w k ∈ s.adopted then .unheld else c.kindOf k w))
      ∧ t.ring.map (fun e => { e with pins := 0 }) = s.ring.map (fun e => { e with pins := 0 })
      ∧ t.table = s.table ∧ t.quietUntil = s.quietUntil ∧ t.localHold = s.localHold
      ∧ t.timeoutRun = s.timeoutRun ∧ t.counters = s.counters ∧ t.lastRefusal = s.lastRefusal
      ∧ t.closedIds = s.closedIds ∧ t.dupNumber = s.dupNumber ∧ t.settings = s.settings)

/-- LISTENING_PERIOD_END (R183, R37): with DUPLICATE NUMBER latched the station stays LISTENING; else it is
LIVE, with the same feeds, the same chunks in the ring, every ACTIVE or CLOSING context's window built, the
beacon timer and the storage table as they were, and no frame sent. Before the period's end the command does
nothing (log 1). The move to LIVE first brings each window up to date (R91), then searches for orphans and
recomputes the commits (R47): a window has a position exactly for each sequence number called for (R74);
one created, and one that was ABSENT or GATHERING, is what the ring's entry makes of it (R78), and another
that is called for stays as it was; and, as no gap wait runs in LISTENING, a wait toward G runs on exactly
the positions that wait for their chunk and are behind (R83). -/
def Obligations.ListeningEndGoesLive : Prop :=
  ∀ s : State, s.station = .listening →
    (s.reached s.listenUntil = false → exec .listeningPeriodEnd s = .next s)
    ∧ (s.reached s.listenUntil = true → s.dupNumber = true →
        exec .listeningPeriodEnd s = .next { s with listenUntil := none })
    ∧ (s.reached s.listenUntil = true → s.dupNumber = false →
        ∃ t, exec .listeningPeriodEnd s = .next t ∧ t.station = .live ∧ t.listenUntil = none
          ∧ t.feeds = s.feeds ∧ (∀ c ∈ t.contexts, c.working = true → c.windowBuilt = true)
          ∧ t.ring.map (fun e => { e with pins := 0 }) = s.ring.map (fun e => { e with pins := 0 })
          ∧ t.beaconTimer = s.beaconTimer ∧ t.beaconWaiting = s.beaconWaiting ∧ t.table = s.table
          ∧ t.peers = s.peers ∧ t.counters = s.counters ∧ t.settings = s.settings
          ∧ t.captureTx = s.captureTx ∧ t.storageTx = s.storageTx
          ∧ (s.TableOk → ∃ u : State, t = u.searchOrphans.recomputeCommits ∧ u.station = .live
            ∧ u.adopted = s.adopted ∧ ∀ feed c, s.ctx? feed = some c → c.working = true →
              ∃ d, u.ctx? feed = some d
                ∧ d = { c with windowBuilt := true, positions := d.positions, flags := d.flags }
                ∧ (∀ n, d.pos? n ≠ none ↔ c.CalledFor n)
                ∧ (∀ p ∈ d.positions, (∀ o, c.pos? p.seq = some o →
                    o.land = .absent ∨ o.land = .gathering) → s.LookedUp feed p)
                ∧ ((c.positions.map (·.seq)).Pairwise (· < ·) → ∀ o ∈ c.positions,
                    o.land ≠ .absent → o.land ≠ .gathering → c.CalledFor o.seq →
                    c.WantsCalled o → d.pos? o.seq = some o)
                ∧ ((∀ o ∈ c.positions, o.gapWait = none) → ∀ p ∈ d.positions,
                    (p.Awaits ∧ c.Behind p.seq → p.gapWait = some (s.now + s.settings.gapWait))
                    ∧ (¬(p.Awaits ∧ c.Behind p.seq) → p.gapWait = none))))

/-! ### The maintenance line (R184, R185) -/

/-- READ_STATUS and READ_RECORD (R184): a command is discarded while an answer waits and no record write
is in progress. READ_STATUS is answered in every state; READ_RECORD is answered BUSY while a write is in
progress or in LOADING, else with the memory, or FAILED. MAINTENANCE_ANSWER_SENT sends the oldest
waiting answer; the latch that shows it is the model's (log 19). What an answer
holds is taken when its command is (log 31), and an answer is a structured value, not bytes (log 23). -/
def Obligations.MaintenanceLineAnswers : Prop :=
  ∀ (s : State) (ok : Bool),
    (s.maintAnswers ≠ [] → s.recordWrite = none →
        exec .readStatus s = .next s ∧ exec (.readRecord ok) s = .next s)
    ∧ ((s.maintAnswers = [] ∨ s.recordWrite ≠ none) → exec .readStatus s = .next { s with
        maintAnswers := s.maintAnswers
          ++ [.status s.station s.faultReason s.clamped s.recordWrite.isSome] })
    ∧ (s.recordWrite ≠ none → exec (.readRecord ok) s
        = .next { s with maintAnswers := s.maintAnswers ++ [.busy] })
    ∧ (s.recordWrite = none → s.maintAnswers = [] →
        (s.station = .loading →
          exec (.readRecord ok) s = .next { s with maintAnswers := [.busy] })
        ∧ (s.station ≠ .loading → exec (.readRecord ok) s
          = .next { s with maintAnswers := [if ok then .record s.confMem else .failed] }))
    ∧ (s.maintAnswers = [] → exec .maintenanceAnswerSent s = .next s)
    ∧ (∀ a rest, s.maintAnswers = a :: rest → exec .maintenanceAnswerSent s
        = .next { s with maintAnswers := rest, maintTx := some a })

/-- WRITE_RECORD (R185): BUSY, BAD CHECK with the memory unchanged, or a write that begins; discarded
while an answer waits and no record write is in progress (R184). RECORD_WRITE_COMPLETE: DONE with the
whole record in the memory, or FAILED, each byte of the memory then old or new, whatever the free choice
is (log 7), and where that mixes the two records the memory's check word differs. The running station is
not changed. -/
def Obligations.RecordWrites : Prop :=
  ∀ (s : State) (r : List Byte),
    (s.recordWrite ≠ none → exec (.writeRecord r) s
        = .next { s with maintAnswers := s.maintAnswers ++ [.busy] })
    ∧ (s.recordWrite = none → s.maintAnswers ≠ [] → exec (.writeRecord r) s = .next s)
    ∧ (s.recordWrite = none → s.maintAnswers = [] →
        (s.station = .loading → exec (.writeRecord r) s = .next { s with maintAnswers := [.busy] })
        ∧ (s.station ≠ .loading → recordCheckOk r = false →
            exec (.writeRecord r) s = .next { s with maintAnswers := [.badCheck] })
        ∧ (s.station ≠ .loading → recordCheckOk r = true →
            exec (.writeRecord r) s = .next { s with recordWrite := some r }))
    ∧ (s.recordWrite = none → ∀ b, exec (.recordWriteComplete b) s = .next s)
    ∧ (s.recordWrite = some r →
      exec (.recordWriteComplete true) s = .next { s with
          confMem := r, recordWrite := none, maintAnswers := s.maintAnswers ++ [.done] }
      ∧ ∃ m, exec (.recordWriteComplete false) s = .next { s with
            confMem := m, draws := s.draws + 1, recordWrite := none,
            maintAnswers := s.maintAnswers ++ [.failed] }
          ∧ m.length = 64
          ∧ (∀ i, i < 64 → m[i]? = some (byteAt s.confMem i) ∨ m[i]? = some (byteAt r i))
          ∧ (m = recordBytes s.confMem ∨ m = recordBytes r ∨ recordCheckOk m = false))

/-! ### The beacon and the transmit queue (R28, R29, R92) -/

/-- BEACON_TIMER_EXPIRY (R28), PROBE_TIMER_EXPIRY (R117), STORAGE_QUIET_TIME_END (R118) and
STALE_PERIOD_END (R114). At its time the beacon timer runs on by P and a beacon waits, no second one
where one does; the probe timer runs on by P and a PROBE waits, unless one is ISSUED; the quiet time is
over; the STALE entry is FREE. Before its time, and for a timer that is stopped, a command does nothing
(log 1); an expiry taken late runs the timer on from its own time (log 18). -/
def Obligations.TimersRunOut : Prop :=
  ∀ s : State,
    (s.beaconTimer = none → exec .beaconTimerExpiry s = .next s)
    ∧ (∀ t, s.beaconTimer = some t →
      (t ≤ s.now → exec .beaconTimerExpiry s = .next { s with
          beaconWaiting := true, beaconTimer := some (t + s.settings.beaconPeriod) })
      ∧ (s.now < t → exec .beaconTimerExpiry s = .next s))
    ∧ (s.probeTimer = none → exec .probeTimerExpiry s = .next s)
    ∧ (∀ t, s.probeTimer = some t →
      (t ≤ s.now →
        ((∃ (tag : Fin 16) (r : Request), s.table[tag] = .issued r ∧ r.purpose = .probe) →
          exec .probeTimerExpiry s = .next { s with
            probeTimer := some (t + s.settings.beaconPeriod) })
        ∧ ((∀ (tag : Fin 16) (r : Request), s.table[tag] = .issued r → r.purpose ≠ .probe) →
          exec .probeTimerExpiry s = .next { s with
            probeTimer := some (t + s.settings.beaconPeriod), probeWaiting := true }))
      ∧ (s.now < t → exec .probeTimerExpiry s = .next s))
    ∧ (s.quietUntil = none → exec .storageQuietTimeEnd s = .next s)
    ∧ (∀ t, s.quietUntil = some t →
      (t ≤ s.now → exec .storageQuietTimeEnd s = .next { s with quietUntil := none })
      ∧ (s.now < t → exec .storageQuietTimeEnd s = .next s))
    ∧ (∀ tag : Fin 16,
      ((∀ r u, s.table[tag] ≠ .stale r u) → exec (.stalePeriodEnd tag) s = .next s)
      ∧ (∀ r u, s.table[tag] = .stale r u →
        (u ≤ s.now → exec (.stalePeriodEnd tag) s
          = .next { s with table := s.table.set tag .free })
        ∧ (s.now < u → exec (.stalePeriodEnd tag) s = .next s)))

/-- PORT_TRANSMIT in LISTENING or LIVE (R92, R95, R100): the beacon first, formed from the state as it
leaves; else the oldest ask, with the counter and the position's attempts one higher; else the oldest mend
cell, with its counter one higher and its index out of its answer, freed when emptied; else nothing.
Elsewhere nothing is sent. A frame goes to the segment group address from 02-00-00-00-00-0n, n this
station's number (R176, R188); a mend cell is of kind 0x02, from a STATION of this number, with the entry's
header and payload (R100). The latch captureTx is the model's (log 19). -/
def Obligations.PortTransmitsInOrder : Prop :=
  ∀ s : State,
    let sent := fun (body : List Byte) => some
      { dest := s.settings.groupAddr, src := 0x020000000000#48 ||| BitVec.ofNat 48 s.settings.station,
        ftype := 0x88B5#16, body := body : Frame }
    (s.receives = false → exec .portTransmit s = .next s)
    ∧ (s.receives = true → s.beaconWaiting = true → exec .portTransmit s = .next { s with
        beaconWaiting := false, captureTx := sent s.beaconBody })
    ∧ (s.receives = true → s.beaconWaiting = false →
        (∀ a rest, s.askQueue = a :: rest → exec .portTransmit s = .next { s with
            askQueue := rest, captureTx := sent (encodeAsk s.settings.station a),
            counters := { s.counters with asksSent := s.counters.asksSent + 1 },
            contexts := s.contexts.map (fun c => if c.feed == a.feed then
              { c with positions := c.positions.map (fun p => if p.seq == a.seq then
                { p with attempts := p.attempts + 1 } else p) } else c) })
        ∧ (∀ m rest, s.askQueue = [] → s.mendQueue = m :: rest →
            exec .portTransmit s = .next { s with
              mendQueue := rest,
              captureTx := sent (encodeCell 0x02#8
                { senderKind := 1, senderNumber := s.settings.station, feed := m.feed, seq := m.seq,
                  index := m.index, hdr := m.hdr, payload := m.payload }),
              counters := { s.counters with mendCellsSent := s.counters.mendCellsSent + 1 },
              answers := (s.answers.map (fun x => if x.uid == m.answer then
                { x with cells := x.cells.filter (· != m.index) } else x)).filter
                  (fun x => !x.cells.isEmpty) })
        ∧ (s.askQueue = [] → s.mendQueue = [] → exec .portTransmit s = .next s))

/-- A peer reads from a station's beacon what the station holds (R29, R31, R188): for every station whose
number, period and table are in range and whose contexts' fields fit their bytes. The fields a peer does
not store stand there too: the frame kind and sender kind, the eight counters in the order of R30,
DUPLICATE NUMBER, LOCAL HOLD and the last refusal. A record carries what R31 says of its context: the mark
of a way is none where the way is not held for the kind, and the truncated count is not carried. -/
def Obligations.BeaconReadsBack : Prop :=
  ∀ s : State, s.receives = true → 1 ≤ s.settings.station → s.settings.station ≤ 8 →
    20 ≤ s.settings.beaconPeriod → s.settings.beaconPeriod ≤ 1000 → s.TableOk →
    (∀ c ∈ s.contexts,
      c.params.landingBase < 2 ^ 64 ∧ c.params.browseBase < 2 ^ 64 ∧ c.params.landingSlot < 2 ^ 32
      ∧ c.params.slotCount < 2 ^ 32 ∧ c.params.browseSlot < 2 ^ 32 ∧ c.params.browseSlots < 2 ^ 32
      ∧ c.params.width < 2 ^ 16 ∧ c.params.height < 2 ^ 16 ∧ c.params.sourceRate < 256
      ∧ c.params.browseRate < 256 ∧ c.params.factor < 256 ∧ c.params.wayFn < 256
      ∧ c.params.depth < 256 ∧ c.params.cueCount ≤ 8 ∧ c.params.cues.length = c.params.cueCount
      ∧ (∀ x ∈ c.params.cues, x < 2 ^ 32)
      ∧ (∀ m ∈ c.e :: c.h :: c.published :: (c.lv.toList ++ c.bv.toList),
          ∀ n, m = some n → n < 2 ^ 32 - 1)) →
    parseBeacon s.beaconBody = some
      { number := s.settings.station, live := s.station == .live, period := s.settings.beaconPeriod,
        adoptEligible := s.settings.adoptEligible, adoptRoom := 16 - s.adopted.length,
        records := s.contexts.map (fun c =>
          { feed := c.feed, state := c.state, origin := c.origin, landHold := c.landHold,
            browseHold := c.browseHold, flags := c.flags, params := c.params, e := c.e, h := c.h,
            published := c.published, landKind := c.landKind, browseKind := c.browseKind,
            lv := PerWay.ofFn (fun w => if c.landKind.get w = .unheld then none else c.lv.get w),
            bv := PerWay.ofFn (fun w => if c.browseKind.get w = .unheld then none else c.bv.get w),
            counts := [c.counts.landed, c.counts.lost, c.counts.rewrites, c.counts.ahead,
              c.counts.late, c.counts.browseDone, c.counts.browseShed, c.counts.browseFailed] }) }
    ∧ s.beaconBody.take 2 = [0x03#8, 1#8]
    ∧ (List.range 8).map (fun i => BitVec.ofNat 32 (field s.beaconBody (8 + 4 * i) 4)) =
        [s.counters.cellsAccepted, s.counters.cellsMalformed, s.counters.cellMismatches,
          s.counters.poolOverruns, s.counters.asksSent, s.counters.mendCellsSent,
          s.counters.storageTimeouts, s.counters.storageRefusals]
    ∧ (byteAt s.beaconBody 6).getLsbD 1 = s.dupNumber
    ∧ (byteAt s.beaconBody 6).getLsbD 2 = s.localHold
    ∧ (s.lastRefusal = none → byteAt s.beaconBody 40 = 0#8)
    ∧ (∀ r, s.lastRefusal = some r → byteAt s.beaconBody 40 = 1#8
        ∧ byteAt s.beaconBody 41 = BitVec.ofNat 8 r.feed
        ∧ byteAt s.beaconBody 42 = r.kind.code ∧ byteAt s.beaconBody 43 = r.reason.code)

/-- A mend ask reads back as it was formed (R94, R188), for every ask whose fields fit their bytes; it is
of kind 0x04, from a STATION. -/
def Obligations.AskReadsBack : Prop :=
  ∀ (n : Nat) (a : Ask), n < 256 → a.feed < 256 → a.seq < 2 ^ 32 → a.attempt < 256 →
    (a.whole = true → a.missing = []) →
    (∀ i ∈ a.missing, i < 128) → a.missing.Pairwise (· < ·) →
    parseAsk (encodeAsk n a) = some
      { asker := n, feed := a.feed, seq := a.seq, attempt := a.attempt, whole := a.whole,
        missing := a.missing }
    ∧ (encodeAsk n a).take 2 = [0x04#8, 1#8]

/-- A cell reads back as it was sent (R188), whatever padding follows it, for every cell whose fields fit
their bytes; its first byte is its kind. -/
def Obligations.CellReadsBack : Prop :=
  ∀ (kind : Byte) (c : Cell) (padding : List Byte),
    c.senderKind < 256 → c.senderNumber < 256 → c.feed < 256 → c.seq < 2 ^ 32 → c.index < 256 →
    c.hdr.cells < 256 → c.hdr.frames < 256 → c.hdr.length < 2 ^ 32 → c.hdr.first < 2 ^ 32 →
    c.payload.length < 2 ^ 16 →
    parseCell (encodeCell kind c ++ padding) = some c ∧ (encodeCell kind c)[0]? = some kind

/-! ### Frames received (R49, R50, R30) -/

/-- A frame is taken by no block where the station is not LISTENING or LIVE, or where it is of another
frame type (R49, R50): every receive command leaves the state as it was. -/
def Obligations.FramesNotTaken : Prop :=
  ∀ (s : State) (f : Frame), s.receives = false ∨ f.ftype ≠ Config.captureType →
    ∀ i ∈ receiveCommands f, exec i s = .next s

/-- A capture frame to another address, or of an unknown kind (R49), one with no byte after the Ethernet
header among them (log 24), and a cell that is too short or fails a check (R51, R52, R186), are counted
malformed and do nothing else, whichever receive command brings them (log 10). -/
def Obligations.MalformedFramesCounted : Prop :=
  ∀ (s : State) (f : Frame), s.receives = true → f.ftype = Config.captureType →
    (f.dest ≠ s.settings.groupAddr
      ∨ (∀ k, f.body[0]? = some k → k = 0#8 ∨ 5 < k.toNat)
      ∨ ∃ mend, s.Hears f (if mend then 0x02#8 else 0x01#8) ∧ (parseCell f.body = none
        ∨ ∃ c, parseCell f.body = some c ∧ (c.senderOk mend = false ∨ c.contentOk = false))) →
    ∀ i ∈ receiveCommands f, exec i s = .next { s with
      counters := { s.counters with cellsMalformed := s.counters.cellsMalformed + 1 } }

/-! ### Cells and the Retention Ring (R53 to R67) -/

/-- A cell, from a gateway or a station, with no ring entry (R55, R58, R65 to R67, R79), a mend cell once
it has been reported to the answering side (R53). Of a feed with no context, where there is room: a PARTIAL
entry at the newest place with the cell's header, index and payload; or, for a one-cell chunk, a WHOLE one
where the check word agrees, and else no entry and no pending answer for it. With no room the oldest entry
that is not pinned is removed for it, and its removal reported; with every entry pinned the cell is dropped
and pool overruns is one higher. Of a feed with a context it is the same in the ring, in any state of the
context, its H having risen; a drop latches POOL OVERRUN. In LIVE an ABSENT position of the chunk becomes
GATHERING, a wait that runs going on, and one in another state stays in it; a one-cell chunk that is WHOLE
is then taken by the window as R80 says and, with the LAST flag, is a candidate for E (R59); one that fails
its check leaves the position ABSENT. -/
def Obligations.CellCreatesEntry : Prop :=
  ∀ (s : State) (f : Frame) (mend : Bool) (c : Cell), s.HearsCell f mend c →
    s.entry? c.feed c.seq = none →
    let u := s.seen mend c
    let i := cellCommand mend f
    let room := s.buffersUsed < Config.poolBuffers ∧ s.ring.length < Config.ringEntries
    let e : RingEntry := { feed := c.feed, seq := c.seq, whole := false, hdr := c.hdr,
                           cells := [(c.index, c.payload)], pins := 0 }
    let good := checkWord (c.payload.take c.hdr.length) = c.hdr.check
    let accepted := { s.counters with cellsAccepted := s.counters.cellsAccepted + 1 }
    let overrun := { s.counters with poolOverruns := s.counters.poolOverruns + 1 }
    (s.ctx? c.feed = none →
      (room → c.hdr.cells ≠ 1 → exec i s = .next { u with
          ring := s.ring ++ [e], counters := accepted })
      ∧ (room → c.hdr.cells = 1 →
        (good → exec i s = .next { u with
            ring := s.ring ++ [{ e with whole := true }], counters := accepted })
        ∧ (¬good → exec i s = .next { u with
            answers := u.answers.filter (fun x => !(x.feed == c.feed && x.seq == c.seq)),
            mendQueue := u.mendQueue.filter (fun m => !(m.feed == c.feed && m.seq == c.seq)),
            counters := accepted }))
      ∧ (¬room → (∀ x ∈ s.ring, 0 < x.pins) →
          exec i s = .next { u with counters := overrun })
      ∧ (¬room → s.RingOk → c.hdr.cells ≠ 1 → ∀ before v after, s.ring = before ++ v :: after →
          (∀ x ∈ before, 0 < x.pins) → v.pins = 0 → v.cells ≠ [] →
          ∃ t, exec i s = .next t ∧ t.ring = before ++ after ++ [e]
            ∧ t.counters = accepted ∧ u.RemovalReported t v))
    ∧ (∀ x, s.ctx? c.feed = some x → c.seq < x.params.slotCount →
      ∃ t d, exec i s = .next t ∧ t.ctx? c.feed = some d ∧ d.h = Mark.higher x.h (some c.seq)
        ∧ (¬room → (∀ y ∈ s.ring, 0 < y.pins) → t.ring = s.ring ∧ t.counters = overrun
          ∧ d.flags.poolOverrun = true)
        ∧ (room → c.hdr.cells ≠ 1 → t.ring = s.ring ++ [e] ∧ t.counters = accepted
          ∧ (s.station = .live → ∀ p, x.pos? c.seq = some p → ∃ q, d.pos? c.seq = some q
            ∧ (p.land = .absent → q.land = .gathering ∧ q.hasRef = true)
            ∧ (p.land ≠ .absent → q.land = p.land ∧ q.hasRef = p.hasRef)
            ∧ q.pinned = p.pinned ∧ (p.gapWait ≠ none → q.gapWait = p.gapWait)))
        ∧ (¬room → s.RingOk → c.hdr.cells ≠ 1 → ∀ before v after, s.ring = before ++ v :: after →
          (∀ y ∈ before, 0 < y.pins) → v.pins = 0 → v.cells ≠ [] →
          t.ring = before ++ after ++ [e] ∧ t.counters = accepted ∧ u.RemovalTold t v)
        ∧ (room → c.hdr.cells = 1 → t.counters = accepted
          ∧ (¬good → t.ring = s.ring
            ∧ t.answers = u.answers.filter (fun y => !(y.feed == c.feed && y.seq == c.seq))
            ∧ ∀ p, s.station = .live → x.pos? c.seq = some p → p.land = .absent →
                ∃ q, d.pos? c.seq = some q ∧ q.land = .absent ∧ q.hasRef = false
                  ∧ q.attempts = p.attempts ∧ q.restarts = p.restarts)
          ∧ (good → (∃ n, t.entry? c.feed c.seq = some { e with whole := true, pins := n })
            ∧ (c.hdr.last = true → x.working = true → d.e = x.endAfter c.seq)
            ∧ (s.station = .live → ∃ v y, v.ctx? c.feed = some y
              ∧ ({ u with ring := s.ring ++ [e] } : State).WholeReported v
                  { x with positions := x.positions.map (fun p =>
                    if p.seq == c.seq && p.land == .absent then
                      { p with land := .gathering, hasRef := true } else p) } y c.seq c.hdr
              ∧ t = (if c.hdr.last then v.takeEnd c.feed c.seq else v)))))

/-- A cell, from a gateway or a station, that agrees with its entry (R57, R65, R67), a mend cell once it
has been reported to the answering side (R53). One that brings a PARTIAL entry a new index and does not
complete it joins the entry where a buffer is free, and cells accepted is one higher; with none free the
oldest other entry that is not pinned makes room, and with none such the cell is dropped and pool overruns
is one higher; one for a WHOLE entry, or with an index already received, changes nothing. Of a feed with a
context it is the same in the ring, its H having risen; a drop latches POOL OVERRUN, and the window does
not follow a cell that joins (R79). -/
def Obligations.CellJoinsEntry : Prop :=
  ∀ (s : State) (f : Frame) (mend : Bool) (c : Cell) (e : RingEntry), s.HearsCell f mend c →
    s.entry? c.feed c.seq = some e → e.hdr = c.hdr →
    let u := s.seen mend c
    let i := cellCommand mend f
    let joined := fun (r : List RingEntry) => r.map (fun x =>
      if x.feed == c.feed && x.seq == c.seq then
        { x with cells := insertCell c.index c.payload x.cells } else x)
    let fresh := e.whole = false ∧ c.index ∉ e.cells.map (·.1)
    let accepted := { s.counters with cellsAccepted := s.counters.cellsAccepted + 1 }
    let overrun := { s.counters with poolOverruns := s.counters.poolOverruns + 1 }
    let stuck := ∀ x ∈ s.ring, 0 < x.pins ∨ (x.feed = c.feed ∧ x.seq = c.seq)
    let evicts := fun (before : List RingEntry) (v : RingEntry) (after : List RingEntry) =>
      s.ring = before ++ v :: after ∧ (∀ x ∈ before, 0 < x.pins ∨ (x.feed = c.feed ∧ x.seq = c.seq))
        ∧ v.pins = 0 ∧ ¬(v.feed = c.feed ∧ v.seq = c.seq) ∧ v.cells ≠ []
    (s.ctx? c.feed = none →
      (¬fresh → exec i s = .next u)
      ∧ (fresh → e.cells.length + 1 ≠ e.hdr.cells → s.buffersUsed < Config.poolBuffers →
        exec i s = .next { u with ring := joined s.ring, counters := accepted })
      ∧ (fresh → Config.poolBuffers ≤ s.buffersUsed → stuck →
        exec i s = .next { u with counters := overrun })
      ∧ (fresh → Config.poolBuffers ≤ s.buffersUsed → s.RingOk →
        e.cells.length + 1 ≠ e.hdr.cells → ∀ before v after, evicts before v after →
        ∃ t, exec i s = .next t ∧ t.ring = joined (before ++ after) ∧ t.counters = accepted
          ∧ u.RemovalReported t v))
    ∧ (∀ x, s.ctx? c.feed = some x → c.seq < x.params.slotCount →
      ∃ t d, exec i s = .next t ∧ t.ctx? c.feed = some d ∧ d.h = Mark.higher x.h (some c.seq)
        ∧ (¬fresh → t.ring = s.ring ∧ t.counters = s.counters)
        ∧ (fresh → e.cells.length + 1 ≠ e.hdr.cells → s.buffersUsed < Config.poolBuffers →
          t.ring = joined s.ring ∧ t.counters = accepted
            ∧ ∀ n, (d.pos? n).map (·.land) = (x.pos? n).map (·.land))
        ∧ (fresh → Config.poolBuffers ≤ s.buffersUsed → stuck →
          t.ring = s.ring ∧ t.counters = overrun ∧ d.flags.poolOverrun = true)
        ∧ (fresh → Config.poolBuffers ≤ s.buffersUsed → s.RingOk →
          e.cells.length + 1 ≠ e.hdr.cells → ∀ before v after, evicts before v after →
          t.ring = joined (before ++ after) ∧ t.counters = accepted ∧ u.RemovalTold t v))

/-- The cell that completes an entry (R58), from a gateway or a station, with a free buffer, a mend cell
once it has been reported to the answering side (R53). Of a feed with no context: where the computed check
word is the header's the entry is WHOLE; where it is not, the entry leaves the ring and the pending answers
for it are cancelled with their queued cells (R102). Cells accepted is one higher in both, and no other
counter. Of a feed with a context: the same of the ring; a chunk that fails its check leaves a GATHERING
position ABSENT with its attempts and restarts (R81); a WHOLE one is taken by the window as R80 says, with
BROWSE OVERRUN where its browse job overruns (R151), and one that carries the LAST flag is then a candidate
for E (R15, R59). -/
def Obligations.RingChecksChunk : Prop :=
  ∀ (s : State) (f : Frame) (mend : Bool) (c : Cell) (e : RingEntry), s.HearsCell f mend c →
    s.entry? c.feed c.seq = some e → e.hdr = c.hdr → e.whole = false →
    c.index ∉ e.cells.map (·.1) → e.cells.length + 1 = e.hdr.cells →
    s.buffersUsed < Config.poolBuffers →
    let u := s.seen mend c
    let i := cellCommand mend f
    let full := insertCell c.index c.payload e.cells
    let word := checkWord ((full.flatMap (·.2)).take c.hdr.length)
    let accepted := { s.counters with cellsAccepted := s.counters.cellsAccepted + 1 }
    (s.ctx? c.feed = none →
      (word = c.hdr.check → exec i s = .next { u with
        ring := s.ring.map (fun x => if x.feed == c.feed && x.seq == c.seq then
          { x with cells := insertCell c.index c.payload x.cells, whole := true } else x),
        counters := accepted })
      ∧ (word ≠ c.hdr.check → exec i s = .next { u with
        ring := s.ring.filter (fun x => !(x.feed == c.feed && x.seq == c.seq)),
        answers := u.answers.filter (fun x => !(x.feed == c.feed && x.seq == c.seq)),
        mendQueue := u.mendQueue.filter (fun m => !(m.feed == c.feed && m.seq == c.seq)),
        counters := accepted }))
    ∧ (∀ x, s.ctx? c.feed = some x → c.seq < x.params.slotCount →
      ∃ t d, exec i s = .next t ∧ t.ctx? c.feed = some d ∧ t.counters = accepted
        ∧ (word ≠ c.hdr.check →
          t.ring = s.ring.filter (fun y => !(y.feed == c.feed && y.seq == c.seq))
          ∧ t.answers = u.answers.filter (fun y => !(y.feed == c.feed && y.seq == c.seq))
          ∧ t.mendQueue = u.mendQueue.filter (fun m => !(m.feed == c.feed && m.seq == c.seq))
          ∧ ∀ p, s.station = .live → x.pos? c.seq = some p → p.land = .gathering →
              p.hasRef = true → ∃ q, d.pos? c.seq = some q ∧ q.land = .absent ∧ q.hasRef = false
                ∧ q.attempts = p.attempts ∧ q.restarts = p.restarts)
        ∧ (word = c.hdr.check →
          (∃ n, t.entry? c.feed c.seq = some { e with cells := full, whole := true, pins := n })
          ∧ (c.hdr.last = true → x.working = true → d.e = x.endAfter c.seq)
          ∧ (s.station = .live → ∃ v y, v.ctx? c.feed = some y
            ∧ u.WholeReported v x y c.seq c.hdr
            ∧ t = (if c.hdr.last then v.takeEnd c.feed c.seq else v))))

/-- A cell for an existing entry, from a gateway or a station, below C where its feed has a context: it
agrees exactly when its header fields are the entry's; a disagreeing one leaves the ring as it was and
raises cell mismatches alone, whether the entry is PARTIAL or WHOLE; an agreeing one does not raise it
(R56). Both cell commands are spoken of over a frame of either kind: the frame's bytes decide (log 10). -/
def Obligations.MismatchedCellDiscarded : Prop :=
  ∀ (s : State) (f : Frame) (mend : Bool) (c : Cell) (e : RingEntry), s.HearsCell f mend c →
    (∀ x, s.ctx? c.feed = some x → c.seq < x.params.slotCount) → s.entry? c.feed c.seq = some e →
    ∀ i ∈ [Instr.feedCell f, Instr.mendCell f], ∃ t, exec i s = .next t
      ∧ ((e.hdr.cells ≠ c.hdr.cells ∨ e.hdr.length ≠ c.hdr.length ∨ e.hdr.first ≠ c.hdr.first
          ∨ e.hdr.frames ≠ c.hdr.frames ∨ e.hdr.check ≠ c.hdr.check ∨ e.hdr.last ≠ c.hdr.last) →
        t.ring = s.ring ∧ t.counters =
          { s.counters with cellMismatches := s.counters.cellMismatches + 1 })
      ∧ ((e.hdr.cells = c.hdr.cells ∧ e.hdr.length = c.hdr.length ∧ e.hdr.first = c.hdr.first
          ∧ e.hdr.frames = c.hdr.frames ∧ e.hdr.check = c.hdr.check ∧ e.hdr.last = c.hdr.last) →
        t.counters.cellMismatches = s.counters.cellMismatches)

/-- A cell of a feed with a context, in any state. At or beyond C (R21, R53) it latches LAND OVERRUN and
nothing else changes, but that a mend cell has been reported to the answering side (R101). Below C a cell,
from a gateway or a station, is a sighting whatever becomes of it in the ring (R20, R53): H is the higher
of what it was and the cell's sequence number, and where it rose with C − (H + 1) − M at 0 or less, ALLOT
LOW is latched. In LIVE, where H rose, a gap wait toward G starts on every position below it that waits for
its chunk and on which none runs (R83), one that runs going on, and in ACTIVE none starts above H: said of
a cell without the LAST flag, whose chunk cannot lower E, and of the other positions than its own. Both
cell commands are spoken of over a frame of either kind: the frame's bytes decide (log 10). -/
def Obligations.CellSighted : Prop :=
  ∀ (s : State) (f : Frame) (mend : Bool) (c : Cell) (x : FeedContext), s.HearsCell f mend c →
    s.ctx? c.feed = some x →
    let overrun := s.contexts.map (fun d =>
      if d.feed == c.feed then { d with flags := { d.flags with landOverrun := true } } else d)
    (x.params.slotCount ≤ c.seq → ∀ i ∈ [Instr.feedCell f, Instr.mendCell f],
      (mend = false → exec i s = .next { s with contexts := overrun })
      ∧ (mend = true → ∃ t, exec i s = .next t
        ∧ { t with answers := s.answers, mendQueue := s.mendQueue }
            = { s with contexts := overrun }
        ∧ t.mendQueue = s.mendQueue.filter (fun m =>
            !(m.feed == c.feed && m.seq == c.seq && m.index == c.index))))
    ∧ (c.seq < x.params.slotCount →
      ∀ i ∈ [Instr.feedCell f, Instr.mendCell f], ∃ t d, exec i s = .next t
        ∧ t.ctx? c.feed = some d ∧ d.h = Mark.higher x.h (some c.seq)
        ∧ (Mark.ord x.h ≤ c.seq → x.params.slotCount ≤ c.seq + 1 + s.settings.margin →
            d.flags.allotLow = true)
        ∧ (s.station = .live → Mark.ord x.h ≤ c.seq → c.hdr.last = false →
          ∀ n p, n ≠ c.seq → x.pos? n = some p → p.Awaits →
            ∃ q, d.pos? n = some q
              ∧ (n < c.seq → p.gapWait = none → q.gapWait = some (s.now + s.settings.gapWait))
              ∧ (c.seq < n → x.state = .active → p.gapWait = none → q.gapWait = none)
              ∧ (p.gapWait ≠ none → q.gapWait = p.gapWait)))

/-- A MEND_CELL is first reported to the answering side (R53, R101), whatever becomes of it: a cell of a
WHOLE entry of a feed with no context. Exactly the answers of its chunk lose exactly its index: a WAITING
one, and a SENDING one whose cell of that index still waits in the queue; a SENDING one that has sent it
keeps what it has. The queued cell is withdrawn; an emptied answer is freed; nothing else changes. -/
def Obligations.MendCellShrinksAnswers : Prop :=
  ∀ (s : State) (f : Frame) (c : Cell) (e : RingEntry), s.HearsCell f true c →
    s.ctx? c.feed = none → s.entry? c.feed c.seq = some e → e.hdr = c.hdr → e.whole = true →
    exec (.mendCell f) s = .next { s with
      answers := (s.answers.map (fun x =>
        if x.feed = c.feed ∧ x.seq = c.seq ∧ c.index ∈ x.cells ∧ (x.sending = false
            ∨ ∃ m ∈ s.mendQueue, m.answer = x.uid ∧ m.index = c.index) then
          { x with cells := x.cells.filter (· != c.index) }
        else x)).filter (fun x => !x.cells.isEmpty),
      mendQueue := s.mendQueue.filter (fun m =>
        !(m.feed == c.feed && m.seq == c.seq && m.index == c.index)) }


/-! ### Beacons received and the Peer Table (R32 to R37, R47) -/

/-- BEACON (R32, R33, R34, R37, R47). One that fails a check of R32 is discarded whole, one of this
station's own number among them (log 17); one of this station's own number that passes them latches
DUPLICATE NUMBER and does nothing else. One of another station: its entry holds the beacon's content, with
no feed record where it shows LISTENING, and the time of arrival; every other entry is as it was; in
LISTENING nothing is learned or adopted, and the commits are recomputed; in LIVE the steps of R47 follow in
their order. The entries are taken to stand in ascending number, which PeersOk says. What those steps
compute: the commit of every context that computes one, by R133 and R134, published where it is higher
(R136); and an adopted triple is released exactly where R45 or R46 says so, with what R44 says, shown for
a set of one triple. -/
def Obligations.BeaconTaken : Prop :=
  (∀ (s : State) (f : Frame), s.PeersOk → s.Hears f 0x03#8 →
    (parseBeacon f.body = none → exec (.beacon f) s = .next s)
    ∧ (∀ b, parseBeacon f.body = some b →
      (b.number = s.settings.station → exec (.beacon f) s = .next { s with dupNumber := true })
      ∧ (b.number ≠ s.settings.station → ∃ t, exec (.beacon f) s = .next t
        ∧ t.peer? b.number = some
            { number := b.number, state := if b.live then .live else .listening,
              period := b.period, adoptEligible := b.adoptEligible, adoptRoom := b.adoptRoom,
              records := if b.live then b.records else [], arrived := s.now }
        ∧ (∀ n, n ≠ b.number → t.peer? n = s.peer? n)
        ∧ t.dupNumber = s.dupNumber ∧ t.counters = s.counters
        ∧ (s.station = .listening → t.feeds = s.feeds ∧ t.adopted = s.adopted
            ∧ t = (s.updatePeer b).recomputeCommits)
        ∧ (s.station = .live →
            t = ((((s.updatePeer b).learn b).releaseTests).searchOrphans).recomputeCommits))))
  ∧ (∀ (s : State) (c : FeedContext), s.CommitRule c (s.computedCommit c))
  ∧ (∀ (s : State) (feed : Nat) (c : FeedContext), s.TableOk → s.ctx? feed = some c →
      ∃ d, s.recomputeCommits.ctx? feed = some d ∧ s.CommitTaken c d)
  ∧ (∀ (s : State) (x : Triple) (c : FeedContext), s.TableOk → s.WindowsOk → s.adopted = [x] →
      s.ctx? x.feed = some c →
      (¬s.Releases c x → s.releaseTests = s)
      ∧ (s.Releases c x → s.releaseTests.adopted = [] ∧ ∃ d, s.releaseTests.ctx? x.feed = some d
        ∧ d.kindOf x.kind x.way = .unheld ∧ d.markOf x.kind x.way = none
        ∧ d.retainedOf x.kind x.way = c.markOf x.kind x.way
        ∧ (∀ k w, ¬(k = x.kind ∧ w = x.way) →
            d.kindOf k w = c.kindOf k w ∧ d.retainedOf k w = c.retainedOf k w)
        ∧ ∀ p ∈ d.positions, p.way = x.way →
            (x.kind = .landing → p.wantsLand = false) ∧ (x.kind = .browse → p.wantsBrowse = false)))

/-- A BEACON from which a LIVE station learns. It opens a feed (R17) from a LIVE peer's one record, ACTIVE
or CLOSING, of a feed in range with no context, an identity other than the closed one, a free place and
parameters that pass. The context is LEARNED with the record's parameters; no refusal is recorded; the
commit it publishes is no lower than the start commit of R17, which is the commit of R133 with no mark of
its own. The record's E and the WHOLE chunks of the ring that carry the LAST flag are its candidates for E
(R15, R13): E is the lowest of them, lowered to C − 1 and raised to the start commit; with none the context
is ACTIVE and E is unknown. Of a feed that has a context (R19), the records of a LIVE peer act in their
order, and those of a LISTENING one not at all: a record of another file identity latches CONFLICT and does
nothing else; one in CLOSING gives its E as a candidate to an ACTIVE context that knows none; one in
ABORTED aborts an ACTIVE or CLOSING context and starts the linger of a FAULTED one; any other does nothing. -/
def Obligations.BeaconLearnsOpen : Prop :=
  (∀ (s : State) (f : Frame) (b : PeerBeacon) (q : FeedRecord) (r : Range), s.TableOk →
      s.station = .live → s.Hears f 0x03#8 → parseBeacon f.body = some b →
      b.number ≠ s.settings.station → b.live = true → b.records = [q] →
      (q.state = .active ∨ q.state = .closing) → rangeOf s.settings.ranges q.feed = some r →
      s.ctx? q.feed = none → s.closedId q.feed ≠ some q.params.fileId →
      s.contexts.length < Config.maxContexts → q.params.check = none →
      let start := (s.updatePeer b).startCommit r q
      let candidate := fun (z : Nat) => q.e = some z
        ∨ ∃ e ∈ s.ring, e.feed = q.feed ∧ e.whole = true ∧ e.hdr.last = true ∧ e.seq = z
      ∃ t c, exec (.beacon f) s = .next t ∧ t.ctx? q.feed = some c ∧ c.origin = .learned
        ∧ c.params = q.params ∧ c.effRate = q.params.effRate ∧ c.effFactor = q.params.effFactor
        ∧ Mark.ord start ≤ Mark.ord c.published
        ∧ Mark.ord q.h ≤ Mark.ord c.h ∧ t.lastRefusal = s.lastRefusal
        ∧ (s.updatePeer b).CommitRule (FeedContext.fresh q.feed r q.params .learned none none) start
        ∧ ((∀ z, ¬candidate z) → c.e = none ∧ c.state = .active)
        ∧ (∀ z, candidate z → (∀ y, candidate y → z ≤ y) →
            Mark.ord c.e = max (min z (q.params.slotCount - 1) + 1) (Mark.ord start)
              ∧ (c.state = .closing ∨ c.state = .final)))
  ∧ (∀ (s : State) (b : PeerBeacon), (b.live = false → s.learn b = s)
      ∧ (b.live = true → s.learn b = b.records.foldl (fun u q => u.learnRecord q) s))
  ∧ (∀ (s : State) (q : FeedRecord) (c : FeedContext), s.ctx? q.feed = some c →
      let same := c.params.fileId = q.params.fileId
      (¬same → s.learnRecord q = { s with contexts := s.contexts.map (fun d =>
        if d.feed == q.feed then { d with flags := { d.flags with conflict := true } } else d) })
      ∧ (same → q.state = .closing → c.state = .active → c.e = none → ∀ z, q.e = some z →
        ∃ d, (s.learnRecord q).ctx? q.feed = some d ∧ d.e = c.endAfter z
          ∧ (s.learnRecord q).EndTested { c with e := c.endAfter z, state := .closing } d)
      ∧ (same → q.state = .aborted → (c.state = .active ∨ c.state = .closing) →
        ∃ d, (s.learnRecord q).ctx? q.feed = some d ∧ d.state = .aborted ∧ d.positions = []
          ∧ d.lv = c.lv ∧ d.bv = c.bv ∧ d.e = c.e ∧ d.published = c.published)
      ∧ (same → q.state = .aborted → c.state = .faulted → s.learnRecord q = { s with
        contexts := s.contexts.map (fun d => if d.feed == q.feed then
          (if d.linger = none then { d with linger := some (s.now + 10000) } else d) else d) })
      ∧ (same → q.state = .aborted → (c.state = .final ∨ c.state = .aborted) →
        s.learnRecord q = s)
      ∧ (same → (q.state = .active ∨ q.state = .final ∨ q.state = .faulted
          ∨ (q.state = .closing ∧ (c.state ≠ .active ∨ c.e ≠ none ∨ q.e = none))) →
        s.learnRecord q = s))
  ∧ (∀ (s : State) (f : Frame) (b : PeerBeacon) (q : FeedRecord) (c : FeedContext), s.TableOk →
      s.station = .live → s.Hears f 0x03#8 → parseBeacon f.body = some b →
      b.number ≠ s.settings.station → b.live = true → b.records = [q] → s.ctx? q.feed = some c →
      ∃ t d, exec (.beacon f) s = .next t ∧ t.ctx? q.feed = some d ∧ t.lastRefusal = s.lastRefusal
        ∧ (c.params.fileId ≠ q.params.fileId → d.flags.conflict = true ∧ d.e = c.e)
        ∧ (c.params.fileId = q.params.fileId →
          (q.state = .closing → c.state = .active → c.e = none → ∀ z, q.e = some z →
            d.e = c.endAfter z ∧ (d.state = .closing ∨ d.state = .final))
          ∧ (q.state = .aborted → (c.state = .active ∨ c.state = .closing) → d.state = .aborted)))

/-- PEER_SILENT (R35): at 3 × P since its last beacon a LISTENING or LIVE entry is SILENT and keeps its
content. PEER_REMOVED (R36): at 20 × P a SILENT entry is removed. Before its time, for an entry in another
state or an absent one, a command does nothing (logs 1, 16). Where the station is not LIVE neither releases
an adopted triple, and the commits are recomputed over the new table; in LIVE steps 3 to 5 of R47 follow.
What step 4 does: the search takes the contexts in ascending feed number, the ways 0 to 3 and landing
before browse (R43); a triple that is orphaned (R40) and whose adopter this station is (R41) joins the
adopted set, its way is adopted and its mark starts at the start mark of R42; any other changes nothing.
Positions are created for what the span and the marks then call for (R78), and an existing position of the
way that lies above the new mark and in the new span gains the job of the kind from its present state
(R87): a landing job from READY where it holds a pin, else by a lookup; a browse job handed over at once,
awaiting its chunk, or, LANDED or LOST with no pin, with the ring's chunk or CHUNKLESS. -/
def Obligations.PeersAge : Prop :=
  (∀ (s : State) (n : Nat),
    let silent : State := { s with peers := s.peers.map (fun q =>
      if q.number == n then { q with state := .silent } else q) }
    let gone : State := { s with peers := s.peers.filter (fun q => q.number != n) }
    (s.peer? n = none → exec (.peerSilent n) s = .next s ∧ exec (.peerRemoved n) s = .next s)
    ∧ (∀ p, s.peer? n = some p →
        ((p.state = .silent ∨ s.now < p.arrived + 3 * p.period) →
          exec (.peerSilent n) s = .next s)
        ∧ (p.state ≠ .silent → p.arrived + 3 * p.period ≤ s.now →
          ∃ t, exec (.peerSilent n) s = .next t ∧ t.peer? n = some { p with state := .silent }
            ∧ (∀ m, m ≠ n → t.peer? m = s.peer? m) ∧ t.feeds = s.feeds
            ∧ t.counters = s.counters
            ∧ (s.station ≠ .live → t.adopted = s.adopted ∧ t = silent.recomputeCommits)
            ∧ (s.station = .live → t = ((silent.releaseTests).searchOrphans).recomputeCommits))
        ∧ ((p.state ≠ .silent ∨ s.now < p.arrived + 20 * p.period) →
          exec (.peerRemoved n) s = .next s)
        ∧ (p.state = .silent → p.arrived + 20 * p.period ≤ s.now →
          ∃ t, exec (.peerRemoved n) s = .next t ∧ t.peer? n = none
            ∧ (∀ m, m ≠ n → t.peer? m = s.peer? m) ∧ t.feeds = s.feeds
            ∧ t.counters = s.counters
            ∧ (s.station ≠ .live → t.adopted = s.adopted ∧ t = gone.recomputeCommits)
            ∧ (s.station = .live → t = ((gone.releaseTests).searchOrphans).recomputeCommits))))
  ∧ (∀ s : State, s.searchOrphans = s.feeds.foldl (fun u f => [((0 : Way), WorkKind.landing),
      (0, .browse), (1, .landing), (1, .browse), (2, .landing), (2, .browse), (3, .landing),
      (3, .browse)].foldl (fun v wk => v.searchTriple f wk.2 wk.1) u) s)
  ∧ (∀ (s : State) (feed : Nat) (k : WorkKind) (w : Way) (c : FeedContext), s.TableOk →
      s.ctx? feed = some c →
      (¬(s.Orphaned c k w ∧ s.Adopter c) → s.searchTriple feed k w = s)
      ∧ (s.Orphaned c k w → s.Adopter c →
        (s.searchTriple feed k w).adopted = s.adopted ++ [Triple.mk feed w k]
        ∧ ∃ d m, (s.searchTriple feed k w).ctx? feed = some d ∧ s.StartMark c k w m
          ∧ d.kindOf k w = .adopted
          ∧ (∀ l v, ¬(l = k ∧ v = w) → d.kindOf l v = c.kindOf l v)
          ∧ (c.e = none → d.markOf k w = m) ∧ Mark.ord m ≤ Mark.ord (d.markOf k w)
          ∧ s.PinsFollow (s.searchTriple feed k w) feed
          ∧ (c.windowBuilt = true → d.state = c.state → ∀ n, d.CalledFor n → d.pos? n ≠ none)
          ∧ ∀ n p, c.pos? n = some p → p.way = w → c.wayOf n = w → c.params.geometryOk = true →
              ((c.setKind k w .adopted).setMark k w m).SpanHas n → Mark.ord m ≤ n →
              c.CalledFor n → c.WantsCalled p →
              ∃ q, d.pos? n = some q
                ∧ (k = .landing → p.wantsLand = false → s.LandGained c p q)
                ∧ (k = .browse → p.wantsBrowse = false →
                    s.BrowseGained (s.searchTriple feed k w) c p q)))

/-! ### Mending (R93 to R101) -/

/-- MEND_ASK (R97, R99, R100). One that is too short or fails a check of R97 changes nothing. A
well-formed one for a chunk that is WHOLE in the ring, at which no gap wait runs here: where a WAITING
answer names the chunk, the cells asked for join its set, and it falls due at the earlier of its time and
the new one; where none does and the table has room, a WAITING answer of the cells asked for, due after
2 × ((own number − asker) mod 8) ms; where it is full, nothing. -/
def Obligations.AskMakesAnswer : Prop :=
  ∀ (s : State) (f : Frame), s.Hears f 0x04#8 →
    (parseAsk f.body = none → exec (.mendAsk f) s = .next s)
    ∧ (∀ a, parseAsk f.body = some a →
      ((a.asker < 1 ∨ 8 < a.asker ∨ 64 ≤ a.feed ∨ a.attempt < 1 ∨ 4 < a.attempt
          ∨ (a.whole = false ∧ a.missing = [])) → exec (.mendAsk f) s = .next s)
      ∧ (1 ≤ a.asker → a.asker ≤ 8 → a.feed < 64 → 1 ≤ a.attempt → a.attempt ≤ 4 →
        (a.whole = true ∨ a.missing ≠ []) →
        (∀ p, s.pos? a.feed a.seq = some p → p.gapWait = none) →
        ∀ e, s.entry? a.feed a.seq = some e → e.whole = true → a.cellsOf e.hdr.cells ≠ [] →
        ((∀ x ∈ s.answers, x.feed = a.feed → x.seq = a.seq → x.sending = true) →
          (s.answers.length < 32 → ∃ k, k < 8 ∧ (a.asker + k) % 8 = s.settings.station % 8
            ∧ exec (.mendAsk f) s = .next { s with
              answers := s.answers ++ [PendingAnswer.mk s.nextUid a.feed a.seq
                ((List.range e.hdr.cells).filter (fun i => a.whole || a.missing.contains i))
                false (s.now + 2 * k)],
              nextUid := s.nextUid + 1 })
          ∧ (32 ≤ s.answers.length → exec (.mendAsk f) s = .next s))
        ∧ ((∃ x ∈ s.answers, x.feed = a.feed ∧ x.seq = a.seq ∧ x.sending = false) →
          ∃ k, k < 8 ∧ (a.asker + k) % 8 = s.settings.station % 8
            ∧ exec (.mendAsk f) s = .next { s with answers := s.answers.map (fun x =>
                if x.feed = a.feed ∧ x.seq = a.seq ∧ x.sending = false then
                  { x with
                    cells := (List.range e.hdr.cells).filter (fun i =>
                      x.cells.contains i || a.whole || a.missing.contains i),
                    due := min x.due (s.now + 2 * k) }
                else x) })))

/-- A well-formed MEND_ASK for a chunk of which the ring holds no entry or a PARTIAL one, at a position
whose gap wait runs (R96): with fewer than 8 restarts the wait restarts toward G, one restart is spent, the
attempts stay and a queued ask of the position is withdrawn; with 8, nothing. -/
def Obligations.AskSuppressesAsk : Prop :=
  ∀ (s : State) (f : Frame) (a : ReceivedAsk) (p : Position) (w : Nat), s.Hears f 0x04#8 →
    parseAsk f.body = some a → 1 ≤ a.asker → a.asker ≤ 8 → a.feed < 64 → 1 ≤ a.attempt →
    a.attempt ≤ 4 → (a.whole = true ∨ a.missing ≠ []) →
    (∀ e, s.entry? a.feed a.seq = some e → e.whole = false) → s.pos? a.feed a.seq = some p →
    p.gapWait = some w →
    (8 ≤ p.restarts → exec (.mendAsk f) s = .next s)
    ∧ (p.restarts < 8 → ∃ t, exec (.mendAsk f) s = .next t
        ∧ { t with contexts := s.contexts, askQueue := s.askQueue } = s
        ∧ t.pos? a.feed a.seq = some { p with
            gapWait := some (s.now + s.settings.gapWait), restarts := p.restarts + 1 }
        ∧ t.askQueue = s.askQueue.filter (fun x => !(x.feed == a.feed && x.seq == a.seq)))

/-- ANSWER_BACKOFF_EXPIRY (R100): the WAITING answer for the chunk is SENDING once its time has come,
and one mend cell for each index of its set joins the transmit queue with the entry's header and payload,
in ascending index where the entry's own set stands so (RingOk says that it does). Before its time,
nothing (log 1). -/
def Obligations.AnswerFallsDue : Prop :=
  ∀ (s : State) (feed seq : Nat) (x : PendingAnswer) (e : RingEntry),
    s.answers.find? (fun y => y.feed == feed && y.seq == seq && !y.sending) = some x →
    s.entry? feed seq = some e →
    let cells : List MendCell := (e.cells.filter (fun c => x.cells.contains c.1)).map (fun c =>
      { answer := x.uid, feed := x.feed, seq := x.seq, index := c.1, hdr := e.hdr, payload := c.2 })
    (s.now < x.due → exec (.answerBackoffExpiry feed seq) s = .next s)
    ∧ (x.due ≤ s.now → exec (.answerBackoffExpiry feed seq) s = .next { s with
        answers := s.answers.map (fun y => if y.uid == x.uid then { y with sending := true } else y),
        mendQueue := s.mendQueue ++ cells })
    ∧ ((e.cells.map (·.1)).Pairwise (· < ·) → (cells.map (·.index)).Pairwise (· < ·))

/-- GAP_WAIT_EXPIRY (R93, R94): in LIVE with no ask queued and fewer than four sent, an ask joins the
queue, with the WHOLE flag where the ring holds no entry and else with the missing cells, numbered one
above the attempts, and the wait restarts, toward G from the time the expiry is taken (log 18); with one
queued, or in DETACHED, the wait restarts alone; before the wait's end, nothing (log 1). -/
def Obligations.GapWaitForms : Prop :=
  ∀ (s : State) (feed seq : Nat) (p : Position) (w : Nat), s.pos? feed seq = some p →
    p.gapWait = some w →
    let again := s.contexts.map (fun c => if c.feed == feed then
      { c with positions := c.positions.map (fun q => if q.seq == seq then
        { q with gapWait := some (s.now + s.settings.gapWait) } else q) } else c)
    (s.now < w → exec (.gapWaitExpiry feed seq) s = .next s)
    ∧ (w ≤ s.now →
        (s.station = .detached ∨ (s.station = .live ∧ s.askQueued feed seq = true) →
          exec (.gapWaitExpiry feed seq) s = .next { s with contexts := again })
        ∧ (s.station = .live → s.askQueued feed seq = false → p.attempts < 4 →
          (s.entry? feed seq = none → exec (.gapWaitExpiry feed seq) s = .next { s with
            contexts := again,
            askQueue := s.askQueue ++ [Ask.mk feed seq true [] (p.attempts + 1)] })
          ∧ (∀ e, s.entry? feed seq = some e → exec (.gapWaitExpiry feed seq) s = .next { s with
            contexts := again,
            askQueue := s.askQueue ++ [Ask.mk feed seq false
              ((List.range e.hdr.cells).filter (fun i => !(e.cells.map (·.1)).contains i))
              (p.attempts + 1)] })))

/-- GAP_WAIT_EXPIRY with four asks sent (R93, R104): the lost procedure begins. A position that wants a
landing job is CHECKING, its wait stopped, and a trailer CHECK of it waits; one that wants a browse job
alone has the job handed over CHUNKLESS to the waiting list, unless the engine keeps a job of it, since a
position has at most one (R152, log 14). -/
def Obligations.FourAsksBeginLost : Prop :=
  ∀ (s : State) (feed seq : Nat) (p : Position) (w : Nat), s.station = .live →
    s.pos? feed seq = some p → p.gapWait = some w → w ≤ s.now → s.askQueued feed seq = false →
    4 ≤ p.attempts →
    ∃ t, exec (.gapWaitExpiry feed seq) s = .next t ∧ t.ring = s.ring ∧ t.askQueue = s.askQueue
      ∧ t.feeds = s.feeds ∧ t.table = s.table
      ∧ (∃ q, t.pos? feed seq = some q ∧ q.land = .checking ∧ q.gapWait = none
          ∧ q.attempts = p.attempts)
      ∧ (p.wantsLand = true → t.waitJobs = s.waitJobs ∧ t.waitChecks = s.waitChecks
          ++ [{ uid := s.nextUid, feed := feed, seqs := [seq], trailer := true, issueNo := 1 }])
      ∧ (p.wantsLand = false → t.waitChecks = s.waitChecks
          ∧ (s.hasJob feed seq = true → t.waitJobs = s.waitJobs)
          ∧ (s.hasJob feed seq = false → ∃ j, t.waitJobs = s.waitJobs ++ [j]
            ∧ j.feed = feed ∧ j.seq = seq ∧ j.kind = .chunkless ∧ j.content = .missing))

/-! ### Directives (R10 to R16, R166 to R169) -/

/-- OPEN, by the decisions of R10 in their order; a refusal replaces the last-refusal record and, but for
CONFLICT's flag, changes nothing else. A station that is not LISTENING or LIVE applies none. The field
checks are those of R11, and SLOT TOO SMALL is the record size of R147 at factor 8. -/
def Obligations.OpenDecides : Prop :=
  (∀ (s : State) (f : Frame) (feed : Nat) (p : OpenParams),
    (s.receives = false → exec (.openFeed f) s = .next s)
    ∧ (s.HearsDirective f (.openFeed feed p) →
      (rangeOf s.settings.ranges feed = none → exec (.openFeed f) s = .next s)
      ∧ (∀ r, rangeOf s.settings.ranges feed = some r →
        (∀ c, s.ctx? feed = some c →
          (c.params.fileId = p.fileId → exec (.openFeed f) s = .next s)
          ∧ (c.params.fileId ≠ p.fileId → exec (.openFeed f) s = .next { s with
              lastRefusal := some ⟨feed, .openFeed, .conflict⟩,
              contexts := s.contexts.map (fun d => if d.feed == feed then
                { d with flags := { d.flags with conflict := true } } else d) }))
        ∧ (s.ctx? feed = none →
          (p.ratesOk = false → exec (.openFeed f) s = .next { s with
              lastRefusal := some ⟨feed, .openFeed, .badRate⟩ })
          ∧ (p.ratesOk = true → p.sizesOk = false → exec (.openFeed f) s = .next { s with
              lastRefusal := some ⟨feed, .openFeed, .badSize⟩ })
          ∧ (p.ratesOk = true → p.sizesOk = true → p.geometryOk = false →
              exec (.openFeed f) s = .next { s with
                lastRefusal := some ⟨feed, .openFeed, .badGeometry⟩ })
          ∧ (p.ratesOk = true → p.sizesOk = true → p.geometryOk = true → p.fitsAt 8 = false →
              exec (.openFeed f) s = .next { s with
                lastRefusal := some ⟨feed, .openFeed, .slotTooSmall⟩ })
          ∧ (p.ratesOk = true → p.sizesOk = true → p.geometryOk = true → p.fitsAt 8 = true →
              (32 ≤ s.contexts.length → exec (.openFeed f) s = .next { s with
                lastRefusal := some ⟨feed, .openFeed, .noContext⟩ })
              ∧ (s.contexts.length < 32 → ∃ t c, exec (.openFeed f) s = .next t
                ∧ t.ctx? feed = some c ∧ c.origin = .directed ∧ c.params = p
                ∧ t.lastRefusal = s.lastRefusal))))))
  ∧ (∀ p : OpenParams,
      (p.ratesOk = true ↔ 6 ≤ p.sourceRate ∧ p.sourceRate ≤ 13 ∧ 1 ≤ p.browseRate
        ∧ p.browseRate ≤ 13)
      ∧ (p.sizesOk = true ↔
        p.landingSlot ∈ [65536, 131072, 262144, 524288, 1048576, 2097152]
        ∧ 1 ≤ p.slotCount ∧ p.slotCount ≤ 16777216
        ∧ p.browseSlot ∈ [16384, 32768, 65536, 131072, 262144]
        ∧ 1 ≤ p.browseSlots ∧ p.browseSlots ≤ 1073741824
        ∧ p.landingBase % 4096 = 0 ∧ p.browseBase % 4096 = 0
        ∧ p.landingBase + 4096 + p.slotCount * p.landingSlot < 2 ^ 64
        ∧ p.browseBase + (p.slotCount * 64 + 4095) / 4096 * 4096 + p.browseSlots * p.browseSlot
            < 2 ^ 64
        ∧ p.cueCount ≤ 8)
      ∧ (p.geometryOk = true ↔ p.factor ∈ [2, 4, 8] ∧ 16 ≤ p.width ∧ p.width ≤ 4096
        ∧ 16 ≤ p.height ∧ p.height ≤ 2160 ∧ p.wayFn ≤ 3 ∧ p.depth ∈ [1, 2, 4, 8])
      ∧ (p.fitsAt 8 = true ↔
        32 + evenDim p.width 8 * evenDim p.height 8 * 3 / 2 ≤ p.browseSlot))

/-- A context made by OPEN (R12, R27, R2): its effective rate is the source rate where the browse rate
exceeds it, with RATE CLAMPED; its effective factor is the given one where the record fits, and else the
next of 4 and 8 at which it does, with FACTOR RAISED; a way is held by configuration exactly where the
range's way set and the ways in use have it; H is the highest sequence number below C in the ring (R20),
and ALLOT LOW is latched exactly where C − (H + 1) − M is 0 or less; the lowest WHOLE chunk in the ring
that carries the LAST flag gives E, lowered to C − 1 (R15, R13), and with none the context is ACTIVE with E
unknown; the holds are clear and the counts 0; every other feed's context is as it was. In LIVE an ACTIVE
or CLOSING one has its window (R71): a position exactly for each sequence number called for (R74), with the
jobs called for, no attempt, restart or rewrite, and what the ring's entry makes of it (R78), a WHOLE one
pinned once more and its browse job handed over WITH CHUNK; and a gap wait toward G on exactly those that
wait for their chunk and are behind (R83). In LISTENING it has no position, nor in FINAL. -/
def Obligations.OpenCreatesContext : Prop :=
  ∀ (s : State) (f : Frame) (feed : Nat) (p : OpenParams) (r : Range),
    s.HearsDirective f (.openFeed feed p) → rangeOf s.settings.ranges feed = some r →
    s.ctx? feed = none → p.check = none → s.contexts.length < 32 →
    let last := fun (z : Nat) => ∃ e ∈ s.ring, e.feed = feed ∧ e.whole = true ∧ e.hdr.last = true
      ∧ e.seq = z
    ∃ t c, exec (.openFeed f) s = .next t ∧ t.ctx? feed = some c
      ∧ (∀ g, g ≠ feed → t.ctx? g = s.ctx? g)
      ∧ (p.rateExceeds = true → c.effRate = rateAt p.sourceRate ∧ c.flags.rateClamped = true)
      ∧ (p.rateExceeds = false → c.effRate = rateAt p.browseRate ∧ c.flags.rateClamped = false)
      ∧ p.fitsAt c.effFactor = true ∧ p.factor ≤ c.effFactor
      ∧ (p.fitsAt p.factor = true → c.effFactor = p.factor ∧ c.flags.factorRaised = false)
      ∧ (p.fitsAt p.factor = false → c.flags.factorRaised = true
          ∧ (p.factor = 2 → p.fitsAt 4 = true → c.effFactor = 4)
          ∧ (p.factor = 4 ∨ p.fitsAt 4 = false → c.effFactor = 8))
      ∧ (∀ w, c.landKind.get w = (if r.land.get w && (waysInUse p.wayFn).contains w then
            .configured else .unheld)
          ∧ c.browseKind.get w = (if r.browse.get w && (waysInUse p.wayFn).contains w then
            .configured else .unheld))
      ∧ (∀ e ∈ s.ring, e.feed = feed → e.seq < p.slotCount → e.seq + 1 ≤ Mark.ord c.h)
      ∧ (c.h = none ∨ ∃ e ∈ s.ring, e.feed = feed ∧ e.seq < p.slotCount ∧ c.h = some e.seq)
      ∧ (c.flags.allotLow = true ↔ p.slotCount ≤ Mark.ord c.h + s.settings.margin)
      ∧ ((∀ z, ¬last z) → c.e = none ∧ c.state = .active)
      ∧ (∀ z, last z → (∀ y, last y → z ≤ y) →
          c.e = some (min z (p.slotCount - 1)) ∧ (c.state = .closing ∨ c.state = .final))
      ∧ c.landHold = false ∧ c.browseHold = false ∧ c.counts = .zero ∧ c.linger = none
      ∧ c.markWrites = 0 ∧ c.carried = none
      ∧ (s.station ≠ .live ∨ c.state = .final → c.positions = [])
      ∧ (s.station = .live → c.state ≠ .final → (∀ n, c.pos? n ≠ none ↔ c.CalledFor n)
        ∧ ∀ q ∈ c.positions, q.way = c.wayOf q.seq
          ∧ (q.wantsLand = true ↔ c.landKind.get q.way ≠ .unheld ∧ Mark.ord (c.lv.get q.way) ≤ q.seq)
          ∧ (q.wantsBrowse = true ↔
              c.browseKind.get q.way ≠ .unheld ∧ Mark.ord (c.bv.get q.way) ≤ q.seq)
          ∧ q.attempts = 0 ∧ q.restarts = 0 ∧ q.rewrites = 0 ∧ s.LookedUp feed q
          ∧ (q.Awaits ∧ c.Behind q.seq → q.gapWait = some (s.now + s.settings.gapWait))
          ∧ (¬(q.Awaits ∧ c.Behind q.seq) → q.gapWait = none)
          ∧ ∀ e, s.entry? feed q.seq = some e → e.whole = true →
              (t.entry? feed q.seq).map (·.pins) = some (e.pins + 1)
              ∧ (q.wantsBrowse = true → s.hasJob feed q.seq = false → ∃ j ∈ t.waitJobs,
                  j.feed = feed ∧ j.seq = q.seq ∧ j.kind = .withChunk ∧ j.chunk = some e.hdr))

/-- A candidate for E (R13): clamped to C − 1; E unchanged where it is known and not above it; else the
candidate, raised to the end floor, which no held mark and not the published commit lies above. -/
def Obligations.EndCandidateRule : Prop :=
  ∀ (c : FeedContext) (x : Nat),
    (∀ e, c.e = some e → e ≤ min x (c.params.slotCount - 1) → c.endAfter x = some e)
    ∧ ((∀ e, c.e = some e → min x (c.params.slotCount - 1) < e) →
        Mark.ord (c.endAfter x)
          = max (min x (c.params.slotCount - 1) + 1) (Mark.ord c.endFloor))
    ∧ Mark.ord c.published ≤ Mark.ord c.endFloor
    ∧ (∀ m ∈ c.heldMarks, Mark.ord m ≤ Mark.ord c.endFloor)
    ∧ (c.endFloor = c.published ∨ c.endFloor ∈ c.heldMarks)

/-- CLOSE, by the table of R14 and the state of the feed's context; it is never refused. A candidate that
changes E is followed by the commit (R135), by the FINAL test (R5, R140), and in LIVE by the gap waits of
the positions that wait for their chunk (R83); no position above it stays, and the pins of those that go
are released (R86). -/
def Obligations.CloseActs : Prop :=
  ∀ (s : State) (f : Frame) (feed : Nat) (e : Mark), s.EndsOk →
    s.HearsDirective f (.closeFeed feed e) →
    (s.ctx? feed = none → exec (.closeFeed f) s = .next s)
    ∧ (∀ c, s.ctx? feed = some c →
      ((c.state = .final ∨ c.state = .aborted) → exec (.closeFeed f) s = .next s)
      ∧ (c.state = .faulted → c.linger ≠ none →
          ∃ t, exec (.closeFeed f) s = .next t ∧ t.ctx? feed = some c
            ∧ { t with contexts := s.contexts } = s)
      ∧ (c.state = .faulted → c.linger = none → ∃ t, exec (.closeFeed f) s = .next t
          ∧ t.ctx? feed = some { c with linger := some (s.now + 10000) }
          ∧ { t with contexts := s.contexts } = s)
      ∧ ((c.state = .active ∨ c.state = .closing) → e = none → exec (.closeFeed f) s = .next s)
      ∧ ((c.state = .active ∨ c.state = .closing) → ∀ x, e = some x →
          ∃ t d, exec (.closeFeed f) s = .next t ∧ t.ctx? feed = some d ∧ d.e = c.endAfter x
            ∧ (d.state = .closing ∨ d.state = .final) ∧ t.lastRefusal = s.lastRefusal
            ∧ (c.e = c.endAfter x → t = s) ∧ s.PinsFollow t feed
            ∧ (c.e ≠ c.endAfter x → t.EndTested { c with e := c.endAfter x, state := .closing } d
              ∧ Mark.ord d.published
                = max (Mark.ord c.published) (Mark.ord (t.computedCommit d))
              ∧ (s.station = .live → d.state = .closing → ∀ p ∈ d.positions, p.Awaits →
                  p.gapWait ≠ none)
              ∧ ∀ p ∈ d.positions, p.seq + 1 ≤ Mark.ord d.e)))

/-- ABORT (R16, R7, R9): no context, FINAL or ABORTED, nothing; FAULTED, the linger starts; ACTIVE or
CLOSING, the context is ABORTED with no position, keeps its marks, commit, E and hold kinds, and its
ABORTED mark waits, or waits for the MARK in flight, and the pins of its positions are released (R86). It
is never refused. -/
def Obligations.AbortActs : Prop :=
  ∀ (s : State) (f : Frame) (feed : Nat), s.EndsOk → s.HearsDirective f (.abortFeed feed) →
    (s.ctx? feed = none → exec (.abortFeed f) s = .next s)
    ∧ (∀ c, s.ctx? feed = some c →
      ((c.state = .final ∨ c.state = .aborted) → exec (.abortFeed f) s = .next s)
      ∧ (c.state = .faulted → c.linger = none → ∃ t, exec (.abortFeed f) s = .next t
          ∧ t.ctx? feed = some { c with linger := some (s.now + 10000) }
          ∧ { t with contexts := s.contexts } = s)
      ∧ (c.state = .faulted → c.linger ≠ none →
          ∃ t, exec (.abortFeed f) s = .next t ∧ t.ctx? feed = some c
            ∧ { t with contexts := s.contexts } = s)
      ∧ ((c.state = .active ∨ c.state = .closing) →
          ∃ t d, exec (.abortFeed f) s = .next t ∧ t.ctx? feed = some d ∧ d.state = .aborted
            ∧ d.positions = [] ∧ s.PinsFollow t feed
            ∧ d.lv = c.lv ∧ d.bv = c.bv ∧ d.published = c.published ∧ d.e = c.e
            ∧ d.landKind = c.landKind ∧ d.browseKind = c.browseKind
            ∧ (c.markReq = none → feed ∈ t.waitMarks) ∧ (c.markReq ≠ none → d.markAgain = true)
            ∧ t.lastRefusal = s.lastRefusal ∧ t.table = s.table
            ∧ (∀ j ∈ t.waitJobs ++ t.queueJobs ++ t.shedJobs,
                ∀ p ∈ c.positions, ¬(j.feed = feed ∧ j.seq = p.seq))))

/-- HOLD_LAND, HOLD_BROWSE, HOLD_BOTH, RELEASE_LAND, RELEASE_BROWSE and RELEASE_BOTH (R169): for a feed
with no context, nothing. For one with a context, in any state, the holds the scope names are set, or
cleared, and nothing else of any context changes but that a RELEASE that ends a land hold in force notes
whether a landing delay has passed (R173; the field that holds it is the model's, log 15). On a HOLD jobs
differ in their shed ages alone (R159). A RELEASE that ends a browse hold in force lets the shed ages run
on and the CHUNKLESS jobs that waited for it go to WRITING (R159, R160, R173), and nothing else of a job
changes; any other leaves the jobs as they were, one under the local hold among them. Each command is
spoken of over a frame of any scope: the frame's bytes decide (log 10). -/
def Obligations.HoldsSetAndCleared : Prop :=
  ∀ (s : State) (f : Frame) (feed : Nat) (land browse : Bool),
    (s.HearsDirective f (.hold feed land browse) →
      ∀ i ∈ [Instr.holdLand f, Instr.holdBrowse f, Instr.holdBoth f],
        (s.ctx? feed = none → exec i s = .next s)
        ∧ (s.ctx? feed ≠ none → ∃ t, exec i s = .next t
          ∧ { t with contexts := s.contexts, waitJobs := s.waitJobs, queueJobs := s.queueJobs } = s
          ∧ t.contexts = s.contexts.map (fun c => if c.feed == feed then
              { c with landHold := c.landHold || land, browseHold := c.browseHold || browse } else c)
          ∧ t.waitJobs.map (fun j => { j with shedAge := 0, shedSince := none })
              = s.waitJobs.map (fun j => { j with shedAge := 0, shedSince := none })
          ∧ t.queueJobs.map (fun j => { j with shedAge := 0, shedSince := none })
              = s.queueJobs.map (fun j => { j with shedAge := 0, shedSince := none })
          ∧ (browse = true → ∀ j ∈ t.waitJobs ++ t.queueJobs, j.feed = feed → j.shedSince = none)))
    ∧ (s.HearsDirective f (.release feed land browse) →
      ∀ i ∈ [Instr.releaseLand f, Instr.releaseBrowse f, Instr.releaseBoth f],
        (s.ctx? feed = none → exec i s = .next s)
        ∧ (∀ c, s.ctx? feed = some c → ∃ t d, exec i s = .next t
          ∧ { t with contexts := s.contexts, waitJobs := s.waitJobs, queueJobs := s.queueJobs,
                     browseReady := s.browseReady } = s
          ∧ t.ctx? feed = some d
          ∧ d = { c with landHold := c.landHold && !land, browseHold := c.browseHold && !browse,
                         delayReached := d.delayReached }
          ∧ (∀ g, g ≠ feed → t.ctx? g = s.ctx? g)
          ∧ (s.localHold = true → t.waitJobs = s.waitJobs ∧ t.queueJobs = s.queueJobs
              ∧ t.browseReady = s.browseReady ∧ d.delayReached = c.delayReached)
          ∧ (land = true → c.landHold = true → s.localHold = false →
              (d.delayReached = true ↔ ∃ p ∈ c.positions, ∃ n, p.wantsLand = true
                ∧ p.land = .ready ∧ p.readySince = some n
                ∧ n + s.settings.landingDelay ≤ s.now))
          ∧ ((land = false ∨ c.landHold = false) → d.delayReached = c.delayReached)
          ∧ (browse = true → c.browseHold = true → s.localHold = false → s.JobsLifted t)
          ∧ ((browse = false ∨ c.browseHold = false) → t.waitJobs = s.waitJobs
              ∧ t.queueJobs = s.queueJobs ∧ t.browseReady = s.browseReady)))

/-- A directive that names a feed leaves every other feed's context as it was, whatever the directive is
and however the command is named: the frame's bytes decide (log 10). -/
def Obligations.DirectivesKeepOtherFeeds : Prop :=
  ∀ (s : State) (f : Frame) (d : Directive) (feed : Nat), s.HearsDirective f d →
    d.feed? = some feed → ∀ i ∈ receiveCommands f, ∃ t, exec i s = .next t
      ∧ ∀ g, g ≠ feed → t.ctx? g = s.ctx? g

/-! ### Timers of a context (R6, R89, R138) -/

/-- LINGER_EXPIRY (R6): at the timer's time the context is freed with its adopted triples, its identity is
the closed one of its feed, its browse jobs leave the engine with their waiting writes, its waiting CHECKs,
rewrite batches, fills and MARKs are gone, every other feed's jobs stay, the ring's chunks stay, but for
the pins of its positions (R86), and the pending answers stay. Before it (log 1), or with the timer
stopped, nothing. -/
def Obligations.LingerFreesContext : Prop :=
  ∀ (s : State) (feed : Nat) (c : FeedContext), s.TableOk → s.ctx? feed = some c →
    (s.reached c.linger = false → exec (.lingerExpiry feed) s = .next s)
    ∧ (s.reached c.linger = true → ∃ t, exec (.lingerExpiry feed) s = .next t
        ∧ t.ctx? feed = none ∧ (∀ g, g ≠ feed → t.ctx? g = s.ctx? g)
        ∧ t.closedId feed = some c.params.fileId
        ∧ (∀ g, g ≠ feed → t.closedId g = s.closedId g)
        ∧ t.adopted = s.adopted.filter (fun x => x.feed != feed)
        ∧ t.waitJobs = s.waitJobs.filter (fun j => j.feed != feed)
        ∧ t.queueJobs = s.queueJobs.filter (fun j => j.feed != feed)
        ∧ t.shedJobs = s.shedJobs.filter (fun j => j.feed != feed)
        ∧ t.browseReady = s.browseReady.filter (fun u =>
            !(s.waitJobs ++ s.queueJobs ++ s.shedJobs).any (fun j => j.feed == feed && j.uid == u))
        ∧ t.ring.map (fun e => { e with pins := 0 }) = s.ring.map (fun e => { e with pins := 0 })
        ∧ s.PinsFollow t feed
        ∧ t.answers = s.answers ∧ t.mendQueue = s.mendQueue ∧ t.table = s.table
        ∧ feed ∉ t.waitMarks ∧ (∀ w ∈ t.waitChecks, w.feed ≠ feed)
        ∧ (∀ w ∈ t.waitRewrites, w.feed ≠ feed))

/-- PACING_TIMER_EXPIRY (R138, R128): at its time the timer stops, and where the published commit is
above the carried one in ACTIVE, CLOSING or FINAL (R141), a MARK waits, unless one waits or is ISSUED or
the context writes none; before its time, nothing (log 1). -/
def Obligations.PacingTimerExpires : Prop :=
  ∀ (s : State) (feed : Nat) (c : FeedContext), s.ctx? feed = some c →
    (s.reached c.pacing = false → exec (.pacingTimerExpiry feed) s = .next s)
    ∧ (s.reached c.pacing = true →
        (Mark.ord c.published ≤ Mark.ord c.carried ∨ c.computes = false →
          exec (.pacingTimerExpiry feed) s = .next { s with
            contexts := s.contexts.map (fun d => if d.feed == feed then
              { d with pacing := none } else d) })
        ∧ (Mark.ord c.carried < Mark.ord c.published → c.computes = true →
          c.storageEnded = false → c.markReq = none → feed ∉ s.waitMarks →
          exec (.pacingTimerExpiry feed) s = .next { s with
            contexts := s.contexts.map (fun d => if d.feed == feed then
              { d with pacing := none } else d),
            waitMarks := s.waitMarks ++ [feed] }))

/-- LANDING_DELAY_REACHED (R89): where a READY position that wants a landing job has waited Ld, a feed
in ACTIVE or CLOSING whose land hold is not in force is landing-due. The command notes it in a field of
the model's (log 15) and changes nothing else. A feed is landing-due exactly where its context is ACTIVE or
CLOSING, its land hold is not in force and it has at least B READY positions that want a landing job, or
one whose age has come to Ld and been noted. -/
def Obligations.LandingDelayMakesDue : Prop :=
  (∀ (s : State) (feed : Nat) (c : FeedContext), s.ctx? feed = some c →
    ∃ t d, exec (.landingDelayReached feed) s = .next t ∧ t.ctx? feed = some d
      ∧ d = { c with delayReached := d.delayReached }
      ∧ { t with contexts := s.contexts } = s ∧ (∀ g, g ≠ feed → t.ctx? g = s.ctx? g)
      ∧ ((∃ p ∈ c.positions, ∃ r, p.wantsLand = true ∧ p.land = .ready ∧ p.readySince = some r
            ∧ r + s.settings.landingDelay ≤ s.now) →
          (c.state = .active ∨ c.state = .closing) → c.landHold = false → s.localHold = false →
          t.landingDue d = true))
  ∧ (∀ (s : State) (c : FeedContext),
      let n := (c.positions.filter (fun p => p.wantsLand && p.land == .ready)).length
      s.landingDue c = true ↔ (c.state = .active ∨ c.state = .closing) ∧ c.landHold = false
        ∧ s.localHold = false
        ∧ ((s.settings.batch ≤ n ∧ 0 < n)
          ∨ (c.delayReached = true ∧ ∃ p ∈ c.positions, ∃ r, p.wantsLand = true ∧ p.land = .ready
              ∧ p.readySince = some r ∧ r + s.settings.landingDelay ≤ s.now)))


/-! ### The Storage Port (R111 to R118, R120, R139) -/

/-- STORAGE_ISSUE issues nothing where no table entry is FREE, while the quiet time runs, or in LOADING or
SETUP FAULT (R112, R115, R118, R132). With a PROBE due (R115 turn 1, R117) it is issued in the lowest FREE
entry before any other work. With none due, the first waiting CHECK with a position still CHECKING is (turn
2, R104, R123): it keeps its issue number and names the slots of those positions; the waiting CHECKs with
no position left are discarded. Every request is sent as R189 says: its message in fragments, one after
another, to the storage head address; the fragment size is free (log 5), and some bytes of the message are
not stated (log 6). The latch storageTx and the request's number are the model's (logs 9, 19). -/
def Obligations.ProbeIssuedFirst : Prop :=
  (∀ s : State,
    (((∀ t : Fin 16, s.table[t] ≠ .free) ∨ s.quietUntil ≠ none ∨ s.station = .loading
        ∨ s.station = .setupFault) → exec .storageIssue s = .next s)
    ∧ (∀ tag : Fin 16, s.operating = true → s.quietUntil = none → s.probeWaiting = true →
      s.table[tag] = .free → (∀ u : Fin 16, u < tag → s.table[u] ≠ .free) →
      ∃ r : Request, r.purpose = .probe ∧ r.issueTime = s.now
        ∧ exec .storageIssue s = .next { s with
            probeWaiting := false, table := s.table.set tag (.issued r),
            storageTx := s.requestFrames tag r, nextUid := s.nextUid + 1 })
    ∧ (∀ tag : Fin 16, s.operating = true → s.quietUntil = none → s.probeWaiting = false →
      s.table[tag] = .free → (∀ u : Fin 16, u < tag → s.table[u] ≠ .free) →
      let serves := fun (v : WaitCheck) => ((s.ctx? v.feed).map (fun d => (d.positions.filter (fun p =>
        v.seqs.contains p.seq && p.land == .checking && p.req == some v.uid)).map (·.seq))).getD []
      ∀ before w after c, s.waitChecks = before ++ w :: after → (∀ v ∈ before, serves v = []) →
        serves w ≠ [] → s.ctx? w.feed = some c →
        ∃ r : Request, r.uid = w.uid ∧ r.feed = some w.feed ∧ r.issueNo = w.issueNo
          ∧ r.issueTime = s.now
          ∧ r.purpose = (if w.trailer then .trailerCheck else .landingCheck)
          ∧ r.slots = (serves w).map (fun q => SlotRef.mk q
              (c.params.landingBase + 4096 + q * c.params.landingSlot) c.params.landingSlot)
          ∧ exec .storageIssue s = .next { s with
              waitChecks := after.filter (fun v => v.uid != w.uid && !(serves v).isEmpty),
              table := s.table.set tag (.issued r), storageTx := s.requestFrames tag r,
              nextUid := s.nextUid + 1 }))
  ∧ ∀ (s : State) (tag : Fin 16) (r : Request), s.SentAs tag r (s.requestFrames tag r)

/-- STORAGE_ISSUE with a MARK waiting, no earlier turn's work and no local hold (R115 turn 4, R128, R137,
R139): the MARK carries the context's mark slot, the mark write count rises, the carried commit is the
published one and the pacing timer runs toward P; the slot's state is LIVE in ACTIVE and CLOSING, FINAL and
ABORTED in those; a count of 4,294,967,295 wraps to 0 (log 35). With a fill the first work of turn 3 whose
feed's land hold is not in force (R106): its WRITE carries the LOST trailer of the position's slot alone.
The 64 bytes of a mark slot hold its fields at the offsets of R190. -/
def Obligations.MarkIssued : Prop :=
  (∀ (s : State) (tag : Fin 16) (feed : Nat) (rest : List Nat) (c : FeedContext),
    s.operating = true → s.quietUntil = none → s.probeWaiting = false → s.waitChecks = [] →
    s.waitRewrites = [] → s.localHold = false → s.waitMarks = feed :: rest → s.ctx? feed = some c →
    s.table[tag] = .free → (∀ u : Fin 16, u < tag → s.table[u] ≠ .free) →
    ∃ t r d st, exec .storageIssue s = .next t ∧ t.table = s.table.set tag (.issued r)
      ∧ (c.state = .active ∨ c.state = .closing → st = MarkState.live)
      ∧ (c.state = .final → st = .final) ∧ (c.state = .aborted → st = .aborted)
      ∧ r.purpose = .mark st ∧ r.feed = some feed ∧ r.issueTime = s.now
      ∧ t.storageTx = s.requestFrames tag r
      ∧ r.extents = [Extent.mk (c.params.landingBase + (s.settings.station - 1) * 64)
          (encodeMarkSlot s.settings.station st c.published c.params.fileId c.e
            c.counts.lost c.counts.truncated (c.markWrites + 1))]
      ∧ t.ctx? feed = some d
      ∧ d = { c with markWrites := c.markWrites + 1, carried := c.published,
                     pacing := some (s.now + s.settings.beaconPeriod), markReq := some r.uid,
                     markAgain := false }
      ∧ t.waitMarks = rest
      ∧ { t with contexts := s.contexts, table := s.table, waitMarks := s.waitMarks,
                 storageTx := s.storageTx, nextUid := s.nextUid } = s)
  ∧ (∀ (s : State) (tag : Fin 16) (feed seq : Nat) (before after : List WaitRewrite)
      (c : FeedContext),
    s.operating = true → s.quietUntil = none → s.probeWaiting = false → s.waitChecks = [] →
    s.waitRewrites = before ++ .fill feed seq :: after → s.localHold = false →
    (∀ v ∈ before, ∀ d, s.ctx? v.feed = some d → d.landHold = true) → s.ctx? feed = some c →
    c.landHold = false →
    s.table[tag] = .free → (∀ u : Fin 16, u < tag → s.table[u] ≠ .free) →
    ∃ r : Request, r.purpose = .fill ∧ r.feed = some feed ∧ r.seqs = [seq] ∧ r.issueTime = s.now
      ∧ r.extents = [Extent.mk
          (c.params.landingBase + 4096 + seq * c.params.landingSlot + c.params.landingSlot - 64)
          (encodeTrailer seq .lost s.settings.station 0 0 0 0)]
      ∧ exec .storageIssue s = .next { s with
          waitRewrites := s.waitRewrites.filter (· != .fill feed seq),
          contexts := s.contexts.map (fun d => if d.feed == feed then
            { d with positions := d.positions.map (fun p => if p.seq == seq then
              { p with req := some r.uid } else p) } else d),
          table := s.table.set tag (.issued r), storageTx := s.requestFrames tag r,
          nextUid := s.nextUid + 1 })
  ∧ (∀ (station : Nat) (st : MarkState) (m e : Mark) (id : BitVec 64) (lost cut writes : BitVec 32),
      station < 256 → (∀ n, m = some n → n < 2 ^ 32 - 1) → (∀ n, e = some n → n < 2 ^ 32 - 1) →
      let b := encodeMarkSlot station st m id e lost cut writes
      b.length = 64 ∧ field b 0 1 = station
        ∧ field b 1 1 = (match st with | .live => 1 | .final => 2 | .aborted => 3)
        ∧ field b 4 4 = m.getD 0xFFFFFFFF ∧ field b 8 8 = id.toNat ∧ field b 16 4 = e.getD 0xFFFFFFFF
        ∧ field b 20 4 = lost.toNat ∧ field b 24 4 = cut.toNat ∧ field b 28 4 = writes.toNat)

/-- STORAGE_ISSUE of a batch: with no work of turns 1 to 4, the landing batch of the feed that R115 serves
in turn 5, the lowest landing-due feed above the last one served, or the lowest of all where none is above;
with no work of turns 1 and 2, the rewrite batch of turn 3 that is the first work whose feed's land hold is
not in force (R126). The WRITE takes up to 8 of the READY positions that want a landing job, those due for
a rewrite first and each group in ascending sequence number (R120), with two extents each (R119, R120,
R121); they are LANDING, their ready ages stopped and no longer due for a rewrite, and keep the trailer
state and check word just written, with which the CHECK is compared (R124); a landing batch makes its feed
the last served. Where more than 8 were due for a rewrite a batch of the feed waits again (log 32). A
trailer reads back as it was written (R190). -/
def Obligations.LandingBatchIssued : Prop :=
  (∀ (s : State) (tag : Fin 16) (feed : Nat) (c : FeedContext) (purpose : Purpose), s.TableOk →
    (c.positions.map (·.seq)).Pairwise (· < ·) →
    s.operating = true → s.quietUntil = none → s.probeWaiting = false → s.waitChecks = [] →
    s.ctx? feed = some c → s.table[tag] = .free → (∀ u : Fin 16, u < tag → s.table[u] ≠ .free) →
    let due := fun (f : Nat) => ∃ d ∈ s.contexts, d.feed = f ∧ s.landingDue d = true
    ((purpose = .landing ∧ s.waitRewrites = [] ∧ s.waitMarks = [] ∧ due feed
        ∧ ((Mark.ord s.lastServed ≤ feed ∧ ∀ f, due f → Mark.ord s.lastServed ≤ f → feed ≤ f)
          ∨ ∀ f, due f → f < Mark.ord s.lastServed ∧ feed ≤ f))
      ∨ (purpose = .rewrite ∧ s.localHold = false ∧ c.landHold = false
        ∧ ∃ before after, s.waitRewrites = before ++ .batch feed :: after
          ∧ ∀ v ∈ before, ∀ d, s.ctx? v.feed = some d → d.landHold = true)) →
    ∃ t r d, exec .storageIssue s = .next t ∧ t.table = s.table.set tag (.issued r)
      ∧ r.purpose = purpose ∧ r.feed = some feed ∧ r.issueTime = s.now
      ∧ r.seqs = c.batchOf.map (·.seq)
      ∧ r.extents = c.batchOf.flatMap (fun p =>
          ((s.entry? feed p.seq).map (c.params.slotExtents s.settings.station)).getD [])
      ∧ (purpose = .landing → t.lastServed = some feed)
      ∧ (purpose = .rewrite → t.lastServed = s.lastServed)
      ∧ t.ctx? feed = some d
      ∧ t.storageTx = s.requestFrames tag r
      ∧ (∀ q ∈ r.seqs, ∃ p, d.pos? q = some p ∧ p.land = .landing ∧ p.readySince = none
          ∧ p.dueRewrite = false ∧ p.req = some r.uid
          ∧ p.wrote = (s.entry? feed q).map c.params.landedAs)
      ∧ (∀ q, q ∉ r.seqs → d.pos? q = c.pos? q)
      ∧ (WaitRewrite.batch feed ∈ t.waitRewrites ↔
          8 < (c.positions.filter (fun p => p.wantsLand && p.land == .ready && p.dueRewrite)).length)
      ∧ t.ring = s.ring ∧ t.counters = s.counters)
  ∧ (∀ (seq writer frames stored first : Nat) (st : TrailerState) (check : CheckWord),
      seq < 2 ^ 32 → writer < 256 → frames < 256 → stored < 2 ^ 32 → first < 2 ^ 32 →
      let b := encodeTrailer seq st writer frames stored check first
      b.length = 64 ∧ parseTrailer b =
        { seq := seq, state := some st, stored := stored, check := check, writer := writer,
          first := first, frames := frames })

/-- WRITE_ANSWER, CHECK_ANSWER, MARK_ANSWER and PROBE_ANSWER to a FREE or STALE entry, or to one ISSUED for
another kind, are ignored (R113): the answer is gone and nothing else changes. So is a DONE to a CHECK with
another number of trailers than slots, and an answer whose tag is above 15, or whose outcome or, REFUSED,
its reason lies outside its table. A command with no waiting message of its kind does nothing (log 3). An
answer taken for a request with no owner left frees its entry and does nothing else. -/
def Obligations.AnswersIgnored : Prop :=
  (∀ (s : State) (m : List Byte) (a : StorageAnswer), s.Answered m a →
    ((s.table[a.tag] = .free ∨ (∃ r u, s.table[a.tag] = .stale r u)
        ∨ (∃ r, s.table[a.tag] = .issued r ∧ r.purpose.kind ≠ a.kind)
        ∨ ∃ r, s.table[a.tag] = .issued r ∧ a.kind = .check ∧ a.outcome = .done
          ∧ a.entries.length ≠ r.slots.length) →
      exec (answerCommand a.kind) s = .next { s with arrived := s.arrived.erase m })
    ∧ (∀ r, s.table[a.tag] = .issued r → r.purpose.kind = a.kind →
      ¬(a.kind = .check ∧ a.outcome = .done ∧ a.entries.length ≠ r.slots.length) →
      s.Ownerless r → exec (answerCommand a.kind) s = .next { s with
        arrived := s.arrived.erase m, table := s.table.set a.tag .free }))
  ∧ (∀ (s : State) (m : List Byte) (k : ReqKind),
      s.arrived.find? (fun x => messageKind x == some k) = some m →
      (15 < field m 1 1 ∨ 1 < field m 2 1
        ∨ (field m 2 1 = 1 ∧ (field m 3 1 < 1 ∨ 3 < field m 3 1))) →
      exec (answerCommand k) s = .next { s with arrived := s.arrived.erase m })
  ∧ (∀ (s : State) (k : ReqKind), (∀ m ∈ s.arrived, messageKind m ≠ some k) →
      exec (answerCommand k) s = .next s)
  ∧ (∀ m : List Byte, messageKind m = none ↔ field m 0 1 < 1 ∨ 4 < field m 0 1)

/-- WRITE_ANSWER (R122, R106, R156 to R158, R116): the entry is FREE. To a landing or rewrite WRITE, on
DONE the timeout run is 0, the positions still LANDING are CHECKING, and one landing CHECK of them waits
with issue number 1; on FULL storage refusals is one higher, the local hold is set, and they are READY
again, not due for a rewrite and with none counted, their ready ages started, and a probe timer that was
stopped runs toward P. To a fill, on DONE the position is LOST and chunks lost is one higher; on FULL its
trailer CHECK waits again. To a browse write, on DONE the job ends by its content; on FULL it spends its
retry, or goes on as R157 and R158 say. The landing or browse mark follows by R72, a mark that stays none
while the first of its way is not done being log 13, and then the FINAL test (R5). A position that is
complete by it holds no pin, its entry one pin fewer, and its ready age is stopped (R84); a fill that is
DONE ends the lost procedure, so a WAITING browse job is handed over CHUNKLESS (R108). A position may leave
the window by the marks that follow; the premises say that the window stands in ascending sequence number
and that the position wants what is called for there. -/
def Obligations.WriteAnswered : Prop :=
  ∀ (s : State) (m : List Byte) (a : StorageAnswer) (r : Request), s.Answered m a →
    a.kind = .write → s.table[a.tag] = .issued r → s.owned r = true →
    (∀ feed, (r.purpose = .landing ∨ r.purpose = .rewrite) → r.feed = some feed →
      (a.outcome = .done → s.inRequest feed r.uid .landing ≠ [] →
        ∃ t, exec .writeAnswer s = .next t ∧ t.table = s.table.set a.tag .free ∧ t.timeoutRun = 0
          ∧ t.waitChecks = s.waitChecks ++ [WaitCheck.mk s.nextUid feed
              (s.inRequest feed r.uid .landing) false 1]
          ∧ (∀ q ∈ s.inRequest feed r.uid .landing, ∃ p, t.pos? feed q = some p
              ∧ p.land = .checking ∧ p.req = some s.nextUid)
          ∧ { t with contexts := s.contexts, table := s.table, timeoutRun := s.timeoutRun,
                     waitChecks := s.waitChecks, arrived := s.arrived, nextUid := s.nextUid } = s)
      ∧ (a.outcome = .full →
        ∃ t, exec .writeAnswer s = .next t ∧ t.table = s.table.set a.tag .free ∧ t.localHold = true
          ∧ t.timeoutRun = s.timeoutRun ∧ t.waitChecks = s.waitChecks
          ∧ t.counters = { s.counters with storageRefusals := s.counters.storageRefusals + 1 }
          ∧ (s.localHold = false → t.probeTimer = some (s.now + s.settings.beaconPeriod))
          ∧ (s.localHold = true → t.probeTimer = s.probeTimer)
          ∧ (∀ q ∈ s.inRequest feed r.uid .landing, ∃ p o, t.pos? feed q = some p
              ∧ s.pos? feed q = some o ∧ p.land = .ready ∧ p.dueRewrite = false
              ∧ p.readySince = some s.now ∧ p.rewrites = o.rewrites)))
    ∧ (∀ feed seq, r.purpose = .fill → r.feed = some feed →
      s.inRequest feed r.uid .checking = [seq] →
      (a.outcome = .done → ∀ c p, s.ctx? feed = some c →
        (c.positions.map (·.seq)).Pairwise (· < ·) → c.pos? seq = some p → p.wantsLand = true →
        c.WantsCalled p →
        ∃ t d, exec .writeAnswer s = .next t ∧ t.table = s.table.set a.tag .free
          ∧ t.timeoutRun = 0 ∧ t.counters = s.counters ∧ t.ctx? feed = some d
          ∧ d.counts = { c.counts with lost := c.counts.lost + 1 }
          ∧ s.LandDone t c d seq .lost ∧ s.LostEnds t c d seq)
      ∧ (a.outcome = .full → ∃ t p, exec .writeAnswer s = .next t
          ∧ t.table = s.table.set a.tag .free ∧ t.localHold = true
          ∧ t.counters = { s.counters with storageRefusals := s.counters.storageRefusals + 1 }
          ∧ t.waitChecks = s.waitChecks ++ [WaitCheck.mk s.nextUid feed [seq] true 1]
          ∧ t.pos? feed seq = some p ∧ p.land = .checking ∧ p.lost = .trailerCheck
          ∧ p.req = some s.nextUid))
    ∧ (∀ u j c, r.purpose = .browse u → s.job? u = some j → s.ctx? j.feed = some c →
      c.JobPlaced j →
      (a.outcome = .done → ∃ t, exec .writeAnswer s = .next t
        ∧ t.table = s.table.set a.tag .free ∧ t.timeoutRun = 0 ∧ t.counters = s.counters
        ∧ (j.content = .present → s.JobEnded t c j .done
            { c.counts with browseDone := c.counts.browseDone + 1 })
        ∧ (j.content = .missing → s.JobEnded t c j .done c.counts)
        ∧ (j.content = .failed → s.JobEnded t c j .done
            { c.counts with browseFailed := c.counts.browseFailed + 1 })
        ∧ (j.content = .shed → s.JobEnded t c j .shed
            { c.counts with browseShed := c.counts.browseShed + 1 }))
      ∧ (a.outcome = .full → ∃ t, exec .writeAnswer s = .next t
        ∧ t.table = s.table.set a.tag .free ∧ t.localHold = true
        ∧ t.counters = { s.counters with storageRefusals := s.counters.storageRefusals + 1 }
        ∧ s.WriteFailed t c j))

/-- A storage answer refused DENIED or RANGE for a request of an ACTIVE or CLOSING feed (R8, R129):
whatever the kind, the context is FAULTED with no position, the pins of its positions released (R86), it
keeps its marks, E and commit, it has no MARK waiting, and the local hold is as it was. -/
def Obligations.DeniedFaultsContext : Prop :=
  ∀ (s : State) (m : List Byte) (a : StorageAnswer) (r : Request) (feed : Nat) (c : FeedContext),
    s.TableOk → s.Answered m a → (a.outcome = .denied ∨ a.outcome = .range) →
    s.table[a.tag] = .issued r → r.purpose.kind = a.kind → r.purpose ≠ .probe →
    r.feed = some feed → (∀ j k, r.purpose = .browse j → s.job? j = some k → k.feed = feed) →
    s.owned r = true → s.ctx? feed = some c → (c.state = .active ∨ c.state = .closing) →
    ∃ t d, exec (answerCommand a.kind) s = .next t ∧ t.ctx? feed = some d ∧ d.state = .faulted
      ∧ d.positions = [] ∧ s.PinsFollow t feed
      ∧ d.lv = c.lv ∧ d.bv = c.bv ∧ d.e = c.e ∧ d.published = c.published
      ∧ feed ∉ t.waitMarks ∧ t.localHold = s.localHold ∧ t.table = s.table.set a.tag .free
      ∧ t.counters = { s.counters with storageRefusals := s.counters.storageRefusals + 1 }

/-- CHECK_ANSWER (R124, R125, R105, R127, R116). DONE to a landing CHECK of any number of slots judges each
position still CHECKING in it on its own: a stored trailer and head check word that match what was written
make it LANDED and chunks landed rises, truncated chunks with it for a TRUNCATED one; a mismatch makes it
READY and due for a rewrite, and rewrites rises, up to 4 rewrites; after the fourth it is LOST and chunks
lost rises; a slot whose position has gone is passed over. DONE to the trailer CHECK of a lost procedure: a
landed copy makes it LANDED, another station's declaration LOST, and else a fill waits; landed or lost, the
lost procedure ends, so a WAITING browse job is handed over CHUNKLESS (R108). A position complete by it
holds no pin, its entry one pin fewer, and its ready age is stopped (R84). The marks follow by R72, once,
and then the FINAL test (R5): a mark stands at the sequence number below the first of its way that is not
done, and not above E or C − 1; it stays none while the first of its way is not done (log 13). FULL makes
the CHECK wait again, a landing CHECK with its issue number. A position may leave the window by the marks;
the premises say that the window stands in ascending sequence number and that the positions judged want
what is called for there. -/
def Obligations.CheckJudgesPosition : Prop :=
  (∀ (s : State) (m : List Byte) (a : StorageAnswer) (r : Request) (feed : Nat) (c : FeedContext),
    s.TableOk → s.Answered m a → a.kind = .check → a.outcome = .done →
    s.table[a.tag] = .issued r → r.purpose = .landingCheck → r.feed = some feed →
    a.entries.length = r.slots.length → (r.slots.map (·.seq)).Nodup → s.ctx? feed = some c →
    s.owned r = true → (c.positions.map (·.seq)).Pairwise (· < ·) →
    (∀ p ∈ c.positions, p.req = some r.uid → p.land = .checking →
      p.wantsLand = true ∧ c.WantsCalled p) →
    let judged := r.slots.zip a.entries
    let count := fun (st : LandState) =>
      BitVec.ofNat 32 (judged.filter (fun z => c.judgedAs r.uid z == some st)).length
    ∃ t d, exec .checkAnswer s = .next t ∧ t.ctx? feed = some d
      ∧ t.table = s.table.set a.tag .free ∧ t.timeoutRun = 0 ∧ t.counters = s.counters
      ∧ d.counts = { c.counts with
          landed := c.counts.landed + count .landed,
          truncated := c.counts.truncated + BitVec.ofNat 32 (judged.filter (fun z =>
            c.judgedAs r.uid z == some .landed && z.2.1.state == some .truncated)).length,
          rewrites := c.counts.rewrites + count .ready,
          lost := c.counts.lost + count .lost }
      ∧ (∀ z ∈ judged, ∀ st, c.judgedAs r.uid z = some st → ∀ q, d.pos? z.1.seq = some q →
          q.land = st ∧ (st = .ready → q.dueRewrite = true
            ∧ c.pos? z.1.seq ≠ none ∧ (∀ p, c.pos? z.1.seq = some p → q.rewrites = p.rewrites + 1)
            ∧ WaitRewrite.batch feed ∈ t.waitRewrites))
      ∧ c.MarksFollow d (fun p =>
          match judged.findSome? (fun z => if z.1.seq = p.seq then c.judgedAs r.uid z else none) with
          | some st => { p with land := st }
          | none => p)
      ∧ t.EndTested c d ∧ s.PinsFollow t feed
      ∧ (∀ z ∈ judged, c.judgedAs r.uid z ≠ none → c.PosSettled d z.1.seq))
  ∧ (∀ (s : State) (m : List Byte) (a : StorageAnswer) (r : Request) (feed seq : Nat)
      (c : FeedContext) (x : SlotRef) (y : Trailer × CheckWord) (p : Position),
    s.Answered m a → a.kind = .check → a.outcome = .done → s.table[a.tag] = .issued r →
    r.purpose = .trailerCheck → r.feed = some feed → r.slots = [x] → a.entries = [y] →
    s.ctx? feed = some c → (c.state = .active ∨ c.state = .closing) →
    (c.positions.map (·.seq)).Pairwise (· < ·) → s.inRequest feed r.uid .checking = [seq] →
    c.pos? seq = some p → p.wantsLand = true → c.WantsCalled p →
    let copy := y.1.seq = seq ∧ (y.1.state = some .present ∨ y.1.state = some .truncated)
      ∧ y.2 = y.1.check
    let declared := y.1.seq = seq ∧ y.1.state = some .lost
    ∃ t d, exec .checkAnswer s = .next t ∧ t.ctx? feed = some d
      ∧ t.table = s.table.set a.tag .free ∧ t.timeoutRun = 0 ∧ t.counters = s.counters
      ∧ (copy → d.counts = { c.counts with
            landed := c.counts.landed + 1,
            truncated := c.counts.truncated + (if y.1.state = some .truncated then 1 else 0) }
          ∧ s.LandDone t c d seq .landed ∧ s.LostEnds t c d seq)
      ∧ (declared → d.counts = { c.counts with lost := c.counts.lost + 1 }
          ∧ s.LandDone t c d seq .lost ∧ s.LostEnds t c d seq)
      ∧ (¬copy → ¬declared → t.waitRewrites = s.waitRewrites ++ [.fill feed seq]
          ∧ d.counts = c.counts ∧ ∃ q, d.pos? seq = some q ∧ q.land = .checking ∧ q.lost = .fill))
  ∧ (∀ (s : State) (m : List Byte) (a : StorageAnswer) (r : Request) (feed seq : Nat)
      (rest : List Nat),
    s.Answered m a → a.kind = .check → a.outcome = .full → s.table[a.tag] = .issued r →
    r.feed = some feed → s.owned r = true → s.inRequest feed r.uid .checking = seq :: rest →
    (r.purpose = .landingCheck ∨ r.purpose = .trailerCheck) →
    ∃ t, exec .checkAnswer s = .next t ∧ t.table = s.table.set a.tag .free ∧ t.localHold = true
      ∧ t.timeoutRun = s.timeoutRun
      ∧ t.counters = { s.counters with storageRefusals := s.counters.storageRefusals + 1 }
      ∧ (r.purpose = .landingCheck → t.waitChecks = s.waitChecks ++
          [WaitCheck.mk s.nextUid feed (seq :: rest) false r.issueNo])
      ∧ (r.purpose = .trailerCheck → t.waitChecks = s.waitChecks ++
          [WaitCheck.mk s.nextUid feed [seq] true 1]))
  ∧ (∀ (c : FeedContext) (k : WorkKind) (w : Way),
      let old := c.markOf k w
      let new := c.computedMark k w
      Mark.ord new ≤ c.cap + 1
      ∧ (∀ n, Mark.ord old ≤ n → n < Mark.ord new → c.wayOf n = w → c.JobDoneAt k n)
      ∧ (c.params.geometryOk = true → w ∈ c.waysInUse →
        (∀ p ∈ c.positions, p.seq < Mark.ord old + 512) →
        Mark.ord new = c.cap + 1
        ∨ ∃ n, Mark.ord old ≤ n ∧ c.wayOf n = w ∧ ¬c.JobDoneAt k n
          ∧ (Mark.ord new = n ∨ (old = none ∧ new = none ∧ ∀ q, q < n → c.wayOf q ≠ w))))

/-- MARK_ANSWER to the ISSUED MARK of a context (R128, R140, R142, R116). With DONE the timeout run is 0
and no MARK of it is ISSUED; one that fell due meanwhile waits; where the context is FINAL or ABORTED and
the contents carried that state, the linger starts, if it was stopped, and an ABORTED one ends its storage
requests; nothing else of the context changes. With FULL the MARK waits again, unless the context writes
none, storage refusals is one higher, and the local hold is set, a probe timer that was stopped running
toward P. With DENIED or RANGE a FINAL or ABORTED context stays in its state with its linger started, if it
was stopped, its storage requests ended and no MARK of it waiting; an ACTIVE or CLOSING one is FAULTED
(DeniedFaultsContext). -/
def Obligations.MarkAnswered : Prop :=
  ∀ (s : State) (m : List Byte) (a : StorageAnswer) (r : Request) (feed : Nat) (carries : MarkState)
    (c : FeedContext), s.Answered m a → a.kind = .mark →
    s.table[a.tag] = .issued r → r.purpose = .mark carries → r.feed = some feed →
    s.ctx? feed = some c → c.markReq = some r.uid →
    let refused := { s.counters with storageRefusals := s.counters.storageRefusals + 1 }
    (a.outcome = .done →
      ∃ t d, exec .markAnswer s = .next t ∧ t.ctx? feed = some d
        ∧ t.table = s.table.set a.tag .free ∧ t.timeoutRun = 0
        ∧ { t with contexts := s.contexts, table := s.table, timeoutRun := s.timeoutRun,
                   waitMarks := s.waitMarks, arrived := s.arrived } = s
        ∧ d = { c with markReq := none, markAgain := false, linger := d.linger,
                       storageEnded := d.storageEnded }
        ∧ ((c.state = .final ∧ carries = .final) ∨ (c.state = .aborted ∧ carries = .aborted) →
            (c.linger = none → d.linger = some (s.now + 10000))
            ∧ (c.linger ≠ none → d.linger = c.linger))
        ∧ (¬((c.state = .final ∧ carries = .final) ∨ (c.state = .aborted ∧ carries = .aborted)) →
            d.linger = c.linger)
        ∧ (c.state = .aborted ∧ carries = .aborted → d.storageEnded = true)
        ∧ (¬(c.state = .aborted ∧ carries = .aborted) → d.storageEnded = c.storageEnded)
        ∧ (c.markAgain = true → c.storageEnded = false → c.state ≠ .faulted → feed ∈ t.waitMarks)
        ∧ (c.markAgain = false → t.waitMarks = s.waitMarks))
    ∧ (a.outcome = .full → ∃ t, exec .markAnswer s = .next t
      ∧ t.ctx? feed = some { c with markReq := none, markAgain := false }
      ∧ t.table = s.table.set a.tag .free ∧ t.localHold = true ∧ t.timeoutRun = s.timeoutRun
      ∧ t.counters = refused
      ∧ (s.localHold = false → t.probeTimer = some (s.now + s.settings.beaconPeriod))
      ∧ (s.localHold = true → t.probeTimer = s.probeTimer)
      ∧ (c.storageEnded = false → c.state ≠ .faulted → feed ∉ s.waitMarks →
          t.waitMarks = s.waitMarks ++ [feed])
      ∧ ((c.storageEnded = true ∨ c.state = .faulted ∨ feed ∈ s.waitMarks) →
          t.waitMarks = s.waitMarks))
    ∧ ((a.outcome = .denied ∨ a.outcome = .range) → (c.state = .final ∨ c.state = .aborted) →
      ∃ t, exec .markAnswer s = .next t
        ∧ t.ctx? feed = some { c with
            markReq := none, markAgain := false, storageEnded := true,
            linger := if c.linger = none then some (s.now + 10000) else c.linger }
        ∧ t.waitMarks = s.waitMarks.filter (· != feed)
        ∧ { t with contexts := s.contexts, waitMarks := s.waitMarks }
          = { s with table := s.table.set a.tag .free, counters := refused,
                     arrived := s.arrived.erase m })

/-- PROBE_ANSWER (R117, R116). DONE clears the local hold and stops the probe timer, the timeout run is
0; contexts change only in whether a landing delay has passed, which is noted (R173; the field is the
model's, log 15); and the jobs are as they were but that the shed ages of those whose hold is lifted run on
and the CHUNKLESS ones that waited for it go to WRITING (R159, R160). DENIED, RANGE, and FULL under a local
hold that is set, leave it set, with storage refusals one higher. -/
def Obligations.ProbeAnswered : Prop :=
  ∀ (s : State) (m : List Byte) (a : StorageAnswer) (r : Request), s.Answered m a →
    a.kind = .probe → s.table[a.tag] = .issued r → r.purpose = .probe →
    (a.outcome = .done → ∃ t, exec .probeAnswer s = .next t ∧ t.localHold = false
      ∧ t.probeTimer = none ∧ t.timeoutRun = 0 ∧ t.table = s.table.set a.tag .free
      ∧ t.contexts.map (fun c => { c with delayReached := false })
          = s.contexts.map (fun c => { c with delayReached := false })
      ∧ (∀ d ∈ t.contexts, d.delayReached = true ↔ ∃ p ∈ d.positions, ∃ n, p.wantsLand = true
          ∧ p.land = .ready ∧ p.readySince = some n ∧ n + s.settings.landingDelay ≤ s.now)
      ∧ s.JobsLifted t
      ∧ { t with contexts := s.contexts, table := s.table, localHold := s.localHold,
                 probeTimer := s.probeTimer, timeoutRun := s.timeoutRun, arrived := s.arrived,
                 waitJobs := s.waitJobs, queueJobs := s.queueJobs, browseReady := s.browseReady } = s)
    ∧ ((a.outcome = .denied ∨ a.outcome = .range ∨ (a.outcome = .full ∧ s.localHold = true)) →
      exec .probeAnswer s = .next { s with
        table := s.table.set a.tag .free, arrived := s.arrived.erase m,
        counters := { s.counters with storageRefusals := s.counters.storageRefusals + 1 } })

/-- STORAGE_TIMEOUT (R114, R116): at 2,000 ms from its issue an ISSUED entry is STALE for 2,000 ms, counted
from when the timeout is taken (log 18); storage timeouts and the timeout run are one higher, and the third
in a row sets the local hold with the probe timer running toward P; the other table entries stay. The owner
reacts by the request's purpose (R114): a landing or rewrite WRITE's positions are READY again (R122); a
landing CHECK waits again with issue number 2, and after that one its positions are READY (R127); a trailer
CHECK or a fill leads to a trailer CHECK (R105, R106); a MARK waits again (R128); a browse write spends its
retry or goes on (R157, R158). With no owner nothing follows. Before its time (log 1), or for an entry that
is FREE or STALE, nothing. -/
def Obligations.StorageTimesOut : Prop :=
  ∀ (s : State) (tag : Fin 16),
    ((∀ r, s.table[tag] ≠ .issued r) → exec (.storageTimeout tag) s = .next s)
    ∧ (∀ r, s.table[tag] = .issued r →
      (s.now < r.issueTime + 2000 → exec (.storageTimeout tag) s = .next s)
      ∧ (r.issueTime + 2000 ≤ s.now → ∃ t, exec (.storageTimeout tag) s = .next t
        ∧ t.table = s.table.set tag (.stale r (s.now + 2000))
        ∧ t.counters = { s.counters with storageTimeouts := s.counters.storageTimeouts + 1 }
        ∧ t.timeoutRun = s.timeoutRun + 1 ∧ t.feeds = s.feeds
        ∧ (s.timeoutRun = 2 → t.localHold = true
            ∧ (s.localHold = false → t.probeTimer = some (s.now + s.settings.beaconPeriod))
            ∧ (s.localHold = true → t.probeTimer = s.probeTimer))
        ∧ (s.timeoutRun ≠ 2 → t.localHold = s.localHold ∧ t.probeTimer = s.probeTimer)
        ∧ (s.owned r = false → t.contexts = s.contexts ∧ t.waitChecks = s.waitChecks
            ∧ t.waitMarks = s.waitMarks ∧ t.browseReady = s.browseReady)
        ∧ (s.owned r = true → ∀ feed, r.feed = some feed →
          (r.purpose = .landing ∨ r.purpose = .rewrite →
            ∀ q ∈ s.inRequest feed r.uid .landing, ∃ p, t.pos? feed q = some p
              ∧ p.land = .ready ∧ p.dueRewrite = false ∧ p.readySince = some s.now)
          ∧ (r.purpose = .landingCheck → s.inRequest feed r.uid .checking ≠ [] →
            (r.issueNo = 1 → t.waitChecks = s.waitChecks ++ [WaitCheck.mk s.nextUid feed
                (s.inRequest feed r.uid .checking) false 2])
            ∧ (r.issueNo ≠ 1 → t.waitChecks = s.waitChecks
              ∧ ∀ q ∈ s.inRequest feed r.uid .checking, ∃ p, t.pos? feed q = some p
                ∧ p.land = .ready ∧ p.dueRewrite = false ∧ p.readySince = some s.now))
          ∧ (r.purpose = .trailerCheck ∨ r.purpose = .fill →
            ∀ q rest, s.inRequest feed r.uid .checking = q :: rest →
              t.waitChecks = s.waitChecks ++ [WaitCheck.mk s.nextUid feed [q] true 1])
          ∧ (∀ k c, r.purpose = .mark k → s.ctx? feed = some c → c.storageEnded = false →
            c.state ≠ .faulted → feed ∈ t.waitMarks
              ∧ ∃ d, t.ctx? feed = some d ∧ d.markReq = none))
        ∧ (s.owned r = true → ∀ u j c, r.purpose = .browse u → s.job? u = some j →
            s.ctx? j.feed = some c → c.JobPlaced j → s.WriteFailed t c j)))

/-! ### The Browse Engine (R152 to R161) and answer fragments (R189) -/

/-- BROWSE_QUEUE_ENTRY (R153, R160): with a place free in the browse queue, the oldest waiting job whose
feed is not browse-held joins it as QUEUED, or, CHUNKLESS, as WRITING with its write ready, and its
position's browse state is QUEUED; else nothing. REDUCER_TAKES_JOB (R154): with no job DECODING, the
oldest WITH CHUNK job QUEUED whose feed is not browse-held is DECODING, its shed age stopped; else
nothing. STORAGE_ISSUE with no work of turns 1 to 5 (R115, R155, R156): the first write that became ready
whose feed is not browse-held is issued, its frames in ascending number and then its index record. -/
def Obligations.BrowseJobAdvances : Prop :=
  (∀ s : State,
    ((64 ≤ s.queueJobs.length ∨ ∀ j ∈ s.waitJobs, s.browseHeld j.feed = true) →
      exec .browseQueueEntry s = .next s)
    ∧ (∀ j, s.queueJobs.length < 64 → s.waitJobs.find? (fun k => !s.browseHeld k.feed) = some j →
      let contexts := s.contexts.map (fun c => if c.feed == j.feed then
        { c with positions := c.positions.map (fun p => if p.seq == j.seq then
          { p with browse := some .queued } else p) } else c)
      (j.kind ≠ .chunkless → exec .browseQueueEntry s = .next { s with
        waitJobs := s.waitJobs.filter (fun k => k.uid != j.uid), contexts := contexts,
        queueJobs := s.queueJobs ++ [{ j with stage := .queued }] })
      ∧ (j.kind = .chunkless → exec .browseQueueEntry s = .next { s with
        waitJobs := s.waitJobs.filter (fun k => k.uid != j.uid), contexts := contexts,
        queueJobs := s.queueJobs ++ [{ j with stage := .writing }],
        browseReady := s.browseReady ++ [j.uid] }))
    ∧ ((∃ j ∈ s.queueJobs, j.stage = .decoding) → exec .reducerTakesJob s = .next s)
    ∧ ((∀ j ∈ s.queueJobs, j.stage ≠ .decoding) →
      ((∀ j ∈ s.queueJobs, j.kind = .withChunk → j.stage = .queued →
          s.browseHeld j.feed = true) → exec .reducerTakesJob s = .next s)
      ∧ (∀ before j after, s.queueJobs = before ++ j :: after →
        (∀ k ∈ before, k.kind = .withChunk → k.stage = .queued → s.browseHeld k.feed = true) →
        j.kind = .withChunk → j.stage = .queued → s.browseHeld j.feed = false →
        (∀ k ∈ before ++ after ++ s.shedJobs, k.uid ≠ j.uid) →
        exec .reducerTakesJob s = .next { s with queueJobs := before
          ++ { j with stage := .decoding, shedAge := j.ageAt s.now, shedSince := none } :: after })))
  ∧ (∀ (s : State) (tag : Fin 16) (before after : List Nat) (j : Job) (c : FeedContext)
      (h : ChunkHeader),
    s.operating = true → s.quietUntil = none → s.probeWaiting = false → s.waitChecks = [] →
    s.waitRewrites = [] → s.waitMarks = [] → (∀ d ∈ s.contexts, s.landingDue d = false) →
    s.browseReady = before ++ j.uid :: after → s.job? j.uid = some j →
    s.browseHeld j.feed = false →
    (∀ v ∈ before, ∀ k, s.job? v = some k → s.browseHeld k.feed = true) →
    s.ctx? j.feed = some c →
    ((j.chunk = some h ∧ j.content ≠ .missing) ∨ (j.chunk = none ∧ j.content = .missing)) →
    s.table[tag] = .free → (∀ u : Fin 16, u < tag → s.table[u] ≠ .free) →
    ∃ r : Request, r.purpose = .browse j.uid ∧ r.feed = some j.feed ∧ r.issueTime = s.now
      ∧ r.extents = c.writeOf j h
      ∧ exec .storageIssue s = .next { s with
          browseReady := s.browseReady.filter (· != j.uid),
          queueJobs := s.queueJobs.map (fun k => if k.uid == j.uid then
            { k with inFlight := some r.uid } else k),
          shedJobs := s.shedJobs.map (fun k => if k.uid == j.uid then
            { k with inFlight := some r.uid } else k),
          table := s.table.set tag (.issued r), storageTx := s.requestFrames tag r,
          nextUid := s.nextUid + 1 })

/-- DECODE_COMPLETE (R154, R157) for the job DECODING: m pictures of the source size make its stage
WRITING with a PRESENT record, each frame's picture reduced from the decoded picture at its place, and
its write ready. Otherwise the first failure spends the retry and decoding goes on; after it the job is
WRITING with the FAILED record alone. With no job DECODING nothing happens. The browse arithmetic a job
stands on: the rates of R146; a chunk owns exactly the browse frames of R149 and R150, each with its source
frame and cue flag, writes those below the browse slot count in ascending number, and overruns where one
lies at or above it (R151). A reduced picture is three planes of means (R154); that a decoded picture is
held in 8-bit 4:2:0, its chroma planes half its size rounded up, is the model's (log 8). -/
def Obligations.DecodingEnds : Prop :=
  (∀ (s : State) (pictures : Option (List Picture)),
    ((∀ j ∈ s.queueJobs, j.stage ≠ .decoding) → exec (.decodeComplete pictures) s = .next s)
    ∧ (∀ before j after c h, s.queueJobs = before ++ j :: after →
      (∀ k ∈ before, k.stage ≠ .decoding) → j.stage = .decoding →
      (∀ k ∈ before ++ after ++ s.shedJobs, k.uid ≠ j.uid) →
      s.ctx? j.feed = some c → j.chunk = some h →
      (∀ ps, pictures = some ps → ps.length = h.frames →
        (∀ p ∈ ps, p.width = c.params.width ∧ p.height = c.params.height) →
        exec (.decodeComplete pictures) s = .next { s with
          queueJobs := before ++ { j with
            stage := .writing, content := .present,
            pictures := j.written.map (fun f =>
              reducePicture c.effFactor (ps.getD (f.source - h.first) default)) } :: after,
          browseReady := s.browseReady ++ [j.uid] })
      ∧ ((pictures = none ∨ ∃ ps, pictures = some ps ∧ (ps.length ≠ h.frames
            ∨ ∃ p ∈ ps, p.width ≠ c.params.width ∨ p.height ≠ c.params.height)) →
        (j.retrySpent = false → exec (.decodeComplete pictures) s = .next { s with
          queueJobs := before ++ { j with retrySpent := true } :: after })
        ∧ (j.retrySpent = true → exec (.decodeComplete pictures) s = .next { s with
          queueJobs := before ++ { j with stage := .writing, content := .failed } :: after,
          browseReady := s.browseReady ++ [j.uid] }))))
  ∧ ((List.range' 1 13).map rateAt = [⟨5, 1⟩, ⟨10, 1⟩, ⟨25, 2⟩, ⟨15000, 1001⟩, ⟨15, 1⟩, ⟨24000, 1001⟩,
      ⟨24, 1⟩, ⟨25, 1⟩, ⟨30000, 1001⟩, ⟨30, 1⟩, ⟨50, 1⟩, ⟨60000, 1001⟩, ⟨60, 1⟩])
  ∧ (∀ (c : FeedContext) (h : ChunkHeader), 0 < c.up → 0 < c.down →
      (∀ g : PlannedFrame, g ∈ c.writtenSet h ↔
        c.Owns h g.number g.source g.cue ∧ g.number < c.params.browseSlots)
      ∧ ((c.writtenSet h).map (·.number)).Pairwise (· < ·)
      ∧ (c.overruns h = true ↔ ∃ k x cue, c.Owns h k x cue ∧ c.params.browseSlots ≤ k))
  ∧ (∀ (f : Nat) (p : Picture), 0 < f → ∃ luma cb cr, reducePicture f p = luma ++ cb ++ cr
      ∧ PlaneReduced f p.width p.height (evenDim p.width f) (evenDim p.height f) p.luma luma
      ∧ PlaneReduced f ((p.width + 1) / 2) ((p.height + 1) / 2) (evenDim p.width f / 2)
          (evenDim p.height f / 2) p.cb cb
      ∧ PlaneReduced f ((p.width + 1) / 2) ((p.height + 1) / 2) (evenDim p.width f / 2)
          (evenDim p.height f / 2) p.cr cr)

/-- SHED_AGE_EXPIRY (R159): a WITH CHUNK job in WAITING or QUEUED whose shed age is 1,000 ms leaves its
list or queue and joins the end of the shed list as a SHED RECORD job, its record ready to be written.
With no such job, and before its age is reached, nothing happens (log 1). -/
def Obligations.JobShed : Prop :=
  ∀ (s : State) (feed seq : Nat),
    ((∀ j ∈ s.waitJobs ++ s.queueJobs, j.feed = feed → j.seq = seq → j.kind = .withChunk →
        (j.stage = .waiting ∨ j.stage = .queued) → j.ageAt s.now < 1000) →
      exec (.shedAgeExpiry feed seq) s = .next s)
    ∧ (∀ j ∈ s.waitJobs ++ s.queueJobs, j.feed = feed → j.seq = seq → j.kind = .withChunk →
      (j.stage = .waiting ∨ j.stage = .queued) → 1000 ≤ j.ageAt s.now →
      (∀ k ∈ s.waitJobs ++ s.queueJobs, k.feed = feed → k.seq = seq → k = j) →
      exec (.shedAgeExpiry feed seq) s = .next { s with
        waitJobs := s.waitJobs.filter (fun k => k.uid != j.uid),
        queueJobs := s.queueJobs.filter (fun k => k.uid != j.uid),
        shedJobs := s.shedJobs.filter (fun k => k.uid != j.uid) ++ [{ j with
          kind := .shedRecord, stage := .shedding, content := .shed, retrySpent := false,
          shedAge := j.ageAt s.now, shedSince := none }],
        browseReady := s.browseReady.filter (· != j.uid) ++ [j.uid] })

/-- STORAGE_FRAGMENT_RECEIVED (R189). A frame of another type, over 9,000 bytes counted after the Ethernet
header (log 4) or shorter than the fragment header changes nothing, nor does any where the station is
LOADING (log 36) or in SETUP FAULT (R132). The first fragment of a tag that carries a whole message of a
request kind makes it arrive, at the end of the list of whole messages that wait to be taken (log 3); a
whole message of no request kind is dropped (R113); one that carries less, or does not begin at offset 0,
is gathered. A later fragment that agrees in the total length is gathered, and where it brings the last
byte the message arrives and nothing stays gathered; one whose total length disagrees with the fragments
gathered for its tag discards them and is itself dropped (log 3). -/
def Obligations.FragmentArrives : Prop :=
  ∀ (s : State) (f : Frame),
    ((s.operating = false ∨ f.ftype ≠ Config.storageType ∨ 9000 < f.body.length
        ∨ f.body.length < 12) → exec (.storageFragmentReceived f) s = .next s)
    ∧ (s.operating = true → f.ftype = Config.storageType → f.body.length ≤ 9000 →
      12 ≤ f.body.length →
      let off := field f.body 4 4
      let piece := f.body.drop 12
      let total := field f.body 8 4
      ((∀ g ∈ s.gathers, g.tag ≠ byteAt f.body 0) →
        (off = 0 → total = piece.length →
          ((∃ k, messageKind piece = some k) → exec (.storageFragmentReceived f) s
            = .next { s with arrived := s.arrived ++ [piece] })
          ∧ (messageKind piece = none → exec (.storageFragmentReceived f) s = .next s))
        ∧ ((off ≠ 0 ∧ total ≠ 0 ∨ piece.length < total) →
          exec (.storageFragmentReceived f) s = .next { s with
            gathers := s.gathers ++ [Gather.mk (byteAt f.body 0) total [(off, piece)]] }))
      ∧ (∀ g, s.gathers.find? (fun x => x.tag == byteAt f.body 0) = some g →
        (g.total ≠ field f.body 8 4 → exec (.storageFragmentReceived f) s = .next { s with
          gathers := s.gathers.filter (fun x => x.tag != byteAt f.body 0) })
        ∧ (g.total = field f.body 8 4 →
          ((∃ i, i < g.total ∧ ¬(off ≤ i ∧ i < off + piece.length) ∧ g.byteAt i = none) →
            exec (.storageFragmentReceived f) s = .next { s with
              gathers := s.gathers.filter (fun x => x.tag != byteAt f.body 0)
                ++ [{ g with pieces := g.pieces ++ [(off, piece)] }] })
          ∧ (∀ m : List Byte, m.length = g.total →
            (∀ i, i < g.total → m[i]? =
              (if off ≤ i ∧ i < off + piece.length then piece[i - off]? else g.byteAt i)) →
            exec (.storageFragmentReceived f) s = .next { s with
              gathers := s.gathers.filter (fun x => x.tag != byteAt f.body 0),
              arrived := if (messageKind m).isSome then s.arrived ++ [m] else s.arrived }))))

/-! ### What every step keeps -/

/-- Every step keeps the Feed Context Table, the adopted set, the windows and the end sequences as the
spec says they are (R1, R4, R5, R39, R71, R73, R74, R75): at most one position for a sequence number and
at most 512, none but in ACTIVE and CLOSING, each in the span, below C, not above E and of a held way. From
every state that has them so, not from reset alone. -/
def Obligations.StepKeepsContexts : Prop :=
  ∀ s t : State, s.TableOk → s.AdoptedOk → s.WindowsOk → s.EndsOk → step s = .next t →
    t.TableOk ∧ t.AdoptedOk ∧ t.WindowsOk ∧ t.EndsOk

/-- Every step keeps the Retention Ring, the pending-answer table, the browse queue and the transmit
queue within what the spec says of them (R54, R61, R62, R63, R92, R103, R152, R181): the indexes of an
entry ascend below its cell count, a WHOLE entry has all its cells, and only a WHOLE entry is pinned. -/
def Obligations.StepKeepsQueues : Prop :=
  ∀ s t : State, s.RingOk → s.QueuesOk → s.TransmitOk → step s = .next t →
    t.RingOk ∧ t.QueuesOk ∧ t.TransmitOk


/-- Every step keeps the Peer Table as R33 and R34 say, and a station that is LOADING or in SETUP FAULT
at its POWER values (R132, R165, R177, R179). -/
def Obligations.StepKeepsPeers : Prop :=
  ∀ s t : State, s.PeersOk → s.SilentOk → step s = .next t → t.PeersOk ∧ t.SilentOk

/-- While a context exists its parameters and its origin stay (R2), its effective rate and factor stay
(R12), its published commit and its H do not fall (R20, R136), and its latched flags stay latched (R22):
whatever step is taken. -/
def Obligations.StepCarriesContext : Prop :=
  ∀ (s t : State) (feed : Nat) (c d : FeedContext), step s = .next t → s.ctx? feed = some c →
    t.ctx? feed = some d → FeedContext.Carries c d
end

