-- ==== Sys2Proof/Laws/Bytes.lean ====
section
/-! SUPPORT. Byte strings and fields: the length of every layout, and what a field reads of what was
written there (R186, R188, R190). -/

namespace Sys2Proof.Machine

@[simp] theorem length_beBytes : ∀ n v : Nat, (beBytes n v).length = n
  | 0, _ => rfl
  | n + 1, v => by simp [beBytes, length_beBytes n v]

@[simp] theorem length_reserved (n : Nat) : (reserved n).length = n := by simp [reserved]

@[simp] theorem length_markBytes (m : Mark) : (markBytes m).length = 4 := by cases m <;> simp [markBytes]

theorem beNat_append (a b : List Byte) : beNat (a ++ b) = beNat a * 256 ^ b.length + beNat b := by
  have h : ∀ (l : List Byte) (x : Nat),
      l.foldl (fun acc y => acc * 256 + y.toNat) x = x * 256 ^ l.length + beNat l := by
    intro l
    induction l with
    | nil => intro x; simp [beNat]
    | cons y l ih =>
      intro x
      simp only [List.foldl_cons, beNat, List.length_cons]
      rw [ih, ih (0 * 256 + y.toNat)]
      ring
  simp only [beNat, List.foldl_append]
  rw [h b]
  rfl

/-- A value written in `n` bytes reads back modulo 256 to the `n`. -/
theorem beNat_beBytes : ∀ n v : Nat, beNat (beBytes n v) = v % 256 ^ n
  | 0, v => by simp [beBytes, beNat, Nat.mod_one]
  | n + 1, v => by
    have h : beBytes (n + 1) v = [BitVec.ofNat 8 (v / 256 ^ n)] ++ beBytes n v := rfl
    rw [h, beNat_append, beNat_beBytes n v, length_beBytes]
    have h1 : beNat [BitVec.ofNat 8 (v / 256 ^ n)] = v / 256 ^ n % 256 := by simp [beNat]
    rw [h1, Nat.pow_succ, Nat.mod_mul]
    ring

/-- A field that stands after `pre` reads what was written there. -/
theorem field_append (pre mid post : List Byte) :
    field (pre ++ (mid ++ post)) pre.length mid.length = beNat mid := by
  simp [field]

/-- The same, with the offset and the size as numbers. -/
theorem field_at {b : List Byte} {off n : Nat} (pre mid post : List Byte)
    (h : b = pre ++ (mid ++ post)) (ho : pre.length = off) (hn : mid.length = n) :
    field b off n = beNat mid := by
  subst h ho hn
  exact field_append pre mid post

/-- A field does not read past its own bytes. -/
theorem field_append_left {a b : List Byte} {off n : Nat} (h : off + n ≤ a.length) :
    field (a ++ b) off n = field a off n := by
  simp only [field]
  rw [List.drop_append_of_le_length (by omega), List.take_append_of_le_length (by simp; omega)]

/-- A mark reads back as it was written (R186). -/
theorem markField_markBytes (m : Mark) (h : ∀ n, m = some n → n < 2 ^ 32 - 1) :
    markField (beNat (markBytes m)) = m := by
  cases m with
  | none => simp [markBytes, beNat_beBytes, markField]
  | some n =>
    have hn := h n rfl
    have : n % 256 ^ 4 = n := Nat.mod_eq_of_lt (by omega)
    simp only [markBytes, beNat_beBytes, this, markField]
    rw [if_neg (by omega)]

@[simp] theorem length_encodeCell (k : Byte) (c : Cell) :
    (encodeCell k c).length = 32 + c.payload.length := by simp [encodeCell]; omega

@[simp] theorem length_encodeAsk (n : Nat) (a : Ask) : (encodeAsk n a).length = 32 := by
  simp [encodeAsk, missingField]

@[simp] theorem length_encodeTrailer (seq : Nat) (st : TrailerState) (writer frames stored : Nat)
    (check : CheckWord) (first : Nat) :
    (encodeTrailer seq st writer frames stored check first).length = 64 := by simp [encodeTrailer]

@[simp] theorem length_encodeMarkSlot (station : Nat) (st : MarkState) (published : Mark)
    (id : BitVec 64) (e : Mark) (lost truncated writes : BitVec 32) :
    (encodeMarkSlot station st published id e lost truncated writes).length = 64 := by
  simp [encodeMarkSlot]

@[simp] theorem length_encodeIndexRecord (seq : Nat) (st : JobContent) (cue : Bool)
    (frames first firstWritten count : Nat) (check : CheckWord) :
    (encodeIndexRecord seq st cue frames first firstWritten count check).length = 64 := by
  simp [encodeIndexRecord]

@[simp] theorem length_encodeFrameRecord (f : PlannedFrame) (w h : Nat) (picture : List Byte) :
    (encodeFrameRecord f w h picture).length = 32 + picture.length := by
  simp [encodeFrameRecord]; omega

theorem length_flatMap_beBytes (n : Nat) (l : List Nat) :
    (l.flatMap (beBytes n)).length = n * l.length := by
  induction l with
  | nil => rfl
  | cons x l ih => simp [ih]; ring

@[simp] theorem length_encodeParams {p : OpenParams} (h : p.cues.length ≤ 8) :
    (encodeParams p).length = 84 := by
  simp only [encodeParams, List.length_append, length_beBytes, length_flatMap_beBytes,
    length_reserved, List.length_cons, List.length_nil, List.length_take]
  omega

@[simp] theorem length_beaconHead (s : State) : s.beaconHead.length = 48 := by
  have h : s.refusalBytes.length = 4 := by
    unfold State.refusalBytes
    split <;> simp
  simp [State.beaconHead, StationCounters.reported, h]

end Sys2Proof.Machine
end

