-- ==== Sys2Proof/Laws/State.lean ====
section
/-! SUPPORT. One lemma per field per update: an update leaves every field it does not name as it was.
All by rfl, so that no proof unfolds a record update. -/

namespace Sys2Proof.Machine

variable (s : State)

/-! `mapCtx` -/

@[simp] theorem State.mapCtx_pending (feed : Nat) (g : FeedContext → FeedContext) : (s.mapCtx feed g).pending = s.pending := rfl
@[simp] theorem State.mapCtx_now (feed : Nat) (g : FeedContext → FeedContext) : (s.mapCtx feed g).now = s.now := rfl
@[simp] theorem State.mapCtx_nextUid (feed : Nat) (g : FeedContext → FeedContext) : (s.mapCtx feed g).nextUid = s.nextUid := rfl
@[simp] theorem State.mapCtx_draws (feed : Nat) (g : FeedContext → FeedContext) : (s.mapCtx feed g).draws = s.draws := rfl
@[simp] theorem State.mapCtx_station (feed : Nat) (g : FeedContext → FeedContext) : (s.mapCtx feed g).station = s.station := rfl
@[simp] theorem State.mapCtx_faultReason (feed : Nat) (g : FeedContext → FeedContext) : (s.mapCtx feed g).faultReason = s.faultReason := rfl
@[simp] theorem State.mapCtx_settings (feed : Nat) (g : FeedContext → FeedContext) : (s.mapCtx feed g).settings = s.settings := rfl
@[simp] theorem State.mapCtx_clamped (feed : Nat) (g : FeedContext → FeedContext) : (s.mapCtx feed g).clamped = s.clamped := rfl
@[simp] theorem State.mapCtx_confMem (feed : Nat) (g : FeedContext → FeedContext) : (s.mapCtx feed g).confMem = s.confMem := rfl
@[simp] theorem State.mapCtx_recordWrite (feed : Nat) (g : FeedContext → FeedContext) : (s.mapCtx feed g).recordWrite = s.recordWrite := rfl
@[simp] theorem State.mapCtx_maintAnswers (feed : Nat) (g : FeedContext → FeedContext) : (s.mapCtx feed g).maintAnswers = s.maintAnswers := rfl
@[simp] theorem State.mapCtx_maintTx (feed : Nat) (g : FeedContext → FeedContext) : (s.mapCtx feed g).maintTx = s.maintTx := rfl
@[simp] theorem State.mapCtx_listenUntil (feed : Nat) (g : FeedContext → FeedContext) : (s.mapCtx feed g).listenUntil = s.listenUntil := rfl
@[simp] theorem State.mapCtx_linkUp (feed : Nat) (g : FeedContext → FeedContext) : (s.mapCtx feed g).linkUp = s.linkUp := rfl
@[simp] theorem State.mapCtx_beaconTimer (feed : Nat) (g : FeedContext → FeedContext) : (s.mapCtx feed g).beaconTimer = s.beaconTimer := rfl
@[simp] theorem State.mapCtx_beaconWaiting (feed : Nat) (g : FeedContext → FeedContext) : (s.mapCtx feed g).beaconWaiting = s.beaconWaiting := rfl
@[simp] theorem State.mapCtx_askQueue (feed : Nat) (g : FeedContext → FeedContext) : (s.mapCtx feed g).askQueue = s.askQueue := rfl
@[simp] theorem State.mapCtx_mendQueue (feed : Nat) (g : FeedContext → FeedContext) : (s.mapCtx feed g).mendQueue = s.mendQueue := rfl
@[simp] theorem State.mapCtx_captureTx (feed : Nat) (g : FeedContext → FeedContext) : (s.mapCtx feed g).captureTx = s.captureTx := rfl
@[simp] theorem State.mapCtx_counters (feed : Nat) (g : FeedContext → FeedContext) : (s.mapCtx feed g).counters = s.counters := rfl
@[simp] theorem State.mapCtx_dupNumber (feed : Nat) (g : FeedContext → FeedContext) : (s.mapCtx feed g).dupNumber = s.dupNumber := rfl
@[simp] theorem State.mapCtx_peers (feed : Nat) (g : FeedContext → FeedContext) : (s.mapCtx feed g).peers = s.peers := rfl
@[simp] theorem State.mapCtx_adopted (feed : Nat) (g : FeedContext → FeedContext) : (s.mapCtx feed g).adopted = s.adopted := rfl
@[simp] theorem State.mapCtx_closedIds (feed : Nat) (g : FeedContext → FeedContext) : (s.mapCtx feed g).closedIds = s.closedIds := rfl
@[simp] theorem State.mapCtx_lastRefusal (feed : Nat) (g : FeedContext → FeedContext) : (s.mapCtx feed g).lastRefusal = s.lastRefusal := rfl
@[simp] theorem State.mapCtx_ring (feed : Nat) (g : FeedContext → FeedContext) : (s.mapCtx feed g).ring = s.ring := rfl
@[simp] theorem State.mapCtx_answers (feed : Nat) (g : FeedContext → FeedContext) : (s.mapCtx feed g).answers = s.answers := rfl
@[simp] theorem State.mapCtx_table (feed : Nat) (g : FeedContext → FeedContext) : (s.mapCtx feed g).table = s.table := rfl
@[simp] theorem State.mapCtx_quietUntil (feed : Nat) (g : FeedContext → FeedContext) : (s.mapCtx feed g).quietUntil = s.quietUntil := rfl
@[simp] theorem State.mapCtx_localHold (feed : Nat) (g : FeedContext → FeedContext) : (s.mapCtx feed g).localHold = s.localHold := rfl
@[simp] theorem State.mapCtx_timeoutRun (feed : Nat) (g : FeedContext → FeedContext) : (s.mapCtx feed g).timeoutRun = s.timeoutRun := rfl
@[simp] theorem State.mapCtx_probeTimer (feed : Nat) (g : FeedContext → FeedContext) : (s.mapCtx feed g).probeTimer = s.probeTimer := rfl
@[simp] theorem State.mapCtx_probeWaiting (feed : Nat) (g : FeedContext → FeedContext) : (s.mapCtx feed g).probeWaiting = s.probeWaiting := rfl
@[simp] theorem State.mapCtx_waitChecks (feed : Nat) (g : FeedContext → FeedContext) : (s.mapCtx feed g).waitChecks = s.waitChecks := rfl
@[simp] theorem State.mapCtx_waitRewrites (feed : Nat) (g : FeedContext → FeedContext) : (s.mapCtx feed g).waitRewrites = s.waitRewrites := rfl
@[simp] theorem State.mapCtx_waitMarks (feed : Nat) (g : FeedContext → FeedContext) : (s.mapCtx feed g).waitMarks = s.waitMarks := rfl
@[simp] theorem State.mapCtx_lastServed (feed : Nat) (g : FeedContext → FeedContext) : (s.mapCtx feed g).lastServed = s.lastServed := rfl
@[simp] theorem State.mapCtx_gathers (feed : Nat) (g : FeedContext → FeedContext) : (s.mapCtx feed g).gathers = s.gathers := rfl
@[simp] theorem State.mapCtx_arrived (feed : Nat) (g : FeedContext → FeedContext) : (s.mapCtx feed g).arrived = s.arrived := rfl
@[simp] theorem State.mapCtx_storageTx (feed : Nat) (g : FeedContext → FeedContext) : (s.mapCtx feed g).storageTx = s.storageTx := rfl
@[simp] theorem State.mapCtx_waitJobs (feed : Nat) (g : FeedContext → FeedContext) : (s.mapCtx feed g).waitJobs = s.waitJobs := rfl
@[simp] theorem State.mapCtx_queueJobs (feed : Nat) (g : FeedContext → FeedContext) : (s.mapCtx feed g).queueJobs = s.queueJobs := rfl
@[simp] theorem State.mapCtx_shedJobs (feed : Nat) (g : FeedContext → FeedContext) : (s.mapCtx feed g).shedJobs = s.shedJobs := rfl
@[simp] theorem State.mapCtx_browseReady (feed : Nat) (g : FeedContext → FeedContext) : (s.mapCtx feed g).browseReady = s.browseReady := rfl

/-! `addCtx` -/

@[simp] theorem State.addCtx_pending (c : FeedContext) : (s.addCtx c).pending = s.pending := rfl
@[simp] theorem State.addCtx_now (c : FeedContext) : (s.addCtx c).now = s.now := rfl
@[simp] theorem State.addCtx_nextUid (c : FeedContext) : (s.addCtx c).nextUid = s.nextUid := rfl
@[simp] theorem State.addCtx_draws (c : FeedContext) : (s.addCtx c).draws = s.draws := rfl
@[simp] theorem State.addCtx_station (c : FeedContext) : (s.addCtx c).station = s.station := rfl
@[simp] theorem State.addCtx_faultReason (c : FeedContext) : (s.addCtx c).faultReason = s.faultReason := rfl
@[simp] theorem State.addCtx_settings (c : FeedContext) : (s.addCtx c).settings = s.settings := rfl
@[simp] theorem State.addCtx_clamped (c : FeedContext) : (s.addCtx c).clamped = s.clamped := rfl
@[simp] theorem State.addCtx_confMem (c : FeedContext) : (s.addCtx c).confMem = s.confMem := rfl
@[simp] theorem State.addCtx_recordWrite (c : FeedContext) : (s.addCtx c).recordWrite = s.recordWrite := rfl
@[simp] theorem State.addCtx_maintAnswers (c : FeedContext) : (s.addCtx c).maintAnswers = s.maintAnswers := rfl
@[simp] theorem State.addCtx_maintTx (c : FeedContext) : (s.addCtx c).maintTx = s.maintTx := rfl
@[simp] theorem State.addCtx_listenUntil (c : FeedContext) : (s.addCtx c).listenUntil = s.listenUntil := rfl
@[simp] theorem State.addCtx_linkUp (c : FeedContext) : (s.addCtx c).linkUp = s.linkUp := rfl
@[simp] theorem State.addCtx_beaconTimer (c : FeedContext) : (s.addCtx c).beaconTimer = s.beaconTimer := rfl
@[simp] theorem State.addCtx_beaconWaiting (c : FeedContext) : (s.addCtx c).beaconWaiting = s.beaconWaiting := rfl
@[simp] theorem State.addCtx_askQueue (c : FeedContext) : (s.addCtx c).askQueue = s.askQueue := rfl
@[simp] theorem State.addCtx_mendQueue (c : FeedContext) : (s.addCtx c).mendQueue = s.mendQueue := rfl
@[simp] theorem State.addCtx_captureTx (c : FeedContext) : (s.addCtx c).captureTx = s.captureTx := rfl
@[simp] theorem State.addCtx_counters (c : FeedContext) : (s.addCtx c).counters = s.counters := rfl
@[simp] theorem State.addCtx_dupNumber (c : FeedContext) : (s.addCtx c).dupNumber = s.dupNumber := rfl
@[simp] theorem State.addCtx_peers (c : FeedContext) : (s.addCtx c).peers = s.peers := rfl
@[simp] theorem State.addCtx_adopted (c : FeedContext) : (s.addCtx c).adopted = s.adopted := rfl
@[simp] theorem State.addCtx_closedIds (c : FeedContext) : (s.addCtx c).closedIds = s.closedIds := rfl
@[simp] theorem State.addCtx_lastRefusal (c : FeedContext) : (s.addCtx c).lastRefusal = s.lastRefusal := rfl
@[simp] theorem State.addCtx_ring (c : FeedContext) : (s.addCtx c).ring = s.ring := rfl
@[simp] theorem State.addCtx_answers (c : FeedContext) : (s.addCtx c).answers = s.answers := rfl
@[simp] theorem State.addCtx_table (c : FeedContext) : (s.addCtx c).table = s.table := rfl
@[simp] theorem State.addCtx_quietUntil (c : FeedContext) : (s.addCtx c).quietUntil = s.quietUntil := rfl
@[simp] theorem State.addCtx_localHold (c : FeedContext) : (s.addCtx c).localHold = s.localHold := rfl
@[simp] theorem State.addCtx_timeoutRun (c : FeedContext) : (s.addCtx c).timeoutRun = s.timeoutRun := rfl
@[simp] theorem State.addCtx_probeTimer (c : FeedContext) : (s.addCtx c).probeTimer = s.probeTimer := rfl
@[simp] theorem State.addCtx_probeWaiting (c : FeedContext) : (s.addCtx c).probeWaiting = s.probeWaiting := rfl
@[simp] theorem State.addCtx_waitChecks (c : FeedContext) : (s.addCtx c).waitChecks = s.waitChecks := rfl
@[simp] theorem State.addCtx_waitRewrites (c : FeedContext) : (s.addCtx c).waitRewrites = s.waitRewrites := rfl
@[simp] theorem State.addCtx_waitMarks (c : FeedContext) : (s.addCtx c).waitMarks = s.waitMarks := rfl
@[simp] theorem State.addCtx_lastServed (c : FeedContext) : (s.addCtx c).lastServed = s.lastServed := rfl
@[simp] theorem State.addCtx_gathers (c : FeedContext) : (s.addCtx c).gathers = s.gathers := rfl
@[simp] theorem State.addCtx_arrived (c : FeedContext) : (s.addCtx c).arrived = s.arrived := rfl
@[simp] theorem State.addCtx_storageTx (c : FeedContext) : (s.addCtx c).storageTx = s.storageTx := rfl
@[simp] theorem State.addCtx_waitJobs (c : FeedContext) : (s.addCtx c).waitJobs = s.waitJobs := rfl
@[simp] theorem State.addCtx_queueJobs (c : FeedContext) : (s.addCtx c).queueJobs = s.queueJobs := rfl
@[simp] theorem State.addCtx_shedJobs (c : FeedContext) : (s.addCtx c).shedJobs = s.shedJobs := rfl
@[simp] theorem State.addCtx_browseReady (c : FeedContext) : (s.addCtx c).browseReady = s.browseReady := rfl

/-! `removeCtx` -/

@[simp] theorem State.removeCtx_pending (feed : Nat) : (s.removeCtx feed).pending = s.pending := rfl
@[simp] theorem State.removeCtx_now (feed : Nat) : (s.removeCtx feed).now = s.now := rfl
@[simp] theorem State.removeCtx_nextUid (feed : Nat) : (s.removeCtx feed).nextUid = s.nextUid := rfl
@[simp] theorem State.removeCtx_draws (feed : Nat) : (s.removeCtx feed).draws = s.draws := rfl
@[simp] theorem State.removeCtx_station (feed : Nat) : (s.removeCtx feed).station = s.station := rfl
@[simp] theorem State.removeCtx_faultReason (feed : Nat) : (s.removeCtx feed).faultReason = s.faultReason := rfl
@[simp] theorem State.removeCtx_settings (feed : Nat) : (s.removeCtx feed).settings = s.settings := rfl
@[simp] theorem State.removeCtx_clamped (feed : Nat) : (s.removeCtx feed).clamped = s.clamped := rfl
@[simp] theorem State.removeCtx_confMem (feed : Nat) : (s.removeCtx feed).confMem = s.confMem := rfl
@[simp] theorem State.removeCtx_recordWrite (feed : Nat) : (s.removeCtx feed).recordWrite = s.recordWrite := rfl
@[simp] theorem State.removeCtx_maintAnswers (feed : Nat) : (s.removeCtx feed).maintAnswers = s.maintAnswers := rfl
@[simp] theorem State.removeCtx_maintTx (feed : Nat) : (s.removeCtx feed).maintTx = s.maintTx := rfl
@[simp] theorem State.removeCtx_listenUntil (feed : Nat) : (s.removeCtx feed).listenUntil = s.listenUntil := rfl
@[simp] theorem State.removeCtx_linkUp (feed : Nat) : (s.removeCtx feed).linkUp = s.linkUp := rfl
@[simp] theorem State.removeCtx_beaconTimer (feed : Nat) : (s.removeCtx feed).beaconTimer = s.beaconTimer := rfl
@[simp] theorem State.removeCtx_beaconWaiting (feed : Nat) : (s.removeCtx feed).beaconWaiting = s.beaconWaiting := rfl
@[simp] theorem State.removeCtx_askQueue (feed : Nat) : (s.removeCtx feed).askQueue = s.askQueue := rfl
@[simp] theorem State.removeCtx_mendQueue (feed : Nat) : (s.removeCtx feed).mendQueue = s.mendQueue := rfl
@[simp] theorem State.removeCtx_captureTx (feed : Nat) : (s.removeCtx feed).captureTx = s.captureTx := rfl
@[simp] theorem State.removeCtx_counters (feed : Nat) : (s.removeCtx feed).counters = s.counters := rfl
@[simp] theorem State.removeCtx_dupNumber (feed : Nat) : (s.removeCtx feed).dupNumber = s.dupNumber := rfl
@[simp] theorem State.removeCtx_peers (feed : Nat) : (s.removeCtx feed).peers = s.peers := rfl
@[simp] theorem State.removeCtx_adopted (feed : Nat) : (s.removeCtx feed).adopted = s.adopted := rfl
@[simp] theorem State.removeCtx_closedIds (feed : Nat) : (s.removeCtx feed).closedIds = s.closedIds := rfl
@[simp] theorem State.removeCtx_lastRefusal (feed : Nat) : (s.removeCtx feed).lastRefusal = s.lastRefusal := rfl
@[simp] theorem State.removeCtx_ring (feed : Nat) : (s.removeCtx feed).ring = s.ring := rfl
@[simp] theorem State.removeCtx_answers (feed : Nat) : (s.removeCtx feed).answers = s.answers := rfl
@[simp] theorem State.removeCtx_table (feed : Nat) : (s.removeCtx feed).table = s.table := rfl
@[simp] theorem State.removeCtx_quietUntil (feed : Nat) : (s.removeCtx feed).quietUntil = s.quietUntil := rfl
@[simp] theorem State.removeCtx_localHold (feed : Nat) : (s.removeCtx feed).localHold = s.localHold := rfl
@[simp] theorem State.removeCtx_timeoutRun (feed : Nat) : (s.removeCtx feed).timeoutRun = s.timeoutRun := rfl
@[simp] theorem State.removeCtx_probeTimer (feed : Nat) : (s.removeCtx feed).probeTimer = s.probeTimer := rfl
@[simp] theorem State.removeCtx_probeWaiting (feed : Nat) : (s.removeCtx feed).probeWaiting = s.probeWaiting := rfl
@[simp] theorem State.removeCtx_waitChecks (feed : Nat) : (s.removeCtx feed).waitChecks = s.waitChecks := rfl
@[simp] theorem State.removeCtx_waitRewrites (feed : Nat) : (s.removeCtx feed).waitRewrites = s.waitRewrites := rfl
@[simp] theorem State.removeCtx_waitMarks (feed : Nat) : (s.removeCtx feed).waitMarks = s.waitMarks := rfl
@[simp] theorem State.removeCtx_lastServed (feed : Nat) : (s.removeCtx feed).lastServed = s.lastServed := rfl
@[simp] theorem State.removeCtx_gathers (feed : Nat) : (s.removeCtx feed).gathers = s.gathers := rfl
@[simp] theorem State.removeCtx_arrived (feed : Nat) : (s.removeCtx feed).arrived = s.arrived := rfl
@[simp] theorem State.removeCtx_storageTx (feed : Nat) : (s.removeCtx feed).storageTx = s.storageTx := rfl
@[simp] theorem State.removeCtx_waitJobs (feed : Nat) : (s.removeCtx feed).waitJobs = s.waitJobs := rfl
@[simp] theorem State.removeCtx_queueJobs (feed : Nat) : (s.removeCtx feed).queueJobs = s.queueJobs := rfl
@[simp] theorem State.removeCtx_shedJobs (feed : Nat) : (s.removeCtx feed).shedJobs = s.shedJobs := rfl
@[simp] theorem State.removeCtx_browseReady (feed : Nat) : (s.removeCtx feed).browseReady = s.browseReady := rfl

/-! `mapPos` -/

@[simp] theorem State.mapPos_pending (feed seq : Nat) (g : Position → Position) : (s.mapPos feed seq g).pending = s.pending := rfl
@[simp] theorem State.mapPos_now (feed seq : Nat) (g : Position → Position) : (s.mapPos feed seq g).now = s.now := rfl
@[simp] theorem State.mapPos_nextUid (feed seq : Nat) (g : Position → Position) : (s.mapPos feed seq g).nextUid = s.nextUid := rfl
@[simp] theorem State.mapPos_draws (feed seq : Nat) (g : Position → Position) : (s.mapPos feed seq g).draws = s.draws := rfl
@[simp] theorem State.mapPos_station (feed seq : Nat) (g : Position → Position) : (s.mapPos feed seq g).station = s.station := rfl
@[simp] theorem State.mapPos_faultReason (feed seq : Nat) (g : Position → Position) : (s.mapPos feed seq g).faultReason = s.faultReason := rfl
@[simp] theorem State.mapPos_settings (feed seq : Nat) (g : Position → Position) : (s.mapPos feed seq g).settings = s.settings := rfl
@[simp] theorem State.mapPos_clamped (feed seq : Nat) (g : Position → Position) : (s.mapPos feed seq g).clamped = s.clamped := rfl
@[simp] theorem State.mapPos_confMem (feed seq : Nat) (g : Position → Position) : (s.mapPos feed seq g).confMem = s.confMem := rfl
@[simp] theorem State.mapPos_recordWrite (feed seq : Nat) (g : Position → Position) : (s.mapPos feed seq g).recordWrite = s.recordWrite := rfl
@[simp] theorem State.mapPos_maintAnswers (feed seq : Nat) (g : Position → Position) : (s.mapPos feed seq g).maintAnswers = s.maintAnswers := rfl
@[simp] theorem State.mapPos_maintTx (feed seq : Nat) (g : Position → Position) : (s.mapPos feed seq g).maintTx = s.maintTx := rfl
@[simp] theorem State.mapPos_listenUntil (feed seq : Nat) (g : Position → Position) : (s.mapPos feed seq g).listenUntil = s.listenUntil := rfl
@[simp] theorem State.mapPos_linkUp (feed seq : Nat) (g : Position → Position) : (s.mapPos feed seq g).linkUp = s.linkUp := rfl
@[simp] theorem State.mapPos_beaconTimer (feed seq : Nat) (g : Position → Position) : (s.mapPos feed seq g).beaconTimer = s.beaconTimer := rfl
@[simp] theorem State.mapPos_beaconWaiting (feed seq : Nat) (g : Position → Position) : (s.mapPos feed seq g).beaconWaiting = s.beaconWaiting := rfl
@[simp] theorem State.mapPos_askQueue (feed seq : Nat) (g : Position → Position) : (s.mapPos feed seq g).askQueue = s.askQueue := rfl
@[simp] theorem State.mapPos_mendQueue (feed seq : Nat) (g : Position → Position) : (s.mapPos feed seq g).mendQueue = s.mendQueue := rfl
@[simp] theorem State.mapPos_captureTx (feed seq : Nat) (g : Position → Position) : (s.mapPos feed seq g).captureTx = s.captureTx := rfl
@[simp] theorem State.mapPos_counters (feed seq : Nat) (g : Position → Position) : (s.mapPos feed seq g).counters = s.counters := rfl
@[simp] theorem State.mapPos_dupNumber (feed seq : Nat) (g : Position → Position) : (s.mapPos feed seq g).dupNumber = s.dupNumber := rfl
@[simp] theorem State.mapPos_peers (feed seq : Nat) (g : Position → Position) : (s.mapPos feed seq g).peers = s.peers := rfl
@[simp] theorem State.mapPos_adopted (feed seq : Nat) (g : Position → Position) : (s.mapPos feed seq g).adopted = s.adopted := rfl
@[simp] theorem State.mapPos_closedIds (feed seq : Nat) (g : Position → Position) : (s.mapPos feed seq g).closedIds = s.closedIds := rfl
@[simp] theorem State.mapPos_lastRefusal (feed seq : Nat) (g : Position → Position) : (s.mapPos feed seq g).lastRefusal = s.lastRefusal := rfl
@[simp] theorem State.mapPos_ring (feed seq : Nat) (g : Position → Position) : (s.mapPos feed seq g).ring = s.ring := rfl
@[simp] theorem State.mapPos_answers (feed seq : Nat) (g : Position → Position) : (s.mapPos feed seq g).answers = s.answers := rfl
@[simp] theorem State.mapPos_table (feed seq : Nat) (g : Position → Position) : (s.mapPos feed seq g).table = s.table := rfl
@[simp] theorem State.mapPos_quietUntil (feed seq : Nat) (g : Position → Position) : (s.mapPos feed seq g).quietUntil = s.quietUntil := rfl
@[simp] theorem State.mapPos_localHold (feed seq : Nat) (g : Position → Position) : (s.mapPos feed seq g).localHold = s.localHold := rfl
@[simp] theorem State.mapPos_timeoutRun (feed seq : Nat) (g : Position → Position) : (s.mapPos feed seq g).timeoutRun = s.timeoutRun := rfl
@[simp] theorem State.mapPos_probeTimer (feed seq : Nat) (g : Position → Position) : (s.mapPos feed seq g).probeTimer = s.probeTimer := rfl
@[simp] theorem State.mapPos_probeWaiting (feed seq : Nat) (g : Position → Position) : (s.mapPos feed seq g).probeWaiting = s.probeWaiting := rfl
@[simp] theorem State.mapPos_waitChecks (feed seq : Nat) (g : Position → Position) : (s.mapPos feed seq g).waitChecks = s.waitChecks := rfl
@[simp] theorem State.mapPos_waitRewrites (feed seq : Nat) (g : Position → Position) : (s.mapPos feed seq g).waitRewrites = s.waitRewrites := rfl
@[simp] theorem State.mapPos_waitMarks (feed seq : Nat) (g : Position → Position) : (s.mapPos feed seq g).waitMarks = s.waitMarks := rfl
@[simp] theorem State.mapPos_lastServed (feed seq : Nat) (g : Position → Position) : (s.mapPos feed seq g).lastServed = s.lastServed := rfl
@[simp] theorem State.mapPos_gathers (feed seq : Nat) (g : Position → Position) : (s.mapPos feed seq g).gathers = s.gathers := rfl
@[simp] theorem State.mapPos_arrived (feed seq : Nat) (g : Position → Position) : (s.mapPos feed seq g).arrived = s.arrived := rfl
@[simp] theorem State.mapPos_storageTx (feed seq : Nat) (g : Position → Position) : (s.mapPos feed seq g).storageTx = s.storageTx := rfl
@[simp] theorem State.mapPos_waitJobs (feed seq : Nat) (g : Position → Position) : (s.mapPos feed seq g).waitJobs = s.waitJobs := rfl
@[simp] theorem State.mapPos_queueJobs (feed seq : Nat) (g : Position → Position) : (s.mapPos feed seq g).queueJobs = s.queueJobs := rfl
@[simp] theorem State.mapPos_shedJobs (feed seq : Nat) (g : Position → Position) : (s.mapPos feed seq g).shedJobs = s.shedJobs := rfl
@[simp] theorem State.mapPos_browseReady (feed seq : Nat) (g : Position → Position) : (s.mapPos feed seq g).browseReady = s.browseReady := rfl

/-! `mapEntry` -/

@[simp] theorem State.mapEntry_pending (feed seq : Nat) (g : RingEntry → RingEntry) : (s.mapEntry feed seq g).pending = s.pending := rfl
@[simp] theorem State.mapEntry_now (feed seq : Nat) (g : RingEntry → RingEntry) : (s.mapEntry feed seq g).now = s.now := rfl
@[simp] theorem State.mapEntry_nextUid (feed seq : Nat) (g : RingEntry → RingEntry) : (s.mapEntry feed seq g).nextUid = s.nextUid := rfl
@[simp] theorem State.mapEntry_draws (feed seq : Nat) (g : RingEntry → RingEntry) : (s.mapEntry feed seq g).draws = s.draws := rfl
@[simp] theorem State.mapEntry_station (feed seq : Nat) (g : RingEntry → RingEntry) : (s.mapEntry feed seq g).station = s.station := rfl
@[simp] theorem State.mapEntry_faultReason (feed seq : Nat) (g : RingEntry → RingEntry) : (s.mapEntry feed seq g).faultReason = s.faultReason := rfl
@[simp] theorem State.mapEntry_settings (feed seq : Nat) (g : RingEntry → RingEntry) : (s.mapEntry feed seq g).settings = s.settings := rfl
@[simp] theorem State.mapEntry_clamped (feed seq : Nat) (g : RingEntry → RingEntry) : (s.mapEntry feed seq g).clamped = s.clamped := rfl
@[simp] theorem State.mapEntry_confMem (feed seq : Nat) (g : RingEntry → RingEntry) : (s.mapEntry feed seq g).confMem = s.confMem := rfl
@[simp] theorem State.mapEntry_recordWrite (feed seq : Nat) (g : RingEntry → RingEntry) : (s.mapEntry feed seq g).recordWrite = s.recordWrite := rfl
@[simp] theorem State.mapEntry_maintAnswers (feed seq : Nat) (g : RingEntry → RingEntry) : (s.mapEntry feed seq g).maintAnswers = s.maintAnswers := rfl
@[simp] theorem State.mapEntry_maintTx (feed seq : Nat) (g : RingEntry → RingEntry) : (s.mapEntry feed seq g).maintTx = s.maintTx := rfl
@[simp] theorem State.mapEntry_listenUntil (feed seq : Nat) (g : RingEntry → RingEntry) : (s.mapEntry feed seq g).listenUntil = s.listenUntil := rfl
@[simp] theorem State.mapEntry_linkUp (feed seq : Nat) (g : RingEntry → RingEntry) : (s.mapEntry feed seq g).linkUp = s.linkUp := rfl
@[simp] theorem State.mapEntry_beaconTimer (feed seq : Nat) (g : RingEntry → RingEntry) : (s.mapEntry feed seq g).beaconTimer = s.beaconTimer := rfl
@[simp] theorem State.mapEntry_beaconWaiting (feed seq : Nat) (g : RingEntry → RingEntry) : (s.mapEntry feed seq g).beaconWaiting = s.beaconWaiting := rfl
@[simp] theorem State.mapEntry_askQueue (feed seq : Nat) (g : RingEntry → RingEntry) : (s.mapEntry feed seq g).askQueue = s.askQueue := rfl
@[simp] theorem State.mapEntry_mendQueue (feed seq : Nat) (g : RingEntry → RingEntry) : (s.mapEntry feed seq g).mendQueue = s.mendQueue := rfl
@[simp] theorem State.mapEntry_captureTx (feed seq : Nat) (g : RingEntry → RingEntry) : (s.mapEntry feed seq g).captureTx = s.captureTx := rfl
@[simp] theorem State.mapEntry_counters (feed seq : Nat) (g : RingEntry → RingEntry) : (s.mapEntry feed seq g).counters = s.counters := rfl
@[simp] theorem State.mapEntry_dupNumber (feed seq : Nat) (g : RingEntry → RingEntry) : (s.mapEntry feed seq g).dupNumber = s.dupNumber := rfl
@[simp] theorem State.mapEntry_peers (feed seq : Nat) (g : RingEntry → RingEntry) : (s.mapEntry feed seq g).peers = s.peers := rfl
@[simp] theorem State.mapEntry_adopted (feed seq : Nat) (g : RingEntry → RingEntry) : (s.mapEntry feed seq g).adopted = s.adopted := rfl
@[simp] theorem State.mapEntry_contexts (feed seq : Nat) (g : RingEntry → RingEntry) : (s.mapEntry feed seq g).contexts = s.contexts := rfl
@[simp] theorem State.mapEntry_closedIds (feed seq : Nat) (g : RingEntry → RingEntry) : (s.mapEntry feed seq g).closedIds = s.closedIds := rfl
@[simp] theorem State.mapEntry_lastRefusal (feed seq : Nat) (g : RingEntry → RingEntry) : (s.mapEntry feed seq g).lastRefusal = s.lastRefusal := rfl
@[simp] theorem State.mapEntry_answers (feed seq : Nat) (g : RingEntry → RingEntry) : (s.mapEntry feed seq g).answers = s.answers := rfl
@[simp] theorem State.mapEntry_table (feed seq : Nat) (g : RingEntry → RingEntry) : (s.mapEntry feed seq g).table = s.table := rfl
@[simp] theorem State.mapEntry_quietUntil (feed seq : Nat) (g : RingEntry → RingEntry) : (s.mapEntry feed seq g).quietUntil = s.quietUntil := rfl
@[simp] theorem State.mapEntry_localHold (feed seq : Nat) (g : RingEntry → RingEntry) : (s.mapEntry feed seq g).localHold = s.localHold := rfl
@[simp] theorem State.mapEntry_timeoutRun (feed seq : Nat) (g : RingEntry → RingEntry) : (s.mapEntry feed seq g).timeoutRun = s.timeoutRun := rfl
@[simp] theorem State.mapEntry_probeTimer (feed seq : Nat) (g : RingEntry → RingEntry) : (s.mapEntry feed seq g).probeTimer = s.probeTimer := rfl
@[simp] theorem State.mapEntry_probeWaiting (feed seq : Nat) (g : RingEntry → RingEntry) : (s.mapEntry feed seq g).probeWaiting = s.probeWaiting := rfl
@[simp] theorem State.mapEntry_waitChecks (feed seq : Nat) (g : RingEntry → RingEntry) : (s.mapEntry feed seq g).waitChecks = s.waitChecks := rfl
@[simp] theorem State.mapEntry_waitRewrites (feed seq : Nat) (g : RingEntry → RingEntry) : (s.mapEntry feed seq g).waitRewrites = s.waitRewrites := rfl
@[simp] theorem State.mapEntry_waitMarks (feed seq : Nat) (g : RingEntry → RingEntry) : (s.mapEntry feed seq g).waitMarks = s.waitMarks := rfl
@[simp] theorem State.mapEntry_lastServed (feed seq : Nat) (g : RingEntry → RingEntry) : (s.mapEntry feed seq g).lastServed = s.lastServed := rfl
@[simp] theorem State.mapEntry_gathers (feed seq : Nat) (g : RingEntry → RingEntry) : (s.mapEntry feed seq g).gathers = s.gathers := rfl
@[simp] theorem State.mapEntry_arrived (feed seq : Nat) (g : RingEntry → RingEntry) : (s.mapEntry feed seq g).arrived = s.arrived := rfl
@[simp] theorem State.mapEntry_storageTx (feed seq : Nat) (g : RingEntry → RingEntry) : (s.mapEntry feed seq g).storageTx = s.storageTx := rfl
@[simp] theorem State.mapEntry_waitJobs (feed seq : Nat) (g : RingEntry → RingEntry) : (s.mapEntry feed seq g).waitJobs = s.waitJobs := rfl
@[simp] theorem State.mapEntry_queueJobs (feed seq : Nat) (g : RingEntry → RingEntry) : (s.mapEntry feed seq g).queueJobs = s.queueJobs := rfl
@[simp] theorem State.mapEntry_shedJobs (feed seq : Nat) (g : RingEntry → RingEntry) : (s.mapEntry feed seq g).shedJobs = s.shedJobs := rfl
@[simp] theorem State.mapEntry_browseReady (feed seq : Nat) (g : RingEntry → RingEntry) : (s.mapEntry feed seq g).browseReady = s.browseReady := rfl

/-! `dropEntry` -/

@[simp] theorem State.dropEntry_pending (feed seq : Nat) : (s.dropEntry feed seq).pending = s.pending := rfl
@[simp] theorem State.dropEntry_now (feed seq : Nat) : (s.dropEntry feed seq).now = s.now := rfl
@[simp] theorem State.dropEntry_nextUid (feed seq : Nat) : (s.dropEntry feed seq).nextUid = s.nextUid := rfl
@[simp] theorem State.dropEntry_draws (feed seq : Nat) : (s.dropEntry feed seq).draws = s.draws := rfl
@[simp] theorem State.dropEntry_station (feed seq : Nat) : (s.dropEntry feed seq).station = s.station := rfl
@[simp] theorem State.dropEntry_faultReason (feed seq : Nat) : (s.dropEntry feed seq).faultReason = s.faultReason := rfl
@[simp] theorem State.dropEntry_settings (feed seq : Nat) : (s.dropEntry feed seq).settings = s.settings := rfl
@[simp] theorem State.dropEntry_clamped (feed seq : Nat) : (s.dropEntry feed seq).clamped = s.clamped := rfl
@[simp] theorem State.dropEntry_confMem (feed seq : Nat) : (s.dropEntry feed seq).confMem = s.confMem := rfl
@[simp] theorem State.dropEntry_recordWrite (feed seq : Nat) : (s.dropEntry feed seq).recordWrite = s.recordWrite := rfl
@[simp] theorem State.dropEntry_maintAnswers (feed seq : Nat) : (s.dropEntry feed seq).maintAnswers = s.maintAnswers := rfl
@[simp] theorem State.dropEntry_maintTx (feed seq : Nat) : (s.dropEntry feed seq).maintTx = s.maintTx := rfl
@[simp] theorem State.dropEntry_listenUntil (feed seq : Nat) : (s.dropEntry feed seq).listenUntil = s.listenUntil := rfl
@[simp] theorem State.dropEntry_linkUp (feed seq : Nat) : (s.dropEntry feed seq).linkUp = s.linkUp := rfl
@[simp] theorem State.dropEntry_beaconTimer (feed seq : Nat) : (s.dropEntry feed seq).beaconTimer = s.beaconTimer := rfl
@[simp] theorem State.dropEntry_beaconWaiting (feed seq : Nat) : (s.dropEntry feed seq).beaconWaiting = s.beaconWaiting := rfl
@[simp] theorem State.dropEntry_askQueue (feed seq : Nat) : (s.dropEntry feed seq).askQueue = s.askQueue := rfl
@[simp] theorem State.dropEntry_mendQueue (feed seq : Nat) : (s.dropEntry feed seq).mendQueue = s.mendQueue := rfl
@[simp] theorem State.dropEntry_captureTx (feed seq : Nat) : (s.dropEntry feed seq).captureTx = s.captureTx := rfl
@[simp] theorem State.dropEntry_counters (feed seq : Nat) : (s.dropEntry feed seq).counters = s.counters := rfl
@[simp] theorem State.dropEntry_dupNumber (feed seq : Nat) : (s.dropEntry feed seq).dupNumber = s.dupNumber := rfl
@[simp] theorem State.dropEntry_peers (feed seq : Nat) : (s.dropEntry feed seq).peers = s.peers := rfl
@[simp] theorem State.dropEntry_adopted (feed seq : Nat) : (s.dropEntry feed seq).adopted = s.adopted := rfl
@[simp] theorem State.dropEntry_contexts (feed seq : Nat) : (s.dropEntry feed seq).contexts = s.contexts := rfl
@[simp] theorem State.dropEntry_closedIds (feed seq : Nat) : (s.dropEntry feed seq).closedIds = s.closedIds := rfl
@[simp] theorem State.dropEntry_lastRefusal (feed seq : Nat) : (s.dropEntry feed seq).lastRefusal = s.lastRefusal := rfl
@[simp] theorem State.dropEntry_answers (feed seq : Nat) : (s.dropEntry feed seq).answers = s.answers := rfl
@[simp] theorem State.dropEntry_table (feed seq : Nat) : (s.dropEntry feed seq).table = s.table := rfl
@[simp] theorem State.dropEntry_quietUntil (feed seq : Nat) : (s.dropEntry feed seq).quietUntil = s.quietUntil := rfl
@[simp] theorem State.dropEntry_localHold (feed seq : Nat) : (s.dropEntry feed seq).localHold = s.localHold := rfl
@[simp] theorem State.dropEntry_timeoutRun (feed seq : Nat) : (s.dropEntry feed seq).timeoutRun = s.timeoutRun := rfl
@[simp] theorem State.dropEntry_probeTimer (feed seq : Nat) : (s.dropEntry feed seq).probeTimer = s.probeTimer := rfl
@[simp] theorem State.dropEntry_probeWaiting (feed seq : Nat) : (s.dropEntry feed seq).probeWaiting = s.probeWaiting := rfl
@[simp] theorem State.dropEntry_waitChecks (feed seq : Nat) : (s.dropEntry feed seq).waitChecks = s.waitChecks := rfl
@[simp] theorem State.dropEntry_waitRewrites (feed seq : Nat) : (s.dropEntry feed seq).waitRewrites = s.waitRewrites := rfl
@[simp] theorem State.dropEntry_waitMarks (feed seq : Nat) : (s.dropEntry feed seq).waitMarks = s.waitMarks := rfl
@[simp] theorem State.dropEntry_lastServed (feed seq : Nat) : (s.dropEntry feed seq).lastServed = s.lastServed := rfl
@[simp] theorem State.dropEntry_gathers (feed seq : Nat) : (s.dropEntry feed seq).gathers = s.gathers := rfl
@[simp] theorem State.dropEntry_arrived (feed seq : Nat) : (s.dropEntry feed seq).arrived = s.arrived := rfl
@[simp] theorem State.dropEntry_storageTx (feed seq : Nat) : (s.dropEntry feed seq).storageTx = s.storageTx := rfl
@[simp] theorem State.dropEntry_waitJobs (feed seq : Nat) : (s.dropEntry feed seq).waitJobs = s.waitJobs := rfl
@[simp] theorem State.dropEntry_queueJobs (feed seq : Nat) : (s.dropEntry feed seq).queueJobs = s.queueJobs := rfl
@[simp] theorem State.dropEntry_shedJobs (feed seq : Nat) : (s.dropEntry feed seq).shedJobs = s.shedJobs := rfl
@[simp] theorem State.dropEntry_browseReady (feed seq : Nat) : (s.dropEntry feed seq).browseReady = s.browseReady := rfl

/-! `pin` -/

@[simp] theorem State.pin_pending (feed seq : Nat) : (s.pin feed seq).pending = s.pending := rfl
@[simp] theorem State.pin_now (feed seq : Nat) : (s.pin feed seq).now = s.now := rfl
@[simp] theorem State.pin_nextUid (feed seq : Nat) : (s.pin feed seq).nextUid = s.nextUid := rfl
@[simp] theorem State.pin_draws (feed seq : Nat) : (s.pin feed seq).draws = s.draws := rfl
@[simp] theorem State.pin_station (feed seq : Nat) : (s.pin feed seq).station = s.station := rfl
@[simp] theorem State.pin_faultReason (feed seq : Nat) : (s.pin feed seq).faultReason = s.faultReason := rfl
@[simp] theorem State.pin_settings (feed seq : Nat) : (s.pin feed seq).settings = s.settings := rfl
@[simp] theorem State.pin_clamped (feed seq : Nat) : (s.pin feed seq).clamped = s.clamped := rfl
@[simp] theorem State.pin_confMem (feed seq : Nat) : (s.pin feed seq).confMem = s.confMem := rfl
@[simp] theorem State.pin_recordWrite (feed seq : Nat) : (s.pin feed seq).recordWrite = s.recordWrite := rfl
@[simp] theorem State.pin_maintAnswers (feed seq : Nat) : (s.pin feed seq).maintAnswers = s.maintAnswers := rfl
@[simp] theorem State.pin_maintTx (feed seq : Nat) : (s.pin feed seq).maintTx = s.maintTx := rfl
@[simp] theorem State.pin_listenUntil (feed seq : Nat) : (s.pin feed seq).listenUntil = s.listenUntil := rfl
@[simp] theorem State.pin_linkUp (feed seq : Nat) : (s.pin feed seq).linkUp = s.linkUp := rfl
@[simp] theorem State.pin_beaconTimer (feed seq : Nat) : (s.pin feed seq).beaconTimer = s.beaconTimer := rfl
@[simp] theorem State.pin_beaconWaiting (feed seq : Nat) : (s.pin feed seq).beaconWaiting = s.beaconWaiting := rfl
@[simp] theorem State.pin_askQueue (feed seq : Nat) : (s.pin feed seq).askQueue = s.askQueue := rfl
@[simp] theorem State.pin_mendQueue (feed seq : Nat) : (s.pin feed seq).mendQueue = s.mendQueue := rfl
@[simp] theorem State.pin_captureTx (feed seq : Nat) : (s.pin feed seq).captureTx = s.captureTx := rfl
@[simp] theorem State.pin_counters (feed seq : Nat) : (s.pin feed seq).counters = s.counters := rfl
@[simp] theorem State.pin_dupNumber (feed seq : Nat) : (s.pin feed seq).dupNumber = s.dupNumber := rfl
@[simp] theorem State.pin_peers (feed seq : Nat) : (s.pin feed seq).peers = s.peers := rfl
@[simp] theorem State.pin_adopted (feed seq : Nat) : (s.pin feed seq).adopted = s.adopted := rfl
@[simp] theorem State.pin_contexts (feed seq : Nat) : (s.pin feed seq).contexts = s.contexts := rfl
@[simp] theorem State.pin_closedIds (feed seq : Nat) : (s.pin feed seq).closedIds = s.closedIds := rfl
@[simp] theorem State.pin_lastRefusal (feed seq : Nat) : (s.pin feed seq).lastRefusal = s.lastRefusal := rfl
@[simp] theorem State.pin_answers (feed seq : Nat) : (s.pin feed seq).answers = s.answers := rfl
@[simp] theorem State.pin_table (feed seq : Nat) : (s.pin feed seq).table = s.table := rfl
@[simp] theorem State.pin_quietUntil (feed seq : Nat) : (s.pin feed seq).quietUntil = s.quietUntil := rfl
@[simp] theorem State.pin_localHold (feed seq : Nat) : (s.pin feed seq).localHold = s.localHold := rfl
@[simp] theorem State.pin_timeoutRun (feed seq : Nat) : (s.pin feed seq).timeoutRun = s.timeoutRun := rfl
@[simp] theorem State.pin_probeTimer (feed seq : Nat) : (s.pin feed seq).probeTimer = s.probeTimer := rfl
@[simp] theorem State.pin_probeWaiting (feed seq : Nat) : (s.pin feed seq).probeWaiting = s.probeWaiting := rfl
@[simp] theorem State.pin_waitChecks (feed seq : Nat) : (s.pin feed seq).waitChecks = s.waitChecks := rfl
@[simp] theorem State.pin_waitRewrites (feed seq : Nat) : (s.pin feed seq).waitRewrites = s.waitRewrites := rfl
@[simp] theorem State.pin_waitMarks (feed seq : Nat) : (s.pin feed seq).waitMarks = s.waitMarks := rfl
@[simp] theorem State.pin_lastServed (feed seq : Nat) : (s.pin feed seq).lastServed = s.lastServed := rfl
@[simp] theorem State.pin_gathers (feed seq : Nat) : (s.pin feed seq).gathers = s.gathers := rfl
@[simp] theorem State.pin_arrived (feed seq : Nat) : (s.pin feed seq).arrived = s.arrived := rfl
@[simp] theorem State.pin_storageTx (feed seq : Nat) : (s.pin feed seq).storageTx = s.storageTx := rfl
@[simp] theorem State.pin_waitJobs (feed seq : Nat) : (s.pin feed seq).waitJobs = s.waitJobs := rfl
@[simp] theorem State.pin_queueJobs (feed seq : Nat) : (s.pin feed seq).queueJobs = s.queueJobs := rfl
@[simp] theorem State.pin_shedJobs (feed seq : Nat) : (s.pin feed seq).shedJobs = s.shedJobs := rfl
@[simp] theorem State.pin_browseReady (feed seq : Nat) : (s.pin feed seq).browseReady = s.browseReady := rfl

/-! `unpin` -/

@[simp] theorem State.unpin_pending (feed seq : Nat) : (s.unpin feed seq).pending = s.pending := rfl
@[simp] theorem State.unpin_now (feed seq : Nat) : (s.unpin feed seq).now = s.now := rfl
@[simp] theorem State.unpin_nextUid (feed seq : Nat) : (s.unpin feed seq).nextUid = s.nextUid := rfl
@[simp] theorem State.unpin_draws (feed seq : Nat) : (s.unpin feed seq).draws = s.draws := rfl
@[simp] theorem State.unpin_station (feed seq : Nat) : (s.unpin feed seq).station = s.station := rfl
@[simp] theorem State.unpin_faultReason (feed seq : Nat) : (s.unpin feed seq).faultReason = s.faultReason := rfl
@[simp] theorem State.unpin_settings (feed seq : Nat) : (s.unpin feed seq).settings = s.settings := rfl
@[simp] theorem State.unpin_clamped (feed seq : Nat) : (s.unpin feed seq).clamped = s.clamped := rfl
@[simp] theorem State.unpin_confMem (feed seq : Nat) : (s.unpin feed seq).confMem = s.confMem := rfl
@[simp] theorem State.unpin_recordWrite (feed seq : Nat) : (s.unpin feed seq).recordWrite = s.recordWrite := rfl
@[simp] theorem State.unpin_maintAnswers (feed seq : Nat) : (s.unpin feed seq).maintAnswers = s.maintAnswers := rfl
@[simp] theorem State.unpin_maintTx (feed seq : Nat) : (s.unpin feed seq).maintTx = s.maintTx := rfl
@[simp] theorem State.unpin_listenUntil (feed seq : Nat) : (s.unpin feed seq).listenUntil = s.listenUntil := rfl
@[simp] theorem State.unpin_linkUp (feed seq : Nat) : (s.unpin feed seq).linkUp = s.linkUp := rfl
@[simp] theorem State.unpin_beaconTimer (feed seq : Nat) : (s.unpin feed seq).beaconTimer = s.beaconTimer := rfl
@[simp] theorem State.unpin_beaconWaiting (feed seq : Nat) : (s.unpin feed seq).beaconWaiting = s.beaconWaiting := rfl
@[simp] theorem State.unpin_askQueue (feed seq : Nat) : (s.unpin feed seq).askQueue = s.askQueue := rfl
@[simp] theorem State.unpin_mendQueue (feed seq : Nat) : (s.unpin feed seq).mendQueue = s.mendQueue := rfl
@[simp] theorem State.unpin_captureTx (feed seq : Nat) : (s.unpin feed seq).captureTx = s.captureTx := rfl
@[simp] theorem State.unpin_counters (feed seq : Nat) : (s.unpin feed seq).counters = s.counters := rfl
@[simp] theorem State.unpin_dupNumber (feed seq : Nat) : (s.unpin feed seq).dupNumber = s.dupNumber := rfl
@[simp] theorem State.unpin_peers (feed seq : Nat) : (s.unpin feed seq).peers = s.peers := rfl
@[simp] theorem State.unpin_adopted (feed seq : Nat) : (s.unpin feed seq).adopted = s.adopted := rfl
@[simp] theorem State.unpin_contexts (feed seq : Nat) : (s.unpin feed seq).contexts = s.contexts := rfl
@[simp] theorem State.unpin_closedIds (feed seq : Nat) : (s.unpin feed seq).closedIds = s.closedIds := rfl
@[simp] theorem State.unpin_lastRefusal (feed seq : Nat) : (s.unpin feed seq).lastRefusal = s.lastRefusal := rfl
@[simp] theorem State.unpin_answers (feed seq : Nat) : (s.unpin feed seq).answers = s.answers := rfl
@[simp] theorem State.unpin_table (feed seq : Nat) : (s.unpin feed seq).table = s.table := rfl
@[simp] theorem State.unpin_quietUntil (feed seq : Nat) : (s.unpin feed seq).quietUntil = s.quietUntil := rfl
@[simp] theorem State.unpin_localHold (feed seq : Nat) : (s.unpin feed seq).localHold = s.localHold := rfl
@[simp] theorem State.unpin_timeoutRun (feed seq : Nat) : (s.unpin feed seq).timeoutRun = s.timeoutRun := rfl
@[simp] theorem State.unpin_probeTimer (feed seq : Nat) : (s.unpin feed seq).probeTimer = s.probeTimer := rfl
@[simp] theorem State.unpin_probeWaiting (feed seq : Nat) : (s.unpin feed seq).probeWaiting = s.probeWaiting := rfl
@[simp] theorem State.unpin_waitChecks (feed seq : Nat) : (s.unpin feed seq).waitChecks = s.waitChecks := rfl
@[simp] theorem State.unpin_waitRewrites (feed seq : Nat) : (s.unpin feed seq).waitRewrites = s.waitRewrites := rfl
@[simp] theorem State.unpin_waitMarks (feed seq : Nat) : (s.unpin feed seq).waitMarks = s.waitMarks := rfl
@[simp] theorem State.unpin_lastServed (feed seq : Nat) : (s.unpin feed seq).lastServed = s.lastServed := rfl
@[simp] theorem State.unpin_gathers (feed seq : Nat) : (s.unpin feed seq).gathers = s.gathers := rfl
@[simp] theorem State.unpin_arrived (feed seq : Nat) : (s.unpin feed seq).arrived = s.arrived := rfl
@[simp] theorem State.unpin_storageTx (feed seq : Nat) : (s.unpin feed seq).storageTx = s.storageTx := rfl
@[simp] theorem State.unpin_waitJobs (feed seq : Nat) : (s.unpin feed seq).waitJobs = s.waitJobs := rfl
@[simp] theorem State.unpin_queueJobs (feed seq : Nat) : (s.unpin feed seq).queueJobs = s.queueJobs := rfl
@[simp] theorem State.unpin_shedJobs (feed seq : Nat) : (s.unpin feed seq).shedJobs = s.shedJobs := rfl
@[simp] theorem State.unpin_browseReady (feed seq : Nat) : (s.unpin feed seq).browseReady = s.browseReady := rfl

/-! `withdrawAsk` -/

@[simp] theorem State.withdrawAsk_pending (feed seq : Nat) : (s.withdrawAsk feed seq).pending = s.pending := rfl
@[simp] theorem State.withdrawAsk_now (feed seq : Nat) : (s.withdrawAsk feed seq).now = s.now := rfl
@[simp] theorem State.withdrawAsk_nextUid (feed seq : Nat) : (s.withdrawAsk feed seq).nextUid = s.nextUid := rfl
@[simp] theorem State.withdrawAsk_draws (feed seq : Nat) : (s.withdrawAsk feed seq).draws = s.draws := rfl
@[simp] theorem State.withdrawAsk_station (feed seq : Nat) : (s.withdrawAsk feed seq).station = s.station := rfl
@[simp] theorem State.withdrawAsk_faultReason (feed seq : Nat) : (s.withdrawAsk feed seq).faultReason = s.faultReason := rfl
@[simp] theorem State.withdrawAsk_settings (feed seq : Nat) : (s.withdrawAsk feed seq).settings = s.settings := rfl
@[simp] theorem State.withdrawAsk_clamped (feed seq : Nat) : (s.withdrawAsk feed seq).clamped = s.clamped := rfl
@[simp] theorem State.withdrawAsk_confMem (feed seq : Nat) : (s.withdrawAsk feed seq).confMem = s.confMem := rfl
@[simp] theorem State.withdrawAsk_recordWrite (feed seq : Nat) : (s.withdrawAsk feed seq).recordWrite = s.recordWrite := rfl
@[simp] theorem State.withdrawAsk_maintAnswers (feed seq : Nat) : (s.withdrawAsk feed seq).maintAnswers = s.maintAnswers := rfl
@[simp] theorem State.withdrawAsk_maintTx (feed seq : Nat) : (s.withdrawAsk feed seq).maintTx = s.maintTx := rfl
@[simp] theorem State.withdrawAsk_listenUntil (feed seq : Nat) : (s.withdrawAsk feed seq).listenUntil = s.listenUntil := rfl
@[simp] theorem State.withdrawAsk_linkUp (feed seq : Nat) : (s.withdrawAsk feed seq).linkUp = s.linkUp := rfl
@[simp] theorem State.withdrawAsk_beaconTimer (feed seq : Nat) : (s.withdrawAsk feed seq).beaconTimer = s.beaconTimer := rfl
@[simp] theorem State.withdrawAsk_beaconWaiting (feed seq : Nat) : (s.withdrawAsk feed seq).beaconWaiting = s.beaconWaiting := rfl
@[simp] theorem State.withdrawAsk_mendQueue (feed seq : Nat) : (s.withdrawAsk feed seq).mendQueue = s.mendQueue := rfl
@[simp] theorem State.withdrawAsk_captureTx (feed seq : Nat) : (s.withdrawAsk feed seq).captureTx = s.captureTx := rfl
@[simp] theorem State.withdrawAsk_counters (feed seq : Nat) : (s.withdrawAsk feed seq).counters = s.counters := rfl
@[simp] theorem State.withdrawAsk_dupNumber (feed seq : Nat) : (s.withdrawAsk feed seq).dupNumber = s.dupNumber := rfl
@[simp] theorem State.withdrawAsk_peers (feed seq : Nat) : (s.withdrawAsk feed seq).peers = s.peers := rfl
@[simp] theorem State.withdrawAsk_adopted (feed seq : Nat) : (s.withdrawAsk feed seq).adopted = s.adopted := rfl
@[simp] theorem State.withdrawAsk_contexts (feed seq : Nat) : (s.withdrawAsk feed seq).contexts = s.contexts := rfl
@[simp] theorem State.withdrawAsk_closedIds (feed seq : Nat) : (s.withdrawAsk feed seq).closedIds = s.closedIds := rfl
@[simp] theorem State.withdrawAsk_lastRefusal (feed seq : Nat) : (s.withdrawAsk feed seq).lastRefusal = s.lastRefusal := rfl
@[simp] theorem State.withdrawAsk_ring (feed seq : Nat) : (s.withdrawAsk feed seq).ring = s.ring := rfl
@[simp] theorem State.withdrawAsk_answers (feed seq : Nat) : (s.withdrawAsk feed seq).answers = s.answers := rfl
@[simp] theorem State.withdrawAsk_table (feed seq : Nat) : (s.withdrawAsk feed seq).table = s.table := rfl
@[simp] theorem State.withdrawAsk_quietUntil (feed seq : Nat) : (s.withdrawAsk feed seq).quietUntil = s.quietUntil := rfl
@[simp] theorem State.withdrawAsk_localHold (feed seq : Nat) : (s.withdrawAsk feed seq).localHold = s.localHold := rfl
@[simp] theorem State.withdrawAsk_timeoutRun (feed seq : Nat) : (s.withdrawAsk feed seq).timeoutRun = s.timeoutRun := rfl
@[simp] theorem State.withdrawAsk_probeTimer (feed seq : Nat) : (s.withdrawAsk feed seq).probeTimer = s.probeTimer := rfl
@[simp] theorem State.withdrawAsk_probeWaiting (feed seq : Nat) : (s.withdrawAsk feed seq).probeWaiting = s.probeWaiting := rfl
@[simp] theorem State.withdrawAsk_waitChecks (feed seq : Nat) : (s.withdrawAsk feed seq).waitChecks = s.waitChecks := rfl
@[simp] theorem State.withdrawAsk_waitRewrites (feed seq : Nat) : (s.withdrawAsk feed seq).waitRewrites = s.waitRewrites := rfl
@[simp] theorem State.withdrawAsk_waitMarks (feed seq : Nat) : (s.withdrawAsk feed seq).waitMarks = s.waitMarks := rfl
@[simp] theorem State.withdrawAsk_lastServed (feed seq : Nat) : (s.withdrawAsk feed seq).lastServed = s.lastServed := rfl
@[simp] theorem State.withdrawAsk_gathers (feed seq : Nat) : (s.withdrawAsk feed seq).gathers = s.gathers := rfl
@[simp] theorem State.withdrawAsk_arrived (feed seq : Nat) : (s.withdrawAsk feed seq).arrived = s.arrived := rfl
@[simp] theorem State.withdrawAsk_storageTx (feed seq : Nat) : (s.withdrawAsk feed seq).storageTx = s.storageTx := rfl
@[simp] theorem State.withdrawAsk_waitJobs (feed seq : Nat) : (s.withdrawAsk feed seq).waitJobs = s.waitJobs := rfl
@[simp] theorem State.withdrawAsk_queueJobs (feed seq : Nat) : (s.withdrawAsk feed seq).queueJobs = s.queueJobs := rfl
@[simp] theorem State.withdrawAsk_shedJobs (feed seq : Nat) : (s.withdrawAsk feed seq).shedJobs = s.shedJobs := rfl
@[simp] theorem State.withdrawAsk_browseReady (feed seq : Nat) : (s.withdrawAsk feed seq).browseReady = s.browseReady := rfl

/-! `setEntry` -/

@[simp] theorem State.setEntry_pending (t : Fin 16) (x : TableEntry) : (s.setEntry t x).pending = s.pending := rfl
@[simp] theorem State.setEntry_now (t : Fin 16) (x : TableEntry) : (s.setEntry t x).now = s.now := rfl
@[simp] theorem State.setEntry_nextUid (t : Fin 16) (x : TableEntry) : (s.setEntry t x).nextUid = s.nextUid := rfl
@[simp] theorem State.setEntry_draws (t : Fin 16) (x : TableEntry) : (s.setEntry t x).draws = s.draws := rfl
@[simp] theorem State.setEntry_station (t : Fin 16) (x : TableEntry) : (s.setEntry t x).station = s.station := rfl
@[simp] theorem State.setEntry_faultReason (t : Fin 16) (x : TableEntry) : (s.setEntry t x).faultReason = s.faultReason := rfl
@[simp] theorem State.setEntry_settings (t : Fin 16) (x : TableEntry) : (s.setEntry t x).settings = s.settings := rfl
@[simp] theorem State.setEntry_clamped (t : Fin 16) (x : TableEntry) : (s.setEntry t x).clamped = s.clamped := rfl
@[simp] theorem State.setEntry_confMem (t : Fin 16) (x : TableEntry) : (s.setEntry t x).confMem = s.confMem := rfl
@[simp] theorem State.setEntry_recordWrite (t : Fin 16) (x : TableEntry) : (s.setEntry t x).recordWrite = s.recordWrite := rfl
@[simp] theorem State.setEntry_maintAnswers (t : Fin 16) (x : TableEntry) : (s.setEntry t x).maintAnswers = s.maintAnswers := rfl
@[simp] theorem State.setEntry_maintTx (t : Fin 16) (x : TableEntry) : (s.setEntry t x).maintTx = s.maintTx := rfl
@[simp] theorem State.setEntry_listenUntil (t : Fin 16) (x : TableEntry) : (s.setEntry t x).listenUntil = s.listenUntil := rfl
@[simp] theorem State.setEntry_linkUp (t : Fin 16) (x : TableEntry) : (s.setEntry t x).linkUp = s.linkUp := rfl
@[simp] theorem State.setEntry_beaconTimer (t : Fin 16) (x : TableEntry) : (s.setEntry t x).beaconTimer = s.beaconTimer := rfl
@[simp] theorem State.setEntry_beaconWaiting (t : Fin 16) (x : TableEntry) : (s.setEntry t x).beaconWaiting = s.beaconWaiting := rfl
@[simp] theorem State.setEntry_askQueue (t : Fin 16) (x : TableEntry) : (s.setEntry t x).askQueue = s.askQueue := rfl
@[simp] theorem State.setEntry_mendQueue (t : Fin 16) (x : TableEntry) : (s.setEntry t x).mendQueue = s.mendQueue := rfl
@[simp] theorem State.setEntry_captureTx (t : Fin 16) (x : TableEntry) : (s.setEntry t x).captureTx = s.captureTx := rfl
@[simp] theorem State.setEntry_counters (t : Fin 16) (x : TableEntry) : (s.setEntry t x).counters = s.counters := rfl
@[simp] theorem State.setEntry_dupNumber (t : Fin 16) (x : TableEntry) : (s.setEntry t x).dupNumber = s.dupNumber := rfl
@[simp] theorem State.setEntry_peers (t : Fin 16) (x : TableEntry) : (s.setEntry t x).peers = s.peers := rfl
@[simp] theorem State.setEntry_adopted (t : Fin 16) (x : TableEntry) : (s.setEntry t x).adopted = s.adopted := rfl
@[simp] theorem State.setEntry_contexts (t : Fin 16) (x : TableEntry) : (s.setEntry t x).contexts = s.contexts := rfl
@[simp] theorem State.setEntry_closedIds (t : Fin 16) (x : TableEntry) : (s.setEntry t x).closedIds = s.closedIds := rfl
@[simp] theorem State.setEntry_lastRefusal (t : Fin 16) (x : TableEntry) : (s.setEntry t x).lastRefusal = s.lastRefusal := rfl
@[simp] theorem State.setEntry_ring (t : Fin 16) (x : TableEntry) : (s.setEntry t x).ring = s.ring := rfl
@[simp] theorem State.setEntry_answers (t : Fin 16) (x : TableEntry) : (s.setEntry t x).answers = s.answers := rfl
@[simp] theorem State.setEntry_quietUntil (t : Fin 16) (x : TableEntry) : (s.setEntry t x).quietUntil = s.quietUntil := rfl
@[simp] theorem State.setEntry_localHold (t : Fin 16) (x : TableEntry) : (s.setEntry t x).localHold = s.localHold := rfl
@[simp] theorem State.setEntry_timeoutRun (t : Fin 16) (x : TableEntry) : (s.setEntry t x).timeoutRun = s.timeoutRun := rfl
@[simp] theorem State.setEntry_probeTimer (t : Fin 16) (x : TableEntry) : (s.setEntry t x).probeTimer = s.probeTimer := rfl
@[simp] theorem State.setEntry_probeWaiting (t : Fin 16) (x : TableEntry) : (s.setEntry t x).probeWaiting = s.probeWaiting := rfl
@[simp] theorem State.setEntry_waitChecks (t : Fin 16) (x : TableEntry) : (s.setEntry t x).waitChecks = s.waitChecks := rfl
@[simp] theorem State.setEntry_waitRewrites (t : Fin 16) (x : TableEntry) : (s.setEntry t x).waitRewrites = s.waitRewrites := rfl
@[simp] theorem State.setEntry_waitMarks (t : Fin 16) (x : TableEntry) : (s.setEntry t x).waitMarks = s.waitMarks := rfl
@[simp] theorem State.setEntry_lastServed (t : Fin 16) (x : TableEntry) : (s.setEntry t x).lastServed = s.lastServed := rfl
@[simp] theorem State.setEntry_gathers (t : Fin 16) (x : TableEntry) : (s.setEntry t x).gathers = s.gathers := rfl
@[simp] theorem State.setEntry_arrived (t : Fin 16) (x : TableEntry) : (s.setEntry t x).arrived = s.arrived := rfl
@[simp] theorem State.setEntry_storageTx (t : Fin 16) (x : TableEntry) : (s.setEntry t x).storageTx = s.storageTx := rfl
@[simp] theorem State.setEntry_waitJobs (t : Fin 16) (x : TableEntry) : (s.setEntry t x).waitJobs = s.waitJobs := rfl
@[simp] theorem State.setEntry_queueJobs (t : Fin 16) (x : TableEntry) : (s.setEntry t x).queueJobs = s.queueJobs := rfl
@[simp] theorem State.setEntry_shedJobs (t : Fin 16) (x : TableEntry) : (s.setEntry t x).shedJobs = s.shedJobs := rfl
@[simp] theorem State.setEntry_browseReady (t : Fin 16) (x : TableEntry) : (s.setEntry t x).browseReady = s.browseReady := rfl

/-! `withdrawWaiting` -/

@[simp] theorem State.withdrawWaiting_pending (feed seq : Nat) : (s.withdrawWaiting feed seq).pending = s.pending := rfl
@[simp] theorem State.withdrawWaiting_now (feed seq : Nat) : (s.withdrawWaiting feed seq).now = s.now := rfl
@[simp] theorem State.withdrawWaiting_nextUid (feed seq : Nat) : (s.withdrawWaiting feed seq).nextUid = s.nextUid := rfl
@[simp] theorem State.withdrawWaiting_draws (feed seq : Nat) : (s.withdrawWaiting feed seq).draws = s.draws := rfl
@[simp] theorem State.withdrawWaiting_station (feed seq : Nat) : (s.withdrawWaiting feed seq).station = s.station := rfl
@[simp] theorem State.withdrawWaiting_faultReason (feed seq : Nat) : (s.withdrawWaiting feed seq).faultReason = s.faultReason := rfl
@[simp] theorem State.withdrawWaiting_settings (feed seq : Nat) : (s.withdrawWaiting feed seq).settings = s.settings := rfl
@[simp] theorem State.withdrawWaiting_clamped (feed seq : Nat) : (s.withdrawWaiting feed seq).clamped = s.clamped := rfl
@[simp] theorem State.withdrawWaiting_confMem (feed seq : Nat) : (s.withdrawWaiting feed seq).confMem = s.confMem := rfl
@[simp] theorem State.withdrawWaiting_recordWrite (feed seq : Nat) : (s.withdrawWaiting feed seq).recordWrite = s.recordWrite := rfl
@[simp] theorem State.withdrawWaiting_maintAnswers (feed seq : Nat) : (s.withdrawWaiting feed seq).maintAnswers = s.maintAnswers := rfl
@[simp] theorem State.withdrawWaiting_maintTx (feed seq : Nat) : (s.withdrawWaiting feed seq).maintTx = s.maintTx := rfl
@[simp] theorem State.withdrawWaiting_listenUntil (feed seq : Nat) : (s.withdrawWaiting feed seq).listenUntil = s.listenUntil := rfl
@[simp] theorem State.withdrawWaiting_linkUp (feed seq : Nat) : (s.withdrawWaiting feed seq).linkUp = s.linkUp := rfl
@[simp] theorem State.withdrawWaiting_beaconTimer (feed seq : Nat) : (s.withdrawWaiting feed seq).beaconTimer = s.beaconTimer := rfl
@[simp] theorem State.withdrawWaiting_beaconWaiting (feed seq : Nat) : (s.withdrawWaiting feed seq).beaconWaiting = s.beaconWaiting := rfl
@[simp] theorem State.withdrawWaiting_askQueue (feed seq : Nat) : (s.withdrawWaiting feed seq).askQueue = s.askQueue := rfl
@[simp] theorem State.withdrawWaiting_mendQueue (feed seq : Nat) : (s.withdrawWaiting feed seq).mendQueue = s.mendQueue := rfl
@[simp] theorem State.withdrawWaiting_captureTx (feed seq : Nat) : (s.withdrawWaiting feed seq).captureTx = s.captureTx := rfl
@[simp] theorem State.withdrawWaiting_counters (feed seq : Nat) : (s.withdrawWaiting feed seq).counters = s.counters := rfl
@[simp] theorem State.withdrawWaiting_dupNumber (feed seq : Nat) : (s.withdrawWaiting feed seq).dupNumber = s.dupNumber := rfl
@[simp] theorem State.withdrawWaiting_peers (feed seq : Nat) : (s.withdrawWaiting feed seq).peers = s.peers := rfl
@[simp] theorem State.withdrawWaiting_adopted (feed seq : Nat) : (s.withdrawWaiting feed seq).adopted = s.adopted := rfl
@[simp] theorem State.withdrawWaiting_contexts (feed seq : Nat) : (s.withdrawWaiting feed seq).contexts = s.contexts := rfl
@[simp] theorem State.withdrawWaiting_closedIds (feed seq : Nat) : (s.withdrawWaiting feed seq).closedIds = s.closedIds := rfl
@[simp] theorem State.withdrawWaiting_lastRefusal (feed seq : Nat) : (s.withdrawWaiting feed seq).lastRefusal = s.lastRefusal := rfl
@[simp] theorem State.withdrawWaiting_ring (feed seq : Nat) : (s.withdrawWaiting feed seq).ring = s.ring := rfl
@[simp] theorem State.withdrawWaiting_answers (feed seq : Nat) : (s.withdrawWaiting feed seq).answers = s.answers := rfl
@[simp] theorem State.withdrawWaiting_table (feed seq : Nat) : (s.withdrawWaiting feed seq).table = s.table := rfl
@[simp] theorem State.withdrawWaiting_quietUntil (feed seq : Nat) : (s.withdrawWaiting feed seq).quietUntil = s.quietUntil := rfl
@[simp] theorem State.withdrawWaiting_localHold (feed seq : Nat) : (s.withdrawWaiting feed seq).localHold = s.localHold := rfl
@[simp] theorem State.withdrawWaiting_timeoutRun (feed seq : Nat) : (s.withdrawWaiting feed seq).timeoutRun = s.timeoutRun := rfl
@[simp] theorem State.withdrawWaiting_probeTimer (feed seq : Nat) : (s.withdrawWaiting feed seq).probeTimer = s.probeTimer := rfl
@[simp] theorem State.withdrawWaiting_probeWaiting (feed seq : Nat) : (s.withdrawWaiting feed seq).probeWaiting = s.probeWaiting := rfl
@[simp] theorem State.withdrawWaiting_waitMarks (feed seq : Nat) : (s.withdrawWaiting feed seq).waitMarks = s.waitMarks := rfl
@[simp] theorem State.withdrawWaiting_lastServed (feed seq : Nat) : (s.withdrawWaiting feed seq).lastServed = s.lastServed := rfl
@[simp] theorem State.withdrawWaiting_gathers (feed seq : Nat) : (s.withdrawWaiting feed seq).gathers = s.gathers := rfl
@[simp] theorem State.withdrawWaiting_arrived (feed seq : Nat) : (s.withdrawWaiting feed seq).arrived = s.arrived := rfl
@[simp] theorem State.withdrawWaiting_storageTx (feed seq : Nat) : (s.withdrawWaiting feed seq).storageTx = s.storageTx := rfl
@[simp] theorem State.withdrawWaiting_waitJobs (feed seq : Nat) : (s.withdrawWaiting feed seq).waitJobs = s.waitJobs := rfl
@[simp] theorem State.withdrawWaiting_queueJobs (feed seq : Nat) : (s.withdrawWaiting feed seq).queueJobs = s.queueJobs := rfl
@[simp] theorem State.withdrawWaiting_shedJobs (feed seq : Nat) : (s.withdrawWaiting feed seq).shedJobs = s.shedJobs := rfl
@[simp] theorem State.withdrawWaiting_browseReady (feed seq : Nat) : (s.withdrawWaiting feed seq).browseReady = s.browseReady := rfl

/-! `bumpUid` -/

@[simp] theorem State.bumpUid_pending : (s.bumpUid).pending = s.pending := rfl
@[simp] theorem State.bumpUid_now : (s.bumpUid).now = s.now := rfl
@[simp] theorem State.bumpUid_draws : (s.bumpUid).draws = s.draws := rfl
@[simp] theorem State.bumpUid_station : (s.bumpUid).station = s.station := rfl
@[simp] theorem State.bumpUid_faultReason : (s.bumpUid).faultReason = s.faultReason := rfl
@[simp] theorem State.bumpUid_settings : (s.bumpUid).settings = s.settings := rfl
@[simp] theorem State.bumpUid_clamped : (s.bumpUid).clamped = s.clamped := rfl
@[simp] theorem State.bumpUid_confMem : (s.bumpUid).confMem = s.confMem := rfl
@[simp] theorem State.bumpUid_recordWrite : (s.bumpUid).recordWrite = s.recordWrite := rfl
@[simp] theorem State.bumpUid_maintAnswers : (s.bumpUid).maintAnswers = s.maintAnswers := rfl
@[simp] theorem State.bumpUid_maintTx : (s.bumpUid).maintTx = s.maintTx := rfl
@[simp] theorem State.bumpUid_listenUntil : (s.bumpUid).listenUntil = s.listenUntil := rfl
@[simp] theorem State.bumpUid_linkUp : (s.bumpUid).linkUp = s.linkUp := rfl
@[simp] theorem State.bumpUid_beaconTimer : (s.bumpUid).beaconTimer = s.beaconTimer := rfl
@[simp] theorem State.bumpUid_beaconWaiting : (s.bumpUid).beaconWaiting = s.beaconWaiting := rfl
@[simp] theorem State.bumpUid_askQueue : (s.bumpUid).askQueue = s.askQueue := rfl
@[simp] theorem State.bumpUid_mendQueue : (s.bumpUid).mendQueue = s.mendQueue := rfl
@[simp] theorem State.bumpUid_captureTx : (s.bumpUid).captureTx = s.captureTx := rfl
@[simp] theorem State.bumpUid_counters : (s.bumpUid).counters = s.counters := rfl
@[simp] theorem State.bumpUid_dupNumber : (s.bumpUid).dupNumber = s.dupNumber := rfl
@[simp] theorem State.bumpUid_peers : (s.bumpUid).peers = s.peers := rfl
@[simp] theorem State.bumpUid_adopted : (s.bumpUid).adopted = s.adopted := rfl
@[simp] theorem State.bumpUid_contexts : (s.bumpUid).contexts = s.contexts := rfl
@[simp] theorem State.bumpUid_closedIds : (s.bumpUid).closedIds = s.closedIds := rfl
@[simp] theorem State.bumpUid_lastRefusal : (s.bumpUid).lastRefusal = s.lastRefusal := rfl
@[simp] theorem State.bumpUid_ring : (s.bumpUid).ring = s.ring := rfl
@[simp] theorem State.bumpUid_answers : (s.bumpUid).answers = s.answers := rfl
@[simp] theorem State.bumpUid_table : (s.bumpUid).table = s.table := rfl
@[simp] theorem State.bumpUid_quietUntil : (s.bumpUid).quietUntil = s.quietUntil := rfl
@[simp] theorem State.bumpUid_localHold : (s.bumpUid).localHold = s.localHold := rfl
@[simp] theorem State.bumpUid_timeoutRun : (s.bumpUid).timeoutRun = s.timeoutRun := rfl
@[simp] theorem State.bumpUid_probeTimer : (s.bumpUid).probeTimer = s.probeTimer := rfl
@[simp] theorem State.bumpUid_probeWaiting : (s.bumpUid).probeWaiting = s.probeWaiting := rfl
@[simp] theorem State.bumpUid_waitChecks : (s.bumpUid).waitChecks = s.waitChecks := rfl
@[simp] theorem State.bumpUid_waitRewrites : (s.bumpUid).waitRewrites = s.waitRewrites := rfl
@[simp] theorem State.bumpUid_waitMarks : (s.bumpUid).waitMarks = s.waitMarks := rfl
@[simp] theorem State.bumpUid_lastServed : (s.bumpUid).lastServed = s.lastServed := rfl
@[simp] theorem State.bumpUid_gathers : (s.bumpUid).gathers = s.gathers := rfl
@[simp] theorem State.bumpUid_arrived : (s.bumpUid).arrived = s.arrived := rfl
@[simp] theorem State.bumpUid_storageTx : (s.bumpUid).storageTx = s.storageTx := rfl
@[simp] theorem State.bumpUid_waitJobs : (s.bumpUid).waitJobs = s.waitJobs := rfl
@[simp] theorem State.bumpUid_queueJobs : (s.bumpUid).queueJobs = s.queueJobs := rfl
@[simp] theorem State.bumpUid_shedJobs : (s.bumpUid).shedJobs = s.shedJobs := rfl
@[simp] theorem State.bumpUid_browseReady : (s.bumpUid).browseReady = s.browseReady := rfl

/-! `countAccepted` -/

@[simp] theorem State.countAccepted_pending : (s.countAccepted).pending = s.pending := rfl
@[simp] theorem State.countAccepted_now : (s.countAccepted).now = s.now := rfl
@[simp] theorem State.countAccepted_nextUid : (s.countAccepted).nextUid = s.nextUid := rfl
@[simp] theorem State.countAccepted_draws : (s.countAccepted).draws = s.draws := rfl
@[simp] theorem State.countAccepted_station : (s.countAccepted).station = s.station := rfl
@[simp] theorem State.countAccepted_faultReason : (s.countAccepted).faultReason = s.faultReason := rfl
@[simp] theorem State.countAccepted_settings : (s.countAccepted).settings = s.settings := rfl
@[simp] theorem State.countAccepted_clamped : (s.countAccepted).clamped = s.clamped := rfl
@[simp] theorem State.countAccepted_confMem : (s.countAccepted).confMem = s.confMem := rfl
@[simp] theorem State.countAccepted_recordWrite : (s.countAccepted).recordWrite = s.recordWrite := rfl
@[simp] theorem State.countAccepted_maintAnswers : (s.countAccepted).maintAnswers = s.maintAnswers := rfl
@[simp] theorem State.countAccepted_maintTx : (s.countAccepted).maintTx = s.maintTx := rfl
@[simp] theorem State.countAccepted_listenUntil : (s.countAccepted).listenUntil = s.listenUntil := rfl
@[simp] theorem State.countAccepted_linkUp : (s.countAccepted).linkUp = s.linkUp := rfl
@[simp] theorem State.countAccepted_beaconTimer : (s.countAccepted).beaconTimer = s.beaconTimer := rfl
@[simp] theorem State.countAccepted_beaconWaiting : (s.countAccepted).beaconWaiting = s.beaconWaiting := rfl
@[simp] theorem State.countAccepted_askQueue : (s.countAccepted).askQueue = s.askQueue := rfl
@[simp] theorem State.countAccepted_mendQueue : (s.countAccepted).mendQueue = s.mendQueue := rfl
@[simp] theorem State.countAccepted_captureTx : (s.countAccepted).captureTx = s.captureTx := rfl
@[simp] theorem State.countAccepted_dupNumber : (s.countAccepted).dupNumber = s.dupNumber := rfl
@[simp] theorem State.countAccepted_peers : (s.countAccepted).peers = s.peers := rfl
@[simp] theorem State.countAccepted_adopted : (s.countAccepted).adopted = s.adopted := rfl
@[simp] theorem State.countAccepted_contexts : (s.countAccepted).contexts = s.contexts := rfl
@[simp] theorem State.countAccepted_closedIds : (s.countAccepted).closedIds = s.closedIds := rfl
@[simp] theorem State.countAccepted_lastRefusal : (s.countAccepted).lastRefusal = s.lastRefusal := rfl
@[simp] theorem State.countAccepted_ring : (s.countAccepted).ring = s.ring := rfl
@[simp] theorem State.countAccepted_answers : (s.countAccepted).answers = s.answers := rfl
@[simp] theorem State.countAccepted_table : (s.countAccepted).table = s.table := rfl
@[simp] theorem State.countAccepted_quietUntil : (s.countAccepted).quietUntil = s.quietUntil := rfl
@[simp] theorem State.countAccepted_localHold : (s.countAccepted).localHold = s.localHold := rfl
@[simp] theorem State.countAccepted_timeoutRun : (s.countAccepted).timeoutRun = s.timeoutRun := rfl
@[simp] theorem State.countAccepted_probeTimer : (s.countAccepted).probeTimer = s.probeTimer := rfl
@[simp] theorem State.countAccepted_probeWaiting : (s.countAccepted).probeWaiting = s.probeWaiting := rfl
@[simp] theorem State.countAccepted_waitChecks : (s.countAccepted).waitChecks = s.waitChecks := rfl
@[simp] theorem State.countAccepted_waitRewrites : (s.countAccepted).waitRewrites = s.waitRewrites := rfl
@[simp] theorem State.countAccepted_waitMarks : (s.countAccepted).waitMarks = s.waitMarks := rfl
@[simp] theorem State.countAccepted_lastServed : (s.countAccepted).lastServed = s.lastServed := rfl
@[simp] theorem State.countAccepted_gathers : (s.countAccepted).gathers = s.gathers := rfl
@[simp] theorem State.countAccepted_arrived : (s.countAccepted).arrived = s.arrived := rfl
@[simp] theorem State.countAccepted_storageTx : (s.countAccepted).storageTx = s.storageTx := rfl
@[simp] theorem State.countAccepted_waitJobs : (s.countAccepted).waitJobs = s.waitJobs := rfl
@[simp] theorem State.countAccepted_queueJobs : (s.countAccepted).queueJobs = s.queueJobs := rfl
@[simp] theorem State.countAccepted_shedJobs : (s.countAccepted).shedJobs = s.shedJobs := rfl
@[simp] theorem State.countAccepted_browseReady : (s.countAccepted).browseReady = s.browseReady := rfl

/-! `countMalformed` -/

@[simp] theorem State.countMalformed_pending : (s.countMalformed).pending = s.pending := rfl
@[simp] theorem State.countMalformed_now : (s.countMalformed).now = s.now := rfl
@[simp] theorem State.countMalformed_nextUid : (s.countMalformed).nextUid = s.nextUid := rfl
@[simp] theorem State.countMalformed_draws : (s.countMalformed).draws = s.draws := rfl
@[simp] theorem State.countMalformed_station : (s.countMalformed).station = s.station := rfl
@[simp] theorem State.countMalformed_faultReason : (s.countMalformed).faultReason = s.faultReason := rfl
@[simp] theorem State.countMalformed_settings : (s.countMalformed).settings = s.settings := rfl
@[simp] theorem State.countMalformed_clamped : (s.countMalformed).clamped = s.clamped := rfl
@[simp] theorem State.countMalformed_confMem : (s.countMalformed).confMem = s.confMem := rfl
@[simp] theorem State.countMalformed_recordWrite : (s.countMalformed).recordWrite = s.recordWrite := rfl
@[simp] theorem State.countMalformed_maintAnswers : (s.countMalformed).maintAnswers = s.maintAnswers := rfl
@[simp] theorem State.countMalformed_maintTx : (s.countMalformed).maintTx = s.maintTx := rfl
@[simp] theorem State.countMalformed_listenUntil : (s.countMalformed).listenUntil = s.listenUntil := rfl
@[simp] theorem State.countMalformed_linkUp : (s.countMalformed).linkUp = s.linkUp := rfl
@[simp] theorem State.countMalformed_beaconTimer : (s.countMalformed).beaconTimer = s.beaconTimer := rfl
@[simp] theorem State.countMalformed_beaconWaiting : (s.countMalformed).beaconWaiting = s.beaconWaiting := rfl
@[simp] theorem State.countMalformed_askQueue : (s.countMalformed).askQueue = s.askQueue := rfl
@[simp] theorem State.countMalformed_mendQueue : (s.countMalformed).mendQueue = s.mendQueue := rfl
@[simp] theorem State.countMalformed_captureTx : (s.countMalformed).captureTx = s.captureTx := rfl
@[simp] theorem State.countMalformed_dupNumber : (s.countMalformed).dupNumber = s.dupNumber := rfl
@[simp] theorem State.countMalformed_peers : (s.countMalformed).peers = s.peers := rfl
@[simp] theorem State.countMalformed_adopted : (s.countMalformed).adopted = s.adopted := rfl
@[simp] theorem State.countMalformed_contexts : (s.countMalformed).contexts = s.contexts := rfl
@[simp] theorem State.countMalformed_closedIds : (s.countMalformed).closedIds = s.closedIds := rfl
@[simp] theorem State.countMalformed_lastRefusal : (s.countMalformed).lastRefusal = s.lastRefusal := rfl
@[simp] theorem State.countMalformed_ring : (s.countMalformed).ring = s.ring := rfl
@[simp] theorem State.countMalformed_answers : (s.countMalformed).answers = s.answers := rfl
@[simp] theorem State.countMalformed_table : (s.countMalformed).table = s.table := rfl
@[simp] theorem State.countMalformed_quietUntil : (s.countMalformed).quietUntil = s.quietUntil := rfl
@[simp] theorem State.countMalformed_localHold : (s.countMalformed).localHold = s.localHold := rfl
@[simp] theorem State.countMalformed_timeoutRun : (s.countMalformed).timeoutRun = s.timeoutRun := rfl
@[simp] theorem State.countMalformed_probeTimer : (s.countMalformed).probeTimer = s.probeTimer := rfl
@[simp] theorem State.countMalformed_probeWaiting : (s.countMalformed).probeWaiting = s.probeWaiting := rfl
@[simp] theorem State.countMalformed_waitChecks : (s.countMalformed).waitChecks = s.waitChecks := rfl
@[simp] theorem State.countMalformed_waitRewrites : (s.countMalformed).waitRewrites = s.waitRewrites := rfl
@[simp] theorem State.countMalformed_waitMarks : (s.countMalformed).waitMarks = s.waitMarks := rfl
@[simp] theorem State.countMalformed_lastServed : (s.countMalformed).lastServed = s.lastServed := rfl
@[simp] theorem State.countMalformed_gathers : (s.countMalformed).gathers = s.gathers := rfl
@[simp] theorem State.countMalformed_arrived : (s.countMalformed).arrived = s.arrived := rfl
@[simp] theorem State.countMalformed_storageTx : (s.countMalformed).storageTx = s.storageTx := rfl
@[simp] theorem State.countMalformed_waitJobs : (s.countMalformed).waitJobs = s.waitJobs := rfl
@[simp] theorem State.countMalformed_queueJobs : (s.countMalformed).queueJobs = s.queueJobs := rfl
@[simp] theorem State.countMalformed_shedJobs : (s.countMalformed).shedJobs = s.shedJobs := rfl
@[simp] theorem State.countMalformed_browseReady : (s.countMalformed).browseReady = s.browseReady := rfl

/-! `countMismatch` -/

@[simp] theorem State.countMismatch_pending : (s.countMismatch).pending = s.pending := rfl
@[simp] theorem State.countMismatch_now : (s.countMismatch).now = s.now := rfl
@[simp] theorem State.countMismatch_nextUid : (s.countMismatch).nextUid = s.nextUid := rfl
@[simp] theorem State.countMismatch_draws : (s.countMismatch).draws = s.draws := rfl
@[simp] theorem State.countMismatch_station : (s.countMismatch).station = s.station := rfl
@[simp] theorem State.countMismatch_faultReason : (s.countMismatch).faultReason = s.faultReason := rfl
@[simp] theorem State.countMismatch_settings : (s.countMismatch).settings = s.settings := rfl
@[simp] theorem State.countMismatch_clamped : (s.countMismatch).clamped = s.clamped := rfl
@[simp] theorem State.countMismatch_confMem : (s.countMismatch).confMem = s.confMem := rfl
@[simp] theorem State.countMismatch_recordWrite : (s.countMismatch).recordWrite = s.recordWrite := rfl
@[simp] theorem State.countMismatch_maintAnswers : (s.countMismatch).maintAnswers = s.maintAnswers := rfl
@[simp] theorem State.countMismatch_maintTx : (s.countMismatch).maintTx = s.maintTx := rfl
@[simp] theorem State.countMismatch_listenUntil : (s.countMismatch).listenUntil = s.listenUntil := rfl
@[simp] theorem State.countMismatch_linkUp : (s.countMismatch).linkUp = s.linkUp := rfl
@[simp] theorem State.countMismatch_beaconTimer : (s.countMismatch).beaconTimer = s.beaconTimer := rfl
@[simp] theorem State.countMismatch_beaconWaiting : (s.countMismatch).beaconWaiting = s.beaconWaiting := rfl
@[simp] theorem State.countMismatch_askQueue : (s.countMismatch).askQueue = s.askQueue := rfl
@[simp] theorem State.countMismatch_mendQueue : (s.countMismatch).mendQueue = s.mendQueue := rfl
@[simp] theorem State.countMismatch_captureTx : (s.countMismatch).captureTx = s.captureTx := rfl
@[simp] theorem State.countMismatch_dupNumber : (s.countMismatch).dupNumber = s.dupNumber := rfl
@[simp] theorem State.countMismatch_peers : (s.countMismatch).peers = s.peers := rfl
@[simp] theorem State.countMismatch_adopted : (s.countMismatch).adopted = s.adopted := rfl
@[simp] theorem State.countMismatch_contexts : (s.countMismatch).contexts = s.contexts := rfl
@[simp] theorem State.countMismatch_closedIds : (s.countMismatch).closedIds = s.closedIds := rfl
@[simp] theorem State.countMismatch_lastRefusal : (s.countMismatch).lastRefusal = s.lastRefusal := rfl
@[simp] theorem State.countMismatch_ring : (s.countMismatch).ring = s.ring := rfl
@[simp] theorem State.countMismatch_answers : (s.countMismatch).answers = s.answers := rfl
@[simp] theorem State.countMismatch_table : (s.countMismatch).table = s.table := rfl
@[simp] theorem State.countMismatch_quietUntil : (s.countMismatch).quietUntil = s.quietUntil := rfl
@[simp] theorem State.countMismatch_localHold : (s.countMismatch).localHold = s.localHold := rfl
@[simp] theorem State.countMismatch_timeoutRun : (s.countMismatch).timeoutRun = s.timeoutRun := rfl
@[simp] theorem State.countMismatch_probeTimer : (s.countMismatch).probeTimer = s.probeTimer := rfl
@[simp] theorem State.countMismatch_probeWaiting : (s.countMismatch).probeWaiting = s.probeWaiting := rfl
@[simp] theorem State.countMismatch_waitChecks : (s.countMismatch).waitChecks = s.waitChecks := rfl
@[simp] theorem State.countMismatch_waitRewrites : (s.countMismatch).waitRewrites = s.waitRewrites := rfl
@[simp] theorem State.countMismatch_waitMarks : (s.countMismatch).waitMarks = s.waitMarks := rfl
@[simp] theorem State.countMismatch_lastServed : (s.countMismatch).lastServed = s.lastServed := rfl
@[simp] theorem State.countMismatch_gathers : (s.countMismatch).gathers = s.gathers := rfl
@[simp] theorem State.countMismatch_arrived : (s.countMismatch).arrived = s.arrived := rfl
@[simp] theorem State.countMismatch_storageTx : (s.countMismatch).storageTx = s.storageTx := rfl
@[simp] theorem State.countMismatch_waitJobs : (s.countMismatch).waitJobs = s.waitJobs := rfl
@[simp] theorem State.countMismatch_queueJobs : (s.countMismatch).queueJobs = s.queueJobs := rfl
@[simp] theorem State.countMismatch_shedJobs : (s.countMismatch).shedJobs = s.shedJobs := rfl
@[simp] theorem State.countMismatch_browseReady : (s.countMismatch).browseReady = s.browseReady := rfl

/-! `countPoolOverrun` -/

@[simp] theorem State.countPoolOverrun_pending : (s.countPoolOverrun).pending = s.pending := rfl
@[simp] theorem State.countPoolOverrun_now : (s.countPoolOverrun).now = s.now := rfl
@[simp] theorem State.countPoolOverrun_nextUid : (s.countPoolOverrun).nextUid = s.nextUid := rfl
@[simp] theorem State.countPoolOverrun_draws : (s.countPoolOverrun).draws = s.draws := rfl
@[simp] theorem State.countPoolOverrun_station : (s.countPoolOverrun).station = s.station := rfl
@[simp] theorem State.countPoolOverrun_faultReason : (s.countPoolOverrun).faultReason = s.faultReason := rfl
@[simp] theorem State.countPoolOverrun_settings : (s.countPoolOverrun).settings = s.settings := rfl
@[simp] theorem State.countPoolOverrun_clamped : (s.countPoolOverrun).clamped = s.clamped := rfl
@[simp] theorem State.countPoolOverrun_confMem : (s.countPoolOverrun).confMem = s.confMem := rfl
@[simp] theorem State.countPoolOverrun_recordWrite : (s.countPoolOverrun).recordWrite = s.recordWrite := rfl
@[simp] theorem State.countPoolOverrun_maintAnswers : (s.countPoolOverrun).maintAnswers = s.maintAnswers := rfl
@[simp] theorem State.countPoolOverrun_maintTx : (s.countPoolOverrun).maintTx = s.maintTx := rfl
@[simp] theorem State.countPoolOverrun_listenUntil : (s.countPoolOverrun).listenUntil = s.listenUntil := rfl
@[simp] theorem State.countPoolOverrun_linkUp : (s.countPoolOverrun).linkUp = s.linkUp := rfl
@[simp] theorem State.countPoolOverrun_beaconTimer : (s.countPoolOverrun).beaconTimer = s.beaconTimer := rfl
@[simp] theorem State.countPoolOverrun_beaconWaiting : (s.countPoolOverrun).beaconWaiting = s.beaconWaiting := rfl
@[simp] theorem State.countPoolOverrun_askQueue : (s.countPoolOverrun).askQueue = s.askQueue := rfl
@[simp] theorem State.countPoolOverrun_mendQueue : (s.countPoolOverrun).mendQueue = s.mendQueue := rfl
@[simp] theorem State.countPoolOverrun_captureTx : (s.countPoolOverrun).captureTx = s.captureTx := rfl
@[simp] theorem State.countPoolOverrun_dupNumber : (s.countPoolOverrun).dupNumber = s.dupNumber := rfl
@[simp] theorem State.countPoolOverrun_peers : (s.countPoolOverrun).peers = s.peers := rfl
@[simp] theorem State.countPoolOverrun_adopted : (s.countPoolOverrun).adopted = s.adopted := rfl
@[simp] theorem State.countPoolOverrun_contexts : (s.countPoolOverrun).contexts = s.contexts := rfl
@[simp] theorem State.countPoolOverrun_closedIds : (s.countPoolOverrun).closedIds = s.closedIds := rfl
@[simp] theorem State.countPoolOverrun_lastRefusal : (s.countPoolOverrun).lastRefusal = s.lastRefusal := rfl
@[simp] theorem State.countPoolOverrun_ring : (s.countPoolOverrun).ring = s.ring := rfl
@[simp] theorem State.countPoolOverrun_answers : (s.countPoolOverrun).answers = s.answers := rfl
@[simp] theorem State.countPoolOverrun_table : (s.countPoolOverrun).table = s.table := rfl
@[simp] theorem State.countPoolOverrun_quietUntil : (s.countPoolOverrun).quietUntil = s.quietUntil := rfl
@[simp] theorem State.countPoolOverrun_localHold : (s.countPoolOverrun).localHold = s.localHold := rfl
@[simp] theorem State.countPoolOverrun_timeoutRun : (s.countPoolOverrun).timeoutRun = s.timeoutRun := rfl
@[simp] theorem State.countPoolOverrun_probeTimer : (s.countPoolOverrun).probeTimer = s.probeTimer := rfl
@[simp] theorem State.countPoolOverrun_probeWaiting : (s.countPoolOverrun).probeWaiting = s.probeWaiting := rfl
@[simp] theorem State.countPoolOverrun_waitChecks : (s.countPoolOverrun).waitChecks = s.waitChecks := rfl
@[simp] theorem State.countPoolOverrun_waitRewrites : (s.countPoolOverrun).waitRewrites = s.waitRewrites := rfl
@[simp] theorem State.countPoolOverrun_waitMarks : (s.countPoolOverrun).waitMarks = s.waitMarks := rfl
@[simp] theorem State.countPoolOverrun_lastServed : (s.countPoolOverrun).lastServed = s.lastServed := rfl
@[simp] theorem State.countPoolOverrun_gathers : (s.countPoolOverrun).gathers = s.gathers := rfl
@[simp] theorem State.countPoolOverrun_arrived : (s.countPoolOverrun).arrived = s.arrived := rfl
@[simp] theorem State.countPoolOverrun_storageTx : (s.countPoolOverrun).storageTx = s.storageTx := rfl
@[simp] theorem State.countPoolOverrun_waitJobs : (s.countPoolOverrun).waitJobs = s.waitJobs := rfl
@[simp] theorem State.countPoolOverrun_queueJobs : (s.countPoolOverrun).queueJobs = s.queueJobs := rfl
@[simp] theorem State.countPoolOverrun_shedJobs : (s.countPoolOverrun).shedJobs = s.shedJobs := rfl
@[simp] theorem State.countPoolOverrun_browseReady : (s.countPoolOverrun).browseReady = s.browseReady := rfl

/-! `countAskSent` -/

@[simp] theorem State.countAskSent_pending : (s.countAskSent).pending = s.pending := rfl
@[simp] theorem State.countAskSent_now : (s.countAskSent).now = s.now := rfl
@[simp] theorem State.countAskSent_nextUid : (s.countAskSent).nextUid = s.nextUid := rfl
@[simp] theorem State.countAskSent_draws : (s.countAskSent).draws = s.draws := rfl
@[simp] theorem State.countAskSent_station : (s.countAskSent).station = s.station := rfl
@[simp] theorem State.countAskSent_faultReason : (s.countAskSent).faultReason = s.faultReason := rfl
@[simp] theorem State.countAskSent_settings : (s.countAskSent).settings = s.settings := rfl
@[simp] theorem State.countAskSent_clamped : (s.countAskSent).clamped = s.clamped := rfl
@[simp] theorem State.countAskSent_confMem : (s.countAskSent).confMem = s.confMem := rfl
@[simp] theorem State.countAskSent_recordWrite : (s.countAskSent).recordWrite = s.recordWrite := rfl
@[simp] theorem State.countAskSent_maintAnswers : (s.countAskSent).maintAnswers = s.maintAnswers := rfl
@[simp] theorem State.countAskSent_maintTx : (s.countAskSent).maintTx = s.maintTx := rfl
@[simp] theorem State.countAskSent_listenUntil : (s.countAskSent).listenUntil = s.listenUntil := rfl
@[simp] theorem State.countAskSent_linkUp : (s.countAskSent).linkUp = s.linkUp := rfl
@[simp] theorem State.countAskSent_beaconTimer : (s.countAskSent).beaconTimer = s.beaconTimer := rfl
@[simp] theorem State.countAskSent_beaconWaiting : (s.countAskSent).beaconWaiting = s.beaconWaiting := rfl
@[simp] theorem State.countAskSent_askQueue : (s.countAskSent).askQueue = s.askQueue := rfl
@[simp] theorem State.countAskSent_mendQueue : (s.countAskSent).mendQueue = s.mendQueue := rfl
@[simp] theorem State.countAskSent_captureTx : (s.countAskSent).captureTx = s.captureTx := rfl
@[simp] theorem State.countAskSent_dupNumber : (s.countAskSent).dupNumber = s.dupNumber := rfl
@[simp] theorem State.countAskSent_peers : (s.countAskSent).peers = s.peers := rfl
@[simp] theorem State.countAskSent_adopted : (s.countAskSent).adopted = s.adopted := rfl
@[simp] theorem State.countAskSent_contexts : (s.countAskSent).contexts = s.contexts := rfl
@[simp] theorem State.countAskSent_closedIds : (s.countAskSent).closedIds = s.closedIds := rfl
@[simp] theorem State.countAskSent_lastRefusal : (s.countAskSent).lastRefusal = s.lastRefusal := rfl
@[simp] theorem State.countAskSent_ring : (s.countAskSent).ring = s.ring := rfl
@[simp] theorem State.countAskSent_answers : (s.countAskSent).answers = s.answers := rfl
@[simp] theorem State.countAskSent_table : (s.countAskSent).table = s.table := rfl
@[simp] theorem State.countAskSent_quietUntil : (s.countAskSent).quietUntil = s.quietUntil := rfl
@[simp] theorem State.countAskSent_localHold : (s.countAskSent).localHold = s.localHold := rfl
@[simp] theorem State.countAskSent_timeoutRun : (s.countAskSent).timeoutRun = s.timeoutRun := rfl
@[simp] theorem State.countAskSent_probeTimer : (s.countAskSent).probeTimer = s.probeTimer := rfl
@[simp] theorem State.countAskSent_probeWaiting : (s.countAskSent).probeWaiting = s.probeWaiting := rfl
@[simp] theorem State.countAskSent_waitChecks : (s.countAskSent).waitChecks = s.waitChecks := rfl
@[simp] theorem State.countAskSent_waitRewrites : (s.countAskSent).waitRewrites = s.waitRewrites := rfl
@[simp] theorem State.countAskSent_waitMarks : (s.countAskSent).waitMarks = s.waitMarks := rfl
@[simp] theorem State.countAskSent_lastServed : (s.countAskSent).lastServed = s.lastServed := rfl
@[simp] theorem State.countAskSent_gathers : (s.countAskSent).gathers = s.gathers := rfl
@[simp] theorem State.countAskSent_arrived : (s.countAskSent).arrived = s.arrived := rfl
@[simp] theorem State.countAskSent_storageTx : (s.countAskSent).storageTx = s.storageTx := rfl
@[simp] theorem State.countAskSent_waitJobs : (s.countAskSent).waitJobs = s.waitJobs := rfl
@[simp] theorem State.countAskSent_queueJobs : (s.countAskSent).queueJobs = s.queueJobs := rfl
@[simp] theorem State.countAskSent_shedJobs : (s.countAskSent).shedJobs = s.shedJobs := rfl
@[simp] theorem State.countAskSent_browseReady : (s.countAskSent).browseReady = s.browseReady := rfl

/-! `countMendCellSent` -/

@[simp] theorem State.countMendCellSent_pending : (s.countMendCellSent).pending = s.pending := rfl
@[simp] theorem State.countMendCellSent_now : (s.countMendCellSent).now = s.now := rfl
@[simp] theorem State.countMendCellSent_nextUid : (s.countMendCellSent).nextUid = s.nextUid := rfl
@[simp] theorem State.countMendCellSent_draws : (s.countMendCellSent).draws = s.draws := rfl
@[simp] theorem State.countMendCellSent_station : (s.countMendCellSent).station = s.station := rfl
@[simp] theorem State.countMendCellSent_faultReason : (s.countMendCellSent).faultReason = s.faultReason := rfl
@[simp] theorem State.countMendCellSent_settings : (s.countMendCellSent).settings = s.settings := rfl
@[simp] theorem State.countMendCellSent_clamped : (s.countMendCellSent).clamped = s.clamped := rfl
@[simp] theorem State.countMendCellSent_confMem : (s.countMendCellSent).confMem = s.confMem := rfl
@[simp] theorem State.countMendCellSent_recordWrite : (s.countMendCellSent).recordWrite = s.recordWrite := rfl
@[simp] theorem State.countMendCellSent_maintAnswers : (s.countMendCellSent).maintAnswers = s.maintAnswers := rfl
@[simp] theorem State.countMendCellSent_maintTx : (s.countMendCellSent).maintTx = s.maintTx := rfl
@[simp] theorem State.countMendCellSent_listenUntil : (s.countMendCellSent).listenUntil = s.listenUntil := rfl
@[simp] theorem State.countMendCellSent_linkUp : (s.countMendCellSent).linkUp = s.linkUp := rfl
@[simp] theorem State.countMendCellSent_beaconTimer : (s.countMendCellSent).beaconTimer = s.beaconTimer := rfl
@[simp] theorem State.countMendCellSent_beaconWaiting : (s.countMendCellSent).beaconWaiting = s.beaconWaiting := rfl
@[simp] theorem State.countMendCellSent_askQueue : (s.countMendCellSent).askQueue = s.askQueue := rfl
@[simp] theorem State.countMendCellSent_mendQueue : (s.countMendCellSent).mendQueue = s.mendQueue := rfl
@[simp] theorem State.countMendCellSent_captureTx : (s.countMendCellSent).captureTx = s.captureTx := rfl
@[simp] theorem State.countMendCellSent_dupNumber : (s.countMendCellSent).dupNumber = s.dupNumber := rfl
@[simp] theorem State.countMendCellSent_peers : (s.countMendCellSent).peers = s.peers := rfl
@[simp] theorem State.countMendCellSent_adopted : (s.countMendCellSent).adopted = s.adopted := rfl
@[simp] theorem State.countMendCellSent_contexts : (s.countMendCellSent).contexts = s.contexts := rfl
@[simp] theorem State.countMendCellSent_closedIds : (s.countMendCellSent).closedIds = s.closedIds := rfl
@[simp] theorem State.countMendCellSent_lastRefusal : (s.countMendCellSent).lastRefusal = s.lastRefusal := rfl
@[simp] theorem State.countMendCellSent_ring : (s.countMendCellSent).ring = s.ring := rfl
@[simp] theorem State.countMendCellSent_answers : (s.countMendCellSent).answers = s.answers := rfl
@[simp] theorem State.countMendCellSent_table : (s.countMendCellSent).table = s.table := rfl
@[simp] theorem State.countMendCellSent_quietUntil : (s.countMendCellSent).quietUntil = s.quietUntil := rfl
@[simp] theorem State.countMendCellSent_localHold : (s.countMendCellSent).localHold = s.localHold := rfl
@[simp] theorem State.countMendCellSent_timeoutRun : (s.countMendCellSent).timeoutRun = s.timeoutRun := rfl
@[simp] theorem State.countMendCellSent_probeTimer : (s.countMendCellSent).probeTimer = s.probeTimer := rfl
@[simp] theorem State.countMendCellSent_probeWaiting : (s.countMendCellSent).probeWaiting = s.probeWaiting := rfl
@[simp] theorem State.countMendCellSent_waitChecks : (s.countMendCellSent).waitChecks = s.waitChecks := rfl
@[simp] theorem State.countMendCellSent_waitRewrites : (s.countMendCellSent).waitRewrites = s.waitRewrites := rfl
@[simp] theorem State.countMendCellSent_waitMarks : (s.countMendCellSent).waitMarks = s.waitMarks := rfl
@[simp] theorem State.countMendCellSent_lastServed : (s.countMendCellSent).lastServed = s.lastServed := rfl
@[simp] theorem State.countMendCellSent_gathers : (s.countMendCellSent).gathers = s.gathers := rfl
@[simp] theorem State.countMendCellSent_arrived : (s.countMendCellSent).arrived = s.arrived := rfl
@[simp] theorem State.countMendCellSent_storageTx : (s.countMendCellSent).storageTx = s.storageTx := rfl
@[simp] theorem State.countMendCellSent_waitJobs : (s.countMendCellSent).waitJobs = s.waitJobs := rfl
@[simp] theorem State.countMendCellSent_queueJobs : (s.countMendCellSent).queueJobs = s.queueJobs := rfl
@[simp] theorem State.countMendCellSent_shedJobs : (s.countMendCellSent).shedJobs = s.shedJobs := rfl
@[simp] theorem State.countMendCellSent_browseReady : (s.countMendCellSent).browseReady = s.browseReady := rfl

/-! `countStorageTimeout` -/

@[simp] theorem State.countStorageTimeout_pending : (s.countStorageTimeout).pending = s.pending := rfl
@[simp] theorem State.countStorageTimeout_now : (s.countStorageTimeout).now = s.now := rfl
@[simp] theorem State.countStorageTimeout_nextUid : (s.countStorageTimeout).nextUid = s.nextUid := rfl
@[simp] theorem State.countStorageTimeout_draws : (s.countStorageTimeout).draws = s.draws := rfl
@[simp] theorem State.countStorageTimeout_station : (s.countStorageTimeout).station = s.station := rfl
@[simp] theorem State.countStorageTimeout_faultReason : (s.countStorageTimeout).faultReason = s.faultReason := rfl
@[simp] theorem State.countStorageTimeout_settings : (s.countStorageTimeout).settings = s.settings := rfl
@[simp] theorem State.countStorageTimeout_clamped : (s.countStorageTimeout).clamped = s.clamped := rfl
@[simp] theorem State.countStorageTimeout_confMem : (s.countStorageTimeout).confMem = s.confMem := rfl
@[simp] theorem State.countStorageTimeout_recordWrite : (s.countStorageTimeout).recordWrite = s.recordWrite := rfl
@[simp] theorem State.countStorageTimeout_maintAnswers : (s.countStorageTimeout).maintAnswers = s.maintAnswers := rfl
@[simp] theorem State.countStorageTimeout_maintTx : (s.countStorageTimeout).maintTx = s.maintTx := rfl
@[simp] theorem State.countStorageTimeout_listenUntil : (s.countStorageTimeout).listenUntil = s.listenUntil := rfl
@[simp] theorem State.countStorageTimeout_linkUp : (s.countStorageTimeout).linkUp = s.linkUp := rfl
@[simp] theorem State.countStorageTimeout_beaconTimer : (s.countStorageTimeout).beaconTimer = s.beaconTimer := rfl
@[simp] theorem State.countStorageTimeout_beaconWaiting : (s.countStorageTimeout).beaconWaiting = s.beaconWaiting := rfl
@[simp] theorem State.countStorageTimeout_askQueue : (s.countStorageTimeout).askQueue = s.askQueue := rfl
@[simp] theorem State.countStorageTimeout_mendQueue : (s.countStorageTimeout).mendQueue = s.mendQueue := rfl
@[simp] theorem State.countStorageTimeout_captureTx : (s.countStorageTimeout).captureTx = s.captureTx := rfl
@[simp] theorem State.countStorageTimeout_dupNumber : (s.countStorageTimeout).dupNumber = s.dupNumber := rfl
@[simp] theorem State.countStorageTimeout_peers : (s.countStorageTimeout).peers = s.peers := rfl
@[simp] theorem State.countStorageTimeout_adopted : (s.countStorageTimeout).adopted = s.adopted := rfl
@[simp] theorem State.countStorageTimeout_contexts : (s.countStorageTimeout).contexts = s.contexts := rfl
@[simp] theorem State.countStorageTimeout_closedIds : (s.countStorageTimeout).closedIds = s.closedIds := rfl
@[simp] theorem State.countStorageTimeout_lastRefusal : (s.countStorageTimeout).lastRefusal = s.lastRefusal := rfl
@[simp] theorem State.countStorageTimeout_ring : (s.countStorageTimeout).ring = s.ring := rfl
@[simp] theorem State.countStorageTimeout_answers : (s.countStorageTimeout).answers = s.answers := rfl
@[simp] theorem State.countStorageTimeout_table : (s.countStorageTimeout).table = s.table := rfl
@[simp] theorem State.countStorageTimeout_quietUntil : (s.countStorageTimeout).quietUntil = s.quietUntil := rfl
@[simp] theorem State.countStorageTimeout_localHold : (s.countStorageTimeout).localHold = s.localHold := rfl
@[simp] theorem State.countStorageTimeout_timeoutRun : (s.countStorageTimeout).timeoutRun = s.timeoutRun := rfl
@[simp] theorem State.countStorageTimeout_probeTimer : (s.countStorageTimeout).probeTimer = s.probeTimer := rfl
@[simp] theorem State.countStorageTimeout_probeWaiting : (s.countStorageTimeout).probeWaiting = s.probeWaiting := rfl
@[simp] theorem State.countStorageTimeout_waitChecks : (s.countStorageTimeout).waitChecks = s.waitChecks := rfl
@[simp] theorem State.countStorageTimeout_waitRewrites : (s.countStorageTimeout).waitRewrites = s.waitRewrites := rfl
@[simp] theorem State.countStorageTimeout_waitMarks : (s.countStorageTimeout).waitMarks = s.waitMarks := rfl
@[simp] theorem State.countStorageTimeout_lastServed : (s.countStorageTimeout).lastServed = s.lastServed := rfl
@[simp] theorem State.countStorageTimeout_gathers : (s.countStorageTimeout).gathers = s.gathers := rfl
@[simp] theorem State.countStorageTimeout_arrived : (s.countStorageTimeout).arrived = s.arrived := rfl
@[simp] theorem State.countStorageTimeout_storageTx : (s.countStorageTimeout).storageTx = s.storageTx := rfl
@[simp] theorem State.countStorageTimeout_waitJobs : (s.countStorageTimeout).waitJobs = s.waitJobs := rfl
@[simp] theorem State.countStorageTimeout_queueJobs : (s.countStorageTimeout).queueJobs = s.queueJobs := rfl
@[simp] theorem State.countStorageTimeout_shedJobs : (s.countStorageTimeout).shedJobs = s.shedJobs := rfl
@[simp] theorem State.countStorageTimeout_browseReady : (s.countStorageTimeout).browseReady = s.browseReady := rfl

/-! `countStorageRefusal` -/

@[simp] theorem State.countStorageRefusal_pending : (s.countStorageRefusal).pending = s.pending := rfl
@[simp] theorem State.countStorageRefusal_now : (s.countStorageRefusal).now = s.now := rfl
@[simp] theorem State.countStorageRefusal_nextUid : (s.countStorageRefusal).nextUid = s.nextUid := rfl
@[simp] theorem State.countStorageRefusal_draws : (s.countStorageRefusal).draws = s.draws := rfl
@[simp] theorem State.countStorageRefusal_station : (s.countStorageRefusal).station = s.station := rfl
@[simp] theorem State.countStorageRefusal_faultReason : (s.countStorageRefusal).faultReason = s.faultReason := rfl
@[simp] theorem State.countStorageRefusal_settings : (s.countStorageRefusal).settings = s.settings := rfl
@[simp] theorem State.countStorageRefusal_clamped : (s.countStorageRefusal).clamped = s.clamped := rfl
@[simp] theorem State.countStorageRefusal_confMem : (s.countStorageRefusal).confMem = s.confMem := rfl
@[simp] theorem State.countStorageRefusal_recordWrite : (s.countStorageRefusal).recordWrite = s.recordWrite := rfl
@[simp] theorem State.countStorageRefusal_maintAnswers : (s.countStorageRefusal).maintAnswers = s.maintAnswers := rfl
@[simp] theorem State.countStorageRefusal_maintTx : (s.countStorageRefusal).maintTx = s.maintTx := rfl
@[simp] theorem State.countStorageRefusal_listenUntil : (s.countStorageRefusal).listenUntil = s.listenUntil := rfl
@[simp] theorem State.countStorageRefusal_linkUp : (s.countStorageRefusal).linkUp = s.linkUp := rfl
@[simp] theorem State.countStorageRefusal_beaconTimer : (s.countStorageRefusal).beaconTimer = s.beaconTimer := rfl
@[simp] theorem State.countStorageRefusal_beaconWaiting : (s.countStorageRefusal).beaconWaiting = s.beaconWaiting := rfl
@[simp] theorem State.countStorageRefusal_askQueue : (s.countStorageRefusal).askQueue = s.askQueue := rfl
@[simp] theorem State.countStorageRefusal_mendQueue : (s.countStorageRefusal).mendQueue = s.mendQueue := rfl
@[simp] theorem State.countStorageRefusal_captureTx : (s.countStorageRefusal).captureTx = s.captureTx := rfl
@[simp] theorem State.countStorageRefusal_dupNumber : (s.countStorageRefusal).dupNumber = s.dupNumber := rfl
@[simp] theorem State.countStorageRefusal_peers : (s.countStorageRefusal).peers = s.peers := rfl
@[simp] theorem State.countStorageRefusal_adopted : (s.countStorageRefusal).adopted = s.adopted := rfl
@[simp] theorem State.countStorageRefusal_contexts : (s.countStorageRefusal).contexts = s.contexts := rfl
@[simp] theorem State.countStorageRefusal_closedIds : (s.countStorageRefusal).closedIds = s.closedIds := rfl
@[simp] theorem State.countStorageRefusal_lastRefusal : (s.countStorageRefusal).lastRefusal = s.lastRefusal := rfl
@[simp] theorem State.countStorageRefusal_ring : (s.countStorageRefusal).ring = s.ring := rfl
@[simp] theorem State.countStorageRefusal_answers : (s.countStorageRefusal).answers = s.answers := rfl
@[simp] theorem State.countStorageRefusal_table : (s.countStorageRefusal).table = s.table := rfl
@[simp] theorem State.countStorageRefusal_quietUntil : (s.countStorageRefusal).quietUntil = s.quietUntil := rfl
@[simp] theorem State.countStorageRefusal_localHold : (s.countStorageRefusal).localHold = s.localHold := rfl
@[simp] theorem State.countStorageRefusal_timeoutRun : (s.countStorageRefusal).timeoutRun = s.timeoutRun := rfl
@[simp] theorem State.countStorageRefusal_probeTimer : (s.countStorageRefusal).probeTimer = s.probeTimer := rfl
@[simp] theorem State.countStorageRefusal_probeWaiting : (s.countStorageRefusal).probeWaiting = s.probeWaiting := rfl
@[simp] theorem State.countStorageRefusal_waitChecks : (s.countStorageRefusal).waitChecks = s.waitChecks := rfl
@[simp] theorem State.countStorageRefusal_waitRewrites : (s.countStorageRefusal).waitRewrites = s.waitRewrites := rfl
@[simp] theorem State.countStorageRefusal_waitMarks : (s.countStorageRefusal).waitMarks = s.waitMarks := rfl
@[simp] theorem State.countStorageRefusal_lastServed : (s.countStorageRefusal).lastServed = s.lastServed := rfl
@[simp] theorem State.countStorageRefusal_gathers : (s.countStorageRefusal).gathers = s.gathers := rfl
@[simp] theorem State.countStorageRefusal_arrived : (s.countStorageRefusal).arrived = s.arrived := rfl
@[simp] theorem State.countStorageRefusal_storageTx : (s.countStorageRefusal).storageTx = s.storageTx := rfl
@[simp] theorem State.countStorageRefusal_waitJobs : (s.countStorageRefusal).waitJobs = s.waitJobs := rfl
@[simp] theorem State.countStorageRefusal_queueJobs : (s.countStorageRefusal).queueJobs = s.queueJobs := rfl
@[simp] theorem State.countStorageRefusal_shedJobs : (s.countStorageRefusal).shedJobs = s.shedJobs := rfl
@[simp] theorem State.countStorageRefusal_browseReady : (s.countStorageRefusal).browseReady = s.browseReady := rfl

/-! `withdrawJob` -/

@[simp] theorem State.withdrawJob_pending (feed seq : Nat) : (s.withdrawJob feed seq).pending = s.pending := rfl
@[simp] theorem State.withdrawJob_now (feed seq : Nat) : (s.withdrawJob feed seq).now = s.now := rfl
@[simp] theorem State.withdrawJob_nextUid (feed seq : Nat) : (s.withdrawJob feed seq).nextUid = s.nextUid := rfl
@[simp] theorem State.withdrawJob_draws (feed seq : Nat) : (s.withdrawJob feed seq).draws = s.draws := rfl
@[simp] theorem State.withdrawJob_station (feed seq : Nat) : (s.withdrawJob feed seq).station = s.station := rfl
@[simp] theorem State.withdrawJob_faultReason (feed seq : Nat) : (s.withdrawJob feed seq).faultReason = s.faultReason := rfl
@[simp] theorem State.withdrawJob_settings (feed seq : Nat) : (s.withdrawJob feed seq).settings = s.settings := rfl
@[simp] theorem State.withdrawJob_clamped (feed seq : Nat) : (s.withdrawJob feed seq).clamped = s.clamped := rfl
@[simp] theorem State.withdrawJob_confMem (feed seq : Nat) : (s.withdrawJob feed seq).confMem = s.confMem := rfl
@[simp] theorem State.withdrawJob_recordWrite (feed seq : Nat) : (s.withdrawJob feed seq).recordWrite = s.recordWrite := rfl
@[simp] theorem State.withdrawJob_maintAnswers (feed seq : Nat) : (s.withdrawJob feed seq).maintAnswers = s.maintAnswers := rfl
@[simp] theorem State.withdrawJob_maintTx (feed seq : Nat) : (s.withdrawJob feed seq).maintTx = s.maintTx := rfl
@[simp] theorem State.withdrawJob_listenUntil (feed seq : Nat) : (s.withdrawJob feed seq).listenUntil = s.listenUntil := rfl
@[simp] theorem State.withdrawJob_linkUp (feed seq : Nat) : (s.withdrawJob feed seq).linkUp = s.linkUp := rfl
@[simp] theorem State.withdrawJob_beaconTimer (feed seq : Nat) : (s.withdrawJob feed seq).beaconTimer = s.beaconTimer := rfl
@[simp] theorem State.withdrawJob_beaconWaiting (feed seq : Nat) : (s.withdrawJob feed seq).beaconWaiting = s.beaconWaiting := rfl
@[simp] theorem State.withdrawJob_askQueue (feed seq : Nat) : (s.withdrawJob feed seq).askQueue = s.askQueue := rfl
@[simp] theorem State.withdrawJob_mendQueue (feed seq : Nat) : (s.withdrawJob feed seq).mendQueue = s.mendQueue := rfl
@[simp] theorem State.withdrawJob_captureTx (feed seq : Nat) : (s.withdrawJob feed seq).captureTx = s.captureTx := rfl
@[simp] theorem State.withdrawJob_counters (feed seq : Nat) : (s.withdrawJob feed seq).counters = s.counters := rfl
@[simp] theorem State.withdrawJob_dupNumber (feed seq : Nat) : (s.withdrawJob feed seq).dupNumber = s.dupNumber := rfl
@[simp] theorem State.withdrawJob_peers (feed seq : Nat) : (s.withdrawJob feed seq).peers = s.peers := rfl
@[simp] theorem State.withdrawJob_adopted (feed seq : Nat) : (s.withdrawJob feed seq).adopted = s.adopted := rfl
@[simp] theorem State.withdrawJob_contexts (feed seq : Nat) : (s.withdrawJob feed seq).contexts = s.contexts := rfl
@[simp] theorem State.withdrawJob_closedIds (feed seq : Nat) : (s.withdrawJob feed seq).closedIds = s.closedIds := rfl
@[simp] theorem State.withdrawJob_lastRefusal (feed seq : Nat) : (s.withdrawJob feed seq).lastRefusal = s.lastRefusal := rfl
@[simp] theorem State.withdrawJob_ring (feed seq : Nat) : (s.withdrawJob feed seq).ring = s.ring := rfl
@[simp] theorem State.withdrawJob_answers (feed seq : Nat) : (s.withdrawJob feed seq).answers = s.answers := rfl
@[simp] theorem State.withdrawJob_table (feed seq : Nat) : (s.withdrawJob feed seq).table = s.table := rfl
@[simp] theorem State.withdrawJob_quietUntil (feed seq : Nat) : (s.withdrawJob feed seq).quietUntil = s.quietUntil := rfl
@[simp] theorem State.withdrawJob_localHold (feed seq : Nat) : (s.withdrawJob feed seq).localHold = s.localHold := rfl
@[simp] theorem State.withdrawJob_timeoutRun (feed seq : Nat) : (s.withdrawJob feed seq).timeoutRun = s.timeoutRun := rfl
@[simp] theorem State.withdrawJob_probeTimer (feed seq : Nat) : (s.withdrawJob feed seq).probeTimer = s.probeTimer := rfl
@[simp] theorem State.withdrawJob_probeWaiting (feed seq : Nat) : (s.withdrawJob feed seq).probeWaiting = s.probeWaiting := rfl
@[simp] theorem State.withdrawJob_waitChecks (feed seq : Nat) : (s.withdrawJob feed seq).waitChecks = s.waitChecks := rfl
@[simp] theorem State.withdrawJob_waitRewrites (feed seq : Nat) : (s.withdrawJob feed seq).waitRewrites = s.waitRewrites := rfl
@[simp] theorem State.withdrawJob_waitMarks (feed seq : Nat) : (s.withdrawJob feed seq).waitMarks = s.waitMarks := rfl
@[simp] theorem State.withdrawJob_lastServed (feed seq : Nat) : (s.withdrawJob feed seq).lastServed = s.lastServed := rfl
@[simp] theorem State.withdrawJob_gathers (feed seq : Nat) : (s.withdrawJob feed seq).gathers = s.gathers := rfl
@[simp] theorem State.withdrawJob_arrived (feed seq : Nat) : (s.withdrawJob feed seq).arrived = s.arrived := rfl
@[simp] theorem State.withdrawJob_storageTx (feed seq : Nat) : (s.withdrawJob feed seq).storageTx = s.storageTx := rfl

/-! `mapJob` -/

@[simp] theorem State.mapJob_pending (uid : Nat) (g : Job → Job) : (s.mapJob uid g).pending = s.pending := rfl
@[simp] theorem State.mapJob_now (uid : Nat) (g : Job → Job) : (s.mapJob uid g).now = s.now := rfl
@[simp] theorem State.mapJob_nextUid (uid : Nat) (g : Job → Job) : (s.mapJob uid g).nextUid = s.nextUid := rfl
@[simp] theorem State.mapJob_draws (uid : Nat) (g : Job → Job) : (s.mapJob uid g).draws = s.draws := rfl
@[simp] theorem State.mapJob_station (uid : Nat) (g : Job → Job) : (s.mapJob uid g).station = s.station := rfl
@[simp] theorem State.mapJob_faultReason (uid : Nat) (g : Job → Job) : (s.mapJob uid g).faultReason = s.faultReason := rfl
@[simp] theorem State.mapJob_settings (uid : Nat) (g : Job → Job) : (s.mapJob uid g).settings = s.settings := rfl
@[simp] theorem State.mapJob_clamped (uid : Nat) (g : Job → Job) : (s.mapJob uid g).clamped = s.clamped := rfl
@[simp] theorem State.mapJob_confMem (uid : Nat) (g : Job → Job) : (s.mapJob uid g).confMem = s.confMem := rfl
@[simp] theorem State.mapJob_recordWrite (uid : Nat) (g : Job → Job) : (s.mapJob uid g).recordWrite = s.recordWrite := rfl
@[simp] theorem State.mapJob_maintAnswers (uid : Nat) (g : Job → Job) : (s.mapJob uid g).maintAnswers = s.maintAnswers := rfl
@[simp] theorem State.mapJob_maintTx (uid : Nat) (g : Job → Job) : (s.mapJob uid g).maintTx = s.maintTx := rfl
@[simp] theorem State.mapJob_listenUntil (uid : Nat) (g : Job → Job) : (s.mapJob uid g).listenUntil = s.listenUntil := rfl
@[simp] theorem State.mapJob_linkUp (uid : Nat) (g : Job → Job) : (s.mapJob uid g).linkUp = s.linkUp := rfl
@[simp] theorem State.mapJob_beaconTimer (uid : Nat) (g : Job → Job) : (s.mapJob uid g).beaconTimer = s.beaconTimer := rfl
@[simp] theorem State.mapJob_beaconWaiting (uid : Nat) (g : Job → Job) : (s.mapJob uid g).beaconWaiting = s.beaconWaiting := rfl
@[simp] theorem State.mapJob_askQueue (uid : Nat) (g : Job → Job) : (s.mapJob uid g).askQueue = s.askQueue := rfl
@[simp] theorem State.mapJob_mendQueue (uid : Nat) (g : Job → Job) : (s.mapJob uid g).mendQueue = s.mendQueue := rfl
@[simp] theorem State.mapJob_captureTx (uid : Nat) (g : Job → Job) : (s.mapJob uid g).captureTx = s.captureTx := rfl
@[simp] theorem State.mapJob_counters (uid : Nat) (g : Job → Job) : (s.mapJob uid g).counters = s.counters := rfl
@[simp] theorem State.mapJob_dupNumber (uid : Nat) (g : Job → Job) : (s.mapJob uid g).dupNumber = s.dupNumber := rfl
@[simp] theorem State.mapJob_peers (uid : Nat) (g : Job → Job) : (s.mapJob uid g).peers = s.peers := rfl
@[simp] theorem State.mapJob_adopted (uid : Nat) (g : Job → Job) : (s.mapJob uid g).adopted = s.adopted := rfl
@[simp] theorem State.mapJob_contexts (uid : Nat) (g : Job → Job) : (s.mapJob uid g).contexts = s.contexts := rfl
@[simp] theorem State.mapJob_closedIds (uid : Nat) (g : Job → Job) : (s.mapJob uid g).closedIds = s.closedIds := rfl
@[simp] theorem State.mapJob_lastRefusal (uid : Nat) (g : Job → Job) : (s.mapJob uid g).lastRefusal = s.lastRefusal := rfl
@[simp] theorem State.mapJob_ring (uid : Nat) (g : Job → Job) : (s.mapJob uid g).ring = s.ring := rfl
@[simp] theorem State.mapJob_answers (uid : Nat) (g : Job → Job) : (s.mapJob uid g).answers = s.answers := rfl
@[simp] theorem State.mapJob_table (uid : Nat) (g : Job → Job) : (s.mapJob uid g).table = s.table := rfl
@[simp] theorem State.mapJob_quietUntil (uid : Nat) (g : Job → Job) : (s.mapJob uid g).quietUntil = s.quietUntil := rfl
@[simp] theorem State.mapJob_localHold (uid : Nat) (g : Job → Job) : (s.mapJob uid g).localHold = s.localHold := rfl
@[simp] theorem State.mapJob_timeoutRun (uid : Nat) (g : Job → Job) : (s.mapJob uid g).timeoutRun = s.timeoutRun := rfl
@[simp] theorem State.mapJob_probeTimer (uid : Nat) (g : Job → Job) : (s.mapJob uid g).probeTimer = s.probeTimer := rfl
@[simp] theorem State.mapJob_probeWaiting (uid : Nat) (g : Job → Job) : (s.mapJob uid g).probeWaiting = s.probeWaiting := rfl
@[simp] theorem State.mapJob_waitChecks (uid : Nat) (g : Job → Job) : (s.mapJob uid g).waitChecks = s.waitChecks := rfl
@[simp] theorem State.mapJob_waitRewrites (uid : Nat) (g : Job → Job) : (s.mapJob uid g).waitRewrites = s.waitRewrites := rfl
@[simp] theorem State.mapJob_waitMarks (uid : Nat) (g : Job → Job) : (s.mapJob uid g).waitMarks = s.waitMarks := rfl
@[simp] theorem State.mapJob_lastServed (uid : Nat) (g : Job → Job) : (s.mapJob uid g).lastServed = s.lastServed := rfl
@[simp] theorem State.mapJob_gathers (uid : Nat) (g : Job → Job) : (s.mapJob uid g).gathers = s.gathers := rfl
@[simp] theorem State.mapJob_arrived (uid : Nat) (g : Job → Job) : (s.mapJob uid g).arrived = s.arrived := rfl
@[simp] theorem State.mapJob_storageTx (uid : Nat) (g : Job → Job) : (s.mapJob uid g).storageTx = s.storageTx := rfl
@[simp] theorem State.mapJob_waitJobs (uid : Nat) (g : Job → Job) : (s.mapJob uid g).waitJobs = s.waitJobs := rfl
@[simp] theorem State.mapJob_browseReady (uid : Nat) (g : Job → Job) : (s.mapJob uid g).browseReady = s.browseReady := rfl

/-! `readyWrite` -/

@[simp] theorem State.readyWrite_pending (uid : Nat) : (s.readyWrite uid).pending = s.pending := rfl
@[simp] theorem State.readyWrite_now (uid : Nat) : (s.readyWrite uid).now = s.now := rfl
@[simp] theorem State.readyWrite_nextUid (uid : Nat) : (s.readyWrite uid).nextUid = s.nextUid := rfl
@[simp] theorem State.readyWrite_draws (uid : Nat) : (s.readyWrite uid).draws = s.draws := rfl
@[simp] theorem State.readyWrite_station (uid : Nat) : (s.readyWrite uid).station = s.station := rfl
@[simp] theorem State.readyWrite_faultReason (uid : Nat) : (s.readyWrite uid).faultReason = s.faultReason := rfl
@[simp] theorem State.readyWrite_settings (uid : Nat) : (s.readyWrite uid).settings = s.settings := rfl
@[simp] theorem State.readyWrite_clamped (uid : Nat) : (s.readyWrite uid).clamped = s.clamped := rfl
@[simp] theorem State.readyWrite_confMem (uid : Nat) : (s.readyWrite uid).confMem = s.confMem := rfl
@[simp] theorem State.readyWrite_recordWrite (uid : Nat) : (s.readyWrite uid).recordWrite = s.recordWrite := rfl
@[simp] theorem State.readyWrite_maintAnswers (uid : Nat) : (s.readyWrite uid).maintAnswers = s.maintAnswers := rfl
@[simp] theorem State.readyWrite_maintTx (uid : Nat) : (s.readyWrite uid).maintTx = s.maintTx := rfl
@[simp] theorem State.readyWrite_listenUntil (uid : Nat) : (s.readyWrite uid).listenUntil = s.listenUntil := rfl
@[simp] theorem State.readyWrite_linkUp (uid : Nat) : (s.readyWrite uid).linkUp = s.linkUp := rfl
@[simp] theorem State.readyWrite_beaconTimer (uid : Nat) : (s.readyWrite uid).beaconTimer = s.beaconTimer := rfl
@[simp] theorem State.readyWrite_beaconWaiting (uid : Nat) : (s.readyWrite uid).beaconWaiting = s.beaconWaiting := rfl
@[simp] theorem State.readyWrite_askQueue (uid : Nat) : (s.readyWrite uid).askQueue = s.askQueue := rfl
@[simp] theorem State.readyWrite_mendQueue (uid : Nat) : (s.readyWrite uid).mendQueue = s.mendQueue := rfl
@[simp] theorem State.readyWrite_captureTx (uid : Nat) : (s.readyWrite uid).captureTx = s.captureTx := rfl
@[simp] theorem State.readyWrite_counters (uid : Nat) : (s.readyWrite uid).counters = s.counters := rfl
@[simp] theorem State.readyWrite_dupNumber (uid : Nat) : (s.readyWrite uid).dupNumber = s.dupNumber := rfl
@[simp] theorem State.readyWrite_peers (uid : Nat) : (s.readyWrite uid).peers = s.peers := rfl
@[simp] theorem State.readyWrite_adopted (uid : Nat) : (s.readyWrite uid).adopted = s.adopted := rfl
@[simp] theorem State.readyWrite_contexts (uid : Nat) : (s.readyWrite uid).contexts = s.contexts := rfl
@[simp] theorem State.readyWrite_closedIds (uid : Nat) : (s.readyWrite uid).closedIds = s.closedIds := rfl
@[simp] theorem State.readyWrite_lastRefusal (uid : Nat) : (s.readyWrite uid).lastRefusal = s.lastRefusal := rfl
@[simp] theorem State.readyWrite_ring (uid : Nat) : (s.readyWrite uid).ring = s.ring := rfl
@[simp] theorem State.readyWrite_answers (uid : Nat) : (s.readyWrite uid).answers = s.answers := rfl
@[simp] theorem State.readyWrite_table (uid : Nat) : (s.readyWrite uid).table = s.table := rfl
@[simp] theorem State.readyWrite_quietUntil (uid : Nat) : (s.readyWrite uid).quietUntil = s.quietUntil := rfl
@[simp] theorem State.readyWrite_localHold (uid : Nat) : (s.readyWrite uid).localHold = s.localHold := rfl
@[simp] theorem State.readyWrite_timeoutRun (uid : Nat) : (s.readyWrite uid).timeoutRun = s.timeoutRun := rfl
@[simp] theorem State.readyWrite_probeTimer (uid : Nat) : (s.readyWrite uid).probeTimer = s.probeTimer := rfl
@[simp] theorem State.readyWrite_probeWaiting (uid : Nat) : (s.readyWrite uid).probeWaiting = s.probeWaiting := rfl
@[simp] theorem State.readyWrite_waitChecks (uid : Nat) : (s.readyWrite uid).waitChecks = s.waitChecks := rfl
@[simp] theorem State.readyWrite_waitRewrites (uid : Nat) : (s.readyWrite uid).waitRewrites = s.waitRewrites := rfl
@[simp] theorem State.readyWrite_waitMarks (uid : Nat) : (s.readyWrite uid).waitMarks = s.waitMarks := rfl
@[simp] theorem State.readyWrite_lastServed (uid : Nat) : (s.readyWrite uid).lastServed = s.lastServed := rfl
@[simp] theorem State.readyWrite_gathers (uid : Nat) : (s.readyWrite uid).gathers = s.gathers := rfl
@[simp] theorem State.readyWrite_arrived (uid : Nat) : (s.readyWrite uid).arrived = s.arrived := rfl
@[simp] theorem State.readyWrite_storageTx (uid : Nat) : (s.readyWrite uid).storageTx = s.storageTx := rfl
@[simp] theorem State.readyWrite_waitJobs (uid : Nat) : (s.readyWrite uid).waitJobs = s.waitJobs := rfl
@[simp] theorem State.readyWrite_queueJobs (uid : Nat) : (s.readyWrite uid).queueJobs = s.queueJobs := rfl
@[simp] theorem State.readyWrite_shedJobs (uid : Nat) : (s.readyWrite uid).shedJobs = s.shedJobs := rfl

/-! `syncShedAges` -/

@[simp] theorem State.syncShedAges_pending : (s.syncShedAges).pending = s.pending := rfl
@[simp] theorem State.syncShedAges_now : (s.syncShedAges).now = s.now := rfl
@[simp] theorem State.syncShedAges_nextUid : (s.syncShedAges).nextUid = s.nextUid := rfl
@[simp] theorem State.syncShedAges_draws : (s.syncShedAges).draws = s.draws := rfl
@[simp] theorem State.syncShedAges_station : (s.syncShedAges).station = s.station := rfl
@[simp] theorem State.syncShedAges_faultReason : (s.syncShedAges).faultReason = s.faultReason := rfl
@[simp] theorem State.syncShedAges_settings : (s.syncShedAges).settings = s.settings := rfl
@[simp] theorem State.syncShedAges_clamped : (s.syncShedAges).clamped = s.clamped := rfl
@[simp] theorem State.syncShedAges_confMem : (s.syncShedAges).confMem = s.confMem := rfl
@[simp] theorem State.syncShedAges_recordWrite : (s.syncShedAges).recordWrite = s.recordWrite := rfl
@[simp] theorem State.syncShedAges_maintAnswers : (s.syncShedAges).maintAnswers = s.maintAnswers := rfl
@[simp] theorem State.syncShedAges_maintTx : (s.syncShedAges).maintTx = s.maintTx := rfl
@[simp] theorem State.syncShedAges_listenUntil : (s.syncShedAges).listenUntil = s.listenUntil := rfl
@[simp] theorem State.syncShedAges_linkUp : (s.syncShedAges).linkUp = s.linkUp := rfl
@[simp] theorem State.syncShedAges_beaconTimer : (s.syncShedAges).beaconTimer = s.beaconTimer := rfl
@[simp] theorem State.syncShedAges_beaconWaiting : (s.syncShedAges).beaconWaiting = s.beaconWaiting := rfl
@[simp] theorem State.syncShedAges_askQueue : (s.syncShedAges).askQueue = s.askQueue := rfl
@[simp] theorem State.syncShedAges_mendQueue : (s.syncShedAges).mendQueue = s.mendQueue := rfl
@[simp] theorem State.syncShedAges_captureTx : (s.syncShedAges).captureTx = s.captureTx := rfl
@[simp] theorem State.syncShedAges_counters : (s.syncShedAges).counters = s.counters := rfl
@[simp] theorem State.syncShedAges_dupNumber : (s.syncShedAges).dupNumber = s.dupNumber := rfl
@[simp] theorem State.syncShedAges_peers : (s.syncShedAges).peers = s.peers := rfl
@[simp] theorem State.syncShedAges_adopted : (s.syncShedAges).adopted = s.adopted := rfl
@[simp] theorem State.syncShedAges_contexts : (s.syncShedAges).contexts = s.contexts := rfl
@[simp] theorem State.syncShedAges_closedIds : (s.syncShedAges).closedIds = s.closedIds := rfl
@[simp] theorem State.syncShedAges_lastRefusal : (s.syncShedAges).lastRefusal = s.lastRefusal := rfl
@[simp] theorem State.syncShedAges_ring : (s.syncShedAges).ring = s.ring := rfl
@[simp] theorem State.syncShedAges_answers : (s.syncShedAges).answers = s.answers := rfl
@[simp] theorem State.syncShedAges_table : (s.syncShedAges).table = s.table := rfl
@[simp] theorem State.syncShedAges_quietUntil : (s.syncShedAges).quietUntil = s.quietUntil := rfl
@[simp] theorem State.syncShedAges_localHold : (s.syncShedAges).localHold = s.localHold := rfl
@[simp] theorem State.syncShedAges_timeoutRun : (s.syncShedAges).timeoutRun = s.timeoutRun := rfl
@[simp] theorem State.syncShedAges_probeTimer : (s.syncShedAges).probeTimer = s.probeTimer := rfl
@[simp] theorem State.syncShedAges_probeWaiting : (s.syncShedAges).probeWaiting = s.probeWaiting := rfl
@[simp] theorem State.syncShedAges_waitChecks : (s.syncShedAges).waitChecks = s.waitChecks := rfl
@[simp] theorem State.syncShedAges_waitRewrites : (s.syncShedAges).waitRewrites = s.waitRewrites := rfl
@[simp] theorem State.syncShedAges_waitMarks : (s.syncShedAges).waitMarks = s.waitMarks := rfl
@[simp] theorem State.syncShedAges_lastServed : (s.syncShedAges).lastServed = s.lastServed := rfl
@[simp] theorem State.syncShedAges_gathers : (s.syncShedAges).gathers = s.gathers := rfl
@[simp] theorem State.syncShedAges_arrived : (s.syncShedAges).arrived = s.arrived := rfl
@[simp] theorem State.syncShedAges_storageTx : (s.syncShedAges).storageTx = s.storageTx := rfl
@[simp] theorem State.syncShedAges_shedJobs : (s.syncShedAges).shedJobs = s.shedJobs := rfl
@[simp] theorem State.syncShedAges_browseReady : (s.syncShedAges).browseReady = s.browseReady := rfl

/-! `discardWork` -/

@[simp] theorem State.discardWork_pending (feed : Nat) : (s.discardWork feed).pending = s.pending := rfl
@[simp] theorem State.discardWork_now (feed : Nat) : (s.discardWork feed).now = s.now := rfl
@[simp] theorem State.discardWork_nextUid (feed : Nat) : (s.discardWork feed).nextUid = s.nextUid := rfl
@[simp] theorem State.discardWork_draws (feed : Nat) : (s.discardWork feed).draws = s.draws := rfl
@[simp] theorem State.discardWork_station (feed : Nat) : (s.discardWork feed).station = s.station := rfl
@[simp] theorem State.discardWork_faultReason (feed : Nat) : (s.discardWork feed).faultReason = s.faultReason := rfl
@[simp] theorem State.discardWork_settings (feed : Nat) : (s.discardWork feed).settings = s.settings := rfl
@[simp] theorem State.discardWork_clamped (feed : Nat) : (s.discardWork feed).clamped = s.clamped := rfl
@[simp] theorem State.discardWork_confMem (feed : Nat) : (s.discardWork feed).confMem = s.confMem := rfl
@[simp] theorem State.discardWork_recordWrite (feed : Nat) : (s.discardWork feed).recordWrite = s.recordWrite := rfl
@[simp] theorem State.discardWork_maintAnswers (feed : Nat) : (s.discardWork feed).maintAnswers = s.maintAnswers := rfl
@[simp] theorem State.discardWork_maintTx (feed : Nat) : (s.discardWork feed).maintTx = s.maintTx := rfl
@[simp] theorem State.discardWork_listenUntil (feed : Nat) : (s.discardWork feed).listenUntil = s.listenUntil := rfl
@[simp] theorem State.discardWork_linkUp (feed : Nat) : (s.discardWork feed).linkUp = s.linkUp := rfl
@[simp] theorem State.discardWork_beaconTimer (feed : Nat) : (s.discardWork feed).beaconTimer = s.beaconTimer := rfl
@[simp] theorem State.discardWork_beaconWaiting (feed : Nat) : (s.discardWork feed).beaconWaiting = s.beaconWaiting := rfl
@[simp] theorem State.discardWork_askQueue (feed : Nat) : (s.discardWork feed).askQueue = s.askQueue := rfl
@[simp] theorem State.discardWork_mendQueue (feed : Nat) : (s.discardWork feed).mendQueue = s.mendQueue := rfl
@[simp] theorem State.discardWork_captureTx (feed : Nat) : (s.discardWork feed).captureTx = s.captureTx := rfl
@[simp] theorem State.discardWork_counters (feed : Nat) : (s.discardWork feed).counters = s.counters := rfl
@[simp] theorem State.discardWork_dupNumber (feed : Nat) : (s.discardWork feed).dupNumber = s.dupNumber := rfl
@[simp] theorem State.discardWork_peers (feed : Nat) : (s.discardWork feed).peers = s.peers := rfl
@[simp] theorem State.discardWork_adopted (feed : Nat) : (s.discardWork feed).adopted = s.adopted := rfl
@[simp] theorem State.discardWork_contexts (feed : Nat) : (s.discardWork feed).contexts = s.contexts := rfl
@[simp] theorem State.discardWork_closedIds (feed : Nat) : (s.discardWork feed).closedIds = s.closedIds := rfl
@[simp] theorem State.discardWork_lastRefusal (feed : Nat) : (s.discardWork feed).lastRefusal = s.lastRefusal := rfl
@[simp] theorem State.discardWork_ring (feed : Nat) : (s.discardWork feed).ring = s.ring := rfl
@[simp] theorem State.discardWork_answers (feed : Nat) : (s.discardWork feed).answers = s.answers := rfl
@[simp] theorem State.discardWork_table (feed : Nat) : (s.discardWork feed).table = s.table := rfl
@[simp] theorem State.discardWork_quietUntil (feed : Nat) : (s.discardWork feed).quietUntil = s.quietUntil := rfl
@[simp] theorem State.discardWork_localHold (feed : Nat) : (s.discardWork feed).localHold = s.localHold := rfl
@[simp] theorem State.discardWork_timeoutRun (feed : Nat) : (s.discardWork feed).timeoutRun = s.timeoutRun := rfl
@[simp] theorem State.discardWork_probeTimer (feed : Nat) : (s.discardWork feed).probeTimer = s.probeTimer := rfl
@[simp] theorem State.discardWork_probeWaiting (feed : Nat) : (s.discardWork feed).probeWaiting = s.probeWaiting := rfl
@[simp] theorem State.discardWork_waitMarks (feed : Nat) : (s.discardWork feed).waitMarks = s.waitMarks := rfl
@[simp] theorem State.discardWork_lastServed (feed : Nat) : (s.discardWork feed).lastServed = s.lastServed := rfl
@[simp] theorem State.discardWork_gathers (feed : Nat) : (s.discardWork feed).gathers = s.gathers := rfl
@[simp] theorem State.discardWork_arrived (feed : Nat) : (s.discardWork feed).arrived = s.arrived := rfl
@[simp] theorem State.discardWork_storageTx (feed : Nat) : (s.discardWork feed).storageTx = s.storageTx := rfl
@[simp] theorem State.discardWork_waitJobs (feed : Nat) : (s.discardWork feed).waitJobs = s.waitJobs := rfl
@[simp] theorem State.discardWork_queueJobs (feed : Nat) : (s.discardWork feed).queueJobs = s.queueJobs := rfl
@[simp] theorem State.discardWork_shedJobs (feed : Nat) : (s.discardWork feed).shedJobs = s.shedJobs := rfl
@[simp] theorem State.discardWork_browseReady (feed : Nat) : (s.discardWork feed).browseReady = s.browseReady := rfl

/-! `refuse` -/

@[simp] theorem State.refuse_pending (feed : Nat) (r : RefusalReason) : (s.refuse feed r).pending = s.pending := rfl
@[simp] theorem State.refuse_now (feed : Nat) (r : RefusalReason) : (s.refuse feed r).now = s.now := rfl
@[simp] theorem State.refuse_nextUid (feed : Nat) (r : RefusalReason) : (s.refuse feed r).nextUid = s.nextUid := rfl
@[simp] theorem State.refuse_draws (feed : Nat) (r : RefusalReason) : (s.refuse feed r).draws = s.draws := rfl
@[simp] theorem State.refuse_station (feed : Nat) (r : RefusalReason) : (s.refuse feed r).station = s.station := rfl
@[simp] theorem State.refuse_faultReason (feed : Nat) (r : RefusalReason) : (s.refuse feed r).faultReason = s.faultReason := rfl
@[simp] theorem State.refuse_settings (feed : Nat) (r : RefusalReason) : (s.refuse feed r).settings = s.settings := rfl
@[simp] theorem State.refuse_clamped (feed : Nat) (r : RefusalReason) : (s.refuse feed r).clamped = s.clamped := rfl
@[simp] theorem State.refuse_confMem (feed : Nat) (r : RefusalReason) : (s.refuse feed r).confMem = s.confMem := rfl
@[simp] theorem State.refuse_recordWrite (feed : Nat) (r : RefusalReason) : (s.refuse feed r).recordWrite = s.recordWrite := rfl
@[simp] theorem State.refuse_maintAnswers (feed : Nat) (r : RefusalReason) : (s.refuse feed r).maintAnswers = s.maintAnswers := rfl
@[simp] theorem State.refuse_maintTx (feed : Nat) (r : RefusalReason) : (s.refuse feed r).maintTx = s.maintTx := rfl
@[simp] theorem State.refuse_listenUntil (feed : Nat) (r : RefusalReason) : (s.refuse feed r).listenUntil = s.listenUntil := rfl
@[simp] theorem State.refuse_linkUp (feed : Nat) (r : RefusalReason) : (s.refuse feed r).linkUp = s.linkUp := rfl
@[simp] theorem State.refuse_beaconTimer (feed : Nat) (r : RefusalReason) : (s.refuse feed r).beaconTimer = s.beaconTimer := rfl
@[simp] theorem State.refuse_beaconWaiting (feed : Nat) (r : RefusalReason) : (s.refuse feed r).beaconWaiting = s.beaconWaiting := rfl
@[simp] theorem State.refuse_askQueue (feed : Nat) (r : RefusalReason) : (s.refuse feed r).askQueue = s.askQueue := rfl
@[simp] theorem State.refuse_mendQueue (feed : Nat) (r : RefusalReason) : (s.refuse feed r).mendQueue = s.mendQueue := rfl
@[simp] theorem State.refuse_captureTx (feed : Nat) (r : RefusalReason) : (s.refuse feed r).captureTx = s.captureTx := rfl
@[simp] theorem State.refuse_counters (feed : Nat) (r : RefusalReason) : (s.refuse feed r).counters = s.counters := rfl
@[simp] theorem State.refuse_dupNumber (feed : Nat) (r : RefusalReason) : (s.refuse feed r).dupNumber = s.dupNumber := rfl
@[simp] theorem State.refuse_peers (feed : Nat) (r : RefusalReason) : (s.refuse feed r).peers = s.peers := rfl
@[simp] theorem State.refuse_adopted (feed : Nat) (r : RefusalReason) : (s.refuse feed r).adopted = s.adopted := rfl
@[simp] theorem State.refuse_contexts (feed : Nat) (r : RefusalReason) : (s.refuse feed r).contexts = s.contexts := rfl
@[simp] theorem State.refuse_closedIds (feed : Nat) (r : RefusalReason) : (s.refuse feed r).closedIds = s.closedIds := rfl
@[simp] theorem State.refuse_ring (feed : Nat) (r : RefusalReason) : (s.refuse feed r).ring = s.ring := rfl
@[simp] theorem State.refuse_answers (feed : Nat) (r : RefusalReason) : (s.refuse feed r).answers = s.answers := rfl
@[simp] theorem State.refuse_table (feed : Nat) (r : RefusalReason) : (s.refuse feed r).table = s.table := rfl
@[simp] theorem State.refuse_quietUntil (feed : Nat) (r : RefusalReason) : (s.refuse feed r).quietUntil = s.quietUntil := rfl
@[simp] theorem State.refuse_localHold (feed : Nat) (r : RefusalReason) : (s.refuse feed r).localHold = s.localHold := rfl
@[simp] theorem State.refuse_timeoutRun (feed : Nat) (r : RefusalReason) : (s.refuse feed r).timeoutRun = s.timeoutRun := rfl
@[simp] theorem State.refuse_probeTimer (feed : Nat) (r : RefusalReason) : (s.refuse feed r).probeTimer = s.probeTimer := rfl
@[simp] theorem State.refuse_probeWaiting (feed : Nat) (r : RefusalReason) : (s.refuse feed r).probeWaiting = s.probeWaiting := rfl
@[simp] theorem State.refuse_waitChecks (feed : Nat) (r : RefusalReason) : (s.refuse feed r).waitChecks = s.waitChecks := rfl
@[simp] theorem State.refuse_waitRewrites (feed : Nat) (r : RefusalReason) : (s.refuse feed r).waitRewrites = s.waitRewrites := rfl
@[simp] theorem State.refuse_waitMarks (feed : Nat) (r : RefusalReason) : (s.refuse feed r).waitMarks = s.waitMarks := rfl
@[simp] theorem State.refuse_lastServed (feed : Nat) (r : RefusalReason) : (s.refuse feed r).lastServed = s.lastServed := rfl
@[simp] theorem State.refuse_gathers (feed : Nat) (r : RefusalReason) : (s.refuse feed r).gathers = s.gathers := rfl
@[simp] theorem State.refuse_arrived (feed : Nat) (r : RefusalReason) : (s.refuse feed r).arrived = s.arrived := rfl
@[simp] theorem State.refuse_storageTx (feed : Nat) (r : RefusalReason) : (s.refuse feed r).storageTx = s.storageTx := rfl
@[simp] theorem State.refuse_waitJobs (feed : Nat) (r : RefusalReason) : (s.refuse feed r).waitJobs = s.waitJobs := rfl
@[simp] theorem State.refuse_queueJobs (feed : Nat) (r : RefusalReason) : (s.refuse feed r).queueJobs = s.queueJobs := rfl
@[simp] theorem State.refuse_shedJobs (feed : Nat) (r : RefusalReason) : (s.refuse feed r).shedJobs = s.shedJobs := rfl
@[simp] theorem State.refuse_browseReady (feed : Nat) (r : RefusalReason) : (s.refuse feed r).browseReady = s.browseReady := rfl

/-! `startLinger` -/

@[simp] theorem State.startLinger_pending (feed : Nat) : (s.startLinger feed).pending = s.pending := rfl
@[simp] theorem State.startLinger_now (feed : Nat) : (s.startLinger feed).now = s.now := rfl
@[simp] theorem State.startLinger_nextUid (feed : Nat) : (s.startLinger feed).nextUid = s.nextUid := rfl
@[simp] theorem State.startLinger_draws (feed : Nat) : (s.startLinger feed).draws = s.draws := rfl
@[simp] theorem State.startLinger_station (feed : Nat) : (s.startLinger feed).station = s.station := rfl
@[simp] theorem State.startLinger_faultReason (feed : Nat) : (s.startLinger feed).faultReason = s.faultReason := rfl
@[simp] theorem State.startLinger_settings (feed : Nat) : (s.startLinger feed).settings = s.settings := rfl
@[simp] theorem State.startLinger_clamped (feed : Nat) : (s.startLinger feed).clamped = s.clamped := rfl
@[simp] theorem State.startLinger_confMem (feed : Nat) : (s.startLinger feed).confMem = s.confMem := rfl
@[simp] theorem State.startLinger_recordWrite (feed : Nat) : (s.startLinger feed).recordWrite = s.recordWrite := rfl
@[simp] theorem State.startLinger_maintAnswers (feed : Nat) : (s.startLinger feed).maintAnswers = s.maintAnswers := rfl
@[simp] theorem State.startLinger_maintTx (feed : Nat) : (s.startLinger feed).maintTx = s.maintTx := rfl
@[simp] theorem State.startLinger_listenUntil (feed : Nat) : (s.startLinger feed).listenUntil = s.listenUntil := rfl
@[simp] theorem State.startLinger_linkUp (feed : Nat) : (s.startLinger feed).linkUp = s.linkUp := rfl
@[simp] theorem State.startLinger_beaconTimer (feed : Nat) : (s.startLinger feed).beaconTimer = s.beaconTimer := rfl
@[simp] theorem State.startLinger_beaconWaiting (feed : Nat) : (s.startLinger feed).beaconWaiting = s.beaconWaiting := rfl
@[simp] theorem State.startLinger_askQueue (feed : Nat) : (s.startLinger feed).askQueue = s.askQueue := rfl
@[simp] theorem State.startLinger_mendQueue (feed : Nat) : (s.startLinger feed).mendQueue = s.mendQueue := rfl
@[simp] theorem State.startLinger_captureTx (feed : Nat) : (s.startLinger feed).captureTx = s.captureTx := rfl
@[simp] theorem State.startLinger_counters (feed : Nat) : (s.startLinger feed).counters = s.counters := rfl
@[simp] theorem State.startLinger_dupNumber (feed : Nat) : (s.startLinger feed).dupNumber = s.dupNumber := rfl
@[simp] theorem State.startLinger_peers (feed : Nat) : (s.startLinger feed).peers = s.peers := rfl
@[simp] theorem State.startLinger_adopted (feed : Nat) : (s.startLinger feed).adopted = s.adopted := rfl
@[simp] theorem State.startLinger_closedIds (feed : Nat) : (s.startLinger feed).closedIds = s.closedIds := rfl
@[simp] theorem State.startLinger_lastRefusal (feed : Nat) : (s.startLinger feed).lastRefusal = s.lastRefusal := rfl
@[simp] theorem State.startLinger_ring (feed : Nat) : (s.startLinger feed).ring = s.ring := rfl
@[simp] theorem State.startLinger_answers (feed : Nat) : (s.startLinger feed).answers = s.answers := rfl
@[simp] theorem State.startLinger_table (feed : Nat) : (s.startLinger feed).table = s.table := rfl
@[simp] theorem State.startLinger_quietUntil (feed : Nat) : (s.startLinger feed).quietUntil = s.quietUntil := rfl
@[simp] theorem State.startLinger_localHold (feed : Nat) : (s.startLinger feed).localHold = s.localHold := rfl
@[simp] theorem State.startLinger_timeoutRun (feed : Nat) : (s.startLinger feed).timeoutRun = s.timeoutRun := rfl
@[simp] theorem State.startLinger_probeTimer (feed : Nat) : (s.startLinger feed).probeTimer = s.probeTimer := rfl
@[simp] theorem State.startLinger_probeWaiting (feed : Nat) : (s.startLinger feed).probeWaiting = s.probeWaiting := rfl
@[simp] theorem State.startLinger_waitChecks (feed : Nat) : (s.startLinger feed).waitChecks = s.waitChecks := rfl
@[simp] theorem State.startLinger_waitRewrites (feed : Nat) : (s.startLinger feed).waitRewrites = s.waitRewrites := rfl
@[simp] theorem State.startLinger_waitMarks (feed : Nat) : (s.startLinger feed).waitMarks = s.waitMarks := rfl
@[simp] theorem State.startLinger_lastServed (feed : Nat) : (s.startLinger feed).lastServed = s.lastServed := rfl
@[simp] theorem State.startLinger_gathers (feed : Nat) : (s.startLinger feed).gathers = s.gathers := rfl
@[simp] theorem State.startLinger_arrived (feed : Nat) : (s.startLinger feed).arrived = s.arrived := rfl
@[simp] theorem State.startLinger_storageTx (feed : Nat) : (s.startLinger feed).storageTx = s.storageTx := rfl
@[simp] theorem State.startLinger_waitJobs (feed : Nat) : (s.startLinger feed).waitJobs = s.waitJobs := rfl
@[simp] theorem State.startLinger_queueJobs (feed : Nat) : (s.startLinger feed).queueJobs = s.queueJobs := rfl
@[simp] theorem State.startLinger_shedJobs (feed : Nat) : (s.startLinger feed).shedJobs = s.shedJobs := rfl
@[simp] theorem State.startLinger_browseReady (feed : Nat) : (s.startLinger feed).browseReady = s.browseReady := rfl

/-! `noteDelay` -/

@[simp] theorem State.noteDelay_pending (feed : Nat) : (s.noteDelay feed).pending = s.pending := rfl
@[simp] theorem State.noteDelay_now (feed : Nat) : (s.noteDelay feed).now = s.now := rfl
@[simp] theorem State.noteDelay_nextUid (feed : Nat) : (s.noteDelay feed).nextUid = s.nextUid := rfl
@[simp] theorem State.noteDelay_draws (feed : Nat) : (s.noteDelay feed).draws = s.draws := rfl
@[simp] theorem State.noteDelay_station (feed : Nat) : (s.noteDelay feed).station = s.station := rfl
@[simp] theorem State.noteDelay_faultReason (feed : Nat) : (s.noteDelay feed).faultReason = s.faultReason := rfl
@[simp] theorem State.noteDelay_settings (feed : Nat) : (s.noteDelay feed).settings = s.settings := rfl
@[simp] theorem State.noteDelay_clamped (feed : Nat) : (s.noteDelay feed).clamped = s.clamped := rfl
@[simp] theorem State.noteDelay_confMem (feed : Nat) : (s.noteDelay feed).confMem = s.confMem := rfl
@[simp] theorem State.noteDelay_recordWrite (feed : Nat) : (s.noteDelay feed).recordWrite = s.recordWrite := rfl
@[simp] theorem State.noteDelay_maintAnswers (feed : Nat) : (s.noteDelay feed).maintAnswers = s.maintAnswers := rfl
@[simp] theorem State.noteDelay_maintTx (feed : Nat) : (s.noteDelay feed).maintTx = s.maintTx := rfl
@[simp] theorem State.noteDelay_listenUntil (feed : Nat) : (s.noteDelay feed).listenUntil = s.listenUntil := rfl
@[simp] theorem State.noteDelay_linkUp (feed : Nat) : (s.noteDelay feed).linkUp = s.linkUp := rfl
@[simp] theorem State.noteDelay_beaconTimer (feed : Nat) : (s.noteDelay feed).beaconTimer = s.beaconTimer := rfl
@[simp] theorem State.noteDelay_beaconWaiting (feed : Nat) : (s.noteDelay feed).beaconWaiting = s.beaconWaiting := rfl
@[simp] theorem State.noteDelay_askQueue (feed : Nat) : (s.noteDelay feed).askQueue = s.askQueue := rfl
@[simp] theorem State.noteDelay_mendQueue (feed : Nat) : (s.noteDelay feed).mendQueue = s.mendQueue := rfl
@[simp] theorem State.noteDelay_captureTx (feed : Nat) : (s.noteDelay feed).captureTx = s.captureTx := rfl
@[simp] theorem State.noteDelay_counters (feed : Nat) : (s.noteDelay feed).counters = s.counters := rfl
@[simp] theorem State.noteDelay_dupNumber (feed : Nat) : (s.noteDelay feed).dupNumber = s.dupNumber := rfl
@[simp] theorem State.noteDelay_peers (feed : Nat) : (s.noteDelay feed).peers = s.peers := rfl
@[simp] theorem State.noteDelay_adopted (feed : Nat) : (s.noteDelay feed).adopted = s.adopted := rfl
@[simp] theorem State.noteDelay_closedIds (feed : Nat) : (s.noteDelay feed).closedIds = s.closedIds := rfl
@[simp] theorem State.noteDelay_lastRefusal (feed : Nat) : (s.noteDelay feed).lastRefusal = s.lastRefusal := rfl
@[simp] theorem State.noteDelay_ring (feed : Nat) : (s.noteDelay feed).ring = s.ring := rfl
@[simp] theorem State.noteDelay_answers (feed : Nat) : (s.noteDelay feed).answers = s.answers := rfl
@[simp] theorem State.noteDelay_table (feed : Nat) : (s.noteDelay feed).table = s.table := rfl
@[simp] theorem State.noteDelay_quietUntil (feed : Nat) : (s.noteDelay feed).quietUntil = s.quietUntil := rfl
@[simp] theorem State.noteDelay_localHold (feed : Nat) : (s.noteDelay feed).localHold = s.localHold := rfl
@[simp] theorem State.noteDelay_timeoutRun (feed : Nat) : (s.noteDelay feed).timeoutRun = s.timeoutRun := rfl
@[simp] theorem State.noteDelay_probeTimer (feed : Nat) : (s.noteDelay feed).probeTimer = s.probeTimer := rfl
@[simp] theorem State.noteDelay_probeWaiting (feed : Nat) : (s.noteDelay feed).probeWaiting = s.probeWaiting := rfl
@[simp] theorem State.noteDelay_waitChecks (feed : Nat) : (s.noteDelay feed).waitChecks = s.waitChecks := rfl
@[simp] theorem State.noteDelay_waitRewrites (feed : Nat) : (s.noteDelay feed).waitRewrites = s.waitRewrites := rfl
@[simp] theorem State.noteDelay_waitMarks (feed : Nat) : (s.noteDelay feed).waitMarks = s.waitMarks := rfl
@[simp] theorem State.noteDelay_lastServed (feed : Nat) : (s.noteDelay feed).lastServed = s.lastServed := rfl
@[simp] theorem State.noteDelay_gathers (feed : Nat) : (s.noteDelay feed).gathers = s.gathers := rfl
@[simp] theorem State.noteDelay_arrived (feed : Nat) : (s.noteDelay feed).arrived = s.arrived := rfl
@[simp] theorem State.noteDelay_storageTx (feed : Nat) : (s.noteDelay feed).storageTx = s.storageTx := rfl
@[simp] theorem State.noteDelay_waitJobs (feed : Nat) : (s.noteDelay feed).waitJobs = s.waitJobs := rfl
@[simp] theorem State.noteDelay_queueJobs (feed : Nat) : (s.noteDelay feed).queueJobs = s.queueJobs := rfl
@[simp] theorem State.noteDelay_shedJobs (feed : Nat) : (s.noteDelay feed).shedJobs = s.shedJobs := rfl
@[simp] theorem State.noteDelay_browseReady (feed : Nat) : (s.noteDelay feed).browseReady = s.browseReady := rfl

/-! `answerLine` -/

@[simp] theorem State.answerLine_pending (a : MaintAnswer) : (s.answerLine a).pending = s.pending := rfl
@[simp] theorem State.answerLine_now (a : MaintAnswer) : (s.answerLine a).now = s.now := rfl
@[simp] theorem State.answerLine_nextUid (a : MaintAnswer) : (s.answerLine a).nextUid = s.nextUid := rfl
@[simp] theorem State.answerLine_draws (a : MaintAnswer) : (s.answerLine a).draws = s.draws := rfl
@[simp] theorem State.answerLine_station (a : MaintAnswer) : (s.answerLine a).station = s.station := rfl
@[simp] theorem State.answerLine_faultReason (a : MaintAnswer) : (s.answerLine a).faultReason = s.faultReason := rfl
@[simp] theorem State.answerLine_settings (a : MaintAnswer) : (s.answerLine a).settings = s.settings := rfl
@[simp] theorem State.answerLine_clamped (a : MaintAnswer) : (s.answerLine a).clamped = s.clamped := rfl
@[simp] theorem State.answerLine_confMem (a : MaintAnswer) : (s.answerLine a).confMem = s.confMem := rfl
@[simp] theorem State.answerLine_recordWrite (a : MaintAnswer) : (s.answerLine a).recordWrite = s.recordWrite := rfl
@[simp] theorem State.answerLine_maintTx (a : MaintAnswer) : (s.answerLine a).maintTx = s.maintTx := rfl
@[simp] theorem State.answerLine_listenUntil (a : MaintAnswer) : (s.answerLine a).listenUntil = s.listenUntil := rfl
@[simp] theorem State.answerLine_linkUp (a : MaintAnswer) : (s.answerLine a).linkUp = s.linkUp := rfl
@[simp] theorem State.answerLine_beaconTimer (a : MaintAnswer) : (s.answerLine a).beaconTimer = s.beaconTimer := rfl
@[simp] theorem State.answerLine_beaconWaiting (a : MaintAnswer) : (s.answerLine a).beaconWaiting = s.beaconWaiting := rfl
@[simp] theorem State.answerLine_askQueue (a : MaintAnswer) : (s.answerLine a).askQueue = s.askQueue := rfl
@[simp] theorem State.answerLine_mendQueue (a : MaintAnswer) : (s.answerLine a).mendQueue = s.mendQueue := rfl
@[simp] theorem State.answerLine_captureTx (a : MaintAnswer) : (s.answerLine a).captureTx = s.captureTx := rfl
@[simp] theorem State.answerLine_counters (a : MaintAnswer) : (s.answerLine a).counters = s.counters := rfl
@[simp] theorem State.answerLine_dupNumber (a : MaintAnswer) : (s.answerLine a).dupNumber = s.dupNumber := rfl
@[simp] theorem State.answerLine_peers (a : MaintAnswer) : (s.answerLine a).peers = s.peers := rfl
@[simp] theorem State.answerLine_adopted (a : MaintAnswer) : (s.answerLine a).adopted = s.adopted := rfl
@[simp] theorem State.answerLine_contexts (a : MaintAnswer) : (s.answerLine a).contexts = s.contexts := rfl
@[simp] theorem State.answerLine_closedIds (a : MaintAnswer) : (s.answerLine a).closedIds = s.closedIds := rfl
@[simp] theorem State.answerLine_lastRefusal (a : MaintAnswer) : (s.answerLine a).lastRefusal = s.lastRefusal := rfl
@[simp] theorem State.answerLine_ring (a : MaintAnswer) : (s.answerLine a).ring = s.ring := rfl
@[simp] theorem State.answerLine_answers (a : MaintAnswer) : (s.answerLine a).answers = s.answers := rfl
@[simp] theorem State.answerLine_table (a : MaintAnswer) : (s.answerLine a).table = s.table := rfl
@[simp] theorem State.answerLine_quietUntil (a : MaintAnswer) : (s.answerLine a).quietUntil = s.quietUntil := rfl
@[simp] theorem State.answerLine_localHold (a : MaintAnswer) : (s.answerLine a).localHold = s.localHold := rfl
@[simp] theorem State.answerLine_timeoutRun (a : MaintAnswer) : (s.answerLine a).timeoutRun = s.timeoutRun := rfl
@[simp] theorem State.answerLine_probeTimer (a : MaintAnswer) : (s.answerLine a).probeTimer = s.probeTimer := rfl
@[simp] theorem State.answerLine_probeWaiting (a : MaintAnswer) : (s.answerLine a).probeWaiting = s.probeWaiting := rfl
@[simp] theorem State.answerLine_waitChecks (a : MaintAnswer) : (s.answerLine a).waitChecks = s.waitChecks := rfl
@[simp] theorem State.answerLine_waitRewrites (a : MaintAnswer) : (s.answerLine a).waitRewrites = s.waitRewrites := rfl
@[simp] theorem State.answerLine_waitMarks (a : MaintAnswer) : (s.answerLine a).waitMarks = s.waitMarks := rfl
@[simp] theorem State.answerLine_lastServed (a : MaintAnswer) : (s.answerLine a).lastServed = s.lastServed := rfl
@[simp] theorem State.answerLine_gathers (a : MaintAnswer) : (s.answerLine a).gathers = s.gathers := rfl
@[simp] theorem State.answerLine_arrived (a : MaintAnswer) : (s.answerLine a).arrived = s.arrived := rfl
@[simp] theorem State.answerLine_storageTx (a : MaintAnswer) : (s.answerLine a).storageTx = s.storageTx := rfl
@[simp] theorem State.answerLine_waitJobs (a : MaintAnswer) : (s.answerLine a).waitJobs = s.waitJobs := rfl
@[simp] theorem State.answerLine_queueJobs (a : MaintAnswer) : (s.answerLine a).queueJobs = s.queueJobs := rfl
@[simp] theorem State.answerLine_shedJobs (a : MaintAnswer) : (s.answerLine a).shedJobs = s.shedJobs := rfl
@[simp] theorem State.answerLine_browseReady (a : MaintAnswer) : (s.answerLine a).browseReady = s.browseReady := rfl

/-! `cancelAnswers` -/

@[simp] theorem State.cancelAnswers_pending (feed seq : Nat) : (s.cancelAnswers feed seq).pending = s.pending := rfl
@[simp] theorem State.cancelAnswers_now (feed seq : Nat) : (s.cancelAnswers feed seq).now = s.now := rfl
@[simp] theorem State.cancelAnswers_nextUid (feed seq : Nat) : (s.cancelAnswers feed seq).nextUid = s.nextUid := rfl
@[simp] theorem State.cancelAnswers_draws (feed seq : Nat) : (s.cancelAnswers feed seq).draws = s.draws := rfl
@[simp] theorem State.cancelAnswers_station (feed seq : Nat) : (s.cancelAnswers feed seq).station = s.station := rfl
@[simp] theorem State.cancelAnswers_faultReason (feed seq : Nat) : (s.cancelAnswers feed seq).faultReason = s.faultReason := rfl
@[simp] theorem State.cancelAnswers_settings (feed seq : Nat) : (s.cancelAnswers feed seq).settings = s.settings := rfl
@[simp] theorem State.cancelAnswers_clamped (feed seq : Nat) : (s.cancelAnswers feed seq).clamped = s.clamped := rfl
@[simp] theorem State.cancelAnswers_confMem (feed seq : Nat) : (s.cancelAnswers feed seq).confMem = s.confMem := rfl
@[simp] theorem State.cancelAnswers_recordWrite (feed seq : Nat) : (s.cancelAnswers feed seq).recordWrite = s.recordWrite := rfl
@[simp] theorem State.cancelAnswers_maintAnswers (feed seq : Nat) : (s.cancelAnswers feed seq).maintAnswers = s.maintAnswers := rfl
@[simp] theorem State.cancelAnswers_maintTx (feed seq : Nat) : (s.cancelAnswers feed seq).maintTx = s.maintTx := rfl
@[simp] theorem State.cancelAnswers_listenUntil (feed seq : Nat) : (s.cancelAnswers feed seq).listenUntil = s.listenUntil := rfl
@[simp] theorem State.cancelAnswers_linkUp (feed seq : Nat) : (s.cancelAnswers feed seq).linkUp = s.linkUp := rfl
@[simp] theorem State.cancelAnswers_beaconTimer (feed seq : Nat) : (s.cancelAnswers feed seq).beaconTimer = s.beaconTimer := rfl
@[simp] theorem State.cancelAnswers_beaconWaiting (feed seq : Nat) : (s.cancelAnswers feed seq).beaconWaiting = s.beaconWaiting := rfl
@[simp] theorem State.cancelAnswers_askQueue (feed seq : Nat) : (s.cancelAnswers feed seq).askQueue = s.askQueue := rfl
@[simp] theorem State.cancelAnswers_captureTx (feed seq : Nat) : (s.cancelAnswers feed seq).captureTx = s.captureTx := rfl
@[simp] theorem State.cancelAnswers_counters (feed seq : Nat) : (s.cancelAnswers feed seq).counters = s.counters := rfl
@[simp] theorem State.cancelAnswers_dupNumber (feed seq : Nat) : (s.cancelAnswers feed seq).dupNumber = s.dupNumber := rfl
@[simp] theorem State.cancelAnswers_peers (feed seq : Nat) : (s.cancelAnswers feed seq).peers = s.peers := rfl
@[simp] theorem State.cancelAnswers_adopted (feed seq : Nat) : (s.cancelAnswers feed seq).adopted = s.adopted := rfl
@[simp] theorem State.cancelAnswers_contexts (feed seq : Nat) : (s.cancelAnswers feed seq).contexts = s.contexts := rfl
@[simp] theorem State.cancelAnswers_closedIds (feed seq : Nat) : (s.cancelAnswers feed seq).closedIds = s.closedIds := rfl
@[simp] theorem State.cancelAnswers_lastRefusal (feed seq : Nat) : (s.cancelAnswers feed seq).lastRefusal = s.lastRefusal := rfl
@[simp] theorem State.cancelAnswers_ring (feed seq : Nat) : (s.cancelAnswers feed seq).ring = s.ring := rfl
@[simp] theorem State.cancelAnswers_table (feed seq : Nat) : (s.cancelAnswers feed seq).table = s.table := rfl
@[simp] theorem State.cancelAnswers_quietUntil (feed seq : Nat) : (s.cancelAnswers feed seq).quietUntil = s.quietUntil := rfl
@[simp] theorem State.cancelAnswers_localHold (feed seq : Nat) : (s.cancelAnswers feed seq).localHold = s.localHold := rfl
@[simp] theorem State.cancelAnswers_timeoutRun (feed seq : Nat) : (s.cancelAnswers feed seq).timeoutRun = s.timeoutRun := rfl
@[simp] theorem State.cancelAnswers_probeTimer (feed seq : Nat) : (s.cancelAnswers feed seq).probeTimer = s.probeTimer := rfl
@[simp] theorem State.cancelAnswers_probeWaiting (feed seq : Nat) : (s.cancelAnswers feed seq).probeWaiting = s.probeWaiting := rfl
@[simp] theorem State.cancelAnswers_waitChecks (feed seq : Nat) : (s.cancelAnswers feed seq).waitChecks = s.waitChecks := rfl
@[simp] theorem State.cancelAnswers_waitRewrites (feed seq : Nat) : (s.cancelAnswers feed seq).waitRewrites = s.waitRewrites := rfl
@[simp] theorem State.cancelAnswers_waitMarks (feed seq : Nat) : (s.cancelAnswers feed seq).waitMarks = s.waitMarks := rfl
@[simp] theorem State.cancelAnswers_lastServed (feed seq : Nat) : (s.cancelAnswers feed seq).lastServed = s.lastServed := rfl
@[simp] theorem State.cancelAnswers_gathers (feed seq : Nat) : (s.cancelAnswers feed seq).gathers = s.gathers := rfl
@[simp] theorem State.cancelAnswers_arrived (feed seq : Nat) : (s.cancelAnswers feed seq).arrived = s.arrived := rfl
@[simp] theorem State.cancelAnswers_storageTx (feed seq : Nat) : (s.cancelAnswers feed seq).storageTx = s.storageTx := rfl
@[simp] theorem State.cancelAnswers_waitJobs (feed seq : Nat) : (s.cancelAnswers feed seq).waitJobs = s.waitJobs := rfl
@[simp] theorem State.cancelAnswers_queueJobs (feed seq : Nat) : (s.cancelAnswers feed seq).queueJobs = s.queueJobs := rfl
@[simp] theorem State.cancelAnswers_shedJobs (feed seq : Nat) : (s.cancelAnswers feed seq).shedJobs = s.shedJobs := rfl
@[simp] theorem State.cancelAnswers_browseReady (feed seq : Nat) : (s.cancelAnswers feed seq).browseReady = s.browseReady := rfl

/-! `seeMendCell` -/

@[simp] theorem State.seeMendCell_pending (feed seq index : Nat) : (s.seeMendCell feed seq index).pending = s.pending := rfl
@[simp] theorem State.seeMendCell_now (feed seq index : Nat) : (s.seeMendCell feed seq index).now = s.now := rfl
@[simp] theorem State.seeMendCell_nextUid (feed seq index : Nat) : (s.seeMendCell feed seq index).nextUid = s.nextUid := rfl
@[simp] theorem State.seeMendCell_draws (feed seq index : Nat) : (s.seeMendCell feed seq index).draws = s.draws := rfl
@[simp] theorem State.seeMendCell_station (feed seq index : Nat) : (s.seeMendCell feed seq index).station = s.station := rfl
@[simp] theorem State.seeMendCell_faultReason (feed seq index : Nat) : (s.seeMendCell feed seq index).faultReason = s.faultReason := rfl
@[simp] theorem State.seeMendCell_settings (feed seq index : Nat) : (s.seeMendCell feed seq index).settings = s.settings := rfl
@[simp] theorem State.seeMendCell_clamped (feed seq index : Nat) : (s.seeMendCell feed seq index).clamped = s.clamped := rfl
@[simp] theorem State.seeMendCell_confMem (feed seq index : Nat) : (s.seeMendCell feed seq index).confMem = s.confMem := rfl
@[simp] theorem State.seeMendCell_recordWrite (feed seq index : Nat) : (s.seeMendCell feed seq index).recordWrite = s.recordWrite := rfl
@[simp] theorem State.seeMendCell_maintAnswers (feed seq index : Nat) : (s.seeMendCell feed seq index).maintAnswers = s.maintAnswers := rfl
@[simp] theorem State.seeMendCell_maintTx (feed seq index : Nat) : (s.seeMendCell feed seq index).maintTx = s.maintTx := rfl
@[simp] theorem State.seeMendCell_listenUntil (feed seq index : Nat) : (s.seeMendCell feed seq index).listenUntil = s.listenUntil := rfl
@[simp] theorem State.seeMendCell_linkUp (feed seq index : Nat) : (s.seeMendCell feed seq index).linkUp = s.linkUp := rfl
@[simp] theorem State.seeMendCell_beaconTimer (feed seq index : Nat) : (s.seeMendCell feed seq index).beaconTimer = s.beaconTimer := rfl
@[simp] theorem State.seeMendCell_beaconWaiting (feed seq index : Nat) : (s.seeMendCell feed seq index).beaconWaiting = s.beaconWaiting := rfl
@[simp] theorem State.seeMendCell_askQueue (feed seq index : Nat) : (s.seeMendCell feed seq index).askQueue = s.askQueue := rfl
@[simp] theorem State.seeMendCell_captureTx (feed seq index : Nat) : (s.seeMendCell feed seq index).captureTx = s.captureTx := rfl
@[simp] theorem State.seeMendCell_counters (feed seq index : Nat) : (s.seeMendCell feed seq index).counters = s.counters := rfl
@[simp] theorem State.seeMendCell_dupNumber (feed seq index : Nat) : (s.seeMendCell feed seq index).dupNumber = s.dupNumber := rfl
@[simp] theorem State.seeMendCell_peers (feed seq index : Nat) : (s.seeMendCell feed seq index).peers = s.peers := rfl
@[simp] theorem State.seeMendCell_adopted (feed seq index : Nat) : (s.seeMendCell feed seq index).adopted = s.adopted := rfl
@[simp] theorem State.seeMendCell_contexts (feed seq index : Nat) : (s.seeMendCell feed seq index).contexts = s.contexts := rfl
@[simp] theorem State.seeMendCell_closedIds (feed seq index : Nat) : (s.seeMendCell feed seq index).closedIds = s.closedIds := rfl
@[simp] theorem State.seeMendCell_lastRefusal (feed seq index : Nat) : (s.seeMendCell feed seq index).lastRefusal = s.lastRefusal := rfl
@[simp] theorem State.seeMendCell_ring (feed seq index : Nat) : (s.seeMendCell feed seq index).ring = s.ring := rfl
@[simp] theorem State.seeMendCell_table (feed seq index : Nat) : (s.seeMendCell feed seq index).table = s.table := rfl
@[simp] theorem State.seeMendCell_quietUntil (feed seq index : Nat) : (s.seeMendCell feed seq index).quietUntil = s.quietUntil := rfl
@[simp] theorem State.seeMendCell_localHold (feed seq index : Nat) : (s.seeMendCell feed seq index).localHold = s.localHold := rfl
@[simp] theorem State.seeMendCell_timeoutRun (feed seq index : Nat) : (s.seeMendCell feed seq index).timeoutRun = s.timeoutRun := rfl
@[simp] theorem State.seeMendCell_probeTimer (feed seq index : Nat) : (s.seeMendCell feed seq index).probeTimer = s.probeTimer := rfl
@[simp] theorem State.seeMendCell_probeWaiting (feed seq index : Nat) : (s.seeMendCell feed seq index).probeWaiting = s.probeWaiting := rfl
@[simp] theorem State.seeMendCell_waitChecks (feed seq index : Nat) : (s.seeMendCell feed seq index).waitChecks = s.waitChecks := rfl
@[simp] theorem State.seeMendCell_waitRewrites (feed seq index : Nat) : (s.seeMendCell feed seq index).waitRewrites = s.waitRewrites := rfl
@[simp] theorem State.seeMendCell_waitMarks (feed seq index : Nat) : (s.seeMendCell feed seq index).waitMarks = s.waitMarks := rfl
@[simp] theorem State.seeMendCell_lastServed (feed seq index : Nat) : (s.seeMendCell feed seq index).lastServed = s.lastServed := rfl
@[simp] theorem State.seeMendCell_gathers (feed seq index : Nat) : (s.seeMendCell feed seq index).gathers = s.gathers := rfl
@[simp] theorem State.seeMendCell_arrived (feed seq index : Nat) : (s.seeMendCell feed seq index).arrived = s.arrived := rfl
@[simp] theorem State.seeMendCell_storageTx (feed seq index : Nat) : (s.seeMendCell feed seq index).storageTx = s.storageTx := rfl
@[simp] theorem State.seeMendCell_waitJobs (feed seq index : Nat) : (s.seeMendCell feed seq index).waitJobs = s.waitJobs := rfl
@[simp] theorem State.seeMendCell_queueJobs (feed seq index : Nat) : (s.seeMendCell feed seq index).queueJobs = s.queueJobs := rfl
@[simp] theorem State.seeMendCell_shedJobs (feed seq index : Nat) : (s.seeMendCell feed seq index).shedJobs = s.shedJobs := rfl
@[simp] theorem State.seeMendCell_browseReady (feed seq index : Nat) : (s.seeMendCell feed seq index).browseReady = s.browseReady := rfl

end Sys2Proof.Machine
end

