-- ==== Sys2Proof/Laws/Frame.lean ====
section
/-! SUPPORT. What work on one context's window cannot touch. Every operation that the window, the marks,
the commit and the life of a context are built from leaves the rest of the station as it was: one lemma
for each, which later proofs cite instead of unfolding it. -/

namespace Sys2Proof.Machine

/-- The station without what window work may change. -/
def State.outside (s : State) : State :=
  { s with
    contexts := [], ring := [], askQueue := [], waitChecks := [], waitRewrites := [],
    waitMarks := [], waitJobs := [], queueJobs := [], shedJobs := [], browseReady := [],
    nextUid := 0 }

/-- The ring's entries in their places, their pins aside. -/
def State.chunks (s : State) : List RingEntry := s.ring.map (fun e => { e with pins := 0 })

/-- `t` differs from `s` in window work alone: nothing outside it changed, the same feeds have
contexts, and the ring holds the same chunks. -/
def State.SameOutside (s t : State) : Prop :=
  t.outside = s.outside ∧ t.feeds = s.feeds ∧ t.chunks = s.chunks

theorem State.SameOutside.refl (s : State) : s.SameOutside s := ⟨rfl, rfl, rfl⟩

theorem State.SameOutside.trans {s t u : State} (h : s.SameOutside t) (k : t.SameOutside u) : s.SameOutside u :=
  ⟨k.1.trans h.1, k.2.1.trans h.2.1, k.2.2.trans h.2.2⟩

/-- A fold of framed steps is framed. -/
theorem State.SameOutside.foldl {α : Type} (f : State → α → State)
    (h : ∀ (s : State) (a : α), s.SameOutside (f s a)) :
    ∀ (l : List α) (s : State), s.SameOutside (l.foldl f s)
  | [], s => .refl s
  | a :: l, s => (h s a).trans (State.SameOutside.foldl f h l (f s a))

theorem State.frame_mapCtx (s : State) (feed : Nat) (g : FeedContext → FeedContext)
    (hg : ∀ c, (g c).feed = c.feed := by intro c; rfl) : s.SameOutside (s.mapCtx feed g) := by
  refine ⟨rfl, ?_, rfl⟩
  simp only [State.feeds, State.mapCtx, List.map_map]
  exact List.map_congr_left (fun c _ => by simp only [Function.comp]; split <;> simp [hg])

theorem State.frame_mapPos (s : State) (feed seq : Nat) (g : Position → Position) :
    s.SameOutside (s.mapPos feed seq g) :=
  s.frame_mapCtx feed _

theorem State.frame_mapEntry (s : State) (feed seq : Nat) (g : RingEntry → RingEntry)
    (hg : ∀ e, { g e with pins := 0 } = { e with pins := 0 }) : s.SameOutside (s.mapEntry feed seq g) := by
  refine ⟨rfl, rfl, ?_⟩
  simp only [State.chunks, State.mapEntry, List.map_map]
  exact List.map_congr_left (fun e _ => by simp only [Function.comp]; split <;> simp [hg])

theorem State.frame_pin (s : State) (feed seq : Nat) : s.SameOutside (s.pin feed seq) :=
  s.frame_mapEntry feed seq _ (fun _ => rfl)

theorem State.frame_unpin (s : State) (feed seq : Nat) : s.SameOutside (s.unpin feed seq) :=
  s.frame_mapEntry feed seq _ (fun _ => rfl)

/-- A change of the fields the frame leaves aside. -/
theorem State.frame_of_eq {s t : State} (h : t.outside = s.outside) (hc : t.contexts = s.contexts)
    (hr : t.ring = s.ring) : s.SameOutside t :=
  ⟨h, by simp only [State.feeds, hc], by simp only [State.chunks, hr]⟩

theorem State.frame_releasePin (s : State) (feed seq : Nat) : s.SameOutside (s.releasePin feed seq) := by
  unfold State.releasePin
  split
  · split
    · exact (s.frame_mapPos ..).trans (State.frame_unpin ..)
    · exact .refl s
  · exact .refl s

theorem State.frame_withdrawAsk (s : State) (feed seq : Nat) : s.SameOutside (s.withdrawAsk feed seq) :=
  State.frame_of_eq rfl rfl rfl

theorem State.frame_withdrawJob (s : State) (feed seq : Nat) : s.SameOutside (s.withdrawJob feed seq) :=
  State.frame_of_eq rfl rfl rfl

theorem State.frame_withdrawJobs (s : State) (feed : Nat) : s.SameOutside (s.withdrawJobs feed) :=
  State.frame_of_eq rfl rfl rfl

theorem State.frame_withdrawWaiting (s : State) (feed seq : Nat) :
    s.SameOutside (s.withdrawWaiting feed seq) :=
  State.frame_of_eq rfl rfl rfl

theorem State.frame_syncRewrite (s : State) (feed : Nat) : s.SameOutside (s.syncRewrite feed) := by
  unfold State.syncRewrite
  split
  · split
    · exact .refl s
    · exact State.frame_of_eq rfl rfl rfl
  · exact State.frame_of_eq rfl rfl rfl

theorem State.frame_latchOverrun (s : State) (feed : Nat) (h : ChunkHeader) :
    s.SameOutside (s.latchOverrun feed h) :=
  s.frame_mapCtx feed _ (fun c => by split <;> rfl)

theorem State.frame_handOverChunk (s : State) (feed seq : Nat) (h : ChunkHeader) :
    s.SameOutside (s.handOverChunk feed seq h) := by
  unfold State.handOverChunk
  split
  · exact .refl s
  · simp only
    split
    · exact .refl s
    · split
      · exact (State.frame_of_eq rfl rfl rfl).trans (State.frame_latchOverrun ..)
      · exact (State.frame_of_eq rfl rfl rfl).trans (State.frame_latchOverrun ..)

theorem State.frame_handOverChunkless (s : State) (feed seq : Nat) :
    s.SameOutside (s.handOverChunkless feed seq) := by
  unfold State.handOverChunkless
  split
  · exact .refl s
  · split
    · exact .refl s
    · exact State.frame_of_eq rfl rfl rfl

theorem State.frame_takeChunk (s : State) (feed seq : Nat) (h : ChunkHeader) :
    s.SameOutside (s.takeChunk feed seq h) := by
  unfold State.takeChunk
  split
  · exact .refl s
  · have key : ∀ t, s.SameOutside t → s.SameOutside
        (((t.pin feed seq).withdrawAsk feed seq).withdrawWaiting feed seq) := fun t ht =>
      ((ht.trans (t.frame_pin ..)).trans (State.frame_withdrawAsk ..)).trans
        (State.frame_withdrawWaiting ..)
    simp only
    split
    · exact (key _ (s.frame_mapPos ..)).trans (State.frame_handOverChunk ..)
    · exact key _ (s.frame_mapPos ..)

theorem State.frame_lookup (s : State) (feed seq : Nat) : s.SameOutside (s.lookup feed seq) := by
  unfold State.lookup
  split
  · exact s.frame_mapPos ..
  · split
    · exact s.frame_takeChunk ..
    · exact s.frame_mapPos ..

theorem State.frame_gapTestAt (s : State) (feed seq : Nat) : s.SameOutside (s.gapTestAt feed seq) := by
  unfold State.gapTestAt
  split
  · exact s.frame_mapCtx feed _
  · exact .refl s

theorem State.frame_createPos (s : State) (feed seq : Nat) : s.SameOutside (s.createPos feed seq) := by
  unfold State.createPos
  split
  · exact .refl s
  · split
    · exact ((s.frame_mapCtx feed _).trans (State.frame_lookup ..)).trans (State.frame_gapTestAt ..)
    · exact .refl s

theorem State.frame_fillSpan (s : State) (feed : Nat) : s.SameOutside (s.fillSpan feed) := by
  unfold State.fillSpan
  split
  · exact .refl s
  · split
    · split
      · exact .refl s
      · exact State.SameOutside.foldl _ (fun t q => t.frame_createPos feed q) _ s
    · exact .refl s

theorem State.frame_gapTest (s : State) (feed : Nat) : s.SameOutside (s.gapTest feed) := by
  unfold State.gapTest
  split
  · exact s.frame_mapCtx feed _
  · exact .refl s

theorem State.frame_dropPos (s : State) (feed seq : Nat) : s.SameOutside (s.dropPos feed seq) :=
  (((((s.frame_releasePin feed seq).trans (State.frame_withdrawAsk ..)).trans
    (State.frame_withdrawJob ..)).trans (State.frame_withdrawWaiting ..)).trans
    (State.frame_mapCtx _ feed _)).trans (State.frame_syncRewrite ..)

theorem State.frame_dropPositions (s : State) (feed : Nat) (seqs : List Nat) :
    s.SameOutside (s.dropPositions feed seqs) :=
  State.SameOutside.foldl _ (fun t q => t.frame_dropPos feed q) seqs s

theorem State.frame_dropWindow (s : State) (feed : Nat) : s.SameOutside (s.dropWindow feed) := by
  unfold State.dropWindow
  split
  · exact .refl s
  · exact ((s.frame_dropPositions ..).trans (State.frame_withdrawJobs ..)).trans
      (State.frame_mapCtx _ feed _)

theorem State.frame_trim (s : State) (feed : Nat) : s.SameOutside (s.trim feed) := by
  unfold State.trim
  split
  · exact .refl s
  · exact s.frame_dropPositions ..

theorem State.frame_refreshWindow (s : State) (feed : Nat) : s.SameOutside (s.refreshWindow feed) :=
  (s.frame_trim feed).trans (State.frame_fillSpan ..)

theorem State.frame_completePos (s : State) (feed seq : Nat) : s.SameOutside (s.completePos feed seq) := by
  unfold State.completePos
  split
  · exact .refl s
  · split
    · exact ((s.frame_releasePin ..).trans (State.frame_mapPos ..)).trans (State.frame_withdrawAsk ..)
    · exact .refl s

theorem State.frame_reportCreated (s : State) (feed seq : Nat) :
    s.SameOutside (s.reportCreated feed seq) := by
  unfold State.reportCreated
  split
  · split
    · exact .refl s
    · split
      · exact s.frame_mapPos ..
      · exact .refl s
  · exact .refl s

theorem State.frame_reportRemoved (s : State) (feed seq : Nat) :
    s.SameOutside (s.reportRemoved feed seq) := by
  unfold State.reportRemoved
  split
  · split
    · exact .refl s
    · split
      · exact (s.frame_mapPos ..).trans (State.frame_gapTestAt ..)
      · exact .refl s
  · exact .refl s

theorem State.frame_reportWhole (s : State) (feed seq : Nat) (h : ChunkHeader) :
    s.SameOutside (s.reportWhole feed seq h) := by
  unfold State.reportWhole
  repeat' split
  all_goals first
    | exact .refl s
    | exact s.frame_takeChunk ..
    | exact s.frame_mapCtx feed _

theorem State.frame_gainLanding (s : State) (feed seq : Nat) (p : Position) :
    s.SameOutside (s.gainLanding feed seq p) := by
  unfold State.gainLanding
  split
  · exact s.frame_mapPos ..
  · exact ((s.frame_mapPos ..).trans (State.frame_lookup ..)).trans (State.frame_gapTestAt ..)

theorem State.frame_gainBrowse (s : State) (feed seq : Nat) (p : Position) :
    s.SameOutside (s.gainBrowse feed seq p) := by
  unfold State.gainBrowse
  have h1 := s.frame_mapPos feed seq (fun p =>
    { p with wantsBrowse := true, browse := some .waiting })
  revert h1
  generalize (s.mapPos feed seq (fun p =>
    { p with wantsBrowse := true, browse := some .waiting })) = s1
  intro h1
  simp only
  split
  · split
    · exact h1.trans (s1.frame_handOverChunk ..)
    · split
      · split
        · exact ((h1.trans (s1.frame_mapPos ..)).trans (State.frame_pin ..)).trans
            (State.frame_handOverChunk ..)
        · exact h1.trans (s1.frame_handOverChunkless ..)
      · exact h1
  · split
    · exact h1.trans (s1.frame_handOverChunkless ..)
    · exact h1

theorem State.frame_gainJob (s : State) (feed : Nat) (k : WorkKind) (seq : Nat) :
    s.SameOutside (s.gainJob feed k seq) := by
  unfold State.gainJob
  repeat' split
  all_goals first
    | exact .refl s
    | exact s.frame_gainLanding ..
    | exact s.frame_gainBrowse ..

theorem State.frame_loseLanding (s : State) (feed seq : Nat) (p : Position) :
    s.SameOutside (s.loseLanding feed seq p) := by
  unfold State.loseLanding
  simp only
  split
  · exact (((s.frame_withdrawWaiting ..).trans (State.frame_mapPos ..)).trans
      (State.frame_syncRewrite ..)).trans (State.frame_handOverChunkless ..)
  · exact ((s.frame_withdrawWaiting ..).trans (State.frame_mapPos ..)).trans
      (State.frame_syncRewrite ..)

theorem State.frame_loseBrowse (s : State) (feed seq : Nat) : s.SameOutside (s.loseBrowse feed seq) :=
  (s.frame_withdrawJob ..).trans (State.frame_mapPos ..)

theorem State.frame_loseJob (s : State) (feed : Nat) (k : WorkKind) (seq : Nat) :
    s.SameOutside (s.loseJob feed k seq) := by
  unfold State.loseJob
  repeat' split
  all_goals first
    | exact .refl s
    | exact s.frame_dropPos ..
    | exact (s.frame_loseLanding ..).trans (State.frame_completePos ..)
    | exact (s.frame_loseBrowse ..).trans (State.frame_completePos ..)

theorem State.frame_noteDelay (s : State) (feed : Nat) : s.SameOutside (s.noteDelay feed) :=
  s.frame_mapCtx feed _

end Sys2Proof.Machine
end

