-- ==== Sys2Proof/Laws/Context.lean ====
section
/-! SUPPORT. The frame of the operations that move a context through its life: marks, commit, E, FINAL,
ABORTED and FAULTED. Each touches window work alone (State.SameOutside). -/

namespace Sys2Proof.Machine

theorem State.frame_markFallsDue (s : State) (feed : Nat) : s.SameOutside (s.markFallsDue feed) := by
  unfold State.markFallsDue
  split
  · exact .refl s
  · split
    · exact .refl s
    · split
      · exact s.frame_mapCtx feed _
      · split
        · exact .refl s
        · exact State.frame_of_eq rfl rfl rfl

theorem State.frame_paceTest (s : State) (feed : Nat) : s.SameOutside (s.paceTest feed) := by
  unfold State.paceTest
  split
  · exact .refl s
  · split
    · exact s.frame_markFallsDue ..
    · exact .refl s

theorem State.frame_recomputeCommit (s : State) (feed : Nat) : s.SameOutside (s.recomputeCommit feed) := by
  unfold State.recomputeCommit
  split
  · exact .refl s
  · simp only
    split
    · exact (s.frame_mapCtx feed _).trans (State.frame_paceTest ..)
    · exact .refl s

theorem State.frame_recomputeCommits (s : State) : s.SameOutside s.recomputeCommits :=
  State.SameOutside.foldl _ (fun t f => t.frame_recomputeCommit f) s.feeds s

theorem State.frame_pacingExpires (s : State) (feed : Nat) : s.SameOutside (s.pacingExpires feed) := by
  unfold State.pacingExpires
  split
  · exact .refl s
  · split
    · exact (s.frame_mapCtx feed _).trans (State.frame_paceTest ..)
    · exact .refl s

theorem FeedContext.reachEnd_feed (c : FeedContext) : c.reachEnd.feed = c.feed := by
  unfold FeedContext.reachEnd; split <;> rfl

theorem State.frame_enterFinal (s : State) (feed : Nat) : s.SameOutside (s.enterFinal feed) :=
  (((s.frame_mapCtx feed _).trans (State.frame_dropWindow ..)).trans
    (State.frame_recomputeCommit ..)).trans (State.frame_markFallsDue ..)

theorem State.frame_finalTest (s : State) (feed : Nat) : s.SameOutside (s.finalTest feed) := by
  unfold State.finalTest
  split
  · exact .refl s
  · split
    · exact s.frame_enterFinal ..
    · exact .refl s

theorem State.frame_afterMarks (s : State) (feed : Nat) (commit : Bool) :
    s.SameOutside (s.afterMarks feed commit) := by
  unfold State.afterMarks
  have h := (s.frame_mapCtx feed _ FeedContext.reachEnd_feed).trans (State.frame_refreshWindow _ feed)
  simp only
  split
  · exact (h.trans (State.frame_recomputeCommit ..)).trans (State.frame_finalTest ..)
  · exact h.trans (State.frame_finalTest ..)

theorem State.frame_afterDone (s : State) (feed : Nat) : s.SameOutside (s.afterDone feed) :=
  (s.frame_mapCtx feed _ (fun c => by split <;> rfl)).trans (State.frame_afterMarks ..)

theorem FeedContext.offerEnd_feed (e : Nat) (c : FeedContext) : (c.offerEnd e).feed = c.feed := by
  unfold FeedContext.offerEnd; split <;> rfl

theorem State.frame_startLinger (s : State) (feed : Nat) : s.SameOutside (s.startLinger feed) :=
  s.frame_mapCtx feed _ (fun c => by split <;> rfl)

theorem State.frame_discardWork (s : State) (feed : Nat) : s.SameOutside (s.discardWork feed) :=
  State.frame_of_eq rfl rfl rfl

theorem State.frame_takeEnd (s : State) (feed e : Nat) : s.SameOutside (s.takeEnd feed e) := by
  unfold State.takeEnd
  split
  · exact .refl s
  · split
    · exact ((s.frame_mapCtx feed _ (FeedContext.offerEnd_feed e)).trans
        (State.frame_afterMarks ..)).trans (State.frame_gapTest ..)
    · exact .refl s

theorem State.frame_takeEnd? (s : State) (feed : Nat) (e : Mark) : s.SameOutside (s.takeEnd? feed e) := by
  cases e with
  | none => exact .refl s
  | some e => exact s.frame_takeEnd feed e

theorem State.frame_enterAborted (s : State) (feed : Nat) : s.SameOutside (s.enterAborted feed) :=
  (((s.frame_dropWindow feed).trans (State.frame_discardWork ..)).trans
    (State.frame_mapCtx _ feed _)).trans (State.frame_markFallsDue ..)

theorem State.frame_enterFaulted (s : State) (feed : Nat) : s.SameOutside (s.enterFaulted feed) :=
  (((s.frame_dropWindow feed).trans (State.frame_discardWork ..)).trans
    (State.frame_mapCtx _ feed _)).trans (State.frame_of_eq rfl rfl rfl)

theorem State.frame_abortContext (s : State) (feed : Nat) : s.SameOutside (s.abortContext feed) := by
  unfold State.abortContext
  repeat' split
  all_goals first
    | exact .refl s
    | exact s.frame_enterAborted ..
    | exact s.frame_startLinger ..

theorem State.frame_closeContext (s : State) (feed : Nat) (e : Mark) :
    s.SameOutside (s.closeContext feed e) := by
  unfold State.closeContext
  repeat' split
  all_goals first
    | exact .refl s
    | exact s.frame_takeEnd ..
    | exact s.frame_startLinger ..

theorem State.frame_buildWindow (s : State) (feed : Nat) : s.SameOutside (s.buildWindow feed) :=
  (s.frame_mapCtx feed _ (fun c => by split <;> rfl)).trans (State.frame_refreshWindow ..)

theorem State.frame_gainJobs (s : State) (feed : Nat) (k : WorkKind) (w : Way) :
    s.SameOutside (s.gainJobs feed k w) := by
  unfold State.gainJobs
  split
  · exact .refl s
  · exact State.SameOutside.foldl _ (fun t q => t.frame_gainJob feed k q) _ s

theorem State.frame_lookAgain (s : State) (feed : Nat) : s.SameOutside (s.lookAgain feed) := by
  unfold State.lookAgain
  split
  · exact .refl s
  · exact State.SameOutside.foldl _ (fun t q => t.frame_lookup feed q) _ s

theorem State.frame_updateWindow (s : State) (feed : Nat) : s.SameOutside (s.updateWindow feed) :=
  ((s.frame_lookAgain ..).trans (State.frame_buildWindow ..)).trans (State.frame_gapTest ..)

theorem State.frame_sight (s : State) (feed seq : Nat) : s.SameOutside (s.sight feed seq) := by
  unfold State.sight
  split
  · exact .refl s
  · split
    · exact (s.frame_mapCtx feed _ (fun c => by
        unfold FeedContext.assessAllotment; split <;> rfl)).trans (State.frame_gapTest ..)
    · exact .refl s

/-- A frame keeps every field outside window work; for any observation of them. -/
theorem State.SameOutside.observe {α : Type} {s t : State} (h : s.SameOutside t) (g : State → α)
    (hg : ∀ u : State, g u = g u.outside) : g t = g s := by
  rw [hg t, hg s, h.1]

/-- A frame keeps the buffers in use. -/
theorem State.SameOutside.buffersUsed {s t : State} (h : s.SameOutside t) : t.buffersUsed = s.buffersUsed := by
  have key : ∀ u : State, u.buffersUsed = (u.chunks.map (fun e => e.cells.length)).sum := fun u => by
    simp [State.buffersUsed, State.chunks, Function.comp_def]
  rw [key t, key s, h.2.2]

end Sys2Proof.Machine
end

