-- ==== Sys2Proof/Laws/Lookup.lean ====
section
/-! SUPPORT. Lookups after updates: what `ctx?`, `pos?`, `entry?` and `peer?` give after each shared
operation that changes what they look through. -/

namespace Sys2Proof.Machine

/-! ### Lists with a key -/

/-- A lookup after a map that keeps the key. -/
theorem find?_map_key {α : Type} {p : α → Bool} {g : α → α} (h : ∀ a, p (g a) = p a) (l : List α) :
    (l.map g).find? p = (l.find? p).map g := by
  rw [List.find?_map]
  congr 2
  exact funext h

/-- A lookup does not see what a filter takes out elsewhere. -/
theorem find?_filter_of_imp {α : Type} {p q : α → Bool} (h : ∀ a, p a = true → q a = true)
    (l : List α) : (l.filter q).find? p = l.find? p := by
  rw [List.find?_filter]
  congr 1
  funext a
  cases hp : p a <;> simp_all

/-! ### Contexts -/

theorem State.ctx?_feed {s : State} {feed : Nat} {c : FeedContext} (h : s.ctx? feed = some c) :
    c.feed = feed := by
  simpa using List.find?_some h

theorem State.ctx?_mem {s : State} {feed : Nat} {c : FeedContext} (h : s.ctx? feed = some c) :
    c ∈ s.contexts :=
  List.mem_of_find?_eq_some h

/-- The context of a feed after a change of the context of one feed. -/
theorem State.ctx?_mapCtx (s : State) (feed g : Nat) (f : FeedContext → FeedContext)
    (hf : ∀ c, (f c).feed = c.feed := by intro c; rfl) :
    (s.mapCtx feed f).ctx? g = (s.ctx? g).map (fun c => if g == feed then f c else c) := by
  have hk : ∀ c : FeedContext, ((if (c.feed == feed) = true then f c else c).feed == g)
      = (c.feed == g) := fun c => by split <;> simp [hf]
  simp only [State.ctx?, State.mapCtx]
  rw [find?_map_key (p := fun c : FeedContext => c.feed == g) hk]
  cases h : s.contexts.find? (fun c => c.feed == g) with
  | none => rfl
  | some c =>
    have hc : c.feed = g := by simpa using List.find?_some h
    simp [hc]

@[simp] theorem State.ctx?_mapCtx_ne {s : State} {feed g : Nat} {f : FeedContext → FeedContext}
    (hf : ∀ c, (f c).feed = c.feed) (h : g ≠ feed) : (s.mapCtx feed f).ctx? g = s.ctx? g := by
  simp [s.ctx?_mapCtx feed g f hf, h]

/-- A context put into the table is found, and the others as before. -/
theorem State.ctx?_addCtx (s : State) (c : FeedContext) (h : s.ctx? c.feed = none) (g : Nat) :
    (s.addCtx c).ctx? g = if g = c.feed then some c else s.ctx? g := by
  simp only [State.ctx?, State.addCtx] at h ⊢
  generalize s.contexts = l at h ⊢
  induction l with
  | nil =>
    by_cases hg : g = c.feed
    · simp [insertCtx, hg]
    · have : ¬ c.feed = g := fun e => hg e.symm
      simp [insertCtx, hg, this]
  | cons d l ih =>
    have hd : d.feed ≠ c.feed := by simpa using (List.find?_eq_none.mp h) d (by simp)
    have hl : l.find? (fun x => x.feed == c.feed) = none := by
      rw [List.find?_eq_none] at h ⊢
      exact fun x hx => h x (by simp [hx])
    unfold insertCtx
    split
    · by_cases hg : g = c.feed
      · simp [hg]
      · have : ¬ c.feed = g := fun e => hg e.symm
        simp [hg, this]
    · by_cases hdg : d.feed = g
      · have : g ≠ c.feed := fun e => hd (hdg.trans e)
        simp [hdg, this]
      · simp [hdg, ih hl]

/-- The place of a feed emptied: no context of it is found, and the others as before. -/
theorem State.ctx?_removeCtx (s : State) (feed g : Nat) :
    (s.removeCtx feed).ctx? g = if g = feed then none else s.ctx? g := by
  simp only [State.ctx?, State.removeCtx]
  split
  · next h => simp [h]
  · next h =>
    exact find?_filter_of_imp (fun c hc => by
      have : c.feed = g := by simpa using hc
      simp [this, h]) _

/-! ### Positions -/

theorem State.pos?_seq {s : State} {feed seq : Nat} {p : Position} (h : s.pos? feed seq = some p) :
    p.seq = seq := by
  simp only [State.pos?, FeedContext.pos?, Option.bind_eq_some_iff] at h
  obtain ⟨c, -, h⟩ := h
  simpa using List.find?_some h

/-- The position of a sequence number after a change of one position of the context. -/
theorem FeedContext.pos?_mapPos (c : FeedContext) (seq q : Nat) (f : Position → Position)
    (hf : ∀ p, (f p).seq = p.seq := by intro p; rfl) :
    (c.mapPos seq f).pos? q = (c.pos? q).map (fun p => if q == seq then f p else p) := by
  have hk : ∀ p : Position, ((if (p.seq == seq) = true then f p else p).seq == q)
      = (p.seq == q) := fun p => by split <;> simp [hf]
  simp only [FeedContext.pos?, FeedContext.mapPos]
  rw [find?_map_key (p := fun p : Position => p.seq == q) hk]
  cases h : c.positions.find? (fun p => p.seq == q) with
  | none => rfl
  | some p =>
    have hp : p.seq = q := by simpa using List.find?_some h
    simp [hp]

/-- The position of a feed and sequence number after a change of one position. -/
theorem State.pos?_mapPos (s : State) (feed seq g q : Nat) (f : Position → Position)
    (hf : ∀ p, (f p).seq = p.seq := by intro p; rfl) :
    (s.mapPos feed seq f).pos? g q
      = (s.pos? g q).map (fun p => if g == feed && q == seq then f p else p) := by
  simp only [State.pos?, State.mapPos]
  rw [s.ctx?_mapCtx feed g (fun c => c.mapPos seq f) (fun c => rfl)]
  cases h : s.ctx? g with
  | none => rfl
  | some c =>
    by_cases hg : g = feed
    · simp only [hg, beq_self_eq_true, if_true, Option.map_some, Option.bind_some, Bool.true_and]
      exact c.pos?_mapPos seq q f hf
    · simp only [show (g == feed) = false by simpa using hg, Bool.false_and, Option.map_some,
        Option.bind_some]
      cases h' : c.pos? q <;> simp [h']

/-! ### Ring entries -/

theorem State.entry?_key {s : State} {feed seq : Nat} {e : RingEntry}
    (h : s.entry? feed seq = some e) : e.feed = feed ∧ e.seq = seq := by
  simpa using List.find?_some h

/-- The entry of a chunk after a change of one entry. -/
theorem State.entry?_mapEntry (s : State) (feed seq g q : Nat) (f : RingEntry → RingEntry)
    (hf : ∀ e, (f e).feed = e.feed ∧ (f e).seq = e.seq := by intro e; exact ⟨rfl, rfl⟩) :
    (s.mapEntry feed seq f).entry? g q
      = (s.entry? g q).map (fun e => if g == feed && q == seq then f e else e) := by
  have hk : ∀ e : RingEntry,
      ((if (e.feed == feed && e.seq == seq) = true then f e else e).feed == g
        && (if (e.feed == feed && e.seq == seq) = true then f e else e).seq == q)
      = (e.feed == g && e.seq == q) := fun e => by split <;> simp [hf]
  simp only [State.entry?, State.mapEntry]
  rw [find?_map_key (p := fun e : RingEntry => e.feed == g && e.seq == q) hk]
  cases h : s.ring.find? (fun e => e.feed == g && e.seq == q) with
  | none => rfl
  | some e =>
    have he : e.feed = g ∧ e.seq = q := by simpa using List.find?_some h
    simp [he.1, he.2]

/-- An entry removed is not found, and the others as before. -/
theorem State.entry?_dropEntry (s : State) (feed seq g q : Nat) :
    (s.dropEntry feed seq).entry? g q
      = if g = feed ∧ q = seq then none else s.entry? g q := by
  simp only [State.entry?, State.dropEntry]
  split
  · next h =>
    simp only [List.find?_eq_none, List.mem_filter, h.1, h.2]
    exact fun e he hb => by
      have := he.2
      rw [hb] at this
      exact absurd this (by decide)
  · next h =>
    exact find?_filter_of_imp (fun e he => by
      have : e.feed = g ∧ e.seq = q := by simpa using he
      simp only [this.1, this.2]
      have h' : ¬g = feed ∨ ¬q = seq := not_and_or.mp h
      simpa using h') _

/-! ### The Storage Request Table -/

/-- The lowest FREE entry (R112). -/
theorem State.freeTag_eq {s : State} {tag : Fin 16} (h : s.table[tag] = .free)
    (hl : ∀ u : Fin 16, u < tag → s.table[u] ≠ .free) : s.freeTag = some tag := by
  cases hf : s.freeTag with
  | none => exact absurd (by simpa using h) ((List.find?_eq_none.mp hf) tag (List.mem_finRange tag))
  | some u =>
    obtain ⟨hu, i, hi, hget, hmin⟩ := List.find?_eq_some_iff_getElem.mp hf
    have hui : u.val = i := by rw [← hget]; simp
    rcases Nat.lt_trichotomy u.val tag.val with hlt | heq | hgt
    · exact absurd (by simpa using hu) (hl u hlt)
    · exact congrArg some (Fin.ext heq)
    · have := hmin tag.val (by omega)
      simp [h] at this

/-- No entry FREE: no tag. -/
theorem State.freeTag_none {s : State} (h : ∀ t : Fin 16, s.table[t] ≠ .free) : s.freeTag = none := by
  simpa [State.freeTag, List.find?_eq_none] using h

end Sys2Proof.Machine
end

