-- ==== Sys2Proof/Laws/Receive.lean ====
section
/-! SUPPORT. What each command comes down to: a receive command hands its frame to the one sorter, a
frame that is heard goes to the block of its kind, and an answer command takes the answer that waits. -/

namespace Sys2Proof.Machine

/-! ### Frames -/

/-- Every receive command hands its frame to the sorter. -/
theorem exec_receive {f : Frame} {i : Instr} (h : i ∈ receiveCommands f) (s : State) :
    exec i s = .next (s.receiveFrame f) := by
  simp only [receiveCommands, List.mem_cons, List.not_mem_nil, or_false] at h
  rcases h with h | h | h | h | h | h | h | h | h | h | h | h | h | h | h <;> subst h <;> rfl

/-- A frame that is not taken changes nothing (R49, R50). -/
theorem State.receiveFrame_of_not_taken {s : State} {f : Frame}
    (h : s.receives = false ∨ f.ftype ≠ Config.captureType) : s.receiveFrame f = s := by
  rcases h with h | h <;> simp [State.receiveFrame, h]

/-- A heard frame goes by its kind code. -/
theorem State.receiveFrame_of_hears {s : State} {f : Frame} {k : Byte} (h : s.Hears f k) :
    s.receiveFrame f = s.sortFrame f := by
  simp [State.receiveFrame, h.1, h.2.1, h.2.2.1]

/-- A heard beacon is received by the Beacon Unit. -/
theorem State.receiveFrame_beacon {s : State} {f : Frame} (h : s.Hears f 0x03#8) :
    s.receiveFrame f = s.receiveBeacon f.body := by
  rw [State.receiveFrame_of_hears h]
  simp [State.sortFrame, h.2.2.2]

/-- A heard mend ask is received by the Mend Unit. -/
theorem State.receiveFrame_ask {s : State} {f : Frame} (h : s.Hears f 0x04#8) :
    s.receiveFrame f = s.receiveAsk f.body := by
  rw [State.receiveFrame_of_hears h]
  simp [State.sortFrame, h.2.2.2]

/-- A well-formed cell that is heard is taken through its steps, a mend cell reported first (R53). -/
theorem State.receiveFrame_cell {s : State} {f : Frame} {mend : Bool} {c : Cell}
    (h : s.HearsCell f mend c) :
    s.receiveFrame f = (if mend then s.seeMendCell c.feed c.seq c.index else s).takeCell c := by
  obtain ⟨h, hp, h1, h2⟩ := h
  rw [State.receiveFrame_of_hears h]
  have hk := h.2.2.2
  cases mend <;> simp at hk <;> simp [State.sortFrame, hk, State.intakeCell, hp, h1, h2]

/-- A well-formed directive that is heard is applied (R167). -/
theorem State.receiveFrame_directive {s : State} {f : Frame} {d : Directive}
    (h : s.HearsDirective f d) : s.receiveFrame f = s.applyDirective d := by
  rw [State.receiveFrame_of_hears h.1]
  simp [State.sortFrame, h.1.2.2.2, State.receiveDirective, h.2]

/-- A mend cell's report changes the answers and the queued mend cells alone (R101). -/
theorem State.seeMendCell_frame (s : State) (feed seq index : Nat) :
    { s.seeMendCell feed seq index with answers := s.answers, mendQueue := s.mendQueue } = s := rfl

/-! ### Answers -/

/-- The command of a request kind takes the oldest answer of that kind. -/
theorem exec_answerCommand (k : ReqKind) (s : State) :
    exec (answerCommand k) s = .next (s.takeAnswerOf k) := by
  cases k <;> rfl

/-- The answer that waits leaves the list of arrived ones and is taken (R113). -/
theorem State.takeAnswerOf_of_answered {s : State} {m : List Byte} {a : StorageAnswer}
    (h : s.Answered m a) :
    s.takeAnswerOf a.kind = ({ s with arrived := s.arrived.erase m } : State).takeAnswer a := by
  simp [State.takeAnswerOf, h.1, h.2]

/-- An answer to an ISSUED request that some work owns: the entry is FREE, the answer has its effect on
the timeout run, the hold and the counter, and the owner is handed the outcome (R113, R116). -/
theorem State.takeAnswer_owned {s : State} {a : StorageAnswer} {r : Request}
    (ht : s.table[a.tag] = .issued r) (hk : r.purpose.kind = a.kind)
    (hn : a.kind = .check → a.outcome = .done → a.entries.length = r.slots.length)
    (ho : s.owned r = true) :
    s.takeAnswer a = ((s.setEntry a.tag .free).answerEffects a.outcome).handToOwner r a.entries
      a.outcome.handed := by
  have hc : (a.kind == .check && a.outcome == .done && a.entries.length != r.slots.length) = false := by
    by_cases h1 : a.kind = .check
    · by_cases h2 : a.outcome = .done
      · simp [h1, h2, hn h1 h2]
      · simp [h2]
    · simp [h1]
  simp only [State.takeAnswer, ht, hk, hc, ho, bne_self_eq_false, Bool.false_eq_true, if_false,
    if_true]

/-- What an answer does before its owner is told: nothing but the timeout run, the storage refusals
counter, the local hold with its probe timer, and the shed ages. -/
theorem State.answerEffects_frame (s : State) (o : AnswerOutcome) :
    (s.answerEffects o).contexts = s.contexts ∧ (s.answerEffects o).table = s.table
      ∧ (s.answerEffects o).ring = s.ring ∧ (s.answerEffects o).now = s.now
      ∧ (s.answerEffects o).nextUid = s.nextUid ∧ (s.answerEffects o).settings = s.settings
      ∧ (s.answerEffects o).waitChecks = s.waitChecks
      ∧ (s.answerEffects o).waitMarks = s.waitMarks ∧ (s.answerEffects o).arrived = s.arrived := by
  have hfull : ∀ t : State, t.setLocalHold = t ∨ t.setLocalHold = ({ t with
      localHold := true, probeTimer := some (t.now + t.settings.beaconPeriod) } : State).syncShedAges :=
    fun t => by unfold State.setLocalHold; split <;> simp
  cases o with
  | full =>
    simp only [State.answerEffects]
    rcases hfull s.countStorageRefusal with h | h <;> rw [h] <;>
      exact ⟨rfl, rfl, rfl, rfl, rfl, rfl, rfl, rfl, rfl⟩
  | done => exact ⟨rfl, rfl, rfl, rfl, rfl, rfl, rfl, rfl, rfl⟩
  | denied => exact ⟨rfl, rfl, rfl, rfl, rfl, rfl, rfl, rfl, rfl⟩
  | range => exact ⟨rfl, rfl, rfl, rfl, rfl, rfl, rfl, rfl, rfl⟩

end Sys2Proof.Machine
end

