-- ==== Sys2Proof/Laws/Touch.lean ====
section
/-! SUPPORT. What work on one feed's context does to the Feed Context Table: every other feed's context
is as it was, and the feed's own, where it has one, keeps what a context keeps (FeedContext.Carries).
One lemma for each operation that the window, the marks, the commit and the life of a context are built
from, beside its frame (Laws/Frame.lean, Laws/Context.lean). -/

namespace Sys2Proof.Machine

theorem FeedContext.Carries.refl (c : FeedContext) : c.Carries c :=
  ⟨rfl, rfl, rfl, rfl, Nat.le_refl _, Nat.le_refl _, id, id, id, id, id, id, id⟩

theorem FeedContext.Carries.trans {c d e : FeedContext} (h : c.Carries d) (k : d.Carries e) :
    c.Carries e := by
  obtain ⟨a1, a2, a3, a4, a5, a6, a7, a8, a9, a10, a11, a12, a13⟩ := h
  obtain ⟨b1, b2, b3, b4, b5, b6, b7, b8, b9, b10, b11, b12, b13⟩ := k
  exact ⟨b1.trans a1, b2.trans a2, b3.trans a3, b4.trans a4, a5.trans b5, a6.trans b6, b7 ∘ a7,
    b8 ∘ a8, b9 ∘ a9, b10 ∘ a10, b11 ∘ a11, b12 ∘ a12, b13 ∘ a13⟩

/-- `t` differs from `s` in the context of one feed alone, which is there in `t` exactly where it is in
`s` and carries what it had. -/
def State.Touches (feed : Nat) (s t : State) : Prop :=
  (∀ g, g ≠ feed → t.ctx? g = s.ctx? g)
    ∧ (∀ c, s.ctx? feed = some c → ∃ d, t.ctx? feed = some d ∧ c.Carries d)
    ∧ (s.ctx? feed = none → t.ctx? feed = none)

theorem State.Touches.refl {feed : Nat} (s : State) : s.Touches feed s :=
  ⟨fun _ _ => rfl, fun c h => ⟨c, h, .refl c⟩, id⟩

theorem State.Touches.trans {feed : Nat} {s t u : State} (h : s.Touches feed t)
    (k : t.Touches feed u) : s.Touches feed u := by
  refine ⟨fun g hg => (k.1 g hg).trans (h.1 g hg), fun c hc => ?_, fun hn => k.2.2 (h.2.2 hn)⟩
  obtain ⟨d, hd, h1⟩ := h.2.1 c hc
  obtain ⟨e, he, h2⟩ := k.2.1 d hd
  exact ⟨e, he, h1.trans h2⟩

theorem State.Touches.foldl {feed : Nat} {α : Type} (f : State → α → State)
    (h : ∀ (s : State) (a : α), s.Touches feed (f s a)) :
    ∀ (l : List α) (s : State), s.Touches feed (l.foldl f s)
  | [], s => .refl s
  | a :: l, s => (h s a).trans (State.Touches.foldl f h l (f s a))

/-- A change that leaves the contexts alone. -/
theorem State.touch_of_eq {feed : Nat} {s t : State} (h : t.contexts = s.contexts) :
    s.Touches feed t := by
  have hc : ∀ g, t.ctx? g = s.ctx? g := fun g => by simp only [State.ctx?, h]
  exact ⟨fun g _ => hc g, fun c h1 => ⟨c, (hc feed).trans h1, .refl c⟩, fun h1 => (hc feed).trans h1⟩

/-- A change of one feed's context that carries what the context found had. -/
theorem State.touch_mapCtx_of (s : State) (feed : Nat) (g : FeedContext → FeedContext)
    (hf : ∀ c, (g c).feed = c.feed) (hg : ∀ c, s.ctx? feed = some c → c.Carries (g c)) :
    s.Touches feed (s.mapCtx feed g) := by
  refine ⟨fun h hne => State.ctx?_mapCtx_ne hf hne, fun c hc => ⟨g c, ?_, hg c hc⟩, fun hn => ?_⟩
  · rw [s.ctx?_mapCtx feed feed g hf, hc]; simp
  · rw [s.ctx?_mapCtx feed feed g hf, hn]; rfl

/-- A change of one feed's context that every context carries through. -/
theorem State.touch_mapCtx (s : State) (feed : Nat) (g : FeedContext → FeedContext)
    (hg : ∀ c, (g c).feed = c.feed ∧ c.Carries (g c) := by
      intro c; exact ⟨rfl, FeedContext.Carries.refl c⟩) : s.Touches feed (s.mapCtx feed g) :=
  s.touch_mapCtx_of feed g (fun c => (hg c).1) (fun c _ => (hg c).2)

theorem State.touch_mapPos (s : State) (feed seq : Nat) (g : Position → Position) :
    s.Touches feed (s.mapPos feed seq g) :=
  s.touch_mapCtx feed _

theorem State.touch_pin (s : State) (feed seq : Nat) : s.Touches feed (s.pin feed seq) :=
  State.touch_of_eq rfl

theorem State.touch_unpin (s : State) (feed seq : Nat) : s.Touches feed (s.unpin feed seq) :=
  State.touch_of_eq rfl

theorem FeedContext.reachEnd_carries (c : FeedContext) :
    c.reachEnd.feed = c.feed ∧ c.Carries c.reachEnd := by
  unfold FeedContext.reachEnd; split <;> exact ⟨rfl, .refl c⟩

theorem State.touch_releasePin (s : State) (feed seq : Nat) : s.Touches feed (s.releasePin feed seq) := by
  unfold State.releasePin
  split
  · split
    · exact (s.touch_mapPos ..).trans (State.touch_unpin ..)
    · exact .refl s
  · exact .refl s

theorem State.touch_withdrawAsk (s : State) (feed seq : Nat) : s.Touches feed (s.withdrawAsk feed seq) :=
  State.touch_of_eq rfl

theorem State.touch_withdrawJob (s : State) (feed seq : Nat) : s.Touches feed (s.withdrawJob feed seq) :=
  State.touch_of_eq rfl

theorem State.touch_withdrawJobs (s : State) (feed : Nat) : s.Touches feed (s.withdrawJobs feed) :=
  State.touch_of_eq rfl

theorem State.touch_withdrawWaiting (s : State) (feed seq : Nat) :
    s.Touches feed (s.withdrawWaiting feed seq) :=
  State.touch_of_eq rfl

theorem State.touch_syncRewrite (s : State) (feed : Nat) : s.Touches feed (s.syncRewrite feed) := by
  unfold State.syncRewrite
  split
  · split
    · exact .refl s
    · exact State.touch_of_eq rfl
  · exact State.touch_of_eq rfl

theorem State.touch_latchOverrun (s : State) (feed : Nat) (h : ChunkHeader) :
    s.Touches feed (s.latchOverrun feed h) :=
  s.touch_mapCtx feed _ (fun c => by
    split
    · exact ⟨rfl, rfl, rfl, rfl, rfl, Nat.le_refl _, Nat.le_refl _, id, id, fun _ => rfl, id, id, id, id⟩
    · exact ⟨rfl, .refl c⟩)

theorem State.touch_handOverChunk (s : State) (feed seq : Nat) (h : ChunkHeader) :
    s.Touches feed (s.handOverChunk feed seq h) := by
  unfold State.handOverChunk
  split
  · exact .refl s
  · simp only
    split
    · exact .refl s
    · split
      · exact (State.touch_of_eq rfl).trans (State.touch_latchOverrun ..)
      · exact (State.touch_of_eq rfl).trans (State.touch_latchOverrun ..)

theorem State.touch_handOverChunkless (s : State) (feed seq : Nat) :
    s.Touches feed (s.handOverChunkless feed seq) := by
  unfold State.handOverChunkless
  split
  · exact .refl s
  · split
    · exact .refl s
    · exact State.touch_of_eq rfl

theorem State.touch_takeChunk (s : State) (feed seq : Nat) (h : ChunkHeader) :
    s.Touches feed (s.takeChunk feed seq h) := by
  unfold State.takeChunk
  split
  · exact .refl s
  · have key : ∀ t, s.Touches feed t → s.Touches feed
        (((t.pin feed seq).withdrawAsk feed seq).withdrawWaiting feed seq) := fun t ht =>
      ((ht.trans (t.touch_pin ..)).trans (State.touch_withdrawAsk ..)).trans
        (State.touch_withdrawWaiting ..)
    simp only
    split
    · exact (key _ (s.touch_mapPos ..)).trans (State.touch_handOverChunk ..)
    · exact key _ (s.touch_mapPos ..)

theorem State.touch_lookup (s : State) (feed seq : Nat) : s.Touches feed (s.lookup feed seq) := by
  unfold State.lookup
  split
  · exact s.touch_mapPos ..
  · split
    · exact s.touch_takeChunk ..
    · exact s.touch_mapPos ..

theorem State.touch_gapTestAt (s : State) (feed seq : Nat) : s.Touches feed (s.gapTestAt feed seq) := by
  unfold State.gapTestAt
  split
  · exact s.touch_mapCtx feed _
  · exact .refl s

theorem State.touch_createPos (s : State) (feed seq : Nat) : s.Touches feed (s.createPos feed seq) := by
  unfold State.createPos
  split
  · exact .refl s
  · split
    · exact ((s.touch_mapCtx feed _).trans (State.touch_lookup ..)).trans (State.touch_gapTestAt ..)
    · exact .refl s

theorem State.touch_fillSpan (s : State) (feed : Nat) : s.Touches feed (s.fillSpan feed) := by
  unfold State.fillSpan
  split
  · exact .refl s
  · split
    · split
      · exact .refl s
      · exact State.Touches.foldl _ (fun t q => t.touch_createPos feed q) _ s
    · exact .refl s

theorem State.touch_gapTest (s : State) (feed : Nat) : s.Touches feed (s.gapTest feed) := by
  unfold State.gapTest
  split
  · exact s.touch_mapCtx feed _
  · exact .refl s

theorem State.touch_dropPos (s : State) (feed seq : Nat) : s.Touches feed (s.dropPos feed seq) :=
  (((((s.touch_releasePin feed seq).trans (State.touch_withdrawAsk ..)).trans
    (State.touch_withdrawJob ..)).trans (State.touch_withdrawWaiting ..)).trans
    (State.touch_mapCtx _ feed _)).trans (State.touch_syncRewrite ..)

theorem State.touch_dropPositions (s : State) (feed : Nat) (seqs : List Nat) :
    s.Touches feed (s.dropPositions feed seqs) :=
  State.Touches.foldl _ (fun t q => t.touch_dropPos feed q) seqs s

theorem State.touch_dropWindow (s : State) (feed : Nat) : s.Touches feed (s.dropWindow feed) := by
  unfold State.dropWindow
  split
  · exact .refl s
  · exact ((s.touch_dropPositions ..).trans (State.touch_withdrawJobs ..)).trans
      (State.touch_mapCtx _ feed _)

theorem State.touch_trim (s : State) (feed : Nat) : s.Touches feed (s.trim feed) := by
  unfold State.trim
  split
  · exact .refl s
  · exact s.touch_dropPositions ..

theorem State.touch_refreshWindow (s : State) (feed : Nat) : s.Touches feed (s.refreshWindow feed) :=
  (s.touch_trim feed).trans (State.touch_fillSpan ..)

theorem State.touch_completePos (s : State) (feed seq : Nat) : s.Touches feed (s.completePos feed seq) := by
  unfold State.completePos
  split
  · exact .refl s
  · split
    · exact ((s.touch_releasePin ..).trans (State.touch_mapPos ..)).trans (State.touch_withdrawAsk ..)
    · exact .refl s

theorem State.touch_reportCreated (s : State) (feed seq : Nat) :
    s.Touches feed (s.reportCreated feed seq) := by
  unfold State.reportCreated
  split
  · split
    · exact .refl s
    · split
      · exact s.touch_mapPos ..
      · exact .refl s
  · exact .refl s

theorem State.touch_reportRemoved (s : State) (feed seq : Nat) :
    s.Touches feed (s.reportRemoved feed seq) := by
  unfold State.reportRemoved
  split
  · split
    · exact .refl s
    · split
      · exact (s.touch_mapPos ..).trans (State.touch_gapTestAt ..)
      · exact .refl s
  · exact .refl s

theorem State.touch_reportWhole (s : State) (feed seq : Nat) (h : ChunkHeader) :
    s.Touches feed (s.reportWhole feed seq h) := by
  unfold State.reportWhole
  repeat' split
  all_goals first
    | exact .refl s
    | exact s.touch_takeChunk ..
    | exact s.touch_mapCtx feed _

theorem State.touch_gainLanding (s : State) (feed seq : Nat) (p : Position) :
    s.Touches feed (s.gainLanding feed seq p) := by
  unfold State.gainLanding
  split
  · exact s.touch_mapPos ..
  · exact ((s.touch_mapPos ..).trans (State.touch_lookup ..)).trans (State.touch_gapTestAt ..)

theorem State.touch_gainBrowse (s : State) (feed seq : Nat) (p : Position) :
    s.Touches feed (s.gainBrowse feed seq p) := by
  unfold State.gainBrowse
  have h1 := s.touch_mapPos feed seq (fun p =>
    { p with wantsBrowse := true, browse := some .waiting })
  revert h1
  generalize (s.mapPos feed seq (fun p =>
    { p with wantsBrowse := true, browse := some .waiting })) = s1
  intro h1
  simp only
  split
  · split
    · exact h1.trans (s1.touch_handOverChunk ..)
    · split
      · split
        · exact ((h1.trans (s1.touch_mapPos ..)).trans (State.touch_pin ..)).trans
            (State.touch_handOverChunk ..)
        · exact h1.trans (s1.touch_handOverChunkless ..)
      · exact h1
  · split
    · exact h1.trans (s1.touch_handOverChunkless ..)
    · exact h1

theorem State.touch_gainJob (s : State) (feed : Nat) (k : WorkKind) (seq : Nat) :
    s.Touches feed (s.gainJob feed k seq) := by
  unfold State.gainJob
  repeat' split
  all_goals first
    | exact .refl s
    | exact s.touch_gainLanding ..
    | exact s.touch_gainBrowse ..

theorem State.touch_loseLanding (s : State) (feed seq : Nat) (p : Position) :
    s.Touches feed (s.loseLanding feed seq p) := by
  unfold State.loseLanding
  simp only
  split
  · exact (((s.touch_withdrawWaiting ..).trans (State.touch_mapPos ..)).trans
      (State.touch_syncRewrite ..)).trans (State.touch_handOverChunkless ..)
  · exact ((s.touch_withdrawWaiting ..).trans (State.touch_mapPos ..)).trans
      (State.touch_syncRewrite ..)

theorem State.touch_loseBrowse (s : State) (feed seq : Nat) : s.Touches feed (s.loseBrowse feed seq) :=
  (s.touch_withdrawJob ..).trans (State.touch_mapPos ..)

theorem State.touch_loseJob (s : State) (feed : Nat) (k : WorkKind) (seq : Nat) :
    s.Touches feed (s.loseJob feed k seq) := by
  unfold State.loseJob
  repeat' split
  all_goals first
    | exact .refl s
    | exact s.touch_dropPos ..
    | exact (s.touch_loseLanding ..).trans (State.touch_completePos ..)
    | exact (s.touch_loseBrowse ..).trans (State.touch_completePos ..)

theorem State.touch_noteDelay (s : State) (feed : Nat) : s.Touches feed (s.noteDelay feed) :=
  s.touch_mapCtx feed _

theorem State.touch_markFallsDue (s : State) (feed : Nat) : s.Touches feed (s.markFallsDue feed) := by
  unfold State.markFallsDue
  split
  · exact .refl s
  · split
    · exact .refl s
    · split
      · exact s.touch_mapCtx feed _
      · split
        · exact .refl s
        · exact State.touch_of_eq rfl

theorem State.touch_paceTest (s : State) (feed : Nat) : s.Touches feed (s.paceTest feed) := by
  unfold State.paceTest
  split
  · exact .refl s
  · split
    · exact s.touch_markFallsDue ..
    · exact .refl s

theorem State.touch_recomputeCommit (s : State) (feed : Nat) :
    s.Touches feed (s.recomputeCommit feed) := by
  unfold State.recomputeCommit
  split
  · exact .refl s
  · next c hc =>
    simp only
    split
    · next h =>
      refine (s.touch_mapCtx_of feed (fun d => { d with published := s.computedCommit c })
        (fun _ => rfl) (fun d hd => ?_)).trans (State.touch_paceTest ..)
      have hcd : d = c := Option.some.inj (hd.symm.trans hc)
      subst hcd
      simp only [Bool.and_eq_true, decide_eq_true_eq] at h
      exact ⟨rfl, rfl, rfl, rfl, Nat.le_of_lt h.2, Nat.le_refl _, id, id, id, id, id, id, id⟩
    · exact .refl s

theorem State.touch_pacingExpires (s : State) (feed : Nat) : s.Touches feed (s.pacingExpires feed) := by
  unfold State.pacingExpires
  split
  · exact .refl s
  · split
    · exact (s.touch_mapCtx feed _).trans (State.touch_paceTest ..)
    · exact .refl s

theorem State.touch_enterFinal (s : State) (feed : Nat) : s.Touches feed (s.enterFinal feed) :=
  (((s.touch_mapCtx feed _).trans (State.touch_dropWindow ..)).trans
    (State.touch_recomputeCommit ..)).trans (State.touch_markFallsDue ..)

theorem State.touch_finalTest (s : State) (feed : Nat) : s.Touches feed (s.finalTest feed) := by
  unfold State.finalTest
  split
  · exact .refl s
  · split
    · exact s.touch_enterFinal ..
    · exact .refl s

theorem State.touch_afterMarks (s : State) (feed : Nat) (commit : Bool) :
    s.Touches feed (s.afterMarks feed commit) := by
  unfold State.afterMarks
  have h := (s.touch_mapCtx feed _ FeedContext.reachEnd_carries).trans (State.touch_refreshWindow _ feed)
  simp only
  split
  · exact (h.trans (State.touch_recomputeCommit ..)).trans (State.touch_finalTest ..)
  · exact h.trans (State.touch_finalTest ..)

theorem State.touch_afterDone (s : State) (feed : Nat) : s.Touches feed (s.afterDone feed) :=
  (s.touch_mapCtx feed _ (fun c => by split <;> exact ⟨rfl, .refl c⟩)).trans (State.touch_afterMarks ..)

theorem FeedContext.offerEnd_carries (e : Nat) (c : FeedContext) :
    (c.offerEnd e).feed = c.feed ∧ c.Carries (c.offerEnd e) := by
  unfold FeedContext.offerEnd; split <;> exact ⟨rfl, .refl c⟩

theorem State.touch_startLinger (s : State) (feed : Nat) : s.Touches feed (s.startLinger feed) :=
  s.touch_mapCtx feed _ (fun c => by split <;> exact ⟨rfl, .refl c⟩)

theorem State.touch_discardWork (s : State) (feed : Nat) : s.Touches feed (s.discardWork feed) :=
  State.touch_of_eq rfl

theorem State.touch_takeEnd (s : State) (feed e : Nat) : s.Touches feed (s.takeEnd feed e) := by
  unfold State.takeEnd
  split
  · exact .refl s
  · split
    · exact ((s.touch_mapCtx feed _ (FeedContext.offerEnd_carries e)).trans
        (State.touch_afterMarks ..)).trans (State.touch_gapTest ..)
    · exact .refl s

theorem State.touch_takeEnd? (s : State) (feed : Nat) (e : Mark) : s.Touches feed (s.takeEnd? feed e) := by
  cases e with
  | none => exact .refl s
  | some e => exact s.touch_takeEnd feed e

theorem State.touch_enterAborted (s : State) (feed : Nat) : s.Touches feed (s.enterAborted feed) :=
  (((s.touch_dropWindow feed).trans (State.touch_discardWork ..)).trans
    (State.touch_mapCtx _ feed _)).trans (State.touch_markFallsDue ..)

theorem State.touch_enterFaulted (s : State) (feed : Nat) : s.Touches feed (s.enterFaulted feed) :=
  (((s.touch_dropWindow feed).trans (State.touch_discardWork ..)).trans
    (State.touch_mapCtx _ feed _)).trans (State.touch_of_eq rfl)

theorem State.touch_abortContext (s : State) (feed : Nat) : s.Touches feed (s.abortContext feed) := by
  unfold State.abortContext
  repeat' split
  all_goals first
    | exact .refl s
    | exact s.touch_enterAborted ..
    | exact s.touch_startLinger ..

theorem State.touch_closeContext (s : State) (feed : Nat) (e : Mark) :
    s.Touches feed (s.closeContext feed e) := by
  unfold State.closeContext
  repeat' split
  all_goals first
    | exact .refl s
    | exact s.touch_takeEnd ..
    | exact s.touch_startLinger ..

theorem State.touch_buildWindow (s : State) (feed : Nat) : s.Touches feed (s.buildWindow feed) :=
  (s.touch_mapCtx feed _ (fun c => by split <;> exact ⟨rfl, .refl c⟩)).trans (State.touch_refreshWindow ..)

theorem State.touch_gainJobs (s : State) (feed : Nat) (k : WorkKind) (w : Way) :
    s.Touches feed (s.gainJobs feed k w) := by
  unfold State.gainJobs
  split
  · exact .refl s
  · exact State.Touches.foldl _ (fun t q => t.touch_gainJob feed k q) _ s

theorem State.touch_lookAgain (s : State) (feed : Nat) : s.Touches feed (s.lookAgain feed) := by
  unfold State.lookAgain
  split
  · exact .refl s
  · exact State.Touches.foldl _ (fun t q => t.touch_lookup feed q) _ s

theorem State.touch_updateWindow (s : State) (feed : Nat) : s.Touches feed (s.updateWindow feed) :=
  ((s.touch_lookAgain ..).trans (State.touch_buildWindow ..)).trans (State.touch_gapTest ..)

theorem State.touch_sight (s : State) (feed seq : Nat) : s.Touches feed (s.sight feed seq) := by
  unfold State.sight
  split
  · exact .refl s
  · next c hc =>
    split
    · next h =>
      refine (s.touch_mapCtx_of feed _ (fun d => ?_) (fun d hd => ?_)).trans (State.touch_gapTest ..)
      · unfold FeedContext.assessAllotment; split <;> rfl
      · have hcd : d = c := Option.some.inj (hd.symm.trans hc)
        subst hcd
        have hh : Mark.ord d.h ≤ Mark.ord (some seq) := Nat.le_succ_of_le h.2
        unfold FeedContext.assessAllotment
        split
        · exact ⟨rfl, rfl, rfl, rfl, Nat.le_refl _, hh, fun _ => rfl, id, id, id, id, id, id⟩
        · exact ⟨rfl, rfl, rfl, rfl, Nat.le_refl _, hh, id, id, id, id, id, id, id⟩
    · exact .refl s

end Sys2Proof.Machine
end

