-- ==== Sys2Proof/Tests/Slice0.lean ====
section
/-! SUPPORT. The tests: the smoke tests of well-formedness, the worked numbers of the spec, small tests
of single commands, and one witness for the hypotheses of each statement. -/

namespace Sys2Proof.Tests

open Sys2Proof Sys2Proof.Machine

/-! ### Helpers -/

/-- The state a command answers. -/
def after (i : Instr) (s : State) : State :=
  match exec i s with
  | .next t => t
  | .fault _ => s
  | .refused _ => s

/-- Station 3 of the worked cases: one range over all feeds, every way held for both kinds. -/
def cfg : Settings :=
  { station := 3, groupAddr := 0x0300000000AA#48, headAddr := 0x0200000000FF#48,
    ranges := [⟨64, PerWay.same true, PerWay.same true⟩], adoptEligible := true,
    keepContexts := true, beaconPeriod := 100, gapWait := 40, landingDelay := 10, batch := 4,
    margin := 1 }

/-- A LIVE station at ms 10,000 with nothing on it. -/
def live0 : State := { State.reset with station := .live, settings := cfg, now := 10000 }

/-- A capture frame to the segment group address. -/
def cap (body : List Byte) : Frame :=
  { dest := cfg.groupAddr, src := 0x020000000001#48, ftype := Config.captureType, body := body }

/-- Open parameters that pass every check: a file of `n` slots of 65,536 bytes, one way. -/
def params (n : Nat) : OpenParams :=
  { fileId := 7#64, landingBase := 4096, browseBase := 8192, landingSlot := 65536, slotCount := n,
    browseSlot := 16384, browseSlots := 100, width := 64, height := 32, sourceRate := 8,
    browseRate := 3, factor := 2, wayFn := 0, depth := 1, cueCount := 0, cues := [] }

/-- A directive frame of a kind (R188). -/
def dir (kind feed scope : Byte) (endSeq : Mark) (p : OpenParams) : Frame :=
  cap ([0x05#8, 2#8, 0#8, kind, feed, scope, 0#8, 0#8] ++ markBytes endSeq ++ reserved 4
    ++ encodeParams p)

/-- A chunk header of one cell: `n` bytes, two source frames from `2 × seq`. -/
def hdr1 (seq : Nat) (payload : List Byte) : ChunkHeader :=
  { cells := 1, length := payload.length, first := 2 * seq, frames := 2,
    check := checkWord payload, last := false }

/-- The payload of the one-cell chunks of the tests. -/
def bytes3 : List Byte := [1#8, 2#8, 3#8]

/-- A one-cell chunk of feed 5, from the gateway. -/
def cell1 (seq : Nat) : Cell :=
  { senderKind := 0, senderNumber := 0, feed := 5, seq := seq, index := 0, hdr := hdr1 seq bytes3,
    payload := bytes3 }

/-- The header of a two-cell chunk of 8,193 bytes. -/
def hdr2 : ChunkHeader :=
  { cells := 2, length := 8193, first := 0, frames := 1, check := 0#32, last := false }

/-- The second cell of a two-cell chunk: its payload is the one byte left. -/
def cell2 : Cell :=
  { senderKind := 0, senderNumber := 0, feed := 5, seq := 0, index := 1, hdr := hdr2,
    payload := [9#8] }

/-- A ring entry of feed 5. -/
def entry (seq : Nat) (whole : Bool) (h : ChunkHeader) (cells : List (Nat × List Byte)) : RingEntry :=
  { feed := 5, seq := seq, whole := whole, hdr := h, cells := cells, pins := 0 }

/-- The WHOLE entry of `cell1 seq`. -/
def whole1 (seq : Nat) : RingEntry := entry seq true (hdr1 seq bytes3) [(0, bytes3)]

/-- A context of feed 5 over `params n`, directed, with its window built. -/
def ctx (n : Nat) : FeedContext :=
  { FeedContext.fresh 5 ⟨64, PerWay.same true, PerWay.same true⟩ (params n) .directed none none with
    windowBuilt := true }

/-- A position of feed 5 as it is created. -/
def pos0 (seq : Nat) : Position := (ctx 4).newPosition seq

/-- A LIVE station with contexts. -/
def liveWith (cs : List FeedContext) : State := { live0 with contexts := cs }

/-- A request of feed 5 in a table entry. -/
def req (uid : Nat) (p : Purpose) : Request :=
  { uid := uid, purpose := p, feed := some 5, extents := [], slots := [], seqs := [], issueNo := 1,
    issueTime := 9000 }

/-- A station with one request ISSUED under tag 0. -/
def withRequest (s : State) (r : Request) : State := { s with table := s.table.set 0 (.issued r) }

/-- An answer message: kind code, tag 0, outcome, reason and count, then the rest. -/
def answerBytes (kind outcome reason : Byte) (n : Nat) (rest : List Byte) : List Byte :=
  [kind, 0#8, outcome, reason] ++ beBytes 2 n ++ reserved 2 ++ rest

/-- A browse job of feed 5. -/
def job (uid seq : Nat) (stage : JobStage) : Job :=
  { (ctx 4).chunkJob uid seq (hdr1 seq bytes3) with stage := stage }

/-! ### Well-formedness: each check refuses an ill-formed term -/

/-- A frame of a type of neither port. -/
def otherType : Frame := { cap [] with ftype := 0x0800#16 }

theorem test_wf_unsorted : (Instr.unsortedSegmentFrame otherType).wellFormed = false := by decide

theorem test_wf_cells :
    (Instr.feedCell (cap [2#8])).wellFormed = false
      ∧ (Instr.mendCell (cap [1#8])).wellFormed = false
      ∧ (Instr.beacon (cap [4#8])).wellFormed = false
      ∧ (Instr.mendAsk (cap [3#8])).wellFormed = false := by decide

theorem test_wf_directives :
    (Instr.openFeed (cap [5#8, 2#8, 0#8, 2#8])).wellFormed = false
      ∧ (Instr.closeFeed (cap [5#8, 2#8, 0#8, 1#8])).wellFormed = false
      ∧ (Instr.abortFeed (cap [5#8, 2#8, 0#8, 1#8])).wellFormed = false
      ∧ (Instr.stationReset (cap [5#8, 2#8, 0#8, 1#8])).wellFormed = false := by decide

theorem test_wf_holds :
    (Instr.holdLand (cap [5#8, 2#8, 0#8, 4#8, 0#8, 2#8])).wellFormed = false
      ∧ (Instr.holdBrowse (cap [5#8, 2#8, 0#8, 4#8, 0#8, 3#8])).wellFormed = false
      ∧ (Instr.holdBoth (cap [5#8, 2#8, 0#8, 4#8, 0#8, 1#8])).wellFormed = false
      ∧ (Instr.releaseLand (cap [5#8, 2#8, 0#8, 4#8, 0#8, 1#8])).wellFormed = false
      ∧ (Instr.releaseBrowse (cap [5#8, 2#8, 0#8, 5#8, 0#8, 1#8])).wellFormed = false
      ∧ (Instr.releaseBoth (cap [5#8, 2#8, 0#8, 5#8, 0#8, 4#8])).wellFormed = false := by decide

theorem test_wf_operands :
    (Instr.storageFragmentReceived (cap [])).wellFormed = false
      ∧ (Instr.peerSilent 0).wellFormed = false ∧ (Instr.peerRemoved 9).wellFormed = false
      ∧ (Instr.answerBackoffExpiry 64 0).wellFormed = false
      ∧ (Instr.gapWaitExpiry 0 (2 ^ 32)).wellFormed = false
      ∧ (Instr.shedAgeExpiry 64 0).wellFormed = false
      ∧ (Instr.lingerExpiry 64).wellFormed = false ∧ (Instr.pacingTimerExpiry 64).wellFormed = false
      ∧ (Instr.landingDelayReached 64).wellFormed = false
      ∧ (Instr.decodeComplete (some [⟨2, 2, [], [], []⟩])).wellFormed = false
      ∧ (Instr.writeRecord []).wellFormed = false := by decide

/-- Well-formed terms are let through. -/
theorem test_wf_accepts :
    (Instr.holdBoth (dir 4#8 5#8 3#8 none (params 4))).wellFormed = true
      ∧ (Instr.feedCell (cap (encodeCell 1#8 (cell1 0)))).wellFormed = true
      ∧ (Instr.openFeed (dir 1#8 5#8 0#8 none (params 4))).wellFormed = true := by decide +kernel

/-! ### The worked numbers of the spec -/

/-- R187: the check word of the nine bytes "123456789". -/
theorem test_check_word_digits :
    checkWord [0x31#8, 0x32#8, 0x33#8, 0x34#8, 0x35#8, 0x36#8, 0x37#8, 0x38#8, 0x39#8]
      = 0xE3069283#32 := by decide +kernel

/-- R187: the check word of zero bytes. -/
theorem test_check_word_empty : checkWord [] = 0#32 := by decide +kernel

/-- R26, worked case: depth 2, s = 13 (ONE, TWO-LOW, TWO-HIGH, FOUR), and its edges. -/
theorem test_ways_depth_two :
    (List.range 4).map (fun fn => effectiveWay fn 2 13) = [0, 0, 2, 2]
      ∧ [0, 1, 2, 3, 4, 5, 6, 7].map (effectiveWay 1 2) = [0, 0, 1, 1, 0, 0, 1, 1]
      ∧ [0, 1, 2, 3, 4, 5, 6, 7].map (effectiveWay 2 2) = [0, 0, 0, 0, 2, 2, 2, 2]
      ∧ [0, 1, 2, 3, 4, 5, 6, 7].map (effectiveWay 3 2) = [0, 0, 1, 1, 2, 2, 3, 3] := by decide

/-- R119, worked case: landing base 8,388,608, slot size 1,048,576, slot 37, station 3. -/
theorem test_landing_addresses :
    let p := { params 100 with landingBase := 8388608, landingSlot := 1048576 }
    p.slotStart 37 = 47190016 ∧ p.trailerAddr 37 = 48238528 ∧ p.markAddr 3 = 8388736 := by
  decide +kernel

/-- R148, worked case: C = 10,800, browse base 0, slot size 65,536. -/
theorem test_browse_addresses :
    let p := { params 10800 with browseBase := 0, browseSlot := 65536 }
    p.indexArea = 692224 ∧ p.indexAddr 3 = 192 ∧ p.frameAddr 31 = 2723840
      ∧ p.frameAddr 40 = 3313664 := by decide +kernel

/-- R147, worked case: 1920 × 1080 at factors 2, 4 and 8, and the factor kept or raised. -/
theorem test_record_sizes :
    let p := { params 1 with width := 1920, height := 1080, factor := 4, browseSlot := 65536 }
    [2, 4, 8].map p.recordSize = [777632, 194432, 48992] ∧ p.effFactor = 8
      ∧ ({ p with browseSlot := 262144 } : OpenParams).effFactor = 4
      ∧ ({ p with browseSlot := 16384 } : OpenParams).check = some .slotTooSmall := by decide +kernel

/-- A chunk header of source frames `a` to `a + m − 1`. -/
def span (a m : Nat) : ChunkHeader :=
  { cells := 1, length := 1, first := a, frames := m, check := 0, last := false }

/-- R150, worked case: rates 9 and 2, cue 120, chunks 3 and 4. -/
theorem test_cue_at_chunk_edge :
    let p := { params 100 with sourceRate := 9, browseRate := 2, cueCount := 1, cues := [120] }
    let c := { ctx 100 with params := p, effRate := p.effRate }
    (c.writtenSet (span 90 30)).map (·.number) = List.range' 31 9
      ∧ (c.writtenSet (span 120 30)).map (·.number) = List.range' 40 11
      ∧ (c.writtenSet (span 120 30)).head? = some ⟨40, 120, true⟩
      ∧ [31, 39, 41, 50].map c.pictured = [92, 116, 122, 149] := by decide +kernel

/-- R151, worked case: rates 8 and 11, clamped; browse slot count 120 removes frames 120 to 124. -/
theorem test_clamped_rate :
    let p := { params 100 with sourceRate := 8, browseRate := 11, browseSlots := 120 }
    let c := { ctx 100 with params := p, effRate := p.effRate }
    p.rateExceeds = true ∧ (c.writtenSet (span 100 25)).length = 20
      ∧ c.overruns (span 100 25) = true := by decide +kernel

/-- A configuration record: station, range count, present bits, P, Ld, then the ranges and its check
word (R191). -/
def record (station count present : Byte) (p ld : Nat) (ranges : List Byte) : List Byte :=
  let b := [station, count, 2#8, present] ++ reserved 12 ++ beBytes 2 p ++ reserved 2 ++ beBytes 2 ld
    ++ [4#8, 0#8] ++ reserved 4 ++ ranges ++ reserved (32 - ranges.length)
  b ++ beBytes 4 (checkWord b).toNat

/-- The record of 10.7: station 4, limits 16, 40 and 64, P = 10, G absent, Ld = 500, B = 4. -/
def record107 : List Byte :=
  record 4#8 3#8 0x0D#8 10 500 [16#8, 15#8, 15#8, 0#8, 40#8, 15#8, 15#8, 0#8, 64#8, 15#8, 15#8, 0#8]

set_option maxRecDepth 20000 in
/-- R178, the worked sequence of 10.7: P and Ld clamped, G by default. -/
theorem test_clamped_record :
    recordFault record107 = none ∧ (loadSettings record107).beaconPeriod = 20
      ∧ (loadSettings record107).gapWait = 40 ∧ (loadSettings record107).landingDelay = 200
      ∧ (loadSettings record107).batch = 4 ∧ (loadSettings record107).keepContexts = true
      ∧ loadClamped record107 = ⟨true, false, true, false, false⟩ := by decide +kernel

/-- R13, worked example 1.9: E clamped to C − 1, lowered to 10,790, and held up by the end floor. -/
theorem test_end_candidates :
    let c := { ctx 10800 with lv := PerWay.same (some 10760), bv := PerWay.same (some 10760) }
    c.endAfter 12000 = some 10799
      ∧ ({ c with e := some 10799 } : FeedContext).endAfter 10790 = some 10790
      ∧ ({ c with e := some 10799 } : FeedContext).endAfter 10750 = some 10760 := by decide +kernel

/-- R13 where the clauses meet: a candidate at the known E, and one just below it. -/
theorem witness_EndCandidateRule :
    let c := { ctx 4 with e := some 2 }
    c.e = some 2 ∧ 2 ≤ min 2 (c.params.slotCount - 1) ∧ c.endAfter 2 = some 2
      ∧ min 1 (c.params.slotCount - 1) < 2 ∧ c.endAfter 1 = some 1 := by decide +kernel

/-- R20, worked example 1.9: ALLOT LOW at H = 10,543 with M = 256, not at 10,542. -/
theorem test_allot_low :
    ((({ ctx 10800 with h := some 10542 } : FeedContext).assessAllotment 256).flags.allotLow,
      (({ ctx 10800 with h := some 10543 } : FeedContext).assessAllotment 256).flags.allotLow)
      = (false, true) := by decide +kernel

/-! ### Witnesses: the hypotheses of each statement, met together -/

set_option maxRecDepth 20000 in
/-- The five conditions of R177 in turn: the check word, the number below and above, the range count and
the limits, and a record that loads. -/
theorem witness_LoadingCompletes_bad :
    State.reset.station = .loading ∧ live0.station ≠ .loading
      ∧ recordCheckOk State.reset.confMem = false := by decide +kernel

set_option maxRecDepth 20000 in
theorem witness_LoadingCompletes_numbers :
    (recordCheckOk (record 0#8 0#8 0#8 0 0 []) = true ∧ field (record 0#8 0#8 0#8 0 0 []) 0 1 < 1)
      ∧ (recordCheckOk (record 9#8 0#8 0#8 0 0 []) = true
        ∧ 8 < field (record 9#8 0#8 0#8 0 0 []) 0 1) := by decide +kernel

set_option maxRecDepth 20000 in
theorem witness_LoadingCompletes_ranges :
    (recordCheckOk (record 8#8 7#8 0#8 0 0 []) = true ∧ field (record 8#8 7#8 0#8 0 0 []) 0 1 ≤ 8
        ∧ 6 < field (record 8#8 7#8 0#8 0 0 []) 1 1)
      ∧ (recordCheckOk (record 1#8 1#8 0#8 0 0 [65#8]) = true
        ∧ 1 ≤ field (record 1#8 1#8 0#8 0 0 [65#8]) 0 1
        ∧ field (record 1#8 1#8 0#8 0 0 [65#8]) 1 1 ≤ 6
        ∧ rangesOk 0 (recordRanges (record 1#8 1#8 0#8 0 0 [65#8])) = false) := by decide +kernel

/-- The record of 10.7 ends loading well, with the link up and down. -/
theorem witness_LoadingCompletes_well :
    let s := { State.reset with confMem := record107, now := 40 }
    s.station = .loading ∧ s.linkUp = true ∧ ({ s with linkUp := false } : State).linkUp = false
      ∧ 1 ≤ field s.confMem 0 1 ∧ field s.confMem 0 1 ≤ 8 ∧ field s.confMem 1 1 ≤ 6
      ∧ rangesOk 0 (recordRanges s.confMem) = true := by decide +kernel

set_option maxRecDepth 20000 in
/-- P below, at and beyond its bounds and absent; G at 0; Ld beyond its upper bound; M as stored; a range
and its way sets (R178, R191). -/
theorem witness_LoadedSettingsInRange :
    let b := fun (present : Byte) (p : Nat) => record 1#8 1#8 present p 201 [64#8, 5#8, 10#8]
    [19, 20, 1000, 1001].map (fun p => ((loadSettings (b 31#8 p)).beaconPeriod,
        (loadClamped (b 31#8 p)).beaconPeriod))
        = [(20, true), (20, false), (1000, false), (1000, true)]
      ∧ (loadSettings (b 0#8 1001)).beaconPeriod = 100 ∧ (loadSettings (b 31#8 20)).gapWait = 5
      ∧ (loadSettings (b 31#8 20)).landingDelay = 200 ∧ (loadSettings (b 31#8 20)).margin = 0
      ∧ (loadSettings (b 0#8 20)).margin = 256
      ∧ (loadSettings (b 31#8 20)).ranges
          = [⟨64, ⟨true, false, true, false⟩, ⟨false, true, false, true⟩⟩] := by decide +kernel

/-- A write in progress, and none. -/
theorem witness_PowerResetRestoresPowerValues :
    live0.recordWrite = none
      ∧ ({ live0 with recordWrite := some record107 } : State).recordWrite = some record107 :=
  ⟨rfl, rfl⟩

theorem witness_StationResetRestarts :
    live0.HearsDirective (dir 6#8 3#8 0#8 none (params 4)) (.stationReset 3)
      ∧ live0.HearsDirective (dir 6#8 4#8 0#8 none (params 4)) (.stationReset 4)
      ∧ live0.settings.station = 3 := by decide +kernel

theorem witness_CaptureLinkFollowed :
    live0.receives = true ∧ State.reset.receives = false ∧ live0.station ≠ .detached
      ∧ ({ live0 with station := .detached } : State).settings.keepContexts = true := by decide +kernel

/-- A kept context with an adopted way, and one with none. -/
theorem witness_CaptureLinkFollowed_adopted :
    let c := { ctx 4 with landKind := ⟨.adopted, .unheld, .unheld, .unheld⟩ }
    let s := { liveWith [c] with station := .detached, adopted := [⟨5, 0, .landing⟩] }
    s.station = .detached ∧ s.settings.keepContexts = true ∧ s.TableOk ∧ s.ctx? 5 = some c
      ∧ ((after .captureLinkReturn s).ctx? 5).map (fun d => (d.kindOf .landing 0, d.kindOf .browse 0))
          = some (.unheld, .configured)
      ∧ ({ s with adopted := [] } : State).adopted = [] := by decide +kernel

/-- The LISTENING period at its end, one millisecond before it, and at its end with the flag. -/
theorem witness_ListeningEndGoesLive :
    let s := { live0 with station := .listening, listenUntil := some 10000 }
    s.station = .listening ∧ s.reached s.listenUntil = true ∧ s.dupNumber = false
      ∧ ({ s with now := 9999 } : State).reached s.listenUntil = false := by decide +kernel

/-- The window filled at the move to LIVE: H at 2 leaves position 0 behind; chunk 1 is WHOLE in the ring; a
position kept from before that is LANDING. -/
theorem witness_ListeningEndGoesLive_window :
    let c := { ctx 4 with windowBuilt := false, h := some 2,
                          positions := [{ pos0 3 with land := .landing }] }
    let s := { liveWith [c] with station := .listening, listenUntil := some 10000, ring := [whole1 1] }
    s.TableOk ∧ s.reached s.listenUntil = true ∧ s.dupNumber = false ∧ s.ctx? 5 = some c
      ∧ c.working = true ∧ (c.positions.map (·.seq)).Pairwise (· < ·)
      ∧ (∀ o ∈ c.positions, o.gapWait = none ∧ c.CalledFor o.seq ∧ c.WantsCalled o)
      ∧ (c.CalledFor 0 ∧ c.Behind 0 ∧ ¬c.Behind 2 ∧ ¬c.CalledFor 4)
      ∧ ((after .listeningPeriodEnd s).ctx? 5).map (fun d => (d.windowBuilt, d.positions.map (fun p =>
          (p.seq, p.land, p.gapWait)))) = some (true, [(0, .absent, some 10040), (1, .ready, none),
            (2, .absent, none), (3, .landing, none)]) := by and_intros <;> decide +kernel

set_option maxRecDepth 20000 in
theorem witness_RecordWrites :
    recordCheckOk record107 = true ∧ recordCheckOk (List.replicate 64 0) = false
      ∧ live0.maintAnswers = [] ∧ live0.station ≠ .loading := by decide +kernel

/-- The line with an answer that waits, with a record write in progress, and idle in and out of LOADING. -/
theorem witness_MaintenanceLineAnswers :
    let busy := { live0 with maintAnswers := [.done] }
    let writing := { live0 with recordWrite := some [] }
    busy.maintAnswers ≠ [] ∧ busy.recordWrite = none ∧ writing.recordWrite ≠ none
      ∧ State.reset.station = .loading ∧ State.reset.recordWrite = none ∧ State.reset.maintAnswers = []
      ∧ live0.station ≠ .loading ∧ live0.recordWrite = none ∧ live0.maintAnswers = [] := by
  decide +kernel

/-- Every timer at its time. -/
theorem witness_TimersRunOut :
    let s := withRequest { live0 with beaconTimer := some 10000, probeTimer := some 10000,
                                      quietUntil := some 10000 } (req 1 .probe)
    (∃ t, s.beaconTimer = some t ∧ t ≤ s.now) ∧ (∃ t, s.probeTimer = some t ∧ t ≤ s.now)
      ∧ (∃ t, s.quietUntil = some t ∧ t ≤ s.now) ∧ s.table[(0 : Fin 16)] = .issued (req 1 .probe) :=
  ⟨⟨10000, rfl, Nat.le_refl _⟩, ⟨10000, rfl, Nat.le_refl _⟩, ⟨10000, rfl, Nat.le_refl _⟩, rfl⟩

/-- A STALE entry at the end of its period. -/
theorem witness_TimersRunOut_stale :
    let s := { live0 with table := live0.table.set 5 (.stale (req 1 .landing) 10000) }
    s.table[(5 : Fin 16)] = .stale (req 1 .landing) 10000 ∧ (10000 : Nat) ≤ s.now := by decide +kernel

/-- A beacon, an ask and a mend cell that wait. -/
theorem witness_PortTransmitsInOrder :
    live0.receives = true ∧ live0.beaconWaiting = false ∧ live0.askQueue = []
      ∧ ({ live0 with askQueue := [⟨5, 1, true, [], 1⟩] } : State).askQueue
          = [⟨5, 1, true, [], 1⟩]
      ∧ ({ live0 with mendQueue := [⟨0, 5, 1, 0, hdr1 1 bytes3, bytes3⟩] } : State).mendQueue
          = [⟨0, 5, 1, 0, hdr1 1 bytes3, bytes3⟩] := by decide +kernel

/-- A mend cell as it leaves: kind 0x02, from STATION 3, of feed 5. -/
theorem test_mend_cell_sent :
    let s := { live0 with mendQueue := [⟨0, 5, 1, 0, hdr1 1 bytes3, bytes3⟩] }
    (after .portTransmit s).captureTx.map (fun f => (f.dest, f.src, f.body.take 4))
      = some (cfg.groupAddr, 0x020000000003#48, [2#8, 1#8, 3#8, 5#8]) := by decide +kernel

/-- The bounds of a context's fields, on a station with one context. -/
theorem witness_BeaconReadsBack :
    let s := liveWith [{ ctx 4 with lv := PerWay.same (some 4294967294) }]
    s.receives = true ∧ 1 ≤ s.settings.station ∧ s.settings.station ≤ 8
      ∧ 20 ≤ s.settings.beaconPeriod ∧ s.settings.beaconPeriod ≤ 1000 ∧ s.TableOk
      ∧ (parseBeacon s.beaconBody).map (·.number) = some 3 := by decide +kernel

theorem witness_BeaconReadsBack_fields :
    ∀ c ∈ [{ ctx 4 with lv := PerWay.same (some 4294967294) }],
      c.params.landingBase < 2 ^ 64 ∧ c.params.cues.length = c.params.cueCount
        ∧ ∀ m ∈ c.e :: c.h :: c.published :: (c.lv.toList ++ c.bv.toList),
            (m.all fun n => decide (n < 2 ^ 32 - 1)) = true := by decide +kernel

/-- The flag byte and the refusal bytes of a beacon. -/
theorem witness_BeaconReadsBack_head :
    let s := { live0 with lastRefusal := some ⟨5, .openFeed, .badSize⟩, dupNumber := true }
    s.lastRefusal = some ⟨5, .openFeed, .badSize⟩ ∧ live0.lastRefusal = none
      ∧ (byteAt s.beaconBody 6, (s.beaconBody.drop 40).take 5) = (3#8, [1#8, 5#8, 1#8, 4#8, 0#8]) := by
  decide +kernel

/-- An ask for cells 0 and 127, and one for the whole chunk. -/
theorem witness_AskReadsBack :
    let a : Ask := ⟨63, 4294967295, false, [0, 127], 255⟩
    a.feed < 256 ∧ a.seq < 2 ^ 32 ∧ a.attempt < 256 ∧ (∀ i ∈ a.missing, i < 128)
      ∧ a.missing.Pairwise (· < ·)
      ∧ parseAsk (encodeAsk 8 a) = some ⟨8, 63, 4294967295, 255, false, [0, 127]⟩ := by decide +kernel

/-- A cell with the LAST flag, followed by padding. -/
theorem witness_CellReadsBack :
    let c := { cell1 4294967295 with hdr := { hdr1 0 bytes3 with last := true } }
    c.seq < 2 ^ 32 ∧ c.payload.length < 2 ^ 16
      ∧ parseCell (encodeCell 0x01#8 c ++ [0xFF#8]) = some c := by decide +kernel

theorem witness_FramesNotTaken :
    State.reset.receives = false ∧ otherType.ftype ≠ Config.captureType := by decide

/-- Every way a frame is counted malformed: the address, a kind of 0 and of 6, a cell one byte short, a
wrong sender and a content field out of range. -/
theorem witness_MalformedFramesCounted :
    live0.receives = true ∧ (cap [0#8]).ftype = Config.captureType
      ∧ ({ cap [1#8] with dest := 0#48 } : Frame).dest ≠ live0.settings.groupAddr
      ∧ (∀ k ∈ (cap [0#8]).body[0]?, k = 0#8 ∨ 5 < k.toNat)
      ∧ (∀ k ∈ (cap [6#8]).body[0]?, k = 0#8 ∨ 5 < k.toNat)
      ∧ live0.Hears (cap ((encodeCell 1#8 (cell1 0)).take 34)) 0x01#8
      ∧ parseCell ((encodeCell 1#8 (cell1 0)).take 34) = none
      ∧ (cell1 0).senderOk true = false
      ∧ ({ cell1 0 with feed := 64 } : Cell).contentOk = false := by decide +kernel

/-- A cell of a two-cell chunk and of a one-cell chunk that make an entry, and one whose check fails. -/
theorem witness_CellCreatesEntry :
    let bad := { cell1 0 with hdr := { hdr1 0 bytes3 with check := 0#32 } }
    live0.HearsCell (cap (encodeCell 1#8 cell2)) false cell2 ∧ live0.ctx? 5 = none
      ∧ live0.entry? 5 0 = none ∧ live0.buffersUsed < Config.poolBuffers
      ∧ live0.ring.length < Config.ringEntries ∧ cell2.hdr.cells ≠ 1
      ∧ live0.HearsCell (cap (encodeCell 1#8 (cell1 0))) false (cell1 0) ∧ (cell1 0).hdr.cells = 1
      ∧ (after (.feedCell (cap (encodeCell 1#8 (cell1 0)))) live0).ring = [whole1 0]
      ∧ live0.HearsCell (cap (encodeCell 1#8 bad)) false bad
      ∧ (after (.feedCell (cap (encodeCell 1#8 bad))) live0).ring = [] := by decide +kernel

/-- An entry of feed 6 with `n` of its `n + 1` cells. -/
def bigEntry (n pins : Nat) : RingEntry :=
  { feed := 6, seq := 0, whole := false, hdr := { hdr2 with cells := n + 1 },
    cells := (List.range n).map (fun i => (i, [])), pins := pins }

/-- A full pool of one entry that can be removed. -/
theorem witness_CellCreatesEntry_evicts :
    let s := { live0 with ring := [bigEntry 131072 0] }
    ¬(s.buffersUsed < Config.poolBuffers ∧ s.ring.length < Config.ringEntries) ∧ s.RingOk
      ∧ s.ring = [] ++ bigEntry 131072 0 :: [] ∧ (bigEntry 131072 0).pins = 0
      ∧ (bigEntry 131072 0).cells ≠ [] ∧ s.ctx? 5 = none ∧ s.entry? 5 0 = none := by
  refine ⟨?_, ?_, rfl, rfl, ?_, rfl, rfl⟩
  · simp [State.buffersUsed, bigEntry, Config.poolBuffers]
  · simp [State.RingOk, State.buffersUsed, bigEntry, Config.poolBuffers, Config.ringEntries,
      List.pairwise_map, List.pairwise_lt_range, RingEntry.key]
    omega
  · simp [bigEntry, List.map_eq_nil_iff, List.range_eq_nil]

/-- A full pool in which every entry is pinned, for a feed with a context. -/
theorem witness_CellCreatesEntry_pinned :
    let s := { liveWith [ctx 4] with ring := [bigEntry 131072 1] }
    ¬(s.buffersUsed < Config.poolBuffers ∧ s.ring.length < Config.ringEntries)
      ∧ (∀ y ∈ s.ring, 0 < y.pins) ∧ s.ctx? 5 = some (ctx 4) ∧ s.entry? 5 0 = none
      ∧ 0 < (ctx 4).params.slotCount := by
  refine ⟨?_, ?_, rfl, rfl, by decide⟩
  · simp [State.buffersUsed, bigEntry, Config.poolBuffers]
  · simp [bigEntry]

/-- An ABSENT position of the chunk, and one in the lost procedure. -/
theorem witness_CellCreatesEntry_position :
    let s := liveWith [{ ctx 4 with positions := [pos0 0] }]
    let u := liveWith [{ ctx 4 with positions := [{ pos0 0 with land := .checking }] }]
    s.HearsCell (cap (encodeCell 1#8 cell2)) false cell2 ∧ s.station = .live
      ∧ (s.ctx? 5).map (fun x => x.pos? 0) = some (some (pos0 0)) ∧ (pos0 0).land = .absent
      ∧ ((after (.feedCell (cap (encodeCell 1#8 cell2))) s).pos? 5 0).map (·.land) = some .gathering
      ∧ ((after (.feedCell (cap (encodeCell 1#8 cell2))) u).pos? 5 0).map (·.land)
          = some .checking := by decide +kernel

/-- The one cell of a LAST chunk of station 8's mend, for an ABSENT position: READY, with E; and one that
fails its check. -/
theorem witness_CellCreatesEntry_mend :
    let m := { cell1 1 with senderKind := 1, senderNumber := 8,
                            hdr := { hdr1 1 bytes3 with last := true } }
    let bad := { m with hdr := { m.hdr with check := 0 } }
    let s := { liveWith [{ ctx 4 with positions := [pos0 1] }] with
               answers := [⟨1, 5, 1, [0], false, 10000⟩] }
    let seen := fun (t : State) => (t.ctx? 5).map (fun d => (d.e, d.h, (d.pos? 1).map (·.land)))
    s.HearsCell (cap (encodeCell 2#8 m)) true m ∧ s.HearsCell (cap (encodeCell 2#8 bad)) true bad
      ∧ s.entry? 5 1 = none ∧ (s.ctx? 5).map (·.params.slotCount) = some 4
      ∧ seen (after (cellCommand true (cap (encodeCell 2#8 m))) s) = some (some 1, some 1, some .ready)
      ∧ (after (cellCommand true (cap (encodeCell 2#8 m))) s).answers = []
      ∧ seen (after (cellCommand true (cap (encodeCell 2#8 bad))) s)
          = some (none, some 1, some .absent)
      ∧ (after (cellCommand true (cap (encodeCell 2#8 bad))) s).ring = [] := by
  and_intros <;> decide +kernel

/-- A full pool of one entry that can be removed, for a feed with a context. -/
theorem witness_CellCreatesEntry_context :
    let s := { liveWith [ctx 4] with ring := [bigEntry 131072 0] }
    ¬(s.buffersUsed < Config.poolBuffers ∧ s.ring.length < Config.ringEntries)
      ∧ s.ring = [] ++ bigEntry 131072 0 :: [] ∧ (bigEntry 131072 0).pins = 0
      ∧ (bigEntry 131072 0).cells ≠ [] ∧ s.ctx? 5 = some (ctx 4) ∧ s.entry? 5 0 = none := by
  refine ⟨?_, rfl, rfl, ?_, rfl, rfl⟩
  · simp [State.buffersUsed, bigEntry, Config.poolBuffers]
  · simp [bigEntry, List.map_eq_nil_iff, List.range_eq_nil]

/-- The state with a PARTIAL entry of three cells, one received. -/
def partial3 : State :=
  { live0 with ring := [entry 0 false { hdr2 with cells := 3, length := 16385 } [(0, [])]] }

theorem witness_CellJoinsEntry :
    let c := { cell2 with hdr := { hdr2 with cells := 3, length := 16385 }, index := 2 }
    partial3.HearsCell (cap (encodeCell 1#8 c)) false c ∧ partial3.ctx? 5 = none
      ∧ (partial3.entry? 5 0).map (fun e => (decide (e.hdr = c.hdr), e.whole,
          decide (c.index ∉ e.cells.map (·.1)), decide (e.cells.length + 1 ≠ e.hdr.cells)))
        = some (true, false, true, true)
      ∧ partial3.buffersUsed < Config.poolBuffers := by decide +kernel

/-- A cell for a WHOLE entry. -/
theorem witness_CellJoinsEntry_whole :
    let s := { live0 with ring := [whole1 0] }
    s.HearsCell (cap (encodeCell 1#8 (cell1 0))) false (cell1 0) ∧ s.ctx? 5 = none
      ∧ s.entry? 5 0 = some (whole1 0) ∧ (whole1 0).hdr = (cell1 0).hdr
      ∧ (whole1 0).whole = true := by decide +kernel

/-- A full pool: the one other entry can be removed, or is pinned. -/
theorem witness_CellJoinsEntry_full :
    let own := entry 0 false { hdr2 with cells := 3, length := 16385 } [(0, [])]
    let s := fun pins => { live0 with ring := [own, bigEntry 131071 pins] }
    Config.poolBuffers ≤ (s 0).buffersUsed ∧ (s 0).RingOk
      ∧ (s 0).ring = [own] ++ bigEntry 131071 0 :: [] ∧ (bigEntry 131071 0).pins = 0
      ∧ (bigEntry 131071 0).cells ≠ [] ∧ (s 1).entry? 5 0 = some own
      ∧ ∀ x ∈ (s 1).ring, 0 < x.pins ∨ (x.feed = 5 ∧ x.seq = 0) := by
  refine ⟨?_, ?_, rfl, rfl, ?_, rfl, ?_⟩
  · simp [State.buffersUsed, bigEntry, entry, Config.poolBuffers]
  · simp [State.RingOk, State.buffersUsed, bigEntry, entry, hdr2, Config.poolBuffers,
      Config.ringEntries, List.pairwise_map, List.pairwise_lt_range, RingEntry.key]
    omega
  · simp [bigEntry, List.map_eq_nil_iff, List.range_eq_nil]
  · simp [bigEntry, entry]

/-- A mend cell that joins the entry of a feed with a context. -/
theorem witness_CellJoinsEntry_context :
    let m := { cell2 with hdr := { hdr2 with cells := 3, length := 16385 }, index := 2,
                          senderKind := 1, senderNumber := 8 }
    let s := { partial3 with contexts := [{ ctx 4 with positions := [{ pos0 0 with
      land := .gathering, hasRef := true }] }] }
    let t := after (cellCommand true (cap (encodeCell 2#8 m))) s
    s.HearsCell (cap (encodeCell 2#8 m)) true m ∧ (s.ctx? 5).map (·.params.slotCount) = some 4
      ∧ (s.entry? 5 0).map (fun e => (decide (e.hdr = m.hdr), e.whole)) = some (true, false)
      ∧ (t.entry? 5 0).map (fun e => e.cells.map (·.1)) = some [0, 2]
      ∧ (t.ctx? 5).map (fun d => (d.h, (d.pos? 0).map (·.land))) = some (some 0, some .gathering) := by
  and_intros <;> decide +kernel

/-- The second of two cells arrives: the entry is full. -/
theorem witness_RingChecksChunk :
    let s := { live0 with ring := [entry 0 false hdr2 [(0, [])]] }
    s.HearsCell (cap (encodeCell 1#8 cell2)) false cell2 ∧ s.ctx? 5 = none
      ∧ s.entry? 5 0 = some (entry 0 false hdr2 [(0, [])]) ∧ cell2.index ∉ [0]
      ∧ 1 + 1 = hdr2.cells ∧ s.buffersUsed < Config.poolBuffers := by decide +kernel

/-- The header of the two-cell chunk of `cell2` that passes its check, with or without the LAST flag. -/
def hdrGood (last : Bool) : ChunkHeader := { hdr2 with check := checkWord [9#8], last := last }

/-- The station of context `c` with chunk `seq` one cell short, and the cell that completes it. -/
def shortOf (c : FeedContext) (h : ChunkHeader) (seq : Nat) : State :=
  { liveWith [c] with ring := [entry seq false h [(0, [])]] }

/-- The cell of index 1 of that chunk. -/
def lastCell (h : ChunkHeader) (seq : Nat) : Cell := { cell2 with hdr := h, seq := seq }

/-- What completing chunk `seq` makes of the context: late, ahead, E, and the position. -/
def completed (c : FeedContext) (h : ChunkHeader) (seq : Nat) :
    Option (BitVec 32 × BitVec 32 × Mark × Option LandState) :=
  ((after (.feedCell (cap (encodeCell 1#8 (lastCell h seq)))) (shortOf c h seq)).ctx? 5).map
    (fun d => (d.counts.late, d.counts.ahead, d.e, (d.pos? seq).map (·.land)))

/-- R80 at its edges: taken, late below the base, ahead at base + 512, LANDED; a LAST chunk; a chunk that
fails its check at a GATHERING position. -/
theorem witness_RingChecksChunk_window :
    let p := { pos0 0 with land := .gathering, hasRef := true, gapWait := some 10020, attempts := 2 }
    let c := { ctx 4 with positions := [p] }
    let wide := fun (m : Mark) => { ctx 1000 with lv := PerWay.same m, bv := PerWay.same m }
    (shortOf c (hdrGood false) 0).HearsCell (cap (encodeCell 1#8 (lastCell (hdrGood false) 0))) false
        (lastCell (hdrGood false) 0)
      ∧ (shortOf c (hdrGood false) 0).ctx? 5 = some c ∧ c.working = true ∧ c.windowBuilt = true
      ∧ completed c (hdrGood false) 0 = some (0, 0, none, some .ready)
      ∧ (after (.feedCell (cap (encodeCell 1#8 (lastCell (hdrGood false) 0))))
          (shortOf c (hdrGood false) 0)).waitJobs.map (fun j => (j.kind, j.seq)) = [(.withChunk, 0)]
      ∧ completed (wide (some 0)) (hdrGood false) 0 = some (1, 0, none, none)
      ∧ completed (wide none) (hdrGood false) 512 = some (0, 1, none, none)
      ∧ completed (wide (some 0)) (hdrGood false) 512 = some (1, 0, none, none)
      ∧ completed { c with positions := [{ p with land := .landed }] } (hdrGood false) 0
          = some (1, 0, none, some .landed)
      ∧ completed c (hdrGood true) 0 = some (0, 0, some 0, some .ready)
      ∧ completed c hdr2 0 = some (0, 0, none, some .absent) := by
  and_intros <;> decide +kernel

/-- The base of a window. -/
theorem witness_RingChecksChunk_base :
    ({ ctx 1000 with lv := PerWay.same (some 3) } : FeedContext).BaseIs 0 ∧ (ctx 4).BaseIs 0
      ∧ ({ ctx 1000 with lv := PerWay.same (some 3), bv := PerWay.same (some 5) }
          : FeedContext).BaseIs 4 := by decide +kernel

/-- The completing cell of station 8's mend, of a LAST chunk whose browse frames overrun. -/
theorem witness_RingChecksChunk_mend :
    let c := { ctx 4 with params := { params 4 with browseSlots := 1 }, positions :=
      [{ pos0 3 with land := .gathering, hasRef := true }] }
    let h := { hdrGood true with first := 120 }
    let m := { lastCell h 3 with senderKind := 1, senderNumber := 8 }
    let t := after (cellCommand true (cap (encodeCell 2#8 m))) (shortOf c h 3)
    (shortOf c h 3).HearsCell (cap (encodeCell 2#8 m)) true m ∧ (shortOf c h 3).ctx? 5 = some c
      ∧ c.overruns { hdr1 0 bytes3 with first := 0, frames := 1 } = false ∧ c.overruns h = true
      ∧ (t.ctx? 5).map (fun d => (d.e, d.flags.browseOverrun, (d.pos? 3).map (·.land)))
          = some (some 3, true, some .ready) := by and_intros <;> decide +kernel

/-- A CHUNKLESS job that still waits, of a position in the lost procedure whose chunk comes after all. -/
theorem witness_RingChecksChunk_chunkless :
    let c := { ctx 4 with positions := [{ pos0 0 with land := .checking, lost := .trailerCheck }] }
    let s := { shortOf c (hdrGood false) 0 with
               waitJobs := [job 8 3 .waiting, (ctx 4).chunklessJob 9 0] }
    let t := after (.feedCell (cap (encodeCell 1#8 (lastCell (hdrGood false) 0)))) s
    s.HearsCell (cap (encodeCell 1#8 (lastCell (hdrGood false) 0))) false (lastCell (hdrGood false) 0)
      ∧ s.ctx? 5 = some c ∧ (c.pos? 0).map (·.browse) = some (some .waiting)
      ∧ (∀ j ∈ s.queueJobs ++ s.shedJobs, ¬(j.feed = 5 ∧ j.seq = 0)) ∧ s.hasJob 5 0 = true
      ∧ t.waitJobs.map (fun j => (j.uid, j.seq, j.kind))
          = [(8, 3, .withChunk), (9, 0, .withChunk)] := by and_intros <;> decide +kernel

/-- A cell that disagrees in one field, from a gateway and from a station. -/
theorem witness_MismatchedCellDiscarded :
    let s := { live0 with ring := [entry 0 true { hdr1 0 bytes3 with frames := 3 } [(0, bytes3)]] }
    let m := { cell1 0 with senderKind := 1, senderNumber := 8 }
    s.HearsCell (cap (encodeCell 1#8 (cell1 0))) false (cell1 0)
      ∧ s.HearsCell (cap (encodeCell 2#8 m)) true m ∧ s.ctx? 5 = none
      ∧ (s.entry? 5 0).map (fun e => decide (e.hdr.frames ≠ (cell1 0).hdr.frames)) = some true := by
  decide +kernel

/-- A cell at C and one at C − 1 of a feed with a context. -/
theorem witness_CellSighted :
    let s := liveWith [ctx 4]
    s.HearsCell (cap (encodeCell 1#8 (cell1 4))) false (cell1 4)
      ∧ s.HearsCell (cap (encodeCell 1#8 (cell1 3))) false (cell1 3) ∧ s.ctx? 5 = some (ctx 4)
      ∧ (ctx 4).params.slotCount = 4 ∧ Mark.ord (ctx 4).h ≤ 3 := by decide +kernel

/-- A mend cell at C, at a station with a pending answer for its chunk. -/
theorem witness_CellSighted_mend :
    let m := { cell1 4 with senderKind := 1, senderNumber := 8 }
    let s := { liveWith [ctx 4] with answers := [⟨1, 5, 4, [0], false, 10000⟩] }
    s.HearsCell (cap (encodeCell 2#8 m)) true m ∧ s.ctx? 5 = some (ctx 4)
      ∧ (ctx 4).params.slotCount ≤ m.seq
      ∧ (after (.mendCell (cap (encodeCell 2#8 m))) s).answers = []
      ∧ ((after (.mendCell (cap (encodeCell 2#8 m))) s).ctx? 5).map (·.flags.landOverrun)
          = some true := by decide +kernel

/-- H rises to 2 over an ABSENT position with no wait, one with a wait, and one above. -/
theorem witness_CellSighted_waits :
    let s := liveWith [{ ctx 4 with positions :=
      [pos0 0, { pos0 1 with gapWait := some 10007 }, pos0 2, pos0 3] }]
    let t := after (.feedCell (cap (encodeCell 1#8 (cell1 2)))) s
    s.HearsCell (cap (encodeCell 1#8 (cell1 2))) false (cell1 2) ∧ s.station = .live
      ∧ (cell1 2).hdr.last = false
      ∧ (s.ctx? 5).map (fun x => (x.state, Mark.ord x.h)) = some (.active, 0)
      ∧ (∀ x ∈ s.contexts, ∀ p ∈ x.positions, p.Awaits)
      ∧ (t.ctx? 5).map (fun d => (d.h, d.positions.map (·.gapWait)))
          = some (some 2, [some 10040, some 10007, none, none]) := by and_intros <;> decide +kernel

/-- A WAITING answer that loses its index, a SENDING one whose cell is still queued, and a SENDING one whose
cell has left. -/
theorem witness_MendCellShrinksAnswers :
    let m := { cell1 0 with senderKind := 1, senderNumber := 1 }
    let s := { live0 with
      ring := [whole1 0]
      answers := [⟨1, 5, 0, [0], false, 10000⟩, ⟨2, 5, 0, [0, 3], true, 9000⟩, ⟨3, 5, 0, [0], true, 9000⟩]
      mendQueue := [⟨2, 5, 0, 0, hdr1 0 bytes3, bytes3⟩] }
    s.HearsCell (cap (encodeCell 2#8 m)) true m ∧ s.ctx? 5 = none
      ∧ s.entry? 5 0 = some (whole1 0) ∧ (whole1 0).hdr = m.hdr
      ∧ (after (.mendCell (cap (encodeCell 2#8 m))) s).answers
          = [⟨2, 5, 0, [3], true, 9000⟩, ⟨3, 5, 0, [0], true, 9000⟩]
      ∧ (after (.mendCell (cap (encodeCell 2#8 m))) s).mendQueue = [] := by decide +kernel

/-- A peer's record of feed 5, ACTIVE, held by configuration. -/
def peerRecord : FeedRecord := { (ctx 4).record with landKind := PerWay.same .unheld }

/-- A beacon of a LIVE station with its records, as station `n` sends it. -/
def beaconOf (n : Nat) (cs : List FeedContext) : Frame :=
  cap (State.beaconBody { liveWith cs with settings := { cfg with station := n } })

/-- Discarded, of the own number, and of station 8. -/
theorem witness_BeaconTaken :
    live0.PeersOk ∧ live0.Hears (cap (0x03#8 :: reserved 47)) 0x03#8
      ∧ parseBeacon (0x03#8 :: reserved 47) = none
      ∧ live0.Hears (beaconOf 3 []) 0x03#8 ∧ live0.Hears (beaconOf 8 []) 0x03#8
      ∧ (parseBeacon (beaconOf 3 []).body).map (·.number) = some live0.settings.station
      ∧ (parseBeacon (beaconOf 8 []).body).map (·.number) = some 8 := by
  decide +kernel

/-- A context that computes its commit: the computed one is taken. -/
theorem witness_BeaconTaken_commit :
    let c := { ctx 4 with lv := PerWay.same (some 2), published := some 0 }
    let s := liveWith [c]
    s.TableOk ∧ s.ctx? 5 = some c ∧ c.computes = true
      ∧ ((s.recomputeCommits).ctx? 5).map (·.published) = some (some 2) := by decide +kernel

/-- The record of a peer that holds way 0 of feed 5 for landing with a mark. -/
def holding (k : HoldKind) (m : Mark) : FeedRecord :=
  { (ctx 4).record with landKind := ⟨k, .unheld, .unheld, .unheld⟩, lv := ⟨m, none, none, none⟩ }

/-- The entry of station 8 with one record. -/
def peerWith (st : PeerState) (r : FeedRecord) : PeerEntry :=
  { number := 8, state := st, period := 20, adoptEligible := true, adoptRoom := 16, records := [r],
    arrived := 10000 }

/-- Station 3 with way 0 of feed 5 adopted for landing, its mark at 1, and a position that wants both
jobs. -/
def adopterOf (r : FeedRecord) : State :=
  { liveWith [{ ctx 4 with landKind := ⟨.adopted, .unheld, .unheld, .unheld⟩,
                           lv := ⟨some 1, none, none, none⟩, positions := [pos0 2] }] with
    adopted := [⟨5, 0, .landing⟩], peers := [peerWith .live r] }

/-- The configured holder has caught up, at the adopter's mark exactly; and has not. -/
theorem witness_BeaconTaken_releases :
    let s := adopterOf (holding .configured (some 1))
    s.TableOk ∧ s.WindowsOk ∧ s.adopted = [⟨5, 0, .landing⟩]
      ∧ (∀ c ∈ s.contexts, s.Releases c ⟨5, 0, .landing⟩ ∧ s.ctx? 5 = some c)
      ∧ ((s.releaseTests).ctx? 5).map (fun d => (d.kindOf .landing 0, d.retainedOf .landing 0,
          (d.pos? 2).map (·.wantsLand))) = some (.unheld, some 1, some false)
      ∧ (adopterOf (holding .configured (some 0))).releasable ⟨5, 0, .landing⟩ = false := by
  refine ⟨by decide +kernel, by decide +kernel, rfl, ?_, by decide +kernel, by decide +kernel⟩
  intro c hc
  obtain rfl := List.mem_singleton.mp hc
  exact ⟨⟨rfl, rfl, peerWith .live (holding .configured (some 1)), holding .configured (some 1),
    by decide +kernel⟩, by decide +kernel⟩

/-- A LIVE peer's one record of a feed with no context here. -/
theorem witness_BeaconLearnsOpen :
    live0.TableOk ∧ live0.station = .live ∧ live0.Hears (beaconOf 8 [ctx 4]) 0x03#8
      ∧ (parseBeacon (beaconOf 8 [ctx 4]).body).map (fun b => (b.number, b.live, b.records))
          = some (8, true, [(ctx 4).record])
      ∧ (ctx 4).record.state = .active ∧ (rangeOf live0.settings.ranges 5).isSome = true
      ∧ live0.ctx? 5 = none ∧ live0.closedId 5 ≠ some (ctx 4).record.params.fileId
      ∧ live0.contexts.length < Config.maxContexts ∧ (ctx 4).record.params.check = none := by
  decide +kernel

/-- A record with E at 3 and a WHOLE chunk 2 with the LAST flag in the ring: E is 2, also where the station
holds no way of the feed. -/
theorem witness_BeaconLearnsOpen_end :
    let last := { whole1 2 with hdr := { hdr1 2 bytes3 with last := true } }
    let s := { live0 with ring := [last] }
    let u := { s with settings := { cfg with ranges := [⟨64, PerWay.same false, PerWay.same false⟩],
                                             adoptEligible := false } }
    let e := fun (v : State) => ((after (.beacon (beaconOf 8 [{ ctx 4 with
      state := .closing, e := some 3 }])) v).ctx? 5).map (fun c => (c.state, c.e))
    last.whole = true ∧ last.hdr.last = true ∧ last.feed = 5
      ∧ e s = some (.closing, some 2) ∧ e u = some (.final, some 2)
      ∧ e live0 = some (.closing, some 3) := by decide +kernel

/-- The rows of R19: E of a record in CLOSING, a record in ABORTED, and one of another file. -/
theorem witness_BeaconLearnsOpen_known :
    let other := { ctx 4 with params := { params 4 with fileId := 8 } }
    let told := fun (peer mine : FeedContext) => (((after (.beacon (beaconOf 8 [peer]))
      (liveWith [mine])).ctx? 5).map (fun d => (d.state, d.e, d.flags.conflict, d.linger)))
    (∀ c ∈ [{ ctx 4 with state := .closing, e := some 2 }, { ctx 4 with state := .aborted }, other],
        (liveWith [ctx 4]).Hears (beaconOf 8 [c]) 0x03#8
          ∧ (parseBeacon (beaconOf 8 [c]).body).map (fun b => (b.number, b.live, b.records))
              = some (8, true, [c.record]))
      ∧ (liveWith [ctx 4]).TableOk ∧ (liveWith [ctx 4]).ctx? 5 = some (ctx 4)
      ∧ told { ctx 4 with state := .closing, e := some 2 } (ctx 4)
          = some (.closing, some 2, false, none)
      ∧ told { ctx 4 with state := .aborted } (ctx 4) = some (.aborted, none, false, none)
      ∧ told { ctx 4 with state := .aborted } { ctx 4 with state := .faulted }
          = some (.faulted, none, false, some 20000)
      ∧ told other (ctx 4) = some (.active, none, true, none) := by and_intros <;> decide +kernel

/-- A Peer Table entry whose last beacon, of period 20, arrived `ago` ms before. -/
def peerEntry (st : PeerState) (ago : Nat) : PeerEntry :=
  { number := 8, state := st, period := 20, adoptEligible := true, adoptRoom := 16, records := [],
    arrived := 10000 - ago }

/-- 3 × P and 20 × P exactly, and one millisecond less. -/
theorem witness_PeersAge :
    let s := fun st ago => { live0 with peers := [peerEntry st ago] }
    (s .live 60).peer? 8 = some (peerEntry .live 60) ∧ (peerEntry .live 60).state ≠ .silent
      ∧ (peerEntry .live 60).arrived + 3 * 20 ≤ (s .live 60).now
      ∧ (s .live 59).now < (peerEntry .live 59).arrived + 3 * 20
      ∧ (s .silent 400).peer? 8 = some (peerEntry .silent 400)
      ∧ (peerEntry .silent 400).arrived + 20 * 20 ≤ (s .silent 400).now
      ∧ (s .silent 399).now < (peerEntry .silent 399).arrived + 20 * 20 := by decide +kernel

/-- A way whose configured holder is SILENT, with this station its adopter: it is adopted at the silent
holder's mark; with a LIVE holder it is not orphaned. -/
theorem witness_PeersAge_adopts :
    let c := { ctx 4 with landKind := PerWay.same .unheld }
    let r := holding .configured (some 2)
    let s := { liveWith [c] with peers := [peerWith .silent r] }
    let u := { liveWith [c] with peers := [peerWith .live r] }
    s.TableOk ∧ s.ctx? 5 = some c ∧ s.Orphaned c .landing 0 ∧ s.Adopter c
      ∧ (s.searchTriple 5 .landing 0).adopted = [⟨5, 0, .landing⟩]
      ∧ ((s.searchTriple 5 .landing 0).ctx? 5).map (fun d => (d.kindOf .landing 0, d.markOf .landing 0))
          = some (.adopted, some 2)
      ∧ (u.searchTriple 5 .landing 0).adopted = [] := by
  refine ⟨by decide +kernel, by decide +kernel,
    ⟨rfl, rfl, by decide +kernel, .inr ⟨_, holding .configured (some 2), ⟨List.mem_singleton.mpr rfl,
      by decide +kernel⟩, rfl⟩, by decide +kernel, ?_⟩, ⟨rfl, by decide +kernel, ?_⟩,
    by decide +kernel, by decide +kernel, by decide +kernel⟩
  · rintro p r ⟨hp, -⟩ ⟨hl, -⟩
    obtain rfl := List.mem_singleton.mp hp
    cases hl
  · rintro p r ⟨hp, -⟩ hl
    obtain rfl := List.mem_singleton.mp hp
    cases hl

/-- Landing is added to way 0: one position holds a pin, one has a PARTIAL entry, one none. -/
theorem witness_PeersAge_gains :
    let p := fun n => { pos0 n with wantsLand := false }
    let c := { ctx 4 with landKind := PerWay.same .unheld, h := some 3, positions :=
      [{ p 1 with land := .ready, hasRef := true, pinned := true }, p 2, p 3] }
    let s := { liveWith [c] with peers := [peerWith .silent (holding .configured (some 0))],
                                 ring := [{ whole1 1 with pins := 1 }, entry 2 false hdr2 []] }
    let t := s.searchTriple 5 .landing 0
    s.TableOk ∧ s.ctx? 5 = some c ∧ s.startMark c .landing 0 = some 0
      ∧ (∀ q ∈ c.positions, q.way = 0 ∧ c.wayOf q.seq = 0 ∧ q.wantsLand = false ∧ c.CalledFor q.seq
          ∧ c.WantsCalled q
          ∧ ((c.setKind .landing 0 .adopted).setMark .landing 0 (some 0)).SpanHas q.seq)
      ∧ c.params.geometryOk = true
      ∧ (t.ctx? 5).map (fun d => d.positions.map (fun q => (q.seq, q.land, q.wantsLand, q.gapWait)))
          = some [(0, .absent, false, some 10040), (1, .ready, true, none),
            (2, .gathering, true, some 10040), (3, .absent, true, none)] := by
  and_intros <;> decide +kernel

/-- Browse is added to way 0: a position with a pin, one awaited, and two LANDED with no pin, of whose chunks
the ring holds one. -/
theorem witness_PeersAge_gains_browse :
    let p := fun n => { pos0 n with wantsBrowse := false, browse := none }
    let c := { ctx 4 with browseKind := PerWay.same .unheld, positions :=
      [{ p 0 with land := .ready, hasRef := true, pinned := true }, p 1, { p 2 with land := .landed },
        { p 3 with land := .lost }] }
    let r := { (ctx 4).record with landKind := PerWay.same .unheld,
                                   browseKind := ⟨.configured, .unheld, .unheld, .unheld⟩ }
    let s := { liveWith [c] with peers := [peerWith .silent r],
                                 ring := [{ whole1 0 with pins := 1 }, whole1 2] }
    let t := s.searchTriple 5 .browse 0
    s.TableOk ∧ s.ctx? 5 = some c ∧ s.startMark c .browse 0 = none
      ∧ (∀ q ∈ c.positions, q.way = 0 ∧ c.wayOf q.seq = 0 ∧ q.wantsBrowse = false
          ∧ c.CalledFor q.seq ∧ c.WantsCalled q ∧ s.hasJob 5 q.seq = false
          ∧ ((c.setKind .browse 0 .adopted).setMark .browse 0 none).SpanHas q.seq)
      ∧ (t.ctx? 5).map (fun d => d.positions.map (fun q => (q.browse, q.pinned)))
          = some [(some .waiting, true), (some .waiting, false), (some .waiting, true),
            (some .waiting, false)]
      ∧ t.waitJobs.map (fun j => (j.seq, j.kind))
          = [(0, .withChunk), (2, .withChunk), (3, .chunkless)] := by and_intros <;> decide +kernel

/-- An ask frame of station `n` for feed 5. -/
def askFrame (n : Nat) (a : Ask) : Frame := cap (encodeAsk n a)

/-- A good ask, a too short one and one of asker 9; and back-off 2 × ((3 − 4) mod 8) = 14 ms. -/
theorem witness_AskMakesAnswer :
    let s := { live0 with ring := [whole1 0] }
    let a : Ask := ⟨5, 0, false, [0], 4⟩
    s.Hears (askFrame 4 a) 0x04#8
      ∧ (parseAsk (askFrame 4 a).body).map (fun r => (r.asker, r.feed, r.attempt,
          r.missing, r.cellsOf 1)) = some (4, 5, 4, [0], [0])
      ∧ s.pos? 5 0 = none ∧ s.entry? 5 0 = some (whole1 0) ∧ s.answers = []
      ∧ s.Hears (cap [4#8]) 0x04#8 ∧ parseAsk [4#8] = none
      ∧ (parseAsk (askFrame 9 a).body).map (fun r => decide (8 < r.asker)) = some true
      ∧ (after (.mendAsk (askFrame 4 a)) s).answers = [⟨0, 5, 0, [0], false, 10014⟩] := by
  decide +kernel

/-- A WAITING answer of the chunk, into which the ask is merged. -/
theorem witness_AskMakesAnswer_merges :
    let two := { whole1 0 with hdr := { hdr1 0 bytes3 with cells := 2 } }
    let s := { live0 with ring := [two], answers := [⟨7, 5, 0, [1], false, 10020⟩] }
    let f := askFrame 4 ⟨5, 0, false, [0], 4⟩
    s.Hears f 0x04#8 ∧ (∃ x ∈ s.answers, x.feed = 5 ∧ x.seq = 0 ∧ x.sending = false)
      ∧ (parseAsk f.body).map (fun r => r.cellsOf 2) = some [0]
      ∧ (after (.mendAsk f) s).answers = [⟨7, 5, 0, [0, 1], false, 10014⟩] := by decide +kernel

/-- A position of feed 5 whose gap wait ends at a time. -/
def waiting (seq w attempts restarts : Nat) : Position :=
  { pos0 seq with gapWait := some w, attempts := attempts, restarts := restarts }

/-- The station with one position. -/
def withPos (p : Position) : State := liveWith [{ ctx 4 with positions := [p] }]

/-- Seven and eight restarts spent. -/
theorem witness_AskSuppressesAsk :
    let a : Ask := ⟨5, 1, false, [127], 1⟩
    let s := withPos (waiting 1 10020 2 7)
    s.Hears (askFrame 1 a) 0x04#8
      ∧ (parseAsk (askFrame 1 a).body).map (fun r => (r.asker, r.feed, r.seq, r.attempt, r.missing))
          = some (1, 5, 1, 1, [127])
      ∧ s.entry? 5 1 = none ∧ s.pos? 5 1 = some (waiting 1 10020 2 7)
      ∧ (withPos (waiting 1 10020 2 8)).pos? 5 1 = some (waiting 1 10020 2 8) := by decide +kernel

/-- A GATHERING position of whose chunk the ring holds a PARTIAL entry. -/
theorem witness_AskSuppressesAsk_partial :
    let p := { waiting 1 10020 2 7 with land := .gathering, hasRef := true }
    let s := { withPos p with ring := [entry 1 false hdr2 [(0, [])]] }
    let a : Ask := ⟨5, 1, false, [1], 1⟩
    s.Hears (askFrame 1 a) 0x04#8 ∧ s.pos? 5 1 = some p
      ∧ (s.entry? 5 1).map (·.whole) = some false
      ∧ ((after (.mendAsk (askFrame 1 a)) s).pos? 5 1).map (fun q => (q.gapWait, q.restarts, q.attempts))
          = some (some 10040, 8, 2) := by and_intros <;> decide +kernel

theorem witness_AnswerFallsDue :
    let s := { live0 with ring := [whole1 0], answers := [⟨7, 5, 0, [0], false, 10000⟩] }
    s.answers.find? (fun y => y.feed == 5 && y.seq == 0 && !y.sending)
        = some ⟨7, 5, 0, [0], false, 10000⟩
      ∧ s.entry? 5 0 = some (whole1 0) ∧ (10000 : Nat) ≤ s.now := by decide +kernel

/-- The wait at its end, and one millisecond before. -/
theorem witness_GapWaitForms :
    (withPos (waiting 1 10000 3 0)).pos? 5 1 = some (waiting 1 10000 3 0)
      ∧ (withPos (waiting 1 10000 3 0)).askQueued 5 1 = false
      ∧ (withPos (waiting 1 10001 3 0)).pos? 5 1 = some (waiting 1 10001 3 0)
      ∧ live0.now = 10000 ∧ live0.station = .live := by decide +kernel

/-- Four asks sent: a position that wants a landing job, and one that wants a browse job alone. -/
theorem witness_FourAsksBeginLost :
    let p := waiting 1 10000 4 0
    (withPos p).station = .live ∧ (withPos p).pos? 5 1 = some p ∧ p.gapWait = some 10000
      ∧ (withPos p).askQueued 5 1 = false ∧ p.wantsLand = true ∧ (withPos p).hasJob 5 1 = false
      ∧ (withPos { p with wantsLand := false }).pos? 5 1 = some { p with wantsLand := false }
      ∧ ((after (.gapWaitExpiry 5 1) (withPos { p with wantsLand := false })).hasJob 5 1) = true := by
  decide +kernel

/-- The decisions of R10: each of rows 1 to 7 at a bound of its field, and row 9. -/
theorem witness_OpenDecides :
    live0.HearsDirective (dir 1#8 5#8 0#8 none (params 4)) (.openFeed 5 (params 4))
      ∧ rangeOf [⟨5, PerWay.same true, PerWay.same true⟩] 5 = none
      ∧ (rangeOf live0.settings.ranges 5).isSome = true
      ∧ (liveWith [ctx 4]).ctx? 5 = some (ctx 4)
      ∧ ({ params 4 with sourceRate := 5 } : OpenParams).check = some .badRate
      ∧ ({ params 4 with landingSlot := 65535 } : OpenParams).check = some .badSize
      ∧ ({ params 4 with height := 2161 } : OpenParams).check = some .badGeometry
      ∧ ({ params 4 with width := 4096, height := 2160 } : OpenParams).check = some .slotTooSmall
      ∧ (params 4).check = none ∧ live0.contexts.length < 32 := by decide +kernel

/-- All 32 places taken, for a feed with no context. -/
theorem witness_OpenDecides_full :
    let s := liveWith ((List.range 32).map (fun i => { ctx 4 with feed := i + 6 }))
    32 ≤ s.contexts.length ∧ s.ctx? 5 = none ∧ s.TableOk
      ∧ (after (.openFeed (dir 1#8 5#8 0#8 none (params 4))) s).lastRefusal
          = some ⟨5, .openFeed, .noContext⟩ := by decide +kernel

/-- A context that raises the factor and one that clamps the rate. -/
theorem witness_OpenCreatesContext :
    let p := { params 4 with width := 128, height := 128, factor := 2, browseSlot := 16384,
                             sourceRate := 8, browseRate := 11 }
    let s := live0
    s.HearsDirective (dir 1#8 5#8 0#8 none (params 4)) (.openFeed 5 (params 4))
      ∧ s.ctx? 5 = none ∧ (params 4).check = none ∧ p.check = none ∧ p.rateExceeds = true
      ∧ ({ p with width := 512 } : OpenParams).fitsAt 2 = false
      ∧ ((after (.openFeed (dir 1#8 5#8 0#8 none (params 4))) s).ctx? 5).map (·.positions.length)
          = some 4 := by decide +kernel

/-- A factor raised to 4 and one raised to 8; H and E from the ring; ALLOT LOW at the margin exactly. -/
theorem witness_OpenCreatesContext_ring :
    let wide := fun w => { params 4 with width := w, height := 256 }
    let last := { whole1 2 with hdr := { hdr1 2 bytes3 with last := true } }
    let s := { live0 with ring := [last, whole1 1] }
    [(wide 256).effFactor, (wide 1024).effFactor] = [4, 8] ∧ (wide 256).check = none
      ∧ (wide 1024).check = none ∧ (wide 1024).fitsAt 4 = false
      ∧ last.whole = true ∧ last.hdr.last = true
      ∧ ((after (.openFeed (dir 1#8 5#8 0#8 none (params 4))) s).ctx? 5).map
          (fun c => (c.e, c.h, c.flags.allotLow, c.state)) = some (some 2, some 2, true, .closing)
      ∧ ((after (.openFeed (dir 1#8 5#8 0#8 none (params 5))) s).ctx? 5).map (·.flags.allotLow)
          = some false := by decide +kernel

/-- The window of a new context over a WHOLE, a PARTIAL and no entry, in LIVE and in LISTENING. -/
theorem witness_OpenCreatesContext_window :
    let s := { live0 with ring := [whole1 1, entry 2 false { hdr2 with first := 4 } [(0, [])]] }
    let f := dir 1#8 5#8 0#8 none (params 4)
    let window := fun (t : State) => (t.ctx? 5).map (fun c => c.positions.map (fun p =>
      (p.seq, p.land, p.gapWait)))
    s.HearsDirective f (.openFeed 5 (params 4)) ∧ s.ctx? 5 = none
      ∧ window (after (.openFeed f) s) = some [(0, .absent, some 10040), (1, .ready, none),
          (2, .gathering, none), (3, .absent, none)]
      ∧ ((after (.openFeed f) s).entry? 5 1).map (·.pins) = some 1
      ∧ (after (.openFeed f) s).waitJobs.map (fun j => (j.seq, j.kind)) = [(1, .withChunk)]
      ∧ window (after (.openFeed f) { s with station := .listening }) = some [] := by
  and_intros <;> decide +kernel

/-- A context of feed 5 in a state. -/
def ctxIn (st : CtxState) (e : Mark) : FeedContext := { ctx 4 with state := st, e := e }

/-- Each row of R14, with and without a number. -/
theorem witness_CloseActs :
    live0.HearsDirective (dir 2#8 5#8 0#8 (some 3) (params 4)) (.closeFeed 5 (some 3))
      ∧ live0.HearsDirective (dir 2#8 5#8 0#8 none (params 4)) (.closeFeed 5 none)
      ∧ (∀ c ∈ [ctxIn .active none, ctxIn .closing (some 3), ctxIn .final (some 3),
            ctxIn .aborted none, ctxIn .faulted none],
          (liveWith [c]).EndsOk ∧ (liveWith [c]).ctx? 5 = some c)
      ∧ ((after (.closeFeed (dir 2#8 5#8 0#8 (some 9) (params 4))) (liveWith [ctx 4])).ctx? 5).map
          (fun c => (c.state, c.e)) = some (.closing, some 3) := by decide +kernel

/-- Every held mark at E: the context is FINAL and its MARK waits; with a mark below E it is CLOSING, and
the gap wait of the position left runs. -/
theorem witness_CloseActs_final :
    let at1 := { ctx 4 with lv := PerWay.same (some 1), bv := PerWay.same (some 1),
                            positions := [pos0 2, pos0 3] }
    let f := fun n => dir 2#8 5#8 0#8 (some n) (params 4)
    let closed := fun n => after (.closeFeed (f n)) (liveWith [at1])
    (liveWith [at1]).HearsDirective (f 1) (.closeFeed 5 (some 1)) ∧ (liveWith [at1]).EndsOk
      ∧ (liveWith [at1]).ctx? 5 = some at1
      ∧ ((closed 1).ctx? 5).map (fun d => (d.state, d.e, d.positions)) = some (.final, some 1, [])
      ∧ (closed 1).waitMarks = [5]
      ∧ ((closed 2).ctx? 5).map (fun d => (d.state, d.e, d.positions.map (fun p =>
          (p.seq, p.gapWait)))) = some (.closing, some 2, [(2, some 10040)]) := by
  and_intros <;> decide +kernel

theorem witness_AbortActs :
    live0.HearsDirective (dir 3#8 5#8 0#8 none (params 4)) (.abortFeed 5)
      ∧ (liveWith [ctx 4]).EndsOk ∧ (ctx 4).state = .active
      ∧ (after (.abortFeed (dir 3#8 5#8 0#8 none (params 4))) (liveWith [ctx 4])).waitMarks = [5] := by
  decide +kernel

/-- The pins of the positions that go are released: all on an ABORT, those above E on a CLOSE. -/
theorem test_pins_released :
    let p := fun n => { pos0 n with land := .ready, hasRef := true, pinned := true }
    let s := { liveWith [{ ctx 4 with positions := [p 0, p 1] }] with
               ring := [{ whole1 0 with pins := 1 }, { whole1 1 with pins := 2 }] }
    (after (.abortFeed (dir 3#8 5#8 0#8 none (params 4))) s).ring.map (·.pins) = [0, 1]
      ∧ (after (.closeFeed (dir 2#8 5#8 0#8 (some 0) (params 4))) s).ring.map (·.pins) = [1, 1] := by
  decide +kernel

theorem witness_HoldsSetAndCleared :
    let s := liveWith [{ ctx 4 with landHold := true }]
    s.HearsDirective (dir 4#8 5#8 3#8 none (params 4)) (.hold 5 true true)
      ∧ s.HearsDirective (dir 5#8 5#8 1#8 none (params 4)) (.release 5 true false)
      ∧ s.ctx? 5 ≠ none ∧ live0.ctx? 5 = none
      ∧ ((after (.releaseLand (dir 5#8 5#8 1#8 none (params 4))) s).ctx? 5).map (·.landHold)
          = some false := by decide +kernel

/-- A RELEASE that ends both holds: the CHUNKLESS job that waited goes to WRITING, the age of the other
runs on from where it stood, and the delay that has passed is noted; under the local hold none of it. -/
theorem witness_HoldsSetAndCleared_lifts :
    let c := { ctx 4 with landHold := true, browseHold := true, positions :=
      [{ pos0 1 with land := .ready, readySince := some 9990 }] }
    let less := { (ctx 4).chunklessJob 2 1 with stage := .queued }
    let s := { liveWith [c] with queueJobs := [{ job 1 0 .queued with shedAge := 30 }, less] }
    let f := dir 5#8 5#8 3#8 none (params 4)
    let seen := fun (t : State) => (t.queueJobs.map (fun j => (j.stage, j.shedAge, j.shedSince)),
      t.browseReady, (t.ctx? 5).map (·.delayReached))
    s.HearsDirective f (.release 5 true true) ∧ s.ctx? 5 = some c ∧ s.localHold = false
      ∧ s.JobsLifted (after (.releaseBoth f) s)
      ∧ seen (after (.releaseBoth f) s)
          = ([(.queued, 30, some 10000), (.writing, 0, none)], [2], some true)
      ∧ seen (after (.releaseBoth f) { s with localHold := true })
          = ([(.queued, 30, none), (.queued, 0, none)], [], some false) := by
  and_intros <;> decide +kernel

theorem witness_DirectivesKeepOtherFeeds :
    live0.HearsDirective (dir 3#8 63#8 0#8 none (params 4)) (.abortFeed 63)
      ∧ Directive.feed? (.abortFeed 63) = some 63 := by decide +kernel

/-- The linger at its end, with a job of the feed and one of another. -/
theorem witness_LingerFreesContext :
    let c := { ctxIn .final (some 3) with linger := some 10000 }
    let s := { liveWith [c] with waitJobs := [job 1 0 .waiting, { job 2 0 .waiting with feed := 6 }],
                                 shedJobs := [job 3 1 .shedding], browseReady := [3, 2] }
    s.TableOk ∧ s.ctx? 5 = some c ∧ s.reached c.linger = true
      ∧ ({ s with now := 9999 } : State).reached c.linger = false
      ∧ (after (.lingerExpiry 5) s).closedId 5 = some 7#64
      ∧ ((after (.lingerExpiry 5) s).waitJobs.map (·.uid), (after (.lingerExpiry 5) s).shedJobs,
          (after (.lingerExpiry 5) s).browseReady) = ([2], [], [2]) := by decide +kernel

theorem witness_PacingTimerExpires :
    let c := { ctx 4 with pacing := some 10000, published := some 0, carried := none }
    let s := liveWith [c]
    s.ctx? 5 = some c ∧ s.reached c.pacing = true ∧ Mark.ord c.carried < Mark.ord c.published
      ∧ c.computes = true ∧ c.storageEnded = false ∧ c.markReq = none ∧ 5 ∉ s.waitMarks := by
  decide +kernel

/-- A READY position of feed 5, ready for `age` ms. -/
def readyPos (seq age : Nat) : Position :=
  { pos0 seq with land := .ready, readySince := some (10000 - age) }

/-- The landing delay of 10 ms reached exactly. -/
theorem witness_LandingDelayMakesDue :
    let c := { ctx 4 with positions := [readyPos 0 10] }
    let s := liveWith [c]
    s.ctx? 5 = some c ∧ (readyPos 0 10).wantsLand = true ∧ c.state = .active ∧ c.landHold = false
      ∧ s.localHold = false ∧ (9990 : Nat) + s.settings.landingDelay ≤ s.now := by decide +kernel

theorem witness_ProbeIssuedFirst :
    let s := { live0 with probeWaiting := true, table := live0.table.set 0 (.issued (req 1 .probe)) }
    s.operating = true ∧ s.quietUntil = none ∧ s.probeWaiting = true ∧ s.table[(1 : Fin 16)] = .free
      ∧ (∀ u : Fin 16, u < 1 → s.table[u] ≠ .free) := by decide +kernel

/-- Two waiting CHECKs, the first with no position left: the second is issued for its one position. -/
theorem witness_ProbeIssuedFirst_check :
    let p := { pos0 2 with land := .checking, req := some 8 }
    let s := { liveWith [{ ctx 4 with positions := [p] }] with
               waitChecks := [⟨7, 5, [1], false, 1⟩, ⟨8, 5, [2], true, 1⟩] }
    s.operating = true ∧ s.quietUntil = none ∧ s.probeWaiting = false ∧ s.table[(0 : Fin 16)] = .free
      ∧ (s.ctx? 5).isSome = true ∧ s.checkSeqs ⟨7, 5, [1], false, 1⟩ = []
      ∧ s.checkSeqs ⟨8, 5, [2], true, 1⟩ = [2]
      ∧ (after .storageIssue s).waitChecks = []
      ∧ (after .storageIssue s).table[(0 : Fin 16)]
          = .issued ⟨8, .trailerCheck, some 5, [], [⟨2, 139264, 65536⟩], [], 1, 10000⟩ := by
  decide +kernel

theorem witness_MarkIssued :
    let s := { liveWith [ctx 4] with waitMarks := [5] }
    s.operating = true ∧ s.quietUntil = none ∧ s.probeWaiting = false ∧ s.waitChecks = []
      ∧ s.waitRewrites = [] ∧ s.localHold = false ∧ s.waitMarks = [5] ∧ s.ctx? 5 = some (ctx 4)
      ∧ s.table[(0 : Fin 16)] = .free := by decide +kernel

/-- A mark slot with E unknown, its fields at their bounds. -/
theorem witness_MarkIssued_slot :
    let b := encodeMarkSlot 255 .final (some 4294967294) 7#64 none 1#32 2#32 0xFFFFFFFF#32
    b.length = 64 ∧ field b 0 1 = 255 ∧ field b 1 1 = 2 ∧ field b 4 4 = 4294967294
      ∧ field b 8 8 = 7 ∧ field b 16 4 = 0xFFFFFFFF ∧ field b 28 4 = 4294967295 := by decide +kernel

/-- A fill behind the work of a land-held feed. -/
theorem witness_MarkIssued_fill :
    let s := { liveWith [{ ctx 4 with positions := [{ pos0 1 with land := .checking }] },
                         { ctx 4 with feed := 6, landHold := true }] with
               waitRewrites := [.batch 6, .fill 5 1] }
    s.operating = true ∧ s.quietUntil = none ∧ s.probeWaiting = false ∧ s.waitChecks = []
      ∧ s.waitRewrites = [.batch 6] ++ .fill 5 1 :: [] ∧ s.localHold = false
      ∧ (s.ctx? 6).map (·.landHold) = some true ∧ (s.ctx? 5).map (·.landHold) = some false
      ∧ s.table[(0 : Fin 16)] = .free
      ∧ (after .storageIssue s).waitRewrites = [.batch 6]
      ∧ ((after .storageIssue s).pos? 5 1).map (·.req) = some (some 0) := by decide +kernel

/-- Four READY positions, one due for a rewrite, make feed 5 landing-due: with no feed served before, and
with feed 5 the last served, so that the search wraps. -/
theorem witness_LandingBatchIssued :
    let c := { ctx 4 with positions :=
      [readyPos 0 0, readyPos 1 0, { readyPos 2 0 with dueRewrite := true }, readyPos 3 0] }
    let s := liveWith [c]
    s.TableOk ∧ (c.positions.map (·.seq)).Pairwise (· < ·)
      ∧ s.operating = true ∧ s.quietUntil = none ∧ s.probeWaiting = false
      ∧ s.waitChecks = [] ∧ s.waitRewrites = [] ∧ s.waitMarks = [] ∧ s.landingDue c = true
      ∧ Mark.ord s.lastServed ≤ 5 ∧ ¬(Mark.ord (some 5) ≤ 5)
      ∧ s.ctx? 5 = some c ∧ s.table[(0 : Fin 16)] = .free
      ∧ c.batchOf.map (·.seq) = [2, 0, 1, 3]
      ∧ (after .storageIssue s).lastServed = some 5
      ∧ (after .storageIssue { s with lastServed := some 5 }).lastServed = some 5 := by decide +kernel

/-- The rewrite batch of feed 5 behind that of a land-held feed, with a chunk longer than its slot. -/
theorem witness_LandingBatchIssued_rewrite :
    let c := { ctx 4 with positions := [{ readyPos 2 0 with dueRewrite := true }] }
    let long := { whole1 2 with hdr := { hdr1 2 bytes3 with length := 65473 } }
    let s := { liveWith [c, { ctx 4 with feed := 6, landHold := true }] with
               waitRewrites := [.batch 6] ++ .batch 5 :: [], ring := [long] }
    s.TableOk ∧ s.localHold = false ∧ c.landHold = false ∧ (s.ctx? 6).map (·.landHold) = some true
      ∧ s.ctx? 5 = some c ∧ (after .storageIssue s).waitRewrites = [.batch 6]
      ∧ ((after .storageIssue s).pos? 5 2).map (fun p => (p.land, p.wrote.map (·.1)))
          = some (.landing, some .truncated) := by decide +kernel

/-- A trailer with its fields at their bounds. -/
theorem witness_LandingBatchIssued_trailer :
    parseTrailer (encodeTrailer 4294967295 .lost 255 255 4294967295 5#32 4294967295)
      = ⟨4294967295, some .lost, 4294967295, 5#32, 255, 4294967295, 255⟩ := by decide +kernel

/-- A station to which an answer has arrived. -/
def answered (s : State) (m : List Byte) : State := { s with arrived := [m] }

/-- A DONE to a WRITE, tag 0. -/
def writeDone : List Byte := answerBytes 1#8 0#8 0#8 0 []

/-- Each of the three rows of R113 that ignore an answer. -/
theorem witness_AnswersIgnored :
    let a : StorageAnswer := ⟨.write, 0, .done, []⟩
    (answered live0 writeDone).Answered writeDone a ∧ live0.table[(0 : Fin 16)] = .free
      ∧ ({ live0 with table := live0.table.set 0 (.stale (req 1 .landing) 11000) }
          : State).table[(0 : Fin 16)] = .stale (req 1 .landing) 11000
      ∧ (withRequest live0 (req 1 .probe)).table[(0 : Fin 16)] = .issued (req 1 .probe)
      ∧ (req 1 .probe).purpose.kind ≠ a.kind := by decide +kernel

/-- A tag of 16, an outcome of 2, a refusal reason of 0 and of 4, and a request kind of 0 and of 5. -/
theorem witness_AnswersIgnored_unread :
    let m := fun (tag outcome reason : Byte) => [1#8, tag, outcome, reason] ++ reserved 4
    (∀ x ∈ [m 16#8 0#8 0#8, m 0#8 2#8 0#8, m 0#8 1#8 0#8, m 0#8 1#8 4#8],
        (answered live0 x).arrived.find? (fun y => messageKind y == some .write) = some x
          ∧ (15 < field x 1 1 ∨ 1 < field x 2 1
            ∨ (field x 2 1 = 1 ∧ (field x 3 1 < 1 ∨ 3 < field x 3 1)))
          ∧ (after .writeAnswer (answered (withRequest live0 (req 1 .landing)) x)).table[(0 : Fin 16)]
              = .issued (req 1 .landing))
      ∧ messageKind (0#8 :: reserved 7) = none ∧ messageKind (5#8 :: reserved 7) = none := by
  and_intros <;> decide +kernel

/-- No message waits, and one of another kind. -/
theorem witness_AnswersIgnored_none :
    (∀ m ∈ live0.arrived, messageKind m ≠ some .write)
      ∧ ∀ m ∈ (answered live0 [2#8]).arrived, messageKind m ≠ some .write := by decide +kernel

/-- A request with no owner left: its context gone, ABORTED, or without a position in it; a MARK that is
another one; a browse write whose job has gone. -/
theorem witness_AnswersIgnored_ownerless :
    (withRequest live0 (req 1 .landing)).Ownerless (req 1 .landing)
      ∧ (withRequest (liveWith [ctxIn .aborted none]) (req 1 .fill)).Ownerless (req 1 .fill)
      ∧ (withRequest (liveWith [ctx 4]) (req 1 .landingCheck)).Ownerless (req 1 .landingCheck)
      ∧ (withRequest (liveWith [ctx 4]) (req 1 (.mark .live))).Ownerless (req 1 (.mark .live))
      ∧ (withRequest live0 (req 1 (.browse 4))).Ownerless (req 1 (.browse 4)) := by
  refine ⟨.inl ⟨.inl rfl, 5, rfl, ?_⟩, .inl ⟨.inr (.inr (.inl rfl)), 5, rfl, ?_⟩,
    .inl ⟨.inr (.inr (.inr (.inl rfl))), 5, rfl, ?_⟩, .inr (.inl ⟨.inl rfl, 5, rfl, ?_⟩),
    .inr (.inr ⟨4, rfl, ?_⟩)⟩
  · rintro c ⟨⟩
  · rintro c ⟨⟩
    exact .inl (by decide)
  · rintro c ⟨⟩
    exact .inr (by decide)
  · rintro c ⟨⟩
    decide
  · rintro j ⟨⟩

/-- A LANDING position in request 1. -/
def landingPos : Position :=
  { pos0 1 with land := .landing, req := some 1,
                wrote := some (.present, checkWord bytes3) }

/-- The station whose landing WRITE of it is answered. -/
def landingState (m : List Byte) : State :=
  answered (withRequest (withPos landingPos) (req 1 .landing)) m

/-- A refusal FULL to a WRITE. -/
def writeFull : List Byte := answerBytes 1#8 1#8 1#8 0 []

theorem witness_WriteAnswered :
    (landingState writeDone).Answered writeDone ⟨.write, 0, .done, []⟩
      ∧ (landingState writeFull).Answered writeFull ⟨.write, 0, .full, []⟩
      ∧ (landingState writeDone).table[(0 : Fin 16)] = .issued (req 1 .landing)
      ∧ (landingState writeDone).owned (req 1 .landing) = true
      ∧ (landingState writeDone).inRequest 5 1 .landing = [1]
      ∧ (after .writeAnswer (landingState writeFull)).localHold = true
      ∧ (after .writeAnswer (landingState writeDone)).waitChecks = [⟨0, 5, [1], false, 1⟩] := by
  decide +kernel

/-- The station whose fill of position 1 is answered. -/
def fillState (m : List Byte) : State :=
  answered (withRequest (withPos { pos0 1 with land := .checking, lost := .fill, req := some 1 })
    (req 1 .fill)) m

/-- A fill answered DONE and FULL. -/
theorem witness_WriteAnswered_fill :
    (fillState writeDone).owned (req 1 .fill) = true
      ∧ (fillState writeDone).inRequest 5 1 .checking = [1]
      ∧ (fillState writeDone).table[(0 : Fin 16)] = .issued (req 1 .fill)
      ∧ ((after .writeAnswer (fillState writeDone)).ctx? 5).map
          (fun d => (d.counts.lost, (d.pos? 1).map (·.land))) = some (1, some .lost)
      ∧ (after .writeAnswer (fillState writeFull)).waitChecks = [⟨0, 5, [1], true, 1⟩]
      ∧ (after .writeAnswer (fillState writeFull)).localHold = true := by decide +kernel

/-- The fill's DONE ends the lost procedure: the WAITING browse job of the position waits CHUNKLESS. -/
theorem witness_WriteAnswered_lost :
    (fillState writeDone).hasJob 5 1 = false
      ∧ ((fillState writeDone).pos? 5 1).map (·.browse) = some (some .waiting)
      ∧ (after .writeAnswer (fillState writeDone)).waitJobs.map (fun j => (j.seq, j.kind, j.content))
          = [(1, .chunkless, .missing)] := by decide +kernel

/-- The station whose browse write of a job of position 1 is answered. -/
def browseState (m : List Byte) (k : JobKind) (x : JobContent) (spent : Bool) : State :=
  { answered (withRequest (withPos { pos0 1 with land := .landed, browse := some .queued })
      (req 1 (.browse 4))) m with
    shedJobs := [{ job 4 1 .writing with kind := k, content := x, retrySpent := spent,
                                         inFlight := some 1 }] }

/-- What becomes of it: the stage of its ending, and its counts. -/
def browseEnd (s : State) : Option (Option BrowseState × BitVec 32 × BitVec 32 × BitVec 32)
    × List Nat × List (JobContent × Bool) :=
  (((after .writeAnswer s).ctx? 5).map (fun d => ((d.pos? 1).bind (·.browse), d.counts.browseDone,
      d.counts.browseShed, d.counts.browseFailed)),
    (after .writeAnswer s).browseReady,
    (after .writeAnswer s).shedJobs.map (fun j => (j.content, j.retrySpent)))

/-- The rows of R156 and R157. -/
theorem witness_WriteAnswered_browse :
    (browseState writeDone .withChunk .present false).owned (req 1 (.browse 4)) = true
      ∧ (∀ c ∈ (browseState writeDone .withChunk .present false).contexts,
          (c.positions.map (·.seq)).Pairwise (· < ·)
          ∧ (c.pos? 1).map (fun p => (p.wantsBrowse, p.wantsLand)) = some (true, true))
      ∧ browseEnd (browseState writeDone .withChunk .present false)
          = (some (some .done, 1, 0, 0), [], [])
      ∧ browseEnd (browseState writeDone .chunkless .missing false)
          = (some (some .done, 0, 0, 0), [], [])
      ∧ browseEnd (browseState writeDone .shedRecord .shed false)
          = (some (some .shed, 0, 1, 0), [], [])
      ∧ browseEnd (browseState writeFull .withChunk .present false)
          = (some (some .queued, 0, 0, 0), [4], [(.present, true)])
      ∧ browseEnd (browseState writeFull .withChunk .present true)
          = (some (some .queued, 0, 0, 0), [4], [(.failed, true)])
      ∧ browseEnd (browseState writeFull .withChunk .failed true)
          = (some (some .done, 0, 0, 1), [], [])
      ∧ browseEnd (browseState writeFull .chunkless .missing true)
          = (some (some .done, 0, 0, 1), [], [])
      ∧ browseEnd (browseState writeFull .shedRecord .shed true)
          = (some (some .shed, 0, 1, 0), [], []) := by
  and_intros <;> decide +kernel

theorem witness_DeniedFaultsContext :
    let m := answerBytes 1#8 1#8 3#8 0 []
    let s := landingState m
    s.TableOk ∧ s.Answered m ⟨.write, 0, .range, []⟩
      ∧ s.table[(0 : Fin 16)] = .issued (req 1 .landing) ∧ s.owned (req 1 .landing) = true
      ∧ (req 1 .landing).purpose.kind = .write ∧ (s.ctx? 5).map (·.state) = some .active
      ∧ ((after .writeAnswer s).ctx? 5).map (·.state) = some .faulted := by decide +kernel

/-- The request, and the answer with a trailer as written (`good`) or of another state. -/
def checkState (good : Bool) (rewrites : Nat) : State :=
  let r := { req 2 .landingCheck with slots := [⟨1, 73728, 65536⟩] }
  let trailer := encodeTrailer 1 (if good then .present else .lost) 3 2 3 (checkWord bytes3) 2
  let m := answerBytes 2#8 0#8 0#8 1
    (trailer ++ beBytes 4 (checkWord bytes3).toNat ++ reserved 4)
  answered (withRequest (withPos
    { landingPos with land := .checking, req := some 2, rewrites := rewrites }) r) m

/-- A CHECK DONE with two trailers to a request of one slot is ignored; one with one is taken. -/
theorem witness_AnswersIgnored_trailers :
    let r := { req 2 .landingCheck with slots := [⟨1, 73728, 65536⟩] }
    let two := answerBytes 2#8 0#8 0#8 2 (List.replicate 144 0)
    let s := answered (withRequest live0 r) two
    (parseAnswer two).map (fun a => (a.kind, a.outcome, a.entries.length)) = some (.check, .done, 2)
      ∧ s.table[(0 : Fin 16)] = .issued r ∧ r.slots.length = 1
      ∧ (after .checkAnswer s).table[(0 : Fin 16)] = .issued r
      ∧ (after .checkAnswer s).arrived = [] := by and_intros <;> decide +kernel

/-- A match, a mismatch with 3 rewrites spent and one with 4. -/
theorem witness_CheckJudgesPosition :
    (checkState true 0).TableOk ∧ (checkState true 0).arrived.map (fun m => (parseAnswer m).map
          (fun a => (a.kind, a.outcome, a.entries.length))) = [some (.check, .done, 1)]
      ∧ (landingPos.wantsLand, landingPos.wantsBrowse) = (true, true)
      ∧ ((after .checkAnswer (checkState true 0)).ctx? 5).map
          (fun c => (c.counts.landed, (c.pos? 1).map (·.land))) = some (1, some .landed)
      ∧ ((after .checkAnswer (checkState false 3)).ctx? 5).map
          (fun c => (c.counts.rewrites, (c.pos? 1).map (·.land))) = some (1, some .ready)
      ∧ ((after .checkAnswer (checkState false 4)).ctx? 5).map
          (fun c => (c.counts.lost, (c.pos? 1).map (·.land))) = some (1, some .lost) := by
  decide +kernel

/-- A LANDED position that wants a landing job alone lets its pin go; one whose browse job is not done keeps
it. -/
theorem witness_CheckJudgesPosition_pins :
    let r := { req 2 .landingCheck with slots := [⟨1, 73728, 65536⟩] }
    let m := answerBytes 2#8 0#8 0#8 1 (encodeTrailer 1 .present 3 2 3 (checkWord bytes3) 2
      ++ beBytes 4 (checkWord bytes3).toNat ++ reserved 4)
    let s := fun browse => { answered (withRequest (liveWith [{ ctx 4 with
      browseKind := if browse then (ctx 4).browseKind else PerWay.same .unheld
      positions := [{ landingPos with land := .checking, req := some 2, pinned := true,
                                      wantsBrowse := browse }] }]) r) m with
      ring := [{ whole1 1 with pins := 1 }] }
    (∀ b ∈ [true, false], (s b).holdsPin 5 1 = true ∧ (s b).owned r = true)
      ∧ (after .checkAnswer (s true)).ring.map (·.pins) = [1]
      ∧ (after .checkAnswer (s false)).ring.map (·.pins) = [0]
      ∧ (after .checkAnswer (s false)).holdsPin 5 1 = false := by and_intros <;> decide +kernel

/-- A landing CHECK of two slots: position 1 matches, position 2 does not. -/
theorem witness_CheckJudgesPosition_several :
    let r := { req 2 .landingCheck with slots := [⟨1, 73728, 65536⟩, ⟨2, 139264, 65536⟩] }
    let stored := fun n => encodeTrailer n .present 3 2 3 (checkWord bytes3) 2
      ++ beBytes 4 (checkWord bytes3).toNat ++ reserved 4
    let m := answerBytes 2#8 0#8 0#8 2 (stored 1 ++ stored 3)
    let p := { landingPos with land := .checking, req := some 2 }
    let c := { ctx 4 with lv := PerWay.same (some 0), bv := PerWay.same (some 0),
                          positions := [p, { p with seq := 2 }, pos0 3] }
    let s := answered (withRequest (liveWith [c]) r) m
    s.TableOk ∧ s.owned r = true ∧ (r.slots.map (·.seq)).Nodup
      ∧ (parseAnswer m).map (fun a => (a.kind, a.outcome, a.entries.length)) = some (.check, .done, 2)
      ∧ (c.positions.map (·.seq)).Pairwise (· < ·)
      ∧ (∀ q ∈ c.positions, q.wantsLand = true ∧ c.WantsCalled q)
      ∧ ((after .checkAnswer s).ctx? 5).map (fun d => (d.counts.landed, d.counts.rewrites, d.lv.w0,
          d.positions.map (·.land)))
          = some (1, 1, some 1, [.landed, .ready, .absent]) := by and_intros <;> decide +kernel

/-- A position that wants a landing job alone while its context holds browse on another way. -/
theorem witness_CheckJudgesPosition_wants :
    let c := { ctx 4 with params := { params 4 with wayFn := 1 },
                          landKind := ⟨.configured, .unheld, .unheld, .unheld⟩,
                          browseKind := ⟨.unheld, .configured, .unheld, .unheld⟩ }
    c.wayOf 0 = 0 ∧ c.wayOf 1 = 1 ∧ (c.newPosition 0).wantsLand = true
      ∧ (c.newPosition 0).wantsBrowse = false ∧ c.WantsCalled (c.newPosition 0)
      ∧ (c.newPosition 1).wantsLand = false ∧ c.WantsCalled (c.newPosition 1)
      ∧ ({ c with positions := [c.newPosition 0, c.newPosition 1] } : FeedContext).JobPlaced
          (job 4 1 .writing) := by
  and_intros <;> decide +kernel

/-- The trailer CHECK of position 1 of a feed, answered with a trailer of a state and sequence number. -/
def trailerState (st : TrailerState) (seq : Nat) : State :=
  let r := { req 2 .trailerCheck with slots := [⟨1, 73728, 65536⟩] }
  let m := answerBytes 2#8 0#8 0#8 1 (encodeTrailer seq st 4 2 3 (checkWord bytes3) 2
    ++ beBytes 4 (checkWord bytes3).toNat ++ reserved 4)
  answered (withRequest (withPos { pos0 1 with land := .checking, lost := .trailerCheck, req := some 2 })
    r) m

/-- A copy, a truncated copy, a declaration and another sequence number (R105). -/
theorem witness_CheckJudgesPosition_trailer :
    let seen := fun (s : State) => ((after .checkAnswer s).ctx? 5).map (fun d => (d.counts.landed,
      d.counts.truncated, d.counts.lost, (d.pos? 1).map (·.land)))
    (trailerState .present 1).inRequest 5 2 .checking = [1]
      ∧ (∀ c ∈ (trailerState .present 1).contexts, c.state = .active
          ∧ (c.positions.map (·.seq)).Pairwise (· < ·)
          ∧ (c.pos? 1).map (fun p => (p.wantsLand, p.wantsBrowse)) = some (true, true))
      ∧ seen (trailerState .present 1) = some (1, 0, 0, some .landed)
      ∧ seen (trailerState .truncated 1) = some (1, 1, 0, some .landed)
      ∧ seen (trailerState .lost 1) = some (0, 0, 1, some .lost)
      ∧ seen (trailerState .present 0) = some (0, 0, 0, some .checking)
      ∧ (after .checkAnswer (trailerState .present 0)).waitRewrites = [.fill 5 1] := by
  and_intros <;> decide +kernel

/-- FULL to a landing CHECK of issue number 2 and to a trailer CHECK. -/
theorem witness_CheckJudgesPosition_full :
    let m := answerBytes 2#8 1#8 1#8 0 []
    let s := fun (k : Purpose) => answered (withRequest (withPos
      { landingPos with land := .checking, req := some 2 }) { req 2 k with issueNo := 2 }) m
    (s .landingCheck).Answered m ⟨.check, 0, .full, []⟩
      ∧ (s .landingCheck).owned { req 2 .landingCheck with issueNo := 2 } = true
      ∧ (s .landingCheck).inRequest 5 2 .checking = [1]
      ∧ (after .checkAnswer (s .landingCheck)).waitChecks = [⟨0, 5, [1], false, 2⟩]
      ∧ (after .checkAnswer (s .trailerCheck)).waitChecks = [⟨0, 5, [1], true, 1⟩] := by decide +kernel

/-- A mark that moves over done positions, one that stays none, and one at E. -/
theorem witness_CheckJudgesPosition_marks :
    let c := { ctx 4 with positions := [{ pos0 0 with land := .landed }, { pos0 1 with land := .lost },
      pos0 2] }
    c.params.geometryOk = true ∧ 0 ∈ c.waysInUse ∧ (∀ p ∈ c.positions, p.seq < Mark.ord none + 512)
      ∧ c.computedMark .landing 0 = some 1 ∧ (ctx 4).computedMark .landing 0 = none
      ∧ ({ c with e := some 1 } : FeedContext).computedMark .landing 0 = some 1
      ∧ (after .checkAnswer (checkState true 0)).contexts.map (·.lv.w0) = [none] := by decide +kernel

/-- A DONE to a FINAL MARK, and to an ABORTED one. -/
theorem witness_MarkAnswered :
    let m := answerBytes 3#8 0#8 0#8 0 []
    let s := fun st k => answered (withRequest (liveWith [{ ctxIn st (some 3) with
      markReq := some 1 }]) (req 1 (.mark k))) m
    (s .final .final).Answered m ⟨.mark, 0, .done, []⟩
      ∧ (s .final .final).table[(0 : Fin 16)] = .issued (req 1 (.mark .final))
      ∧ ((s .final .final).ctx? 5).map (·.markReq) = some (some 1)
      ∧ ((after .markAnswer (s .final .final)).ctx? 5).map (·.linger) = some (some 20000)
      ∧ ((after .markAnswer (s .aborted .aborted)).ctx? 5).map (·.storageEnded) = some true
      ∧ ((after .markAnswer (s .final .live)).ctx? 5).map (·.linger) = some none := by
  decide +kernel

/-- FULL to a MARK of an ACTIVE context, and DENIED to one of a FINAL context. -/
theorem witness_MarkAnswered_refused :
    let full := answerBytes 3#8 1#8 1#8 0 []
    let denied := answerBytes 3#8 1#8 2#8 0 []
    let s := fun m st k => answered (withRequest (liveWith [{ ctxIn st (some 3) with
      markReq := some 1 }]) (req 1 (.mark k))) m
    (s full .active .live).Answered full ⟨.mark, 0, .full, []⟩
      ∧ (s denied .final .final).Answered denied ⟨.mark, 0, .denied, []⟩
      ∧ (after .markAnswer (s full .active .live)).waitMarks = [5]
      ∧ (after .markAnswer (s full .active .live)).localHold = true
      ∧ ((after .markAnswer (s denied .final .final)).ctx? 5).map (fun d =>
          (d.state, d.linger, d.storageEnded)) = some (.final, some 20000, true) := by decide +kernel

theorem witness_ProbeAnswered :
    let done := answerBytes 4#8 0#8 0#8 0 []
    let full := answerBytes 4#8 1#8 1#8 0 []
    let s := fun m => answered (withRequest { live0 with localHold := true, timeoutRun := 3 }
      (req 1 .probe)) m
    (s done).Answered done ⟨.probe, 0, .done, []⟩ ∧ (s full).Answered full ⟨.probe, 0, .full, []⟩
      ∧ (s done).table[(0 : Fin 16)] = .issued (req 1 .probe)
      ∧ (after .probeAnswer (s done)).localHold = false
      ∧ (after .probeAnswer (s full)).localHold = true := by decide +kernel

/-- A DONE that lifts the hold of a CHUNKLESS job and of an age. -/
theorem witness_ProbeAnswered_jobs :
    let done := answerBytes 4#8 0#8 0#8 0 []
    let less := { (ctx 4).chunklessJob 2 1 with stage := .queued }
    let s := answered (withRequest { liveWith [ctx 4] with
      localHold := true, queueJobs := [{ job 1 0 .queued with shedAge := 30 }, less] } (req 1 .probe)) done
    s.JobsLifted (after .probeAnswer s) ∧ (after .probeAnswer s).browseReady = [2] := by decide +kernel

/-- The storage timeout exactly, one millisecond before it, and the third in a row. -/
theorem witness_StorageTimesOut :
    let s := withRequest live0 { req 1 .landing with issueTime := 8000 }
    s.table[(0 : Fin 16)] = .issued { req 1 .landing with issueTime := 8000 }
      ∧ (8000 : Nat) + 2000 ≤ s.now ∧ ({ s with now := 9999 } : State).now < 8000 + 2000
      ∧ (after (.storageTimeout 0) { s with timeoutRun := 2 }).localHold = true
      ∧ (after (.storageTimeout 0) { s with timeoutRun := 1 }).localHold = false := by decide +kernel

/-- The reactions of the owners: a landing CHECK of issue number 1 and 2, a fill and a MARK; and a request
with no owner. -/
theorem witness_StorageTimesOut_owners :
    let at8 := fun (r : Request) => { r with issueTime := 8000 }
    let s := fun (p : Position) (r : Request) => withRequest (withPos p) (at8 r)
    let p := { landingPos with land := .checking, req := some 2 }
    let marked := withRequest (liveWith [{ ctx 4 with markReq := some 1 }]) (at8 (req 1 (.mark .live)))
    (s p (req 2 .landingCheck)).owned (at8 (req 2 .landingCheck)) = true
      ∧ (s p (req 2 .landingCheck)).inRequest 5 2 .checking = [1]
      ∧ (after (.storageTimeout 0) (s p (req 2 .landingCheck))).waitChecks = [⟨0, 5, [1], false, 2⟩]
      ∧ ((after (.storageTimeout 0) (s p { req 2 .landingCheck with issueNo := 2 })).pos? 5 1).map
          (fun q => (q.land, q.dueRewrite)) = some (.ready, false)
      ∧ (after (.storageTimeout 0) (s p (req 2 .fill))).waitChecks = [⟨0, 5, [1], true, 1⟩]
      ∧ ((after (.storageTimeout 0) (s landingPos (req 1 .landing))).pos? 5 1).map (·.land)
          = some .ready
      ∧ marked.owned (at8 (req 1 (.mark .live))) = true
      ∧ (after (.storageTimeout 0) marked).waitMarks = [5]
      ∧ (s p (req 9 .fill)).owned (at8 (req 9 .fill)) = false := by decide +kernel

/-- A browse write that times out. -/
theorem witness_StorageTimesOut_browse :
    let s := { browseState writeDone .withChunk .present false with now := 11000 }
    s.table[(0 : Fin 16)] = .issued (req 1 (.browse 4)) ∧ (9000 : Nat) + 2000 ≤ s.now
      ∧ s.owned (req 1 (.browse 4)) = true ∧ (s.job? 4).isSome = true
      ∧ (after (.storageTimeout 0) s).browseReady = [4] := by decide +kernel

/-- A movable job and a full queue; a job the reducer takes. -/
theorem witness_BrowseJobAdvances :
    let j := job 1 0 .waiting
    let s := { live0 with waitJobs := [j] }
    s.queueJobs.length < 64 ∧ s.waitJobs.find? (fun k => !s.browseHeld k.feed) = some j
      ∧ 64 ≤ (List.replicate 64 j).length
      ∧ (after .browseQueueEntry s).queueJobs.map (·.stage) = [.queued]
      ∧ (after .reducerTakesJob { live0 with queueJobs := [job 1 0 .queued] }).queueJobs.map
          (·.stage) = [.decoding] := by decide +kernel

/-- A browse write issued past one whose feed is browse-held. -/
theorem witness_BrowseJobAdvances_issue :
    let j := { job 4 1 .writing with content := .failed }
    let s := { liveWith [ctx 4, { ctx 4 with feed := 6, browseHold := true }] with
               queueJobs := [{ job 3 1 .writing with feed := 6 }, j], browseReady := [3] ++ 4 :: [] }
    s.operating = true ∧ s.quietUntil = none ∧ s.waitMarks = [] ∧ s.job? 4 = some j
      ∧ (∀ d ∈ s.contexts, s.landingDue d = false) ∧ s.browseHeld 5 = false
      ∧ (s.job? 3).map (fun k => s.browseHeld k.feed) = some true ∧ s.ctx? 5 = some (ctx 4)
      ∧ j.chunk = some (hdr1 1 bytes3) ∧ j.content ≠ .missing ∧ s.table[(0 : Fin 16)] = .free
      ∧ (after .storageIssue s).browseReady = [3]
      ∧ (match (after .storageIssue s).table[(0 : Fin 16)] with
          | .issued r => some r.extents
          | _ => none) = some ((ctx 4).writeOf j (hdr1 1 bytes3)) := by
  and_intros <;> decide +kernel

/-- A decoded picture of the source size of the tests. -/
def picture64 : Picture :=
  { width := 64, height := 32, luma := List.replicate 2048 1#8, cb := List.replicate 512 2#8,
    cr := List.replicate 512 3#8 }

/-- Two pictures of the source size, and a failure with and without the retry spent. -/
theorem witness_DecodingEnds :
    let s := { liveWith [ctx 4] with queueJobs := [job 1 0 .decoding] }
    s.ctx? 5 = some (ctx 4) ∧ (job 1 0 .decoding).chunk = some (hdr1 0 bytes3)
      ∧ [picture64, picture64].length = (hdr1 0 bytes3).frames
      ∧ (picture64.width, picture64.height) = ((ctx 4).params.width, (ctx 4).params.height)
      ∧ (after (.decodeComplete (some [picture64, picture64])) s).queueJobs.map (·.stage)
          = [.writing]
      ∧ (after (.decodeComplete none) s).queueJobs.map (fun j => (j.stage, j.retrySpent))
          = [(.decoding, true)] := by decide +kernel

/-- Rates that are not 0, and a reduced plane. -/
theorem witness_DecodingEnds_arithmetic :
    0 < (ctx 4).up ∧ 0 < (ctx 4).down ∧ ((ctx 4).writtenSet (hdr1 0 bytes3)).map (·.number) = [0]
      ∧ reducePlane 2 3 1 2 2 [10#8, 13#8, 20#8] = [12#8, 20#8, 12#8, 20#8] := by decide +kernel

/-- A shed age of exactly 1,000 ms, and of 999. -/
theorem witness_JobShed :
    let j := fun age => { job 1 0 .queued with shedAge := age }
    let s := fun age => { live0 with queueJobs := [j age] }
    (j 1000).ageAt 10000 = 1000 ∧ (j 1000).kind = .withChunk ∧ (j 1000).stage = .queued
      ∧ (after (.shedAgeExpiry 5 0) (s 1000)).shedJobs.map (·.content) = [.shed]
      ∧ (after (.shedAgeExpiry 5 0) (s 999)).shedJobs = [] := by decide +kernel

/-- A storage frame of tag 0 with an offset and a total. -/
def fragment (off total : Nat) (bytes : List Byte) : Frame :=
  { dest := 0#48, src := 0#48, ftype := Config.storageType,
    body := [0#8, 0#8, 0#8, 0#8] ++ beBytes 4 off ++ beBytes 4 total ++ bytes }

/-- A whole message, a part of one, and a total that disagrees. -/
theorem witness_FragmentArrives :
    let f := fragment 0 8 writeDone
    live0.operating = true ∧ f.body.length ≤ 9000 ∧ 12 ≤ f.body.length ∧ field f.body 4 4 = 0
      ∧ field f.body 8 4 = (f.body.drop 12).length ∧ messageKind (f.body.drop 12) = some .write
      ∧ (after (.storageFragmentReceived f) live0).arrived = [writeDone]
      ∧ (after (.storageFragmentReceived (fragment 0 9 writeDone)) live0).gathers
          = [⟨0#8, 9, [(0, writeDone)]⟩]
      ∧ (after (.storageFragmentReceived f)
          { live0 with gathers := [⟨0#8, 9, [(0, writeDone)]⟩] }).gathers = [] := by decide +kernel

/-- A whole message of kind 9, and a first fragment of offset 4. -/
theorem witness_FragmentArrives_other :
    messageKind (9#8 :: writeDone.tail) = none
      ∧ after (.storageFragmentReceived (fragment 0 8 (9#8 :: writeDone.tail))) live0 = live0
      ∧ (after (.storageFragmentReceived (fragment 4 8 (writeDone.drop 4))) live0).gathers
          = [⟨0#8, 8, [(4, writeDone.drop 4)]⟩] := by decide +kernel

/-- A later fragment that agrees: it completes the message, or is gathered. -/
theorem witness_FragmentArrives_later :
    let g : Gather := ⟨0#8, 8, [(0, writeDone.take 4)]⟩
    let s := { live0 with gathers := [g] }
    s.gathers.find? (fun x => x.tag == 0#8) = some g ∧ g.byteAt 4 = none
      ∧ (∀ i < 8, (writeDone[i]?) = (if 4 ≤ i ∧ i < 8 then (writeDone.drop 4)[i - 4]? else g.byteAt i))
      ∧ (after (.storageFragmentReceived (fragment 4 8 (writeDone.drop 4))) s).arrived = [writeDone]
      ∧ (after (.storageFragmentReceived (fragment 4 8 (writeDone.drop 4))) s).gathers = []
      ∧ (after (.storageFragmentReceived (fragment 5 8 (writeDone.drop 5))) s).gathers
          = [⟨0#8, 8, [(0, writeDone.take 4), (5, writeDone.drop 5)]⟩] := by decide +kernel

/-- A state with a context, a position, an adopted triple and a step. -/
theorem witness_StepKeepsContexts :
    let c := { ctx 4 with landKind := ⟨.adopted, .unheld, .unheld, .unheld⟩,
                          positions := [pos0 0, pos0 3] }
    let s := { liveWith [c] with adopted := [⟨5, 0, .landing⟩], pending := [.lingerExpiry 5] }
    s.TableOk ∧ s.AdoptedOk ∧ s.WindowsOk ∧ s.EndsOk := by decide +kernel

theorem witness_StepKeepsQueues :
    let s := { live0 with ring := [{ whole1 0 with pins := 1 }, entry 1 false hdr2 [(1, [])]],
                          pending := [.portTransmit] }
    s.RingOk ∧ s.QueuesOk ∧ s.TransmitOk := by decide +kernel

theorem witness_StepKeepsPeers :
    let s := { live0 with peers := [peerEntry .live 59], pending := [.peerSilent 8] }
    s.PeersOk ∧ s.SilentOk := by decide +kernel

/-- A step after which the context is there. -/
theorem witness_StepCarriesContext :
    let s := { liveWith [ctx 4] with pending := [.pacingTimerExpiry 5] }
    (∃ t, step s = .next t ∧ t.ctx? 5 = some (ctx 4)) ∧ s.ctx? 5 = some (ctx 4) :=
  ⟨⟨_, rfl, by decide +kernel⟩, by decide +kernel⟩

/-! ### Small tests of commands whose statements have no witness of their own above -/

/-- R32, R37: a beacon of this station's own number latches DUPLICATE NUMBER. -/
theorem test_beacon_own_number :
    (after (.beacon (beaconOf 3 [])) live0).dupNumber = true := by decide +kernel

/-- R61, R112: the lowest FREE entry takes the request. -/
theorem test_issue_lowest_entry :
    (withRequest live0 (req 1 .probe)).freeTag = some 1 := by decide +kernel

end Sys2Proof.Tests
end

