-- ==== Sys2Proof/Proofs/Directives.lean ====
section
/-! The state after reset, the end candidate rule, and the directives: what each decision of an OPEN does,
and that a directive leaves the contexts of other feeds alone. -/

namespace Sys2Proof.Machine

/-! ### Reset -/

/-- Settles O2: every value is the one `State.reset` writes down. -/
theorem resetHoldsPowerValues : Obligations.ResetHoldsPowerValues := by
  refine ⟨rfl, rfl, fun f => ?_, rfl, rfl, rfl, rfl, rfl, rfl, rfl, rfl, rfl, rfl, rfl, fun t => ?_,
    rfl, rfl, rfl, rfl, rfl, rfl, rfl, rfl, rfl, rfl, rfl, rfl, rfl⟩
  · by_cases h : f < 64 <;> simp [State.closedId, State.reset, h]
  · simp [State.reset]

/-- Settles O3: the lists that the bounds speak of are empty, and no frame waits in LOADING. -/
theorem resetIsSafe : Obligations.ResetIsSafe := by
  refine ⟨?table, ?ring, ?adopted, ?peers, ?queues, ?transmit, ?silent, ?windows, ?ends⟩
  case table => exact ⟨.nil, Nat.zero_le _, fun f hf => absurd hf List.not_mem_nil⟩
  case ring => exact ⟨.nil, Nat.zero_le _, Nat.zero_le _, fun e he => absurd he List.not_mem_nil⟩
  case adopted => exact ⟨.nil, Nat.zero_le _, fun t ht => absurd ht List.not_mem_nil⟩
  case peers => exact ⟨.nil, fun p hp => absurd hp List.not_mem_nil⟩
  case queues => exact ⟨Nat.zero_le _, Nat.zero_le _⟩
  case transmit => exact ⟨fun _ => ⟨rfl, rfl, rfl, rfl⟩, fun _ => rfl⟩
  case silent => exact fun _ => ⟨rfl, rfl, rfl, rfl, rfl, rfl, rfl, rfl, rfl, rfl⟩
  case windows => exact fun c hc => absurd hc List.not_mem_nil
  case ends => exact fun c hc => absurd hc List.not_mem_nil

/-! ### Marks and their order -/

theorem Mark.ord_higher (a b : Mark) : Mark.ord (Mark.higher a b) = max (Mark.ord a) (Mark.ord b) := by
  unfold Mark.higher
  split <;> omega

theorem Mark.ord_injective {a b : Mark} (h : Mark.ord a = Mark.ord b) : a = b := by
  cases a <;> cases b <;> simp_all [Mark.ord]

@[simp] theorem Mark.ord_ofOrd (n : Nat) : Mark.ord (Mark.ofOrd n) = n := by
  cases n <;> rfl

@[simp] theorem Mark.higher_none (a : Mark) : Mark.higher a none = a := by
  simp [Mark.higher, Mark.ord]

theorem Mark.higher_eq_or (a b : Mark) : Mark.higher a b = a ∨ Mark.higher a b = b := by
  unfold Mark.higher
  split <;> simp

/-- A known mark raised to another stays known. -/
theorem Mark.higher_some_ne_none (x : Nat) (b : Mark) : Mark.higher (some x) b ≠ none := fun h => by
  have := Mark.ord_higher (some x) b
  rw [h] at this
  simp [Mark.ord] at this
  omega

theorem Mark.foldl_higher_spec (l : List Mark) (a : Mark) :
    Mark.ord a ≤ Mark.ord (l.foldl Mark.higher a)
      ∧ (∀ m ∈ l, Mark.ord m ≤ Mark.ord (l.foldl Mark.higher a))
      ∧ (l.foldl Mark.higher a = a ∨ l.foldl Mark.higher a ∈ l) := by
  induction l generalizing a with
  | nil => simp
  | cons b l ih =>
    obtain ⟨h1, h2, h3⟩ := ih (Mark.higher a b)
    have hab := Mark.ord_higher a b
    simp only [List.foldl_cons, List.mem_cons, forall_eq_or_imp]
    refine ⟨by omega, ⟨by omega, h2⟩, ?_⟩
    rcases h3 with h3 | h3
    · rcases Mark.higher_eq_or a b with h | h
      · exact .inl (h3.trans h)
      · exact .inr (.inl (h3.trans h))
    · exact .inr (.inr h3)

/-- The highest of a list lies above none of its marks. -/
theorem Mark.le_highest {l : List Mark} {m : Mark} (h : m ∈ l) : Mark.ord m ≤ Mark.ord (Mark.highest l) :=
  (Mark.foldl_higher_spec l none).2.1 m h

/-- The highest of a list is one of its marks, or none. -/
theorem Mark.highest_mem (l : List Mark) : Mark.highest l = none ∨ Mark.highest l ∈ l :=
  (Mark.foldl_higher_spec l none).2.2

/-- The highest of a list with a first mark is that mark or a later one. -/
theorem Mark.highest_cons_mem (a : Mark) (l : List Mark) :
    Mark.highest (a :: l) = a ∨ Mark.highest (a :: l) ∈ l := by
  have h : Mark.higher none a = a := by cases a <;> simp [Mark.higher, Mark.ord]
  simpa [Mark.highest, h] using (Mark.foldl_higher_spec l a).2.2

/-! ### Candidates for E (R13) -/

/-- A candidate below a known E, or to an unknown one: E is the candidate, raised to the end floor. -/
theorem FeedContext.endAfter_taken {c : FeedContext} {x : Nat}
    (h : ∀ e, c.e = some e → min x (c.params.slotCount - 1) < e) :
    c.endAfter x = Mark.higher (some (min x (c.params.slotCount - 1))) c.endFloor := by
  unfold FeedContext.endAfter
  split
  · next e he => rw [if_neg (Nat.not_le.mpr (h e he))]
  · rfl

/-- A candidate not below a known E leaves it. -/
theorem FeedContext.endAfter_kept {c : FeedContext} {x e : Nat} (he : c.e = some e)
    (h : e ≤ min x (c.params.slotCount - 1)) : c.endAfter x = some e := by
  simp only [FeedContext.endAfter, he, if_pos h]

/-- E after a candidate is known. -/
theorem FeedContext.endAfter_ne_none (c : FeedContext) (x : Nat) : c.endAfter x ≠ none := by
  by_cases h : ∀ e, c.e = some e → min x (c.params.slotCount - 1) < e
  · rw [FeedContext.endAfter_taken h]
    exact Mark.higher_some_ne_none _ _
  · push Not at h
    obtain ⟨e, he, hle⟩ := h
    rw [FeedContext.endAfter_kept he hle]
    exact Option.some_ne_none e

/-- Settles O35, by the two cases of the candidate and the order of marks. -/
theorem endCandidateRule : Obligations.EndCandidateRule := by
  intro c x
  refine ⟨fun e he hle => FeedContext.endAfter_kept he hle, fun h => ?_, ?_, fun m hm => ?_, ?_⟩
  · rw [FeedContext.endAfter_taken h, Mark.ord_higher]
    rfl
  · exact Mark.le_highest (l := c.published :: c.heldMarks) (by simp)
  · exact Mark.le_highest (l := c.published :: c.heldMarks) (by simp [hm])
  · exact Mark.highest_cons_mem c.published c.heldMarks

/-! ### What a parsed frame names -/

/-- A directive that names a feed names one of the 64 (R166). -/
theorem parseDirective_feed {b : List Byte} {d : Directive} {feed : Nat}
    (h : parseDirective b = some d) (hf : d.feed? = some feed) : feed < Config.feeds := by
  unfold parseDirective at h
  simp only at h
  split_ifs at h with h1 h2 h3 h4 h5
  · cases h
    cases hf
  · rw [← Nat.not_le]
    suffices hfeed : feed = field b 4 1 from hfeed ▸ h5
    split at h
    all_goals first
      | (cases h; exact (Option.some.inj hf).symm)
      | (obtain ⟨lb, -, rfl⟩ := Option.map_eq_some_iff.mp h; exact (Option.some.inj hf).symm)
      | cases h

/-- A beacon's records name feeds among the 64 (R32). -/
theorem parseBeacon_feed {b : List Byte} {p : PeerBeacon} {q : FeedRecord}
    (h : parseBeacon b = some p) (hq : q ∈ p.records) : q.feed < Config.feeds := by
  unfold parseBeacon at h
  simp only at h
  iterate 6 (split at h; · cases h)
  split at h
  · cases h
  · split at h
    · cases h
    next h1 =>
    split at h
    · cases h
    · cases h
      simp only [List.any_eq_true, decide_eq_true_eq, not_exists, not_and] at h1
      exact Nat.not_le.mp (h1 q hq)

/-! ### The decisions of an OPEN (R10, R11) -/

/-- The slot sizes of R11 as a list. -/
theorem isSlotSize_iff (lo hi size : Nat) :
    isSlotSize lo hi size = true ↔ size ∈ (List.range (hi - lo + 1)).map (fun i => 2 ^ (lo + i)) := by
  simp only [isSlotSize, List.any_eq_true, beq_iff_eq, List.mem_map]
  exact exists_congr fun i => and_congr_right fun _ => eq_comm

theorem OpenParams.sizesOk_iff (p : OpenParams) :
    p.sizesOk = true ↔
      p.landingSlot ∈ [65536, 131072, 262144, 524288, 1048576, 2097152]
      ∧ 1 ≤ p.slotCount ∧ p.slotCount ≤ 16777216
      ∧ p.browseSlot ∈ [16384, 32768, 65536, 131072, 262144]
      ∧ 1 ≤ p.browseSlots ∧ p.browseSlots ≤ 1073741824
      ∧ p.landingBase % 4096 = 0 ∧ p.browseBase % 4096 = 0
      ∧ p.landingBase + 4096 + p.slotCount * p.landingSlot < 2 ^ 64
      ∧ p.browseBase + (p.slotCount * 64 + 4095) / 4096 * 4096 + p.browseSlots * p.browseSlot < 2 ^ 64
      ∧ p.cueCount ≤ 8 := by
  have hl : (List.range (21 - 16 + 1)).map (fun i => 2 ^ (16 + i))
      = [65536, 131072, 262144, 524288, 1048576, 2097152] := by decide
  have hb : (List.range (18 - 14 + 1)).map (fun i => 2 ^ (14 + i))
      = [16384, 32768, 65536, 131072, 262144] := by decide
  have hlt : ∀ x : Nat, within64 x = true ↔ x < 2 ^ 64 := fun x => by
    rw [within64, decide_eq_true_eq]; omega
  have hidx : p.indexArea = (p.slotCount * 64 + 4095) / 4096 * 4096 := rfl
  unfold OpenParams.sizesOk
  rw [hidx]
  simp only [Bool.and_eq_true, decide_eq_true_eq, isSlotSize_iff, hlt]
  rw [hl, hb]
  tauto

theorem OpenParams.geometryOk_iff (p : OpenParams) :
    p.geometryOk = true ↔ p.factor ∈ [2, 4, 8] ∧ 16 ≤ p.width ∧ p.width ≤ 4096 ∧ 16 ≤ p.height
      ∧ p.height ≤ 2160 ∧ p.wayFn ≤ 3 ∧ p.depth ∈ [1, 2, 4, 8] := by
  simp only [OpenParams.geometryOk, Bool.and_eq_true, Bool.or_eq_true, beq_iff_eq, decide_eq_true_eq,
    List.mem_cons, List.not_mem_nil, or_false]
  tauto

/-- What the field checks find, in their order (R10, R11). -/
theorem OpenParams.check_eq_none_iff (p : OpenParams) :
    p.check = none ↔ p.ratesOk = true ∧ p.sizesOk = true ∧ p.geometryOk = true ∧ p.fitsAt 8 = true := by
  unfold OpenParams.check
  cases p.ratesOk <;> cases p.sizesOk <;> cases p.geometryOk <;> cases p.fitsAt 8 <;> decide

/-- A refused OPEN of a feed with no context replaces the last-refusal record alone. -/
theorem State.openContext_refused {s : State} {feed : Nat} {p : OpenParams} {r : Range}
    {reason : RefusalReason} (hr : rangeOf s.settings.ranges feed = some r) (hc : s.ctx? feed = none)
    (h : p.check = some reason) : s.openContext feed p = s.refuse feed reason := by
  simp only [State.openContext, hr, hc, h]

/-- A context is created where no decision stands against it. -/
theorem State.openContext_creates {s : State} {feed : Nat} {p : OpenParams} {r : Range}
    (hr : rangeOf s.settings.ranges feed = some r) (hc : s.ctx? feed = none) (h : p.check = none)
    (hl : s.contexts.length < 32) :
    s.openContext feed p = s.createContext feed r p .directed none none none := by
  have hroom : ¬Config.maxContexts ≤ s.contexts.length := Nat.not_le.mpr hl
  simp only [State.openContext, hr, hc, h, if_neg hroom]

/-- The command of a heard directive applies it. -/
theorem exec_directive {s : State} {f : Frame} {d : Directive} {i : Instr} (h : s.HearsDirective f d)
    (hi : i ∈ receiveCommands f) : exec i s = .next (s.applyDirective d) := by
  rw [exec_receive hi, State.receiveFrame_directive h]

/-! ### Creation of a context (R12, R17) -/

/-- The context that a creation puts in its place, before its window is built (R12, R17). -/
def State.created (s : State) (feed : Nat) (r : Range) (p : OpenParams) (origin : Origin)
    (start recordH recordE : Mark) : FeedContext :=
  (((FeedContext.fresh feed r p origin start
    (Mark.higher (s.ringHigh feed p.slotCount) recordH)).assessAllotment s.settings.margin).offerEnd?
      recordE).offerEnd? (s.ringLast feed)

theorem FeedContext.offerEnd?_carries (c : FeedContext) (e : Mark) :
    (c.offerEnd? e).feed = c.feed ∧ c.Carries (c.offerEnd? e) := by
  cases e with
  | none => exact ⟨rfl, .refl c⟩
  | some e => exact FeedContext.offerEnd_carries e c

theorem FeedContext.assessAllotment_carries (c : FeedContext) (m : Nat) :
    (c.assessAllotment m).feed = c.feed ∧ c.Carries (c.assessAllotment m) := by
  unfold FeedContext.assessAllotment
  split
  · exact ⟨rfl, rfl, rfl, rfl, rfl, Nat.le_refl _, Nat.le_refl _, fun _ => rfl, id, id, id, id, id, id⟩
  · exact ⟨rfl, .refl c⟩

section
variable (s : State) (feed : Nat) (r : Range) (p : OpenParams) (origin : Origin)
  (start recordH recordE : Mark)

/-- A created context carries what its fresh one had. -/
theorem State.created_carries :
    (s.created feed r p origin start recordH recordE).feed = feed
      ∧ (FeedContext.fresh feed r p origin start
          (Mark.higher (s.ringHigh feed p.slotCount) recordH)).Carries
        (s.created feed r p origin start recordH recordE) := by
  let c := FeedContext.fresh feed r p origin start (Mark.higher (s.ringHigh feed p.slotCount) recordH)
  have ha := c.assessAllotment_carries s.settings.margin
  have h1 := (c.assessAllotment s.settings.margin).offerEnd?_carries recordE
  have h2 := ((c.assessAllotment s.settings.margin).offerEnd? recordE).offerEnd?_carries
    (s.ringLast feed)
  exact ⟨h2.1.trans (h1.1.trans ha.1), ha.2.trans (h1.2.trans h2.2)⟩

/-- After its place is taken, a creation is work on that one context. -/
theorem State.touch_createContext :
    (s.addCtx (s.created feed r p origin start recordH recordE)).Touches feed
      (s.createContext feed r p origin start recordH recordE) := by
  have h1 := State.touch_mapCtx (s.addCtx (s.created feed r p origin start recordH recordE)) feed _
    FeedContext.reachEnd_carries
  unfold State.createContext
  simp only
  split
  · exact (((h1.trans (State.touch_buildWindow ..)).trans (State.touch_recomputeCommit ..)).trans
      (State.touch_finalTest ..)).trans (State.touch_paceTest ..)
  · exact ((h1.trans (State.touch_recomputeCommit ..)).trans (State.touch_finalTest ..)).trans
      (State.touch_paceTest ..)

theorem State.frame_createContext :
    (s.addCtx (s.created feed r p origin start recordH recordE)).SameOutside
      (s.createContext feed r p origin start recordH recordE) := by
  have h1 := State.frame_mapCtx (s.addCtx (s.created feed r p origin start recordH recordE)) feed _
    FeedContext.reachEnd_feed
  unfold State.createContext
  simp only
  split
  · exact (((h1.trans (State.frame_buildWindow ..)).trans (State.frame_recomputeCommit ..)).trans
      (State.frame_finalTest ..)).trans (State.frame_paceTest ..)
  · exact ((h1.trans (State.frame_recomputeCommit ..)).trans (State.frame_finalTest ..)).trans
      (State.frame_paceTest ..)

/-- The new context is found, carrying what its fresh one had, and every other feed's is as it was. -/
theorem State.createContext_spec (hc : s.ctx? feed = none) :
    (∃ d, (s.createContext feed r p origin start recordH recordE).ctx? feed = some d
      ∧ (s.created feed r p origin start recordH recordE).Carries d)
    ∧ ∀ g, g ≠ feed → (s.createContext feed r p origin start recordH recordE).ctx? g = s.ctx? g := by
  have hfeed := (s.created_carries feed r p origin start recordH recordE).1
  have htouch := s.touch_createContext feed r p origin start recordH recordE
  have hadd := s.ctx?_addCtx (s.created feed r p origin start recordH recordE) (hfeed.symm ▸ hc)
  refine ⟨htouch.2.1 _ ?_, fun g hg => ?_⟩
  · rw [hadd, if_pos hfeed.symm]
  · rw [htouch.1 g hg, hadd, if_neg (hfeed.symm ▸ hg)]

end

/-- Settles O33, decision by decision: each branch of `State.openContext` is met by the hypotheses of its
clause, and the ranges of the fields are those of the checks. -/
theorem openDecides : Obligations.OpenDecides := by
  refine ⟨fun s f feed p => ⟨fun hs => ?_, fun h => ?_⟩, fun p => ⟨?_, p.sizesOk_iff, p.geometryOk_iff, ?_⟩⟩
  · rw [exec_receive (f := f) (by simp [receiveCommands]), State.receiveFrame_of_not_taken (.inl hs)]
  · rw [exec_directive h (by simp [receiveCommands])]
    simp only [State.applyDirective]
    refine ⟨fun hr => by simp only [State.openContext, hr], fun r hr => ⟨fun c hc => ⟨fun hid => ?_,
      fun hid => ?_⟩, fun hc => ?_⟩⟩
    · simp only [State.openContext, hr, hc, hid, beq_self_eq_true, if_true]
    · have hne : (c.params.fileId == p.fileId) = false := beq_false_of_ne hid
      simp only [State.openContext, hr, hc, hne]
      rfl
    · have refused : ∀ reason, p.check = some reason →
          s.openContext feed p = { s with lastRefusal := some ⟨feed, .openFeed, reason⟩ } :=
        fun reason h => State.openContext_refused hr hc h
      refine ⟨fun h1 => ?_, fun h1 h2 => ?_, fun h1 h2 h3 => ?_, fun h1 h2 h3 h4 => ?_,
        fun h1 h2 h3 h4 => ⟨fun hl => ?_, fun hl => ?_⟩⟩
      · rw [refused .badRate (by simp [OpenParams.check, h1])]
      · rw [refused .badSize (by simp [OpenParams.check, h1, h2])]
      · rw [refused .badGeometry (by simp [OpenParams.check, h1, h2, h3])]
      · rw [refused .slotTooSmall (by simp [OpenParams.check, h1, h2, h3, h4])]
      · have hn := p.check_eq_none_iff.mpr ⟨h1, h2, h3, h4⟩
        have hfull : Config.maxContexts ≤ s.contexts.length := hl
        simp only [State.openContext, hr, hc, hn, if_pos hfull]
        rfl
      · have hn := p.check_eq_none_iff.mpr ⟨h1, h2, h3, h4⟩
        rw [State.openContext_creates hr hc hn hl]
        obtain ⟨⟨d, hd, hcar⟩, -⟩ := s.createContext_spec feed r p .directed none none none hc
        have hfresh := (s.created_carries feed r p .directed none none none).2.trans hcar
        exact ⟨_, d, rfl, hd, hfresh.2.1, hfresh.1,
          (s.frame_createContext feed r p .directed none none none).observe (·.lastRefusal) (fun _ => rfl)⟩
  · simp [OpenParams.ratesOk]
  · simp only [OpenParams.fitsAt, decide_eq_true_eq]
    rfl

/-! ### Directives and the contexts of other feeds -/

/-- Every other feed's context is as it was. -/
def State.SameElsewhere (feed : Nat) (s t : State) : Prop := ∀ g, g ≠ feed → t.ctx? g = s.ctx? g

theorem State.SameElsewhere.trans {feed : Nat} {s t u : State} (h : s.SameElsewhere feed t)
    (k : t.SameElsewhere feed u) : s.SameElsewhere feed u := fun g hg => (k g hg).trans (h g hg)

theorem State.SameElsewhere.of_eq {feed : Nat} {s t : State} (h : t.contexts = s.contexts) :
    s.SameElsewhere feed t := fun g _ => by simp only [State.ctx?, h]

theorem State.openContext_elsewhere (s : State) (feed : Nat) (p : OpenParams) :
    s.SameElsewhere feed (s.openContext feed p) := by
  unfold State.openContext
  split
  · exact fun _ _ => rfl
  · next r _ =>
    split
    · split
      · exact fun _ _ => rfl
      · exact fun g hg => State.ctx?_mapCtx_ne (fun _ => rfl) hg
    · next hc =>
      split
      · exact fun _ _ => rfl
      · split
        · exact fun _ _ => rfl
        · exact (s.createContext_spec feed r p .directed none none none hc).2

theorem State.applyHold_elsewhere (s : State) (feed : Nat) (land browse : Bool) :
    s.SameElsewhere feed (s.applyHold feed land browse) := by
  unfold State.applyHold
  have hmap : s.SameElsewhere feed (s.mapCtx feed (fun c =>
      { c with landHold := c.landHold || land, browseHold := c.browseHold || browse })) :=
    fun g hg => State.ctx?_mapCtx_ne (fun _ => rfl) hg
  split
  · exact fun _ _ => rfl
  · simp only
    split
    · exact hmap.trans (.of_eq rfl)
    · exact hmap

theorem State.applyRelease_elsewhere (s : State) (feed : Nat) (land browse : Bool) :
    s.SameElsewhere feed (s.applyRelease feed land browse) := by
  unfold State.applyRelease
  split
  · exact fun _ _ => rfl
  · next c _ =>
    have hmap : s.SameElsewhere feed (s.mapCtx feed (fun c =>
        { c with landHold := c.landHold && !land, browseHold := c.browseHold && !browse })) :=
      fun g hg => State.ctx?_mapCtx_ne (fun _ => rfl) hg
    have hland : ∀ (t : State) (was : Bool), t.SameElsewhere feed (t.landLifted feed was) := fun t was => by
      unfold State.landLifted
      split
      · exact (t.touch_noteDelay feed).1
      · exact fun _ _ => rfl
    have hbrowse : ∀ (t : State) (was : Bool), t.SameElsewhere feed (t.browseLifted was) := fun t was => by
      unfold State.browseLifted
      split
      · exact .of_eq rfl
      · exact fun _ _ => rfl
    exact (hmap.trans (hland _ _)).trans (hbrowse _ _)

/-- Settles O39, directive by directive. -/
theorem directivesKeepOtherFeeds : Obligations.DirectivesKeepOtherFeeds := by
  intro s f d feed h hf i hi
  refine ⟨_, exec_directive h hi, ?_⟩
  cases d with
  | openFeed g p => cases hf; exact s.openContext_elsewhere feed p
  | closeFeed g e => cases hf; exact (s.touch_closeContext feed e).1
  | abortFeed g => cases hf; exact (s.touch_abortContext feed).1
  | hold g land browse => cases hf; exact s.applyHold_elsewhere feed land browse
  | release g land browse => cases hf; exact s.applyRelease_elsewhere feed land browse
  | stationReset n => cases hf

end Sys2Proof.Machine
end

