-- ==== Sys2Proof/Proofs/PositionWork.lean ====
section
/-! Work on positions alone. `FeedContext.outline` is a context without what such work changes;
`State.PosWork` says that a change keeps every outline, and that every context carries what it had. One
lemma for each operation; from it follow the step lemmas of the contexts. -/

namespace Sys2Proof.Machine

/-! ### The outline of a context -/

/-- Where a position stands, and nothing of the work on it. -/
def Position.place (p : Position) : Position :=
  { p with
    wantsLand := false, wantsBrowse := false, hasRef := false, pinned := false, land := .absent,
    browse := none, attempts := 0, restarts := 0, rewrites := 0, gapWait := none, readySince := none,
    dueRewrite := false, lost := .idle, req := none, wrote := none }

/-- A context without what work on its positions, its commit and its MARKs changes. -/
def FeedContext.outline (c : FeedContext) : FeedContext :=
  { c with
    positions := c.positions.map Position.place, flags := .clear, published := none,
    markAgain := false, windowBuilt := false, delayReached := false }

/-- The outlines of the Feed Context Table. -/
def State.outlines (s : State) : List FeedContext := s.contexts.map FeedContext.outline

/-- Every context is still there, and carries what it had. -/
def State.Grows (s t : State) : Prop :=
  ∀ feed c, s.ctx? feed = some c → ∃ d, t.ctx? feed = some d ∧ c.Carries d

theorem State.Grows.refl (s : State) : s.Grows s := fun _ c h => ⟨c, h, .refl c⟩

theorem State.Grows.trans {s t u : State} (h : s.Grows t) (k : t.Grows u) : s.Grows u :=
  fun feed c hc => by
    obtain ⟨d, hd, h1⟩ := h feed c hc
    obtain ⟨e, he, h2⟩ := k feed d hd
    exact ⟨e, he, h1.trans h2⟩

/-- Work on one feed's context. -/
theorem State.Touches.grows {feed : Nat} {s t : State} (h : s.Touches feed t) : s.Grows t :=
  fun g c hc => by
    by_cases hg : g = feed
    · subst hg
      exact h.2.1 c hc
    · exact ⟨c, (h.1 g hg).trans hc, .refl c⟩

/-- `t` differs from `s` in work on positions alone: the outlines and the adopted set are the same, and
every context carries what it had. -/
def State.PosWork (s t : State) : Prop :=
  t.outlines = s.outlines ∧ t.adopted = s.adopted ∧ s.Grows t

theorem State.PosWork.refl (s : State) : s.PosWork s := ⟨rfl, rfl, .refl s⟩

theorem State.PosWork.trans {s t u : State} (h : s.PosWork t) (k : t.PosWork u) : s.PosWork u :=
  ⟨k.1.trans h.1, k.2.1.trans h.2.1, h.2.2.trans k.2.2⟩

theorem State.PosWork.foldl {α : Type} (f : State → α → State)
    (h : ∀ (s : State) (a : α), s.PosWork (f s a)) :
    ∀ (l : List α) (s : State), s.PosWork (l.foldl f s)
  | [], s => .refl s
  | a :: l, s => (h s a).trans (State.PosWork.foldl f h l (f s a))

/-- A change beside the contexts and the adopted set. -/
theorem State.PosWork.of_eq {s t : State} (hc : t.contexts = s.contexts) (ha : t.adopted = s.adopted) :
    s.PosWork t :=
  ⟨by simp only [State.outlines, hc], ha, fun g c h => ⟨c, by simpa only [State.ctx?, hc] using h, .refl c⟩⟩

/-- A change of the contexts of one feed that leaves their outline, where the one found carries what it
had. -/
theorem State.PosWork.mapCtx_of (s : State) (feed : Nat) (g : FeedContext → FeedContext)
    (ho : ∀ c, (g c).outline = c.outline) (hc : ∀ c, s.ctx? feed = some c → c.Carries (g c)) :
    s.PosWork (s.mapCtx feed g) := by
  have hf : ∀ c, (g c).feed = c.feed := fun c => by
    have := congrArg FeedContext.feed (ho c)
    exact this
  refine ⟨?_, rfl, (s.touch_mapCtx_of feed g hf hc).grows⟩
  simp only [State.outlines, State.mapCtx, List.map_map]
  exact List.map_congr_left (fun c _ => by simp only [Function.comp]; split <;> simp [ho])

theorem State.PosWork.mapCtx (s : State) (feed : Nat) (g : FeedContext → FeedContext)
    (hg : ∀ c, (g c).outline = c.outline ∧ c.Carries (g c)) : s.PosWork (s.mapCtx feed g) :=
  .mapCtx_of s feed g (fun c => (hg c).1) (fun c _ => (hg c).2)

/-- A change of a context's positions that leaves them in their places. -/
theorem FeedContext.outline_mapPositions (c : FeedContext) (g : Position → Position)
    (hg : ∀ p, (g p).place = p.place) :
    ({ c with positions := c.positions.map g } : FeedContext).outline = c.outline := by
  simp only [FeedContext.outline, List.map_map]
  congr 1
  exact List.map_congr_left (fun p _ => hg p)

theorem State.PosWork.mapPositions (s : State) (feed : Nat) (g : FeedContext → Position → Position)
    (hg : ∀ c p, (g c p).place = p.place) :
    s.PosWork (s.mapCtx feed (fun c => { c with positions := c.positions.map (g c) })) :=
  .mapCtx s feed _ (fun c => ⟨c.outline_mapPositions (g c) (hg c), .refl c⟩)

/-- A change of some positions of a feed's context. -/
theorem State.PosWork.mapSome (s : State) (feed : Nat) (seqs : List Nat)
    (g : FeedContext → Position → Position)
    (hg : ∀ c p, (g c p).place = p.place) :
    s.PosWork (s.mapCtx feed (fun c => { c with positions := c.positions.map (fun p =>
      if seqs.contains p.seq then g c p else p) })) :=
  .mapPositions s feed (fun c p => if seqs.contains p.seq then g c p else p)
    (fun _ p => by split <;> simp [hg])

theorem State.PosWork.mapPos (s : State) (feed seq : Nat) (g : Position → Position)
    (hg : ∀ p, (g p).place = p.place) : s.PosWork (s.mapPos feed seq g) :=
  .mapPositions s feed (fun _ p => if p.seq == seq then g p else p) (fun _ p => by split <;> simp [hg])

/-! ### What an outline tells -/

/-- The context of a feed, in outline. -/
theorem State.outlines_find? (s : State) (feed : Nat) :
    s.outlines.find? (fun c => c.feed == feed) = (s.ctx? feed).map FeedContext.outline :=
  find?_map_key (p := fun c : FeedContext => c.feed == feed) (g := FeedContext.outline)
    (fun _ => rfl) s.contexts

/-- Position work leaves every context found in its outline. -/
theorem State.PosWork.ctx? {s t : State} (h : s.PosWork t) {feed : Nat} {c : FeedContext}
    (hc : s.ctx? feed = some c) :
    ∃ d, t.ctx? feed = some d ∧ d.outline = c.outline ∧ c.Carries d := by
  obtain ⟨d, hd, hcar⟩ := h.2.2 feed c hc
  have ho := t.outlines_find? feed
  rw [h.1, s.outlines_find?, hc, hd] at ho
  exact ⟨d, hd, (Option.some.inj ho).symm, hcar⟩

theorem State.PosWork.feeds {s t : State} (h : s.PosWork t) : t.feeds = s.feeds := by
  have key : ∀ u : State, u.feeds = u.outlines.map (·.feed) := fun u => by
    simp [State.feeds, State.outlines, FeedContext.outline]
  rw [key t, key s, h.1]

/-! ### Positions -/

theorem State.work_releasePin (s : State) (feed seq : Nat) : s.PosWork (s.releasePin feed seq) := by
  unfold State.releasePin
  split
  · split
    · exact (State.PosWork.mapPos s feed seq _ fun _ => by rfl).trans (.of_eq rfl rfl)
    · exact .refl s
  · exact .refl s

theorem State.work_syncRewrite (s : State) (feed : Nat) : s.PosWork (s.syncRewrite feed) := by
  unfold State.syncRewrite
  split
  · split
    · exact .refl s
    · exact .of_eq rfl rfl
  · exact .of_eq rfl rfl

theorem State.work_latchOverrun (s : State) (feed : Nat) (h : ChunkHeader) :
    s.PosWork (s.latchOverrun feed h) :=
  .mapCtx s feed _ (fun c => by
    split
    · exact ⟨rfl, rfl, rfl, rfl, rfl, Nat.le_refl _, Nat.le_refl _, id, id, fun _ => rfl, id, id, id, id⟩
    · exact ⟨rfl, .refl c⟩)

theorem State.work_handOverChunk (s : State) (feed seq : Nat) (h : ChunkHeader) :
    s.PosWork (s.handOverChunk feed seq h) := by
  unfold State.handOverChunk
  split
  · exact .refl s
  · simp only
    split
    · exact .refl s
    · split
      · exact (State.PosWork.of_eq rfl rfl).trans (State.work_latchOverrun ..)
      · exact (State.PosWork.of_eq rfl rfl).trans (State.work_latchOverrun ..)

theorem State.work_handOverChunkless (s : State) (feed seq : Nat) :
    s.PosWork (s.handOverChunkless feed seq) := by
  unfold State.handOverChunkless
  split
  · exact .refl s
  · split
    · exact .refl s
    · exact .of_eq rfl rfl

theorem State.work_takeChunk (s : State) (feed seq : Nat) (h : ChunkHeader) :
    s.PosWork (s.takeChunk feed seq h) := by
  unfold State.takeChunk
  split
  · exact .refl s
  · have key : ∀ t, s.PosWork t →
        s.PosWork (((t.pin feed seq).withdrawAsk feed seq).withdrawWaiting feed seq) :=
      fun t ht => ht.trans (.of_eq rfl rfl)
    simp only
    split
    · exact (key _ (.mapPos s _ _ _ fun _ => by rfl)).trans (State.work_handOverChunk ..)
    · exact key _ (.mapPos s _ _ _ fun _ => by rfl)

theorem State.work_lookup (s : State) (feed seq : Nat) : s.PosWork (s.lookup feed seq) := by
  unfold State.lookup
  split
  · exact .mapPos s _ _ _ fun _ => by rfl
  · split
    · exact s.work_takeChunk ..
    · exact .mapPos s _ _ _ fun _ => by rfl

theorem FeedContext.startWait_place (c : FeedContext) (due : Nat) (p : Position) :
    (c.startWait due p).place = p.place := by
  unfold FeedContext.startWait
  split <;> rfl

theorem State.work_gapTest (s : State) (feed : Nat) : s.PosWork (s.gapTest feed) := by
  unfold State.gapTest
  split
  · exact .mapPositions s feed _ (fun c p => c.startWait_place _ p)
  · exact .refl s

theorem State.work_gapTestAt (s : State) (feed seq : Nat) : s.PosWork (s.gapTestAt feed seq) := by
  unfold State.gapTestAt
  split
  · exact .mapPositions s feed (fun c p => if p.seq == seq then c.startWait _ p else p)
      (fun c p => by split <;> simp [FeedContext.startWait_place])
  · exact .refl s

theorem State.work_completePos (s : State) (feed seq : Nat) : s.PosWork (s.completePos feed seq) := by
  unfold State.completePos
  split
  · exact .refl s
  · split
    · exact ((s.work_releasePin ..).trans (.mapPos _ _ _ _ fun _ => by rfl)).trans (.of_eq rfl rfl)
    · exact .refl s

theorem State.work_reportCreated (s : State) (feed seq : Nat) : s.PosWork (s.reportCreated feed seq) := by
  unfold State.reportCreated
  split
  · split
    · exact .refl s
    · split
      · exact .mapPos s _ _ _ fun _ => by rfl
      · exact .refl s
  · exact .refl s

theorem State.work_reportRemoved (s : State) (feed seq : Nat) : s.PosWork (s.reportRemoved feed seq) := by
  unfold State.reportRemoved
  split
  · split
    · exact .refl s
    · split
      · exact (State.PosWork.mapPos s _ _ _ fun _ => by rfl).trans (State.work_gapTestAt ..)
      · exact .refl s
  · exact .refl s

theorem State.work_gainLanding (s : State) (feed seq : Nat) (p : Position) :
    s.PosWork (s.gainLanding feed seq p) := by
  unfold State.gainLanding
  split
  · exact .mapPos s _ _ _ fun _ => by rfl
  · exact ((State.PosWork.mapPos s _ _ _ fun _ => by rfl).trans (State.work_lookup ..)).trans (State.work_gapTestAt ..)

theorem State.work_gainBrowse (s : State) (feed seq : Nat) (p : Position) :
    s.PosWork (s.gainBrowse feed seq p) := by
  have h1 := State.PosWork.mapPos s feed seq (fun p =>
    { p with wantsBrowse := true, browse := some .waiting }) fun _ => rfl
  unfold State.gainBrowse
  simp only
  split
  · split
    · exact h1.trans (State.work_handOverChunk ..)
    · split
      · split
        · exact ((h1.trans (.mapPos _ _ _ _ fun _ => by rfl)).trans (.of_eq rfl rfl)).trans (State.work_handOverChunk ..)
        · exact h1.trans (State.work_handOverChunkless ..)
      · exact h1
  · split
    · exact h1.trans (State.work_handOverChunkless ..)
    · exact h1

theorem State.work_gainJob (s : State) (feed : Nat) (k : WorkKind) (seq : Nat) :
    s.PosWork (s.gainJob feed k seq) := by
  unfold State.gainJob
  repeat' split
  all_goals first
    | exact .refl s
    | exact s.work_gainLanding ..
    | exact s.work_gainBrowse ..

theorem State.work_gainJobs (s : State) (feed : Nat) (k : WorkKind) (w : Way) :
    s.PosWork (s.gainJobs feed k w) := by
  unfold State.gainJobs
  split
  · exact .refl s
  · exact .foldl _ (fun t q => t.work_gainJob feed k q) _ s

theorem State.work_loseLanding (s : State) (feed seq : Nat) (p : Position) :
    s.PosWork (s.loseLanding feed seq p) := by
  have h1 : s.PosWork (s.withdrawWaiting feed seq) := .of_eq rfl rfl
  unfold State.loseLanding
  simp only
  split
  · exact ((h1.trans (.mapPos _ _ _ _ fun _ => by rfl)).trans (State.work_syncRewrite ..)).trans
      (State.work_handOverChunkless ..)
  · exact (h1.trans (.mapPos _ _ _ _ fun _ => by rfl)).trans (State.work_syncRewrite ..)

theorem State.work_loseBrowse (s : State) (feed seq : Nat) : s.PosWork (s.loseBrowse feed seq) :=
  (State.PosWork.of_eq (t := s.withdrawJob feed seq) rfl rfl).trans (.mapPos _ _ _ _ fun _ => by rfl)

theorem State.work_lookAgain (s : State) (feed : Nat) : s.PosWork (s.lookAgain feed) := by
  unfold State.lookAgain
  split
  · exact .refl s
  · exact .foldl _ (fun t q => t.work_lookup feed q) _ s

theorem State.work_noteDelay (s : State) (feed : Nat) : s.PosWork (s.noteDelay feed) :=
  .mapCtx s feed _ fun c => by exact ⟨rfl, .refl c⟩

/-! ### The commit and the MARKs -/

theorem State.work_markFallsDue (s : State) (feed : Nat) : s.PosWork (s.markFallsDue feed) := by
  unfold State.markFallsDue
  split
  · exact .refl s
  · split
    · exact .refl s
    · split
      · exact .mapCtx s feed _ fun c => by exact ⟨rfl, .refl c⟩
      · split
        · exact .refl s
        · exact .of_eq rfl rfl

theorem State.work_paceTest (s : State) (feed : Nat) : s.PosWork (s.paceTest feed) := by
  unfold State.paceTest
  split
  · exact .refl s
  · split
    · exact s.work_markFallsDue ..
    · exact .refl s

theorem State.work_recomputeCommit (s : State) (feed : Nat) : s.PosWork (s.recomputeCommit feed) := by
  unfold State.recomputeCommit
  split
  · exact .refl s
  · next c hc =>
    simp only
    split
    · next h =>
      refine (State.PosWork.mapCtx_of s feed (fun d => { d with published := s.computedCommit c })
        (fun _ => rfl) (fun d hd => ?_)).trans (State.work_paceTest ..)
      obtain rfl : d = c := Option.some.inj (hd.symm.trans hc)
      simp only [Bool.and_eq_true, decide_eq_true_eq] at h
      exact ⟨rfl, rfl, rfl, rfl, Nat.le_of_lt h.2, Nat.le_refl _, id, id, id, id, id, id, id⟩
    · exact .refl s

theorem State.work_recomputeCommits (s : State) : s.PosWork s.recomputeCommits :=
  .foldl _ (fun t f => t.work_recomputeCommit f) s.feeds s

/-! ### The Mend Unit and the capture port -/

theorem State.work_beginLost (s : State) (feed : Nat) (p : Position) : s.PosWork (s.beginLost feed p) := by
  unfold State.beginLost
  split
  · exact (State.PosWork.mapPos s _ _ _ fun _ => by rfl).trans (.of_eq rfl rfl)
  · exact (State.PosWork.mapPos s _ _ _ fun _ => by rfl).trans (State.work_handOverChunkless ..)

theorem State.work_gapExpires (s : State) (feed seq : Nat) : s.PosWork (s.gapExpires feed seq) := by
  have wait : ∀ t : State, t.PosWork (t.restartWait feed seq) := fun t => .mapPos t _ _ _ fun _ => by rfl
  unfold State.gapExpires
  repeat' split
  all_goals first
    | exact .refl s
    | exact wait s
    | exact State.PosWork.trans (.of_eq rfl rfl) (wait _)
    | exact s.work_beginLost ..

theorem State.work_suppress (s : State) (feed seq : Nat) : s.PosWork (s.suppress feed seq) := by
  unfold State.suppress
  split
  · exact .refl s
  · split
    · exact ((State.PosWork.mapPos s feed seq _ fun _ => by rfl).trans (.mapPos _ _ _ _ fun _ => by rfl)).trans (.of_eq rfl rfl)
    · exact .refl s

theorem State.work_answerAsk (s : State) (a : ReceivedAsk) : s.PosWork (s.answerAsk a) := by
  unfold State.answerAsk
  repeat' (first | split | simp only)
  all_goals exact .refl s

theorem State.work_receiveAsk (s : State) (body : List Byte) : s.PosWork (s.receiveAsk body) := by
  unfold State.receiveAsk State.takeAsk
  split
  · exact .refl s
  · split
    · exact .refl s
    · exact (s.work_suppress ..).trans (State.work_answerAsk ..)

theorem State.work_transmit (s : State) : s.PosWork s.transmit := by
  unfold State.transmit
  repeat' split
  all_goals first
    | exact .refl s
    | exact .of_eq rfl rfl
    | exact (State.PosWork.of_eq rfl rfl).trans (.mapPos _ _ _ _ fun _ => by rfl)

/-! ### The Storage Port -/

theorem State.work_setLocalHold (s : State) : s.PosWork s.setLocalHold := by
  unfold State.setLocalHold
  split
  · exact .refl s
  · exact .of_eq rfl rfl

theorem State.work_holdsLifted (s : State) : s.PosWork s.holdsLifted :=
  (State.PosWork.of_eq rfl rfl).trans (.foldl _ (fun t f => t.work_noteDelay f) _ _)

theorem State.work_probeOutcome (s : State) (o : Handed) : s.PosWork (s.probeOutcome o) := by
  unfold State.probeOutcome
  split
  · exact (State.PosWork.of_eq rfl rfl).trans (State.work_holdsLifted _)
  all_goals exact .refl s

theorem State.work_answerEffects (s : State) (o : AnswerOutcome) : s.PosWork (s.answerEffects o) := by
  cases o with
  | full => exact (State.PosWork.of_eq rfl rfl).trans (State.work_setLocalHold _)
  | done => exact .of_eq rfl rfl
  | denied => exact .of_eq rfl rfl
  | range => exact .of_eq rfl rfl

theorem State.work_countTimeout (s : State) : s.PosWork s.countTimeout := by
  unfold State.countTimeout
  simp only
  split
  · exact (State.PosWork.of_eq rfl rfl).trans (State.work_setLocalHold _)
  · exact .of_eq rfl rfl

theorem State.work_issue (s : State) (tag : Fin 16) (r : Request) : s.PosWork (s.issue tag r) :=
  .of_eq rfl rfl

theorem State.work_issueBatch (s : State) (tag : Fin 16) (c : FeedContext) (purpose : Purpose) :
    s.PosWork (s.issueBatch tag c purpose) := by
  unfold State.issueBatch
  simp only
  refine State.PosWork.trans (.trans (.trans ?_ (State.work_issue ..)) (State.work_syncRewrite ..))
    (State.work_noteDelay ..)
  exact .mapSome s c.feed _ (fun c p =>
    { p with land := .landing, readySince := none, dueRewrite := false, req := some s.nextUid,
             wrote := s.landingForm c p.seq }) fun _ _ => rfl

theorem State.work_issueFill (s : State) (tag : Fin 16) (c : FeedContext) (seq : Nat) :
    s.PosWork (s.issueFill tag c seq) :=
  (State.PosWork.mapPos s c.feed seq _ fun _ => by rfl).trans (State.work_issue ..)

theorem State.work_awaitCheck (s : State) (feed : Nat) (seqs : List Nat) (trailer : Bool) (n : Nat) :
    s.PosWork (s.awaitCheck feed seqs trailer n) := by
  unfold State.awaitCheck
  split
  · exact .refl s
  · exact (State.PosWork.mapSome s feed seqs (fun _ p =>
      { p with land := .checking, req := some s.nextUid,
               lost := if trailer then .trailerCheck else p.lost }) fun _ _ => rfl).trans (.of_eq rfl rfl)

theorem State.work_backToReady (s : State) (feed : Nat) (seqs : List Nat) :
    s.PosWork (s.backToReady feed seqs) :=
  .mapSome s feed seqs (fun _ p =>
    { p with land := .ready, readySince := some s.now, dueRewrite := false, req := none }) fun _ _ => rfl

theorem State.work_awaitFill (s : State) (feed seq : Nat) : s.PosWork (s.awaitFill feed seq) :=
  (State.PosWork.mapPos s _ _ _ fun _ => by rfl).trans (.of_eq rfl rfl)

/-! ### The Browse Engine -/

theorem State.work_enterQueue (s : State) : s.PosWork s.enterQueue := by
  unfold State.enterQueue
  split
  · split
    · exact .refl s
    · next j _ =>
      have h1 : s.PosWork (({ s with waitJobs := s.waitJobs.filter (fun k => k.uid != j.uid) } :
          State).mapPos j.feed j.seq (fun p => { p with browse := some .queued })) :=
        (State.PosWork.of_eq rfl rfl).trans (.mapPos _ _ _ _ fun _ => by rfl)
      simp only
      split
      · exact h1.trans (.of_eq rfl rfl)
      · exact h1.trans (.of_eq rfl rfl)
  · exact .refl s

end Sys2Proof.Machine
end

