-- ==== Sys2Proof/Proofs/Sound.lean ====
section
/-! What every step keeps of the contexts. `FeedContext.Sound` is what the invariants of the windows and
the end sequences say of one context, `FeedContext.Loose` the same between a change of the marks and the
removal of the positions they no longer allow; `State.Sound` is the invariant of the step lemma over
contexts found by feed. -/

namespace Sys2Proof.Machine

/-! ### Sound contexts -/

/-- The end sequence and the storage requests agree with the state (R4, R5, R7). -/
def FeedContext.EndFits (c : FeedContext) : Prop :=
  (c.state = .active → c.e = none) ∧ (c.state = .closing ∨ c.state = .final → c.e ≠ none)
    ∧ (c.state = .active ∨ c.state = .closing → c.storageEnded = false)

/-- Positions in ascending order, each of its effective way, and none but in ACTIVE and CLOSING. -/
def FeedContext.Loose (c : FeedContext) : Prop :=
  (c.positions.map (·.seq)).Pairwise (· < ·) ∧ (c.positions ≠ [] → c.working = true)
    ∧ (∀ p ∈ c.positions, p.way = c.wayOf p.seq) ∧ c.EndFits

/-- The marks and the held ways allow a position at a sequence number. -/
def FeedContext.Allows (c : FeedContext) (n : Nat) : Prop :=
  c.SpanHas n ∧ (c.holds .landing (c.wayOf n) = true ∨ c.holds .browse (c.wayOf n) = true)

/-- A loose context whose positions are all allowed. -/
def FeedContext.Sound (c : FeedContext) : Prop := c.Loose ∧ ∀ p ∈ c.positions, c.Allows p.seq

theorem FeedContext.working_iff (c : FeedContext) :
    c.working = true ↔ c.state = .active ∨ c.state = .closing := by
  simp [FeedContext.working]

theorem FeedContext.loose_outline_iff (c : FeedContext) : c.outline.Loose ↔ c.Loose := by
  simp only [FeedContext.Loose, FeedContext.outline, List.map_map, List.forall_mem_map, ne_eq,
    List.map_eq_nil_iff]
  exact Iff.rfl

theorem FeedContext.sound_outline_iff (c : FeedContext) : c.outline.Sound ↔ c.Sound := by
  unfold FeedContext.Sound
  rw [c.loose_outline_iff]
  simp only [FeedContext.outline, List.forall_mem_map]
  exact Iff.rfl

theorem FeedContext.Loose.of_outline {c d : FeedContext} (h : d.outline = c.outline) (hc : c.Loose) :
    d.Loose :=
  d.loose_outline_iff.mp (h ▸ c.loose_outline_iff.mpr hc)

theorem FeedContext.Sound.of_outline {c d : FeedContext} (h : d.outline = c.outline) (hc : c.Sound) :
    d.Sound :=
  d.sound_outline_iff.mp (h ▸ c.sound_outline_iff.mpr hc)

/-- The hold kinds are the outline's. -/
theorem FeedContext.kindOf_of_outline {c d : FeedContext} (h : d.outline = c.outline) (k : WorkKind)
    (w : Way) : d.kindOf k w = c.kindOf k w := by
  have hd : d.outline.kindOf k w = c.outline.kindOf k w := by rw [h]
  cases k <;> exact hd

/-- A loose context with no position is sound. -/
theorem FeedContext.Loose.sound_of_nil {c : FeedContext} (h : c.Loose) (hp : c.positions = []) :
    c.Sound :=
  ⟨h, fun _ hp' => absurd (hp ▸ hp') List.not_mem_nil⟩

/-- A context with no position is sound where its end fits. -/
theorem FeedContext.sound_of_nil {c : FeedContext} (hp : c.positions = []) (he : c.EndFits) : c.Sound := by
  refine FeedContext.Loose.sound_of_nil ⟨?_, fun h => absurd hp h, ?_, he⟩ hp
  · rw [hp]; exact .nil
  · rw [hp]; exact fun p h => absurd h List.not_mem_nil

/-! ### Positions taken out -/

/-- A context without the positions of some sequence numbers. -/
def FeedContext.without (c : FeedContext) (seqs : List Nat) : FeedContext :=
  { c with positions := c.positions.filter (fun p => !seqs.contains p.seq) }

theorem FeedContext.Loose.without {c : FeedContext} (h : c.Loose) (seqs : List Nat) :
    (c.without seqs).Loose := by
  obtain ⟨hord, hwork, hway, hend⟩ := h
  refine ⟨hord.sublist (List.filter_sublist.map _), fun hne => hwork fun h0 => hne ?_,
    fun p hp => hway p (List.mem_of_mem_filter hp), hend⟩
  simp [FeedContext.without, h0]

theorem FeedContext.Sound.without {c : FeedContext} (h : c.Sound) (seqs : List Nat) :
    (c.without seqs).Sound :=
  ⟨h.1.without seqs, fun p hp => h.2 p (List.mem_of_mem_filter hp)⟩

theorem FeedContext.without_without (c : FeedContext) (q : Nat) (seqs : List Nat) :
    (c.without [q]).without seqs = c.without (q :: seqs) := by
  simp only [FeedContext.without, List.filter_filter]
  congr 2
  funext p
  by_cases h : p.seq = q <;> simp [h]

/-- A change of the position of a sequence number is not seen once it is taken out. -/
theorem FeedContext.without_mapPos (c : FeedContext) (q : Nat) (g : Position → Position)
    (hg : ∀ p, (g p).seq = p.seq) : (c.mapPos q g).without [q] = c.without [q] := by
  simp only [FeedContext.without, FeedContext.mapPos]
  congr 1
  induction c.positions with
  | nil => rfl
  | cons p l ih => by_cases h : p.seq = q <;> simpa [h, hg] using ih

/-! ### The Feed Context Table -/

theorem State.mem_feeds_iff (s : State) (feed : Nat) : feed ∈ s.feeds ↔ ∃ c, s.ctx? feed = some c := by
  constructor
  · intro h
    obtain ⟨c, hc, rfl⟩ := List.mem_map.mp h
    exact Option.isSome_iff_exists.mp (List.find?_isSome.mpr ⟨c, hc, by simp⟩)
  · rintro ⟨c, hc⟩
    exact List.mem_map.mpr ⟨c, State.ctx?_mem hc, State.ctx?_feed hc⟩

/-- The table depends on the feeds alone. -/
theorem State.tableOk_of_feeds {s t : State} (h : t.feeds = s.feeds) (hs : s.TableOk) : t.TableOk := by
  obtain ⟨hord, hlen, hfeed⟩ := hs
  have hl : t.contexts.length = s.contexts.length := by
    simpa [State.feeds] using congrArg List.length h
  exact ⟨h ▸ hord, hl ▸ hlen, h ▸ hfeed⟩

/-- In an ordered table every context is the one found for its feed. -/
theorem State.ctx?_of_mem {s : State} (hs : s.TableOk) {c : FeedContext} (hc : c ∈ s.contexts) :
    s.ctx? c.feed = some c := by
  have hord := hs.1
  simp only [State.feeds, State.ctx?] at hord ⊢
  generalize s.contexts = l at hc hord ⊢
  induction l with
  | nil => cases hc
  | cons d l ih =>
    simp only [List.map_cons, List.pairwise_cons, List.forall_mem_map] at hord
    rcases List.mem_cons.mp hc with rfl | hc
    · simp
    · have hne : (d.feed == c.feed) = false := beq_false_of_ne (Nat.ne_of_lt (hord.1 c hc))
      rw [List.find?_cons, hne]
      exact ih hc hord.2

/-! ### Sound states -/

/-- The tables in order, every context but one feed's sound, and that one as `P` says. -/
def State.SoundBut (P : FeedContext → Prop) (feed : Nat) (s : State) : Prop :=
  s.TableOk ∧ s.AdoptedOk ∧ (∀ g c, g ≠ feed → s.ctx? g = some c → c.Sound)
    ∧ ∀ c, s.ctx? feed = some c → P c

/-- The tables in order and every context sound: the invariant of the step lemma. -/
def State.Sound (s : State) : Prop :=
  s.TableOk ∧ s.AdoptedOk ∧ ∀ g c, s.ctx? g = some c → c.Sound

theorem State.Sound.but {s : State} (h : s.Sound) (feed : Nat) : s.SoundBut FeedContext.Sound feed :=
  ⟨h.1, h.2.1, fun g c _ => h.2.2 g c, h.2.2 feed⟩

theorem State.SoundBut.sound {s : State} {feed : Nat} (h : s.SoundBut FeedContext.Sound feed) :
    s.Sound :=
  ⟨h.1, h.2.1, fun g c hc => by
    by_cases hg : g = feed
    · exact h.2.2.2 c (hg ▸ hc)
    · exact h.2.2.1 g c hg hc⟩

theorem State.SoundBut.mono {P Q : FeedContext → Prop} (hPQ : ∀ c, P c → Q c) {s : State} {feed : Nat}
    (h : s.SoundBut P feed) : s.SoundBut Q feed :=
  ⟨h.1, h.2.1, h.2.2.1, fun c hc => hPQ c (h.2.2.2 c hc)⟩

/-- The adopted set stays in order where every context shows the hold kinds it showed. -/
theorem State.adoptedOk_of_kinds {s t : State} (hs : s.AdoptedOk) (ha : t.adopted = s.adopted)
    (hk : ∀ x ∈ s.adopted, ∀ c, s.ctx? x.feed = some c → ∃ d, t.ctx? x.feed = some d
      ∧ d.kindOf x.kind x.way = c.kindOf x.kind x.way) : t.AdoptedOk := by
  obtain ⟨hnd, hlen, hshow⟩ := hs
  refine ⟨ha ▸ hnd, ha ▸ hlen, fun x hx => ?_⟩
  rw [ha] at hx
  obtain ⟨c, hc, hkind⟩ := Option.map_eq_some_iff.mp (hshow x hx)
  obtain ⟨d, hd, hsame⟩ := hk x hx c hc
  simp only [hd, Option.map_some, hsame, hkind]

/-- A change of one feed's context that leaves its hold kinds. -/
theorem State.SoundBut.update {P Q : FeedContext → Prop} {s t : State} {feed : Nat}
    (hs : s.SoundBut P feed) (hf : t.feeds = s.feeds) (ha : t.adopted = s.adopted)
    (he : s.SameElsewhere feed t)
    (hown : ∀ c d, s.ctx? feed = some c → t.ctx? feed = some d → P c →
      Q d ∧ ∀ k w, d.kindOf k w = c.kindOf k w) : t.SoundBut Q feed := by
  obtain ⟨htable, hadopted, hothers, hc⟩ := hs
  have found : ∀ g c, s.ctx? g = some c → ∃ d, t.ctx? g = some d := fun g c h =>
    (t.mem_feeds_iff g).mp (hf ▸ (s.mem_feeds_iff g).mpr ⟨c, h⟩)
  refine ⟨State.tableOk_of_feeds hf htable, State.adoptedOk_of_kinds hadopted ha fun x _ c hx => ?_,
    fun g c hg h => hothers g c hg ((he g hg).symm.trans h), fun d hd => ?_⟩
  · by_cases hg : x.feed = feed
    · rw [hg] at hx ⊢
      obtain ⟨d, hd⟩ := found feed c hx
      exact ⟨d, hd, (hown c d hx hd (hc c hx)).2 _ _⟩
    · exact ⟨c, (he _ hg).trans hx, rfl⟩
  · obtain ⟨c, hcc⟩ := (s.mem_feeds_iff feed).mp (hf ▸ (t.mem_feeds_iff feed).mpr ⟨d, hd⟩)
    exact (hown c d hcc hd (hc c hcc)).1

/-- A change of one feed's context by a function that leaves its hold kinds. -/
theorem State.SoundBut.mapCtx {P Q : FeedContext → Prop} {s : State} {feed : Nat}
    (hs : s.SoundBut P feed) (g : FeedContext → FeedContext) (hf : ∀ c, (g c).feed = c.feed)
    (hk : ∀ c k w, (g c).kindOf k w = c.kindOf k w) (hPQ : ∀ c, P c → Q (g c)) :
    (s.mapCtx feed g).SoundBut Q feed := by
  refine hs.update (s.frame_mapCtx feed g hf).2.1 rfl (fun _ h => State.ctx?_mapCtx_ne hf h)
    fun c d hc hd hP => ?_
  rw [s.ctx?_mapCtx feed feed g hf, hc] at hd
  simp only [beq_self_eq_true, if_true, Option.map_some, Option.some.injEq] at hd
  exact ⟨hd ▸ hPQ c hP, fun k w => hd ▸ hk c k w⟩

/-- Position work keeps what an outline tells. -/
theorem State.SoundBut.posWork {P : FeedContext → Prop}
    (hP : ∀ c d : FeedContext, d.outline = c.outline → P c → P d) {s t : State} {feed : Nat}
    (hs : s.SoundBut P feed) (h : s.PosWork t) : t.SoundBut P feed := by
  have back : ∀ g d, t.ctx? g = some d → ∃ c, s.ctx? g = some c ∧ d.outline = c.outline :=
    fun g d hd => by
      obtain ⟨c, hc⟩ := (s.mem_feeds_iff g).mp (h.feeds ▸ (t.mem_feeds_iff g).mpr ⟨d, hd⟩)
      obtain ⟨d', hd', ho, -⟩ := h.ctx? hc
      exact ⟨c, hc, Option.some.inj (hd'.symm.trans hd) ▸ ho⟩
  refine ⟨State.tableOk_of_feeds h.feeds hs.1, State.adoptedOk_of_kinds hs.2.1 h.2.1 fun x _ c hc => ?_,
    fun g d hg hd => ?_, fun d hd => ?_⟩
  · obtain ⟨d, hd, ho, -⟩ := h.ctx? hc
    exact ⟨d, hd, FeedContext.kindOf_of_outline ho _ _⟩
  · obtain ⟨c, hc, ho⟩ := back g d hd
    exact .of_outline ho (hs.2.2.1 g c hg hc)
  · obtain ⟨c, hc, ho⟩ := back feed d hd
    exact hP c d ho (hs.2.2.2 c hc)

theorem State.Sound.posWork {s t : State} (hs : s.Sound) (h : s.PosWork t) : t.Sound :=
  (State.SoundBut.posWork (feed := 0) (fun _ _ => FeedContext.Sound.of_outline) (hs.but 0) h).sound

theorem State.SoundBut.loose_posWork {s t : State} {feed : Nat}
    (hs : s.SoundBut FeedContext.Loose feed) (h : s.PosWork t) : t.SoundBut FeedContext.Loose feed :=
  hs.posWork (fun _ _ => FeedContext.Loose.of_outline) h

/-- A fold keeps what each of its steps keeps. -/
theorem foldl_keeps {σ α : Type} {I : σ → Prop} {f : σ → α → σ} {l : List α}
    (h : ∀ s a, a ∈ l → I s → I (f s a)) {s : σ} (hs : I s) : I (l.foldl f s) := by
  induction l generalizing s with
  | nil => exact hs
  | cons a l ih =>
    exact ih (fun s b hb => h s b (List.mem_cons_of_mem a hb)) (h s a List.mem_cons_self hs)

/-! ### Removal of positions -/

theorem State.syncRewrite_contexts (s : State) (feed : Nat) :
    (s.syncRewrite feed).contexts = s.contexts := by
  unfold State.syncRewrite
  split
  · split <;> rfl
  · rfl

theorem State.releasePin_contexts (s : State) (feed seq : Nat) :
    (s.releasePin feed seq).contexts = s.contexts
      ∨ (s.releasePin feed seq).contexts
          = (s.mapPos feed seq (fun q => { q with pinned := false })).contexts := by
  unfold State.releasePin
  split
  · split
    · exact .inr rfl
    · exact .inl rfl
  · exact .inl rfl

/-- A removed position is gone from the contexts of its feed, and nothing else of them changes. -/
theorem State.dropPos_contexts (s : State) (feed seq : Nat) :
    (s.dropPos feed seq).contexts = (s.mapCtx feed (·.without [seq])).contexts := by
  have hdrop : (s.dropPos feed seq).contexts
      = ((s.releasePin feed seq).mapCtx feed (·.without [seq])).contexts := by
    have hw : ∀ c : FeedContext, c.without [seq] = { c with positions := c.positions.filter (·.seq != seq) } :=
      fun c => by simp only [FeedContext.without]; congr 2; funext p; by_cases h : p.seq = seq <;> simp [h]
    simp only [hw]
    exact State.syncRewrite_contexts ..
  rw [hdrop]
  simp only [State.mapCtx]
  rcases s.releasePin_contexts feed seq with h | h
  · rw [h]
  · rw [h]
    simp only [State.mapPos, State.mapCtx, List.map_map]
    refine List.map_congr_left (fun c _ => ?_)
    simp only [Function.comp]
    by_cases hc : c.feed = feed
    · have hm := c.without_mapPos seq (fun q => { q with pinned := false }) (fun _ => rfl)
      have hf : (c.mapPos seq (fun q => { q with pinned := false })).feed = c.feed := rfl
      simp [hc, hm, hf]
    · simp [hc]

theorem State.ctx?_dropPos (s : State) (feed seq g : Nat) :
    (s.dropPos feed seq).ctx? g
      = (s.ctx? g).map (fun c => if g == feed then c.without [seq] else c) := by
  have h := s.ctx?_mapCtx feed g (·.without [seq]) fun _ => rfl
  simpa only [State.ctx?, s.dropPos_contexts] using h

theorem State.ctx?_dropPositions (s : State) (feed : Nat) (seqs : List Nat) (g : Nat) :
    (s.dropPositions feed seqs).ctx? g
      = (s.ctx? g).map (fun c => if g == feed then c.without seqs else c) := by
  induction seqs generalizing s with
  | nil =>
    have hnil : ∀ c : FeedContext, c.without [] = c := fun c => by simp [FeedContext.without]
    simp [State.dropPositions, hnil]
  | cons q seqs ih =>
    have hstep := ih (s.dropPos feed q)
    simp only [State.dropPositions, List.foldl_cons] at hstep ⊢
    rw [hstep, s.ctx?_dropPos]
    cases s.ctx? g with
    | none => rfl
    | some c =>
      by_cases hg : g = feed
      · simp [hg, FeedContext.without_without]
      · simp [hg]

/-- The window of a context dropped: no position is left in it. -/
theorem State.ctx?_dropWindow {s : State} {feed : Nat} {c : FeedContext} (hc : s.ctx? feed = some c) :
    (s.dropWindow feed).ctx? feed
      = some { c with positions := [], windowBuilt := false, delayReached := false } := by
  have hall : c.without (c.positions.map (·.seq)) = { c with positions := [] } := by
    simp only [FeedContext.without]
    congr 1
    rw [List.filter_eq_nil_iff]
    intro p hp
    have hmem : p.seq ∈ c.positions.map (·.seq) := List.mem_map_of_mem hp
    simpa using ⟨p, hp, rfl⟩
  simp only [State.dropWindow, hc]
  refine (State.ctx?_mapCtx _ feed feed _ fun _ => by rfl).trans ?_
  have hd : ((s.dropPositions feed (c.positions.map (·.seq))).withdrawJobs feed).ctx? feed
      = (s.dropPositions feed (c.positions.map (·.seq))).ctx? feed := rfl
  rw [hd, s.ctx?_dropPositions, hc]
  simp [hall]

/-- The sequence numbers of the positions that the marks or the span no longer allow (R73). -/
def FeedContext.overdue (c : FeedContext) : List Nat :=
  (c.positions.filter (fun p => !c.keeps p)).map (·.seq)

theorem State.ctx?_trim {s : State} {feed : Nat} {c : FeedContext} (hc : s.ctx? feed = some c) :
    (s.trim feed).ctx? feed = some (c.without c.overdue) := by
  simp only [State.trim, hc]
  rw [s.ctx?_dropPositions, hc]
  simp [FeedContext.overdue]

/-- A position that stays after a trim is kept. -/
theorem FeedContext.keeps_of_mem_trimmed {c : FeedContext} {p : Position}
    (hp : p ∈ (c.without c.overdue).positions) : p ∈ c.positions ∧ c.keeps p = true := by
  obtain ⟨hmem, hnot⟩ := List.mem_filter.mp hp
  refine ⟨hmem, ?_⟩
  by_contra hk
  have hover : p.seq ∈ c.overdue := List.mem_map.mpr ⟨p, List.mem_filter.mpr ⟨hmem, by simpa using hk⟩, rfl⟩
  simp [hover] at hnot

/-! ### The span (R73, R74) -/

theorem FeedContext.base_eq_some_iff (c : FeedContext) (b : Nat) : c.base = some b ↔ c.BaseIs b := by
  simp only [FeedContext.base, List.min?_eq_some_iff, List.mem_map, FeedContext.BaseIs]
  constructor
  · rintro ⟨⟨m, hm, rfl⟩, hall⟩
    exact ⟨⟨m, hm, rfl⟩, fun n hn => hall _ ⟨n, hn, rfl⟩⟩
  · rintro ⟨⟨m, hm, rfl⟩, hall⟩
    exact ⟨⟨m, hm, rfl⟩, fun _ ⟨n, hn, hb⟩ => hb ▸ hall n hn⟩

theorem FeedContext.inSpan_iff (c : FeedContext) (n : Nat) : c.inSpan n = true ↔ c.SpanHas n := by
  unfold FeedContext.inSpan
  cases hb : c.base with
  | none =>
    simp only [Bool.false_eq_true, false_iff, not_and]
    rintro ⟨m, hm, hall, -⟩
    have := (c.base_eq_some_iff (Mark.ord m)).mpr ⟨⟨m, hm, rfl⟩, hall⟩
    rw [hb] at this
    cases this
  | some b =>
    obtain ⟨⟨m, hm, rfl⟩, hall⟩ := (c.base_eq_some_iff b).mp hb
    have hspan : (∃ m ∈ c.heldMarks, (∀ x ∈ c.heldMarks, Mark.ord m ≤ Mark.ord x) ∧ Mark.ord m ≤ n
        ∧ n < Mark.ord m + 512) ↔ Mark.ord m ≤ n ∧ n < Mark.ord m + 512 :=
      ⟨fun ⟨x, hx, hx', h⟩ => Nat.le_antisymm (hall x hx) (hx' m hm) ▸ h,
        fun h => ⟨m, hm, hall, h⟩⟩
    simp only [FeedContext.SpanHas, hspan]
    simp only [Bool.and_eq_true, decide_eq_true_eq]
    cases c.e <;> simp [Config.span, and_assoc]

theorem FeedContext.wants_iff (c : FeedContext) (k : WorkKind) (n : Nat) :
    c.wants k n = true ↔ c.holds k (c.wayOf n) = true ∧ Mark.ord (c.markOf k (c.wayOf n)) ≤ n := by
  simp [FeedContext.wants]

theorem FeedContext.callsFor_iff (c : FeedContext) (n : Nat) :
    c.callsFor n = true ↔ c.SpanHas n ∧ (c.wants .landing n = true ∨ c.wants .browse n = true) := by
  simp [FeedContext.callsFor, c.inSpan_iff]

/-- What the marks call for they allow. -/
theorem FeedContext.allows_of_callsFor {c : FeedContext} {n : Nat} (h : c.callsFor n = true) :
    c.Allows n := by
  obtain ⟨hspan, hw⟩ := (c.callsFor_iff n).mp h
  exact ⟨hspan, hw.imp (fun h => ((c.wants_iff _ n).mp h).1) (fun h => ((c.wants_iff _ n).mp h).1)⟩

/-- What is kept is called for. -/
theorem FeedContext.callsFor_of_keeps {c : FeedContext} {p : Position} (h : c.keeps p = true) :
    c.callsFor p.seq = true := by
  simp only [FeedContext.keeps, FeedContext.callsFor, Bool.and_eq_true, Bool.or_eq_true] at h ⊢
  exact ⟨h.1, h.2.imp (·.2) (·.2)⟩

/-- A loose context is sound once it is trimmed. -/
theorem FeedContext.Loose.trimmed {c : FeedContext} (h : c.Loose) : (c.without c.overdue).Sound :=
  ⟨h.without _, fun _ hp => FeedContext.allows_of_callsFor
    (FeedContext.callsFor_of_keeps (FeedContext.keeps_of_mem_trimmed hp).2)⟩

/-- The removal of positions leaves the adopted set. -/
theorem State.SameOutside.adopted {s t : State} (h : s.SameOutside t) : t.adopted = s.adopted :=
  h.observe (·.adopted) (fun _ => rfl)

/-- The trim of a loose context makes it sound (R73). -/
theorem State.SoundBut.trim {s : State} {feed : Nat} (hs : s.SoundBut FeedContext.Loose feed) :
    (s.trim feed).Sound := by
  refine State.SoundBut.sound (hs.update (s.frame_trim feed).2.1 (s.frame_trim feed).adopted
    (s.touch_trim feed).1 fun c d hc hd hl => ?_)
  rw [State.ctx?_trim hc] at hd
  obtain rfl := Option.some.inj hd
  exact ⟨hl.trimmed, fun _ _ => rfl⟩

theorem State.SoundBut.dropPos {s : State} {feed : Nat} (hs : s.SoundBut FeedContext.Loose feed)
    (seq : Nat) : (s.dropPos feed seq).SoundBut FeedContext.Loose feed := by
  refine hs.update (s.frame_dropPos feed seq).2.1 (s.frame_dropPos feed seq).adopted
    (s.touch_dropPos feed seq).1 fun c d hc hd hl => ?_
  rw [s.ctx?_dropPos, hc] at hd
  simp only [beq_self_eq_true, if_true, Option.map_some, Option.some.injEq] at hd
  subst hd
  exact ⟨hl.without _, fun _ _ => rfl⟩

/-! ### Creation of positions -/

theorem mem_insertPos {p q : Position} {l : List Position} :
    q ∈ insertPos p l ↔ q = p ∨ q ∈ l := by
  induction l with
  | nil => simp [insertPos]
  | cons r l ih =>
    unfold insertPos
    split
    · simp
    · simp only [List.mem_cons, ih]
      tauto

/-- A position put in its place keeps the ascending order. -/
theorem pairwise_insertPos {p : Position} {l : List Position}
    (hl : (l.map (·.seq)).Pairwise (· < ·)) (hp : ∀ q ∈ l, q.seq ≠ p.seq) :
    ((insertPos p l).map (·.seq)).Pairwise (· < ·) := by
  induction l with
  | nil => simp [insertPos]
  | cons r l ih =>
    simp only [List.map_cons, List.pairwise_cons, List.forall_mem_map] at hl
    unfold insertPos
    split
    · next hlt =>
      simp only [List.map_cons, List.pairwise_cons, List.forall_mem_map, List.mem_cons,
        forall_eq_or_imp]
      exact ⟨⟨hlt, fun q hq => Nat.lt_trans hlt (hl.1 q hq)⟩, hl⟩
    · next hle =>
      have hr : r.seq < p.seq := Nat.lt_of_le_of_ne (Nat.not_lt.mp hle) (hp r List.mem_cons_self)
      simp only [List.map_cons, List.pairwise_cons, List.forall_mem_map]
      refine ⟨fun q hq => ?_, ih hl.2 (fun q hq => hp q (List.mem_cons_of_mem r hq))⟩
      rcases mem_insertPos.mp hq with rfl | hq
      · exact hr
      · exact hl.1 q hq

theorem FeedContext.pos?_none_iff (c : FeedContext) (n : Nat) :
    c.pos? n = none ↔ ∀ p ∈ c.positions, p.seq ≠ n := by
  simp [FeedContext.pos?, List.find?_eq_none]

/-- A context with a fresh position put in its place. -/
def FeedContext.withNew (c : FeedContext) (n : Nat) : FeedContext :=
  { c with positions := insertPos (c.newPosition n) c.positions }

/-- A creation puts a fresh position in its place, and does position work. -/
theorem State.createPos_of_calls {s : State} {feed n : Nat} {c : FeedContext}
    (hc : s.ctx? feed = some c) (hcall : c.callsFor n = true) (hnone : c.pos? n = none) :
    (s.mapCtx feed (·.withNew n)).PosWork (s.createPos feed n) := by
  have hcond : (c.callsFor n && (c.pos? n).isNone) = true := by simp [hcall, hnone]
  simp only [State.createPos, hc, hcond, if_true]
  exact (State.work_lookup ..).trans (State.work_gapTestAt ..)

/-- Where a position is not called for, or exists, none is created. -/
theorem State.createPos_of_not {s : State} {feed n : Nat}
    (h : ∀ c, s.ctx? feed = some c → c.callsFor n = true → c.pos? n ≠ none) :
    s.createPos feed n = s := by
  unfold State.createPos
  split
  · rfl
  · next c hc =>
    split
    · next hcond =>
      simp only [Bool.and_eq_true, Option.isNone_iff_eq_none] at hcond
      exact absurd hcond.2 (h c hc hcond.1)
    · rfl

theorem FeedContext.Sound.withNew {c : FeedContext} {n : Nat} (h : c.Sound) (hw : c.working = true)
    (hcall : c.callsFor n = true) (hnone : c.pos? n = none) : (c.withNew n).Sound := by
  obtain ⟨⟨hord, -, hway, hend⟩, hall⟩ := h
  refine ⟨⟨pairwise_insertPos hord ((c.pos?_none_iff n).mp hnone), fun _ => hw, fun p hp => ?_, hend⟩,
    fun p hp => ?_⟩
  · rcases mem_insertPos.mp hp with rfl | hp
    · rfl
    · exact hway p hp
  · rcases mem_insertPos.mp hp with rfl | hp
    · exact FeedContext.allows_of_callsFor hcall
    · exact hall p hp

/-- Sound and working: what creation keeps. -/
def FeedContext.Open (c : FeedContext) : Prop := c.Sound ∧ c.working = true

theorem State.SoundBut.createPos {s : State} {feed : Nat} (hs : s.SoundBut FeedContext.Open feed)
    (n : Nat) : (s.createPos feed n).SoundBut FeedContext.Open feed := by
  by_cases h : ∀ c, s.ctx? feed = some c → c.callsFor n = true → c.pos? n ≠ none
  · rw [State.createPos_of_not h]
    exact hs
  · push Not at h
    obtain ⟨c, hc, hcall, hnone⟩ := h
    have hmap : (s.mapCtx feed (·.withNew n)).SoundBut FeedContext.Open feed := by
      refine hs.update (s.frame_mapCtx feed _ fun _ => by rfl).2.1 rfl (fun _ h => State.ctx?_mapCtx_ne (fun _ => rfl) h)
        fun c' d hc' hd hopen => ?_
      obtain rfl := Option.some.inj (hc.symm.trans hc')
      rw [s.ctx?_mapCtx feed feed _ fun _ => by rfl, hc] at hd
      simp only [beq_self_eq_true, if_true, Option.map_some, Option.some.injEq] at hd
      subst hd
      exact ⟨⟨hopen.1.withNew hopen.2 hcall hnone, hopen.2⟩, fun _ _ => rfl⟩
    refine hmap.posWork (fun c d ho hopen => ⟨hopen.1.of_outline ho, ?_⟩)
      (State.createPos_of_calls hc hcall hnone)
    have hstate : d.outline.working = c.outline.working := by rw [ho]
    exact hstate.trans hopen.2

theorem State.Sound.fillSpan {s : State} (hs : s.Sound) (feed : Nat) : (s.fillSpan feed).Sound := by
  unfold State.fillSpan
  split
  · exact hs
  · next c hc =>
    split
    · next hcond =>
      simp only [Bool.and_eq_true] at hcond
      split
      · exact hs
      · have hopen : s.SoundBut FeedContext.Open feed :=
          ⟨hs.1, hs.2.1, fun g d _ => hs.2.2 g d, fun d hd => ⟨hs.2.2 feed d hd,
            Option.some.inj (hd.symm.trans hc) ▸ hcond.1.2⟩⟩
        exact State.SoundBut.sound ((foldl_keeps (I := fun t : State => t.SoundBut FeedContext.Open feed)
          (fun (t : State) n _ ht => ht.createPos n) hopen).mono fun _ h => h.1)
    · exact hs

/-- The recomputation of the window makes a loose context sound (R73). -/
theorem State.SoundBut.refreshWindow {s : State} {feed : Nat}
    (hs : s.SoundBut FeedContext.Loose feed) : (s.refreshWindow feed).Sound :=
  hs.trim.fillSpan feed

end Sys2Proof.Machine
end

