-- ==== Sys2Proof/Proofs/Steps.lean ====
section
/-! What every step keeps of the contexts: `State.Keeps` for each operation and each command, and the two
step lemmas over contexts. -/

namespace Sys2Proof.Machine

/-! ### Marks, hold kinds and E of one context -/

theorem PerWay.get_set {α : Type} (p : PerWay α) (w v : Way) (x : α) :
    (p.set w x).get v = if v = w then x else p.get v := by
  fin_cases w <;> fin_cases v <;> rfl

theorem FeedContext.kindOf_setKind (c : FeedContext) (k l : WorkKind) (w v : Way) (h : HoldKind) :
    (c.setKind k w h).kindOf l v = if l = k ∧ v = w then h else c.kindOf l v := by
  cases k <;> cases l <;> simp [FeedContext.setKind, FeedContext.kindOf, PerWay.get_set]

theorem FeedContext.kindOf_setMark (c : FeedContext) (k l : WorkKind) (w v : Way) (m : Mark) :
    (c.setMark k w m).kindOf l v = c.kindOf l v := by
  cases k <;> rfl

theorem FeedContext.kindOf_setRetained (c : FeedContext) (k l : WorkKind) (w v : Way) (m : Mark) :
    (c.setRetained k w m).kindOf l v = c.kindOf l v := by
  cases k <;> rfl

/-- A context whose way has been adopted (R42). -/
def FeedContext.adopting (k : WorkKind) (w : Way) (m : Mark) (c : FeedContext) : FeedContext :=
  (c.setKind k w .adopted).setMark k w m

/-- A context whose way has been released (R44). -/
def FeedContext.released (k : WorkKind) (w : Way) (c : FeedContext) : FeedContext :=
  ((c.setRetained k w (c.markOf k w)).setKind k w .unheld).setMark k w none

theorem FeedContext.kindOf_adopting (c : FeedContext) (k l : WorkKind) (w v : Way) (m : Mark) :
    (c.adopting k w m).kindOf l v = if l = k ∧ v = w then .adopted else c.kindOf l v := by
  rw [FeedContext.adopting, FeedContext.kindOf_setMark, FeedContext.kindOf_setKind]

theorem FeedContext.kindOf_released (c : FeedContext) (k l : WorkKind) (w v : Way) :
    (c.released k w).kindOf l v = if l = k ∧ v = w then .unheld else c.kindOf l v := by
  rw [FeedContext.released, FeedContext.kindOf_setMark, FeedContext.kindOf_setKind,
    FeedContext.kindOf_setRetained]

theorem FeedContext.adopting_keeps (c : FeedContext) (k : WorkKind) (w : Way) (m : Mark) :
    (c.adopting k w m).feed = c.feed ∧ c.Carries (c.adopting k w m) ∧ (c.Loose → (c.adopting k w m).Loose) := by
  cases k <;> exact ⟨rfl, .refl c, id⟩

theorem FeedContext.released_keeps (c : FeedContext) (k : WorkKind) (w : Way) :
    (c.released k w).feed = c.feed ∧ c.Carries (c.released k w) ∧ (c.Loose → (c.released k w).Loose) := by
  cases k <;> exact ⟨rfl, .refl c, id⟩

theorem FeedContext.Loose.reachEnd {c : FeedContext} (h : c.Loose) : c.reachEnd.Loose := by
  unfold FeedContext.reachEnd
  split <;> exact h

theorem FeedContext.kindOf_reachEnd (c : FeedContext) (k : WorkKind) (w : Way) :
    c.reachEnd.kindOf k w = c.kindOf k w := by
  unfold FeedContext.reachEnd
  split <;> rfl

theorem FeedContext.Loose.offerEnd {c : FeedContext} (h : c.Loose) (e : Nat) : (c.offerEnd e).Loose := by
  unfold FeedContext.offerEnd
  split
  · next ht =>
    obtain ⟨hord, -, hway, hend⟩ := h
    have hw : c.working = true := by
      simp only [FeedContext.takesEnd, Bool.and_eq_true] at ht
      exact ht.1
    exact ⟨hord, fun _ => rfl, hway, fun h0 => (nomatch h0), fun _ => c.endAfter_ne_none e,
      fun _ => hend.2.2 (c.working_iff.mp hw)⟩
  · exact h

theorem FeedContext.kindOf_offerEnd (c : FeedContext) (e : Nat) (k : WorkKind) (w : Way) :
    (c.offerEnd e).kindOf k w = c.kindOf k w := by
  unfold FeedContext.offerEnd
  split <;> rfl

/-! ### What follows a change of the marks -/

/-- Work that ends in a context with no position: the life of a context past its window. -/
theorem State.Sound.emptied {s t : State} {feed : Nat} (hs : s.Sound) (hf : s.SameOutside t)
    (he : s.SameElsewhere feed t)
    (hown : ∀ c d, s.ctx? feed = some c → t.ctx? feed = some d →
      d.positions = [] ∧ d.EndFits ∧ ∀ k w, d.kindOf k w = c.kindOf k w) : t.Sound :=
  State.SoundBut.sound ((hs.but feed).update hf.2.1 hf.adopted he fun c d hc hd _ =>
    have ⟨hp, hend, hk⟩ := hown c d hc hd
    ⟨FeedContext.sound_of_nil hp hend, hk⟩)

/-- A CLOSING context with every held mark at E becomes FINAL with no position (R5). -/
theorem State.ctx?_enterFinal {s : State} {feed : Nat} {c : FeedContext} (hc : s.ctx? feed = some c) :
    ∃ d, (s.enterFinal feed).ctx? feed = some d
      ∧ d.outline = ({ c with state := .final, positions := [] } : FeedContext).outline := by
  have hfinal : (s.mapCtx feed (fun c => { c with state := .final })).ctx? feed
      = some { c with state := .final } := by
    refine (State.ctx?_mapCtx _ feed feed _ fun _ => by rfl).trans ?_
    simp [hc]
  obtain ⟨d, hd, ho, -⟩ := ((State.work_recomputeCommit _ feed).trans
    (State.work_markFallsDue _ feed)).ctx? (State.ctx?_dropWindow hfinal)
  exact ⟨d, hd, ho⟩

/-- A context with the outline of one without positions has none. -/
theorem FeedContext.positions_nil_of_outline {c d : FeedContext} (h : d.outline = c.outline)
    (hp : c.positions = []) : d.positions = [] := by
  have := congrArg FeedContext.positions h
  simpa [FeedContext.outline, hp] using this

theorem FeedContext.EndFits.of_outline {c d : FeedContext} (h : d.outline = c.outline)
    (hc : c.EndFits) : d.EndFits := by
  have hd : d.outline.EndFits := h ▸ (show c.outline.EndFits from hc)
  exact hd

theorem State.Sound.finalTest {s : State} (hs : s.Sound) (feed : Nat) : (s.finalTest feed).Sound := by
  unfold State.finalTest
  split
  · exact hs
  · next c hc =>
    split
    · next hcond =>
      refine hs.emptied (s.frame_enterFinal feed) (s.touch_enterFinal feed).1 fun c' d hc' hd => ?_
      obtain rfl := Option.some.inj (hc.symm.trans hc')
      obtain ⟨d', hd', ho⟩ := State.ctx?_enterFinal hc
      obtain rfl := Option.some.inj (hd.symm.trans hd')
      have hknown : c.e ≠ none := by
        intro h0
        simp [FeedContext.allAtEnd, h0] at hcond
      have hfits : ({ c with state := .final, positions := [] } : FeedContext).EndFits :=
        ⟨fun h0 => (nomatch h0), fun _ => hknown, fun h0 => by rcases h0 with h0 | h0 <;> cases h0⟩
      exact ⟨FeedContext.positions_nil_of_outline ho rfl, .of_outline ho hfits,
        fun k w => FeedContext.kindOf_of_outline ho k w⟩
    · exact hs

/-- What follows a change of the marks, of E or of the held ways leaves every context sound (R73). -/
theorem State.SoundBut.afterMarks {s : State} {feed : Nat} (hs : s.SoundBut FeedContext.Loose feed)
    (commit : Bool) : (s.afterMarks feed commit).Sound := by
  have h1 : (s.mapCtx feed FeedContext.reachEnd).SoundBut FeedContext.Loose feed :=
    hs.mapCtx _ FeedContext.reachEnd_feed FeedContext.kindOf_reachEnd (fun _ h => h.reachEnd)
  unfold State.afterMarks
  simp only
  split
  · exact (h1.refreshWindow.posWork (State.work_recomputeCommit ..)).finalTest feed
  · exact h1.refreshWindow.finalTest feed

theorem State.Sound.loose {s : State} (h : s.Sound) (feed : Nat) : s.SoundBut FeedContext.Loose feed :=
  (h.but feed).mono fun _ h => h.1

/-! ### `State.Keeps` -/

/-- `t` has every context of `s`, carrying what it had, and is sound where `s` is. -/
def State.Keeps (s t : State) : Prop := s.Grows t ∧ (s.Sound → t.Sound)

theorem State.Keeps.refl (s : State) : s.Keeps s := ⟨.refl s, id⟩

theorem State.Keeps.trans {s t u : State} (h : s.Keeps t) (k : t.Keeps u) : s.Keeps u :=
  ⟨h.1.trans k.1, k.2 ∘ h.2⟩

theorem State.PosWork.keeps {s t : State} (h : s.PosWork t) : s.Keeps t := ⟨h.2.2, fun hs => hs.posWork h⟩

/-- A change beside the contexts and the adopted set. -/
theorem State.Keeps.of_eq {s t : State} (hc : t.contexts = s.contexts) (ha : t.adopted = s.adopted) :
    s.Keeps t := (State.PosWork.of_eq hc ha).keeps

/-- A change beside the contexts and the adopted set goes before. -/
theorem State.Keeps.after {s t u : State} (k : t.Keeps u) (hc : t.contexts = s.contexts)
    (ha : t.adopted = s.adopted) : s.Keeps u := (State.Keeps.of_eq hc ha).trans k

theorem State.Keeps.foldl {α : Type} {f : State → α → State} {l : List α}
    (h : ∀ (s : State) (a : α), a ∈ l → s.Keeps (f s a)) (s : State) : s.Keeps (l.foldl f s) :=
  foldl_keeps (I := fun t => s.Keeps t) (fun t a ha ht => ht.trans (h t a ha)) (.refl s)

theorem State.Keeps.mapCtx (s : State) (feed : Nat) (g : FeedContext → FeedContext)
    (hg : ∀ c, (g c).feed = c.feed ∧ c.Carries (g c) ∧ (c.Sound → (g c).Sound)
      ∧ ∀ k w, (g c).kindOf k w = c.kindOf k w) :
    s.Keeps (s.mapCtx feed g) :=
  ⟨(s.touch_mapCtx feed g fun c => ⟨(hg c).1, (hg c).2.1⟩).grows, fun hs =>
    State.SoundBut.sound ((hs.but feed).mapCtx g (fun c => (hg c).1) (fun c => (hg c).2.2.2)
      (fun c => (hg c).2.2.1))⟩

theorem State.keeps_afterDone (s : State) (feed : Nat) : s.Keeps (s.afterDone feed) := by
  refine ⟨(s.touch_afterDone feed).grows, fun hs => ?_⟩
  refine State.SoundBut.afterMarks ((hs.loose feed).mapCtx _ (fun c => ?_) (fun c k w => ?_) fun c h => ?_) _
  · split <;> rfl
  · split <;> rfl
  · split <;> exact h

theorem State.keeps_takeEnd (s : State) (feed e : Nat) : s.Keeps (s.takeEnd feed e) := by
  refine ⟨(s.touch_takeEnd feed e).grows, fun hs => ?_⟩
  unfold State.takeEnd
  split
  · exact hs
  · split
    · exact (State.SoundBut.afterMarks ((hs.loose feed).mapCtx _ (FeedContext.offerEnd_feed e)
        (fun c => c.kindOf_offerEnd e) fun _ h => h.offerEnd e) true).posWork (State.work_gapTest ..)
    · exact hs

theorem State.keeps_takeEnd? (s : State) (feed : Nat) (e : Mark) : s.Keeps (s.takeEnd? feed e) := by
  cases e with
  | none => exact .refl s
  | some e => exact s.keeps_takeEnd feed e

/-! ### ABORTED and FAULTED, the linger -/

/-- An aborted context has no position and keeps everything else (R7). -/
theorem State.ctx?_enterAborted {s : State} {feed : Nat} {c : FeedContext} (hc : s.ctx? feed = some c) :
    ∃ d, (s.enterAborted feed).ctx? feed = some d
      ∧ d.outline = ({ c with state := .aborted, positions := [] } : FeedContext).outline := by
  have hmap : (((s.dropWindow feed).discardWork feed).mapCtx feed (fun c =>
      { c with state := .aborted })).ctx? feed
        = some { c with state := .aborted, positions := [], windowBuilt := false, delayReached := false } := by
    refine (State.ctx?_mapCtx _ feed feed _ fun _ => by rfl).trans ?_
    have hd : ((s.dropWindow feed).discardWork feed).ctx? feed = (s.dropWindow feed).ctx? feed := rfl
    rw [hd, State.ctx?_dropWindow hc]
    simp
  obtain ⟨d, hd, ho, -⟩ := (State.work_markFallsDue _ feed).ctx? hmap
  exact ⟨d, hd, ho⟩

/-- A faulted context has no position and no MARK, and keeps everything else (R8). -/
theorem State.ctx?_enterFaulted {s : State} {feed : Nat} {c : FeedContext} (hc : s.ctx? feed = some c) :
    (s.enterFaulted feed).ctx? feed = some { c with
      state := .faulted, positions := [], markReq := none, markAgain := false, windowBuilt := false,
      delayReached := false } := by
  refine (State.ctx?_mapCtx ((s.dropWindow feed).discardWork feed) feed feed (fun c =>
    { c with state := .faulted, markReq := none, markAgain := false })).trans ?_
  have hd : ((s.dropWindow feed).discardWork feed).ctx? feed = (s.dropWindow feed).ctx? feed := rfl
  rw [hd, State.ctx?_dropWindow hc]
  simp

/-- A state that asks nothing of E fits any. -/
theorem FeedContext.endFits_of_ended {c : FeedContext} (h : c.state = .aborted ∨ c.state = .faulted) :
    c.EndFits := by
  unfold FeedContext.EndFits
  rcases h with h | h <;> simp [h]

theorem State.keeps_enterAborted (s : State) (feed : Nat) : s.Keeps (s.enterAborted feed) := by
  refine ⟨(s.touch_enterAborted feed).grows, fun hs =>
    hs.emptied (s.frame_enterAborted feed) (s.touch_enterAborted feed).1 fun c d hc hd => ?_⟩
  obtain ⟨d', hd', ho⟩ := State.ctx?_enterAborted hc
  obtain rfl := Option.some.inj (hd.symm.trans hd')
  exact ⟨FeedContext.positions_nil_of_outline ho rfl,
    .of_outline ho (FeedContext.endFits_of_ended (.inl rfl)),
    fun k w => FeedContext.kindOf_of_outline ho k w⟩

theorem State.keeps_enterFaulted (s : State) (feed : Nat) : s.Keeps (s.enterFaulted feed) := by
  refine ⟨(s.touch_enterFaulted feed).grows, fun hs =>
    hs.emptied (s.frame_enterFaulted feed) (s.touch_enterFaulted feed).1 fun c d hc hd => ?_⟩
  obtain rfl := Option.some.inj (hd.symm.trans (State.ctx?_enterFaulted hc))
  exact ⟨rfl, FeedContext.endFits_of_ended (.inr rfl), fun _ _ => rfl⟩

theorem State.keeps_startLinger (s : State) (feed : Nat) : s.Keeps (s.startLinger feed) :=
  .mapCtx s feed _ (fun c => by split <;> exact ⟨rfl, .refl c, id, fun _ _ => rfl⟩)

theorem State.keeps_abortContext (s : State) (feed : Nat) : s.Keeps (s.abortContext feed) := by
  unfold State.abortContext
  split
  · exact .refl s
  · split
    · exact s.keeps_enterAborted feed
    · exact s.keeps_enterAborted feed
    · exact s.keeps_startLinger feed
    · exact .refl s
    · exact .refl s

theorem State.keeps_closeContext (s : State) (feed : Nat) (e : Mark) :
    s.Keeps (s.closeContext feed e) := by
  unfold State.closeContext
  repeat' split
  all_goals first
    | exact .refl s
    | exact s.keeps_takeEnd ..
    | exact s.keeps_startLinger ..

/-! ### Creation and removal -/

theorem insertCtx_feeds (c : FeedContext) (l : List FeedContext) (g : Nat) :
    g ∈ (insertCtx c l).map (·.feed) ↔ g = c.feed ∨ g ∈ l.map (·.feed) := by
  induction l with
  | nil => simp [insertCtx]
  | cons d l ih =>
    unfold insertCtx
    split
    · simp
    · rw [List.map_cons, List.mem_cons, ih]
      simp only [List.map_cons, List.mem_cons]
      tauto

theorem pairwise_insertCtx {c : FeedContext} {l : List FeedContext}
    (hl : (l.map (·.feed)).Pairwise (· < ·)) (hc : c.feed ∉ l.map (·.feed)) :
    ((insertCtx c l).map (·.feed)).Pairwise (· < ·) := by
  induction l with
  | nil => simp [insertCtx]
  | cons d l ih =>
    rw [List.map_cons, List.pairwise_cons] at hl
    simp only [List.map_cons, List.mem_cons, not_or] at hc
    unfold insertCtx
    split
    · next hlt =>
      rw [List.map_cons, List.pairwise_cons]
      refine ⟨fun g hg => ?_, by rw [List.map_cons, List.pairwise_cons]; exact hl⟩
      rcases List.mem_cons.mp hg with rfl | hg
      · exact hlt
      · exact Nat.lt_trans hlt (hl.1 g hg)
    · next hle =>
      rw [List.map_cons, List.pairwise_cons]
      refine ⟨fun g hg => ?_, ih hl.2 hc.2⟩
      rcases (insertCtx_feeds c l g).mp hg with rfl | hg
      · exact Nat.lt_of_le_of_ne (Nat.not_lt.mp hle) (Ne.symm hc.1)
      · exact hl.1 g hg

theorem length_insertCtx (c : FeedContext) (l : List FeedContext) :
    (insertCtx c l).length = l.length + 1 := by
  induction l with
  | nil => rfl
  | cons d l ih =>
    unfold insertCtx
    split <;> simp [ih]

theorem State.ctx?_none_iff (s : State) (feed : Nat) : s.ctx? feed = none ↔ feed ∉ s.feeds := by
  rw [s.mem_feeds_iff, Option.eq_none_iff_forall_ne_some]
  simp

/-- A sound context with a place in the table. -/
theorem State.Sound.addCtx {s : State} {c : FeedContext} (hs : s.Sound) (hc : s.ctx? c.feed = none)
    (hfeed : c.feed < Config.feeds) (hlen : s.contexts.length < Config.maxContexts) (hsound : c.Sound) :
    (s.addCtx c).Sound := by
  obtain ⟨⟨hord, -, hfeeds⟩, hadopted, hall⟩ := hs
  have hnot := (s.ctx?_none_iff _).mp hc
  have hfind := s.ctx?_addCtx c hc
  refine ⟨⟨pairwise_insertCtx hord hnot, ?_, fun g hg => ?_⟩,
    State.adoptedOk_of_kinds hadopted rfl fun x hx d hd => ?_, fun g d hd => ?_⟩
  · have := length_insertCtx c s.contexts
    exact Nat.le_trans (Nat.le_of_eq this) hlen
  · rcases (insertCtx_feeds c s.contexts g).mp hg with rfl | hg
    · exact hfeed
    · exact hfeeds g hg
  · have hne : x.feed ≠ c.feed := fun h => by rw [h, hc] at hd; cases hd
    exact ⟨d, by rw [hfind, if_neg hne, hd], rfl⟩
  · rw [hfind] at hd
    split at hd
    · exact Option.some.inj hd ▸ hsound
    · exact hall g d hd

theorem FeedContext.Loose.offerEnd? {c : FeedContext} (h : c.Loose) (e : Mark) : (c.offerEnd? e).Loose := by
  cases e with
  | none => exact h
  | some e => exact h.offerEnd e

theorem FeedContext.offerEnd_positions (c : FeedContext) (e : Nat) :
    (c.offerEnd e).positions = c.positions := by
  unfold FeedContext.offerEnd
  split <;> rfl

theorem FeedContext.offerEnd?_positions (c : FeedContext) (e : Mark) :
    (c.offerEnd? e).positions = c.positions := by
  cases e with
  | none => rfl
  | some e => exact c.offerEnd_positions e

theorem FeedContext.reachEnd_positions (c : FeedContext) : c.reachEnd.positions = c.positions := by
  unfold FeedContext.reachEnd
  split <;> rfl

section
variable (s : State) (feed : Nat) (r : Range) (p : OpenParams) (origin : Origin)
  (start recordH recordE : Mark)

theorem State.created_positions : (s.created feed r p origin start recordH recordE).positions = [] := by
  rw [State.created, FeedContext.offerEnd?_positions, FeedContext.offerEnd?_positions]
  unfold FeedContext.assessAllotment
  split <;> rfl

theorem State.created_loose : (s.created feed r p origin start recordH recordE).Loose := by
  have hfresh : (FeedContext.fresh feed r p origin start
      (Mark.higher (s.ringHigh feed p.slotCount) recordH)).Loose := by
    refine ⟨.nil, fun h => absurd rfl h, fun _ h => absurd h List.not_mem_nil, fun _ => rfl, ?_, fun _ => rfl⟩
    rintro (h | h) <;> cases h
  have hassess : ∀ c : FeedContext, c.Loose → (c.assessAllotment s.settings.margin).Loose := fun c h => by
    unfold FeedContext.assessAllotment
    split <;> exact h
  exact ((hassess _ hfresh).offerEnd? recordE).offerEnd? (s.ringLast feed)

/-- A creation keeps what a step keeps: the new context is sound and takes a free place (R1). -/
theorem State.keeps_createContext (hc : s.ctx? feed = none) (hfeed : feed < Config.feeds)
    (hlen : s.contexts.length < Config.maxContexts) :
    s.Keeps (s.createContext feed r p origin start recordH recordE) := by
  refine ⟨fun g c hg => ?_, fun hs => ?_⟩
  · have hne : g ≠ feed := fun h => by rw [h, hc] at hg; cases hg
    exact ⟨c, ((s.createContext_spec feed r p origin start recordH recordE hc).2 g hne).trans hg, .refl c⟩
  · obtain ⟨hf, -⟩ := s.created_carries feed r p origin start recordH recordE
    have hl := s.created_loose feed r p origin start recordH recordE
    have hadd : (s.addCtx (s.created feed r p origin start recordH recordE)).SoundBut
        (fun c => c.Loose ∧ c.positions = []) feed := by
      have h := hs.addCtx (hf.symm ▸ hc) (hf.symm ▸ hfeed) hlen
        (hl.sound_of_nil (s.created_positions ..))
      refine ⟨h.1, h.2.1, fun g c _ => h.2.2 g c, fun c hcc => ?_⟩
      rw [s.ctx?_addCtx _ (hf.symm ▸ hc), if_pos hf.symm] at hcc
      obtain rfl := Option.some.inj hcc
      exact ⟨hl, s.created_positions ..⟩
    have h1 : ((s.addCtx (s.created feed r p origin start recordH recordE)).mapCtx feed
        FeedContext.reachEnd).SoundBut FeedContext.Sound feed :=
      hadd.mapCtx _ FeedContext.reachEnd_feed FeedContext.kindOf_reachEnd fun c h =>
        h.1.reachEnd.sound_of_nil (c.reachEnd_positions.trans h.2)
    unfold State.createContext
    simp only
    split
    · have hbuild := State.SoundBut.refreshWindow (State.Sound.loose (State.SoundBut.sound (h1.mapCtx
        (Q := FeedContext.Sound) (fun c => if c.working then { c with windowBuilt := true } else c)
        (fun c => by split <;> rfl) (fun c k w => by split <;> rfl) fun c h => by split <;> exact h)) feed)
      exact ((hbuild.posWork (State.work_recomputeCommit _ feed)).finalTest feed).posWork
        (State.work_paceTest ..)
    · exact ((h1.sound.posWork (State.work_recomputeCommit _ feed)).finalTest feed).posWork
        (State.work_paceTest ..)

end

theorem State.ctx?_removeContext (s : State) (feed g : Nat) :
    (s.removeContext feed).ctx? g = if g = feed then none else s.ctx? g := by
  have h : (s.removeContext feed).ctx? g
      = (((s.dropWindow feed).discardWork feed).removeCtx feed).ctx? g := rfl
  rw [h, State.ctx?_removeCtx]
  split
  · rfl
  · next hg => exact (s.touch_dropWindow feed).1 g hg

/-- A removal leaves the others sound, with no triple of its feed (R6, R24). -/
theorem State.Sound.removeContext {s : State} (hs : s.Sound) (feed : Nat) : (s.removeContext feed).Sound := by
  obtain ⟨⟨hord, hlen, hfeeds⟩, ⟨hnd, hmax, hshow⟩, hall⟩ := hs
  have hdrop := (s.frame_dropWindow feed).2.1
  have hadopted := (s.frame_dropWindow feed).adopted
  have hsub : (s.removeContext feed).feeds.Sublist s.feeds :=
    hdrop ▸ (List.filter_sublist (l := (s.dropWindow feed).contexts)).map FeedContext.feed
  have hl : (s.removeContext feed).contexts.length ≤ s.contexts.length := by
    simpa [State.feeds] using hsub.length_le
  have hset : (s.removeContext feed).adopted = s.adopted.filter (fun t => t.feed != feed) :=
    congrArg (List.filter _) hadopted
  refine ⟨⟨hord.sublist hsub, Nat.le_trans hl hlen, fun g hg => hfeeds g (hsub.subset hg)⟩,
    ⟨?_, ?_, fun x hx => ?_⟩, fun g c hc => ?_⟩
  · rw [hset]; exact hnd.filter _
  · rw [hset]; exact Nat.le_trans (List.length_filter_le ..) hmax
  · rw [hset] at hx
    obtain ⟨hx, hne⟩ := List.mem_filter.mp hx
    rw [s.ctx?_removeContext, if_neg (by simpa using hne)]
    exact hshow x hx
  · rw [s.ctx?_removeContext] at hc
    split at hc
    · cases hc
    · exact hall g c hc

/-! ### Adoption and release -/

theorem State.SoundBut.loseJob {s : State} {feed : Nat} (hs : s.SoundBut FeedContext.Loose feed)
    (k : WorkKind) (seq : Nat) : (s.loseJob feed k seq).SoundBut FeedContext.Loose feed := by
  unfold State.loseJob
  repeat' split
  all_goals first
    | exact hs
    | exact hs.dropPos seq
    | exact hs.loose_posWork ((s.work_loseLanding ..).trans (State.work_completePos ..))
    | exact hs.loose_posWork ((s.work_loseBrowse ..).trans (State.work_completePos ..))

/-- The state in which a triple has left the adopted set and its way is held no more (R44). -/
def State.letGo (s : State) (t : Triple) : State :=
  ({ s with adopted := s.adopted.filter (· != t) } : State).mapCtx t.feed (FeedContext.released t.kind t.way)

theorem State.releaseTriple_eq {s : State} {t : Triple} {c : FeedContext} (hc : s.ctx? t.feed = some c) :
    s.releaseTriple t
      = (((c.positions.filter (fun p => p.way == t.way)).map (·.seq)).foldl
          (fun s q => s.loseJob t.feed t.kind q) (s.letGo t)).afterMarks t.feed true := by
  have hc' : ({ s with adopted := s.adopted.filter (· != t) } : State).ctx? t.feed = some c := hc
  simp only [State.releaseTriple, hc']
  rfl

theorem State.releaseTriple_of_none {s : State} {t : Triple} (hc : s.ctx? t.feed = none) :
    s.releaseTriple t = { s with adopted := s.adopted.filter (· != t) } := by
  have hc' : ({ s with adopted := s.adopted.filter (· != t) } : State).ctx? t.feed = none := hc
  simp only [State.releaseTriple, hc']

theorem State.touch_letGo (s : State) (t : Triple) : s.Touches t.feed (s.letGo t) :=
  (State.touch_of_eq (t := { s with adopted := s.adopted.filter (· != t) }) rfl).trans
    (State.touch_mapCtx _ _ _ fun c => ⟨(c.released_keeps ..).1, (c.released_keeps ..).2.1⟩)

theorem State.touch_releaseTriple (s : State) (t : Triple) : s.Touches t.feed (s.releaseTriple t) := by
  cases hc : s.ctx? t.feed with
  | none =>
    rw [State.releaseTriple_of_none hc]
    exact State.touch_of_eq rfl
  | some c =>
    rw [State.releaseTriple_eq hc]
    exact ((s.touch_letGo t).trans (State.Touches.foldl _ (fun u q => u.touch_loseJob t.feed t.kind q) _ _)).trans
      (State.touch_afterMarks ..)

theorem State.ctx?_letGo (s : State) (t : Triple) (g : Nat) :
    (s.letGo t).ctx? g
      = (s.ctx? g).map (fun c => if g == t.feed then c.released t.kind t.way else c) :=
  State.ctx?_mapCtx _ t.feed g _ (fun c => (c.released_keeps ..).1)

/-- A triple let go leaves the tables in order: no other triple loses its way. -/
theorem State.Sound.letGo {s : State} (hs : s.Sound) (t : Triple) :
    (s.letGo t).SoundBut FeedContext.Loose t.feed := by
  obtain ⟨htable, ⟨hnd, hlen, hshow⟩, hall⟩ := hs
  have hfeeds : (s.letGo t).feeds = s.feeds :=
    (State.frame_mapCtx { s with adopted := s.adopted.filter (· != t) } t.feed _
      (fun c => (c.released_keeps t.kind t.way).1)).2.1
  refine ⟨State.tableOk_of_feeds hfeeds htable, ⟨hnd.filter _,
    Nat.le_trans (List.length_filter_le ..) hlen, fun x hx => ?_⟩, fun g c hg hc => ?_, fun d hd => ?_⟩
  · obtain ⟨hx, hne⟩ := List.mem_filter.mp (show x ∈ s.adopted.filter (· != t) from hx)
    obtain ⟨c, hc, hkind⟩ := Option.map_eq_some_iff.mp (hshow x hx)
    rw [s.ctx?_letGo, hc]
    simp only [Option.map_some, Option.some.injEq]
    split
    · next hg =>
      rw [FeedContext.kindOf_released, if_neg, hkind]
      rintro ⟨hk, hw⟩
      have : x = t := by cases x; cases t; simp_all
      simp [this] at hne
    · exact hkind
  · rw [s.ctx?_letGo] at hc
    obtain ⟨c', hc', rfl⟩ := Option.map_eq_some_iff.mp hc
    have := hall g c' hc'
    simpa [hg] using this
  · rw [s.ctx?_letGo] at hd
    obtain ⟨c, hc, rfl⟩ := Option.map_eq_some_iff.mp hd
    simpa using (c.released_keeps t.kind t.way).2.2 (hall _ c hc).1

theorem State.keeps_releaseTriple (s : State) (t : Triple) : s.Keeps (s.releaseTriple t) := by
  refine ⟨(s.touch_releaseTriple t).grows, fun hs => ?_⟩
  cases hc : s.ctx? t.feed with
  | none =>
    rw [State.releaseTriple_of_none hc]
    obtain ⟨htable, ⟨hnd, hlen, hshow⟩, hall⟩ := hs
    exact ⟨htable, ⟨hnd.filter _, Nat.le_trans (List.length_filter_le ..) hlen,
      fun x hx => hshow x (List.mem_of_mem_filter hx)⟩, hall⟩
  | some c =>
    rw [State.releaseTriple_eq hc]
    exact State.SoundBut.afterMarks (foldl_keeps (I := fun u : State => u.SoundBut FeedContext.Loose t.feed)
      (fun u q _ hu => hu.loseJob t.kind q) (hs.letGo t)) true

/-- The state in which a triple has joined the adopted set and its way is held from its start mark (R42). -/
def State.takeUp (s : State) (feed : Nat) (k : WorkKind) (w : Way) (m : Mark) : State :=
  ({ s with adopted := s.adopted ++ [Triple.mk feed w k] } : State).mapCtx feed (FeedContext.adopting k w m)

theorem State.adopt_eq {s : State} {feed : Nat} {c : FeedContext} (hc : s.ctx? feed = some c)
    (k : WorkKind) (w : Way) :
    s.adopt feed k w = (((s.takeUp feed k w (s.startMark c k w)).trim feed).gainJobs feed k w).afterMarks
      feed (k == .landing) := by
  simp only [State.adopt, hc]
  rfl

theorem State.touch_takeUp (s : State) (feed : Nat) (k : WorkKind) (w : Way) (m : Mark) :
    s.Touches feed (s.takeUp feed k w m) :=
  (State.touch_of_eq (t := { s with adopted := s.adopted ++ [Triple.mk feed w k] }) rfl).trans
    (State.touch_mapCtx _ _ _ fun c => ⟨(c.adopting_keeps ..).1, (c.adopting_keeps ..).2.1⟩)

theorem State.touch_adopt (s : State) (feed : Nat) (k : WorkKind) (w : Way) :
    s.Touches feed (s.adopt feed k w) := by
  cases hc : s.ctx? feed with
  | none =>
    simp only [State.adopt, hc]
    exact .refl s
  | some c =>
    rw [State.adopt_eq hc]
    exact (((s.touch_takeUp ..).trans (State.touch_trim ..)).trans (State.touch_gainJobs ..)).trans
      (State.touch_afterMarks ..)

theorem State.ctx?_takeUp (s : State) (feed : Nat) (k : WorkKind) (w : Way) (m : Mark) (g : Nat) :
    (s.takeUp feed k w m).ctx? g
      = (s.ctx? g).map (fun c => if g == feed then c.adopting k w m else c) :=
  State.ctx?_mapCtx _ feed g _ (fun c => (c.adopting_keeps ..).1)

/-- An unheld way taken up leaves the tables in order: its triple is new, and there is room for it. -/
theorem State.Sound.takeUp {s : State} (hs : s.Sound) {feed : Nat} {c : FeedContext}
    (hc : s.ctx? feed = some c) {k : WorkKind} {w : Way} (hfree : c.kindOf k w = .unheld)
    (hroom : s.adopted.length < Config.maxAdopted) (m : Mark) :
    (s.takeUp feed k w m).SoundBut FeedContext.Loose feed := by
  obtain ⟨htable, ⟨hnd, hlen, hshow⟩, hall⟩ := hs
  have hfeeds : (s.takeUp feed k w m).feeds = s.feeds :=
    (State.frame_mapCtx { s with adopted := s.adopted ++ [Triple.mk feed w k] } feed _
      (fun c => (c.adopting_keeps k w m).1)).2.1
  have hnew : Triple.mk feed w k ∉ s.adopted := fun h => by
    have := hshow _ h
    simp [hc, hfree] at this
  have hset : (s.takeUp feed k w m).adopted = s.adopted ++ [Triple.mk feed w k] := rfl
  refine ⟨State.tableOk_of_feeds hfeeds htable, ⟨?_, ?_, fun x hx => ?_⟩, fun g c hg hc => ?_, fun d hd => ?_⟩
  · rw [hset]
    exact List.nodup_append.mpr ⟨hnd, List.nodup_singleton _, fun x hx y hy h =>
      hnew (List.mem_singleton.mp hy ▸ h ▸ hx)⟩
  · rw [hset, List.length_append]
    exact hroom
  · rw [hset, List.mem_append, List.mem_singleton] at hx
    rw [s.ctx?_takeUp]
    rcases hx with hx | rfl
    · obtain ⟨d, hd, hkind⟩ := Option.map_eq_some_iff.mp (hshow x hx)
      rw [hd]
      simp only [Option.map_some, Option.some.injEq]
      split
      · rw [FeedContext.kindOf_adopting, hkind, ite_self]
      · exact hkind
    · simp [hc, FeedContext.kindOf_adopting]
  · rw [s.ctx?_takeUp] at hc
    obtain ⟨c', hc', rfl⟩ := Option.map_eq_some_iff.mp hc
    have := hall g c' hc'
    simpa [hg] using this
  · rw [s.ctx?_takeUp] at hd
    obtain ⟨c, hc, rfl⟩ := Option.map_eq_some_iff.mp hd
    simpa using (c.adopting_keeps k w m).2.2 (hall _ c hc).1

/-- An orphaned way is not held here (R40). -/
theorem State.kindOf_of_orphaned {s : State} {c : FeedContext} {k : WorkKind} {w : Way}
    (h : s.orphaned c k w = true) : c.kindOf k w = .unheld := by
  simp only [State.orphaned, State.hasLiveHolder, Bool.and_eq_true, Bool.not_eq_true', Bool.or_eq_false_iff,
    Bool.and_eq_false_iff, beq_iff_eq] at h
  obtain ⟨⟨⟨⟨hlive, hwork⟩, -⟩, -⟩, ⟨(hn | hn) | hn, -⟩⟩ := h
  · simp [hlive] at hn
  · simp [hwork] at hn
  · simpa [FeedContext.holds] using hn

theorem State.keeps_searchTriple (s : State) (feed : Nat) (k : WorkKind) (w : Way) :
    s.Keeps (s.searchTriple feed k w) := by
  unfold State.searchTriple
  split
  · exact .refl s
  · next c hc =>
    split
    · next hcond =>
      simp only [Bool.and_eq_true, decide_eq_true_eq] at hcond
      obtain ⟨⟨⟨horphan, -⟩, hroom⟩, -⟩ := hcond
      refine ⟨(s.touch_adopt feed k w).grows, fun hs => ?_⟩
      rw [State.adopt_eq hc]
      have hup := hs.takeUp hc (State.kindOf_of_orphaned horphan) hroom (s.startMark c k w)
      exact ((hup.trim.posWork (State.work_gainJobs ..)).loose feed).afterMarks _
    · exact .refl s

theorem State.keeps_searchOrphans (s : State) : s.Keeps s.searchOrphans :=
  .foldl (fun t f _ => .foldl (fun t wk _ => t.keeps_searchTriple f wk.2 wk.1) t) s

theorem State.keeps_releaseTests (s : State) : s.Keeps s.releaseTests :=
  .foldl (fun t x _ => by split; exacts [t.keeps_releaseTriple x, .refl t]) s

theorem State.keeps_afterPeerChange (s : State) : s.Keeps s.afterPeerChange := by
  unfold State.afterPeerChange
  split
  · exact ((s.keeps_releaseTests).trans (State.keeps_searchOrphans _)).trans
      (State.work_recomputeCommits _).keeps
  · exact s.work_recomputeCommits.keeps

/-! ### Beacons and directives -/

theorem FeedContext.latchConflict_carries (c : FeedContext) : c.Carries c.latchConflict :=
  ⟨rfl, rfl, rfl, rfl, Nat.le_refl _, Nat.le_refl _, id, id, id, id, id, id, fun _ => rfl⟩

theorem State.keeps_learnRecord (s : State) (q : FeedRecord) (hq : q.feed < Config.feeds) :
    s.Keeps (s.learnRecord q) := by
  unfold State.learnRecord
  split
  · next hc =>
    unfold State.learnOpen
    split
    · exact .refl s
    · split
      · next hcond =>
        simp only [Bool.and_eq_true, decide_eq_true_eq] at hcond
        exact s.keeps_createContext _ _ _ _ _ _ _ hc hq hcond.1.2
      · exact .refl s
  · split
    · exact .mapCtx s _ _ (fun c => ⟨rfl, c.latchConflict_carries, id, fun _ _ => rfl⟩)
    · split
      · exact s.keeps_takeEnd? ..
      · split
        · exact s.keeps_abortContext _
        · exact .refl s

theorem State.keeps_learn (s : State) (b : PeerBeacon) (hb : ∀ q ∈ b.records, q.feed < Config.feeds) :
    s.Keeps (s.learn b) := by
  unfold State.learn
  split
  · exact .foldl (fun t q hq => t.keeps_learnRecord q (hb q hq)) s
  · exact .refl s

theorem State.keeps_receiveBeacon (s : State) (body : List Byte) : s.Keeps (s.receiveBeacon body) := by
  unfold State.receiveBeacon
  split
  · exact .refl s
  · next b hb =>
    split
    · exact .of_eq rfl rfl
    · have hup : s.Keeps (s.updatePeer b) := .of_eq rfl rfl
      unfold State.takeBeacon
      simp only
      split
      · exact (((hup.trans (State.keeps_learn _ b fun q hq => parseBeacon_feed hb hq)).trans
          (State.keeps_releaseTests _)).trans (State.keeps_searchOrphans _)).trans
          (State.work_recomputeCommits _).keeps
      · exact hup.trans (State.work_recomputeCommits _).keeps

theorem State.keeps_openContext (s : State) (feed : Nat) (p : OpenParams) (hfeed : feed < Config.feeds) :
    s.Keeps (s.openContext feed p) := by
  unfold State.openContext
  split
  · exact .refl s
  · split
    · split
      · exact .refl s
      · exact State.Keeps.trans (.mapCtx s feed FeedContext.latchConflict
          (fun c => ⟨rfl, c.latchConflict_carries, id, fun _ _ => rfl⟩)) (.of_eq rfl rfl)
    · next hc =>
      split
      · exact .of_eq rfl rfl
      · split
        · exact .of_eq rfl rfl
        · next hlen => exact s.keeps_createContext _ _ _ _ _ _ _ hc hfeed (Nat.not_le.mp hlen)

theorem State.keeps_applyHold (s : State) (feed : Nat) (land browse : Bool) :
    s.Keeps (s.applyHold feed land browse) := by
  have h1 : s.Keeps (s.mapCtx feed (fun c =>
      { c with landHold := c.landHold || land, browseHold := c.browseHold || browse })) := .mapCtx s feed _ fun c => by exact ⟨rfl, .refl c, id, fun _ _ => rfl⟩
  unfold State.applyHold
  split
  · exact .refl s
  · simp only
    split
    · exact h1.trans (.of_eq rfl rfl)
    · exact h1

theorem State.keeps_applyRelease (s : State) (feed : Nat) (land browse : Bool) :
    s.Keeps (s.applyRelease feed land browse) := by
  have hland : ∀ (t : State) (was : Bool), t.Keeps (t.landLifted feed was) := fun t was => by
    unfold State.landLifted
    split
    · exact (t.work_noteDelay feed).keeps
    · exact .refl t
  have hbrowse : ∀ (t : State) (was : Bool), t.Keeps (t.browseLifted was) := fun t was => by
    unfold State.browseLifted
    split
    · exact .of_eq rfl rfl
    · exact .refl t
  unfold State.applyRelease
  split
  · exact .refl s
  · exact ((State.Keeps.mapCtx s feed _ fun c => by exact ⟨rfl, .refl c, id, fun _ _ => rfl⟩).trans (hland _ _)).trans (hbrowse _ _)

/-- A directive other than STATION RESET keeps what a step keeps. -/
theorem State.keeps_applyDirective (s : State) {d : Directive} {feed : Nat} (hd : d.feed? = some feed)
    (hfeed : feed < Config.feeds) : s.Keeps (s.applyDirective d) := by
  cases d with
  | openFeed g p => cases hd; exact s.keeps_openContext feed p hfeed
  | closeFeed g e => exact s.keeps_closeContext g e
  | abortFeed g => exact s.keeps_abortContext g
  | hold g land browse => exact s.keeps_applyHold g land browse
  | release g land browse => exact s.keeps_applyRelease g land browse
  | stationReset n => cases hd

/-! ### Cells -/

theorem State.keeps_reportWhole (s : State) (feed seq : Nat) (h : ChunkHeader) :
    s.Keeps (s.reportWhole feed seq h) := by
  unfold State.reportWhole
  repeat' split
  all_goals first
    | exact .refl s
    | exact (s.work_takeChunk ..).keeps
    | exact .mapCtx s feed _ fun c => by exact ⟨rfl, .refl c, id, fun _ _ => rfl⟩

theorem State.keeps_sight (s : State) (feed seq : Nat) : s.Keeps (s.sight feed seq) := by
  refine ⟨(s.touch_sight feed seq).grows, fun hs => ?_⟩
  unfold State.sight
  split
  · exact hs
  · split
    · refine State.Sound.posWork (State.SoundBut.sound ((hs.but feed).mapCtx _ (fun c => ?_)
        (fun c k w => ?_) fun c h => ?_)) (State.work_gapTest ..)
      all_goals unfold FeedContext.assessAllotment
      · split <;> rfl
      · split <;> rfl
      · split <;> exact h
    · exact hs

theorem State.keeps_removeEntry (s : State) (feed seq : Nat) : s.Keeps (s.removeEntry feed seq) :=
  (State.PosWork.trans (.of_eq (t := s.dropEntry feed seq) rfl rfl) ((State.work_reportRemoved _ feed seq).trans
    (.of_eq rfl rfl))).keeps

theorem State.keeps_evict (feed seq : Nat) (new : Bool) (fuel : Nat) (s : State) :
    s.Keeps (State.evict feed seq new fuel s) := by
  induction fuel generalizing s with
  | zero => exact .refl s
  | succ fuel ih =>
    unfold State.evict
    split
    · exact .refl s
    · split
      · exact .refl s
      · exact (s.keeps_removeEntry ..).trans (ih _)

theorem State.keeps_checkChunk (s : State) (feed seq : Nat) : s.Keeps (s.checkChunk feed seq) := by
  unfold State.checkChunk
  split
  · exact .refl s
  · split
    · split
      · next e _ _ _ =>
        have hwhole : s.Keeps ((s.mapEntry feed seq (fun e => { e with whole := true })).reportWhole feed seq
            e.hdr) := .after (State.keeps_reportWhole ..) rfl rfl
        unfold State.reportLast
        split
        · exact hwhole.trans (State.keeps_takeEnd ..)
        · exact hwhole
      · exact s.keeps_removeEntry ..
    · exact .refl s

theorem State.keeps_dropCell (s : State) (feed : Nat) : s.Keeps (s.dropCell feed) :=
  (State.Keeps.of_eq (t := s.countPoolOverrun) rfl rfl).trans (.mapCtx _ feed _ fun _ =>
    ⟨rfl, ⟨rfl, rfl, rfl, rfl, Nat.le_refl _, Nat.le_refl _, id, id, id, fun _ => rfl, id, id, id⟩, id,
      fun _ _ => rfl⟩)

theorem State.keeps_createEntry (s : State) (c : Cell) : s.Keeps (s.createEntry c) := by
  have hroom : s.Keeps (s.makeRoom c.feed c.seq true) := State.keeps_evict ..
  have hnew : ∀ (t : State) (ring : List RingEntry), t.Keeps
      ((({ t with ring := ring } : State).countAccepted).reportCreated c.feed c.seq) := fun t ring =>
    .after (State.work_reportCreated ..).keeps rfl rfl
  unfold State.createEntry
  simp only
  split
  · exact (hroom.trans (hnew _ _)).trans (State.keeps_checkChunk ..)
  · exact hroom.trans (State.keeps_dropCell ..)

theorem State.keeps_storeCell (s : State) (c : Cell) : s.Keeps (s.storeCell c) := by
  have hroom : s.Keeps (s.makeRoom c.feed c.seq false) := State.keeps_evict ..
  unfold State.storeCell
  simp only
  split
  · exact hroom.trans (.after (State.keeps_checkChunk ..) rfl rfl)
  · exact hroom.trans (State.keeps_dropCell ..)

theorem State.keeps_placeCell (s : State) (c : Cell) : s.Keeps (s.placeCell c) := by
  unfold State.placeCell
  split
  · exact s.keeps_createEntry c
  · split
    · exact .of_eq rfl rfl
    · split
      · exact .refl s
      · exact s.keeps_storeCell c

theorem State.keeps_takeCell (s : State) (c : Cell) : s.Keeps (s.takeCell c) := by
  unfold State.takeCell
  split
  · split
    · exact .mapCtx s c.feed _ fun c => ⟨rfl, ⟨rfl, rfl, rfl, rfl, Nat.le_refl _, Nat.le_refl _, id,
        fun _ => rfl, id, id, id, id, id⟩, id, fun _ _ => rfl⟩
    · exact (s.keeps_sight ..).trans (State.keeps_placeCell ..)
  · exact s.keeps_placeCell c

theorem State.keeps_intakeCell (s : State) (mend : Bool) (body : List Byte) :
    s.Keeps (s.intakeCell mend body) := by
  unfold State.intakeCell
  split
  · exact .of_eq rfl rfl
  · split
    · split
      · exact .after (State.keeps_takeCell ..) rfl rfl
      · exact s.keeps_takeCell ..
    · exact .of_eq rfl rfl

/-! ### The owners of storage requests -/

theorem State.keeps_endLost (s : State) (feed seq : Nat) (o : LandState) :
    s.Keeps (s.endLost feed seq o) := by
  have h1 : s.PosWork (s.mapPos feed seq (fun p => { p with land := o, lost := .idle, req := none })) :=
    .mapPos s _ _ _ fun _ => by rfl
  unfold State.endLost
  split
  · exact .refl s
  · simp only
    split
    · exact ((h1.trans (State.work_handOverChunkless ..)).trans (State.work_completePos ..)).keeps.trans
        (State.keeps_afterDone ..)
    · exact (h1.trans (State.work_completePos ..)).keeps.trans (State.keeps_afterDone ..)

/-- A change of the feed counts alone (R23). -/
def FeedContext.Counts (f : FeedContext → FeedContext) : Prop :=
  ∀ c, f c = { c with counts := (f c).counts }

theorem State.Keeps.mapPosCount (s : State) (feed seq : Nat) (g : Position → Position)
    (hg : ∀ p, (g p).place = p.place) {f : FeedContext → FeedContext} (hf : FeedContext.Counts f) :
    s.Keeps (s.mapCtx feed (fun c => f (c.mapPos seq g))) := by
  refine .mapCtx s feed _ fun c => ?_
  have ho : (c.mapPos seq g).outline = c.outline :=
    c.outline_mapPositions _ fun p => by split <;> simp [hg]
  rw [hf]
  refine ⟨rfl, .refl c, fun h => ?_, fun k w => ?_⟩
  · have hs : (c.mapPos seq g).Sound := FeedContext.Sound.of_outline ho h
    exact hs
  · have hk : (c.mapPos seq g).kindOf k w = c.kindOf k w := FeedContext.kindOf_of_outline ho k w
    exact hk

theorem State.keeps_landedPos (s : State) (feed : Nat) (p : Position) : s.Keeps (s.landedPos feed p) := by
  have counted : ∀ b : Bool, FeedContext.Counts (fun d => if b then d.countLanded.countTruncated
      else d.countLanded) := fun b d => by cases b <;> rfl
  exact (State.Keeps.mapPosCount s feed p.seq (fun p => { p with land := .landed, req := none })
    (fun _ => rfl) (counted _)).trans (State.work_completePos ..).keeps

theorem State.keeps_mismatchedPos (s : State) (feed : Nat) (p : Position) :
    s.Keeps (s.mismatchedPos feed p) := by
  unfold State.mismatchedPos
  split
  · exact .mapPosCount s feed p.seq (fun p => { p with
      land := .ready, rewrites := p.rewrites + 1, dueRewrite := true, readySince := some s.now,
      req := none }) (fun _ => rfl) (f := FeedContext.countRewrite) fun _ => rfl
  · exact (State.Keeps.mapPosCount s feed p.seq (fun p => { p with land := .lost, req := none })
      (fun _ => rfl) (f := FeedContext.countLost) fun _ => rfl).trans (State.work_completePos ..).keeps

theorem State.keeps_judge (s : State) (feed uid : Nat) (x : SlotRef × Trailer × CheckWord) :
    s.Keeps (s.judge feed uid x) := by
  unfold State.judge
  split
  · exact .refl s
  · split
    · split
      · exact s.keeps_landedPos ..
      · exact s.keeps_mismatchedPos ..
    · exact .refl s

theorem State.keeps_landingChecked (s : State) (feed : Nat) (r : Request)
    (entries : List (Trailer × CheckWord)) : s.Keeps (s.landingChecked feed r entries) :=
  ((State.Keeps.foldl (fun t x _ => t.keeps_judge feed r.uid x) s).trans
    (State.work_syncRewrite ..).keeps).trans (State.keeps_afterDone ..)

theorem State.keeps_trailerRead (s : State) (feed seq : Nat) (t : Trailer) (head : CheckWord) :
    s.Keeps (s.trailerRead feed seq t head) := by
  unfold State.trailerRead
  split
  · exact (State.Keeps.mapCtx s feed _ fun c => by
      split <;> exact ⟨rfl, .refl c, id, fun _ _ => rfl⟩).trans (State.keeps_endLost ..)
  · split
    · exact (State.Keeps.mapCtx s feed _ fun c => by exact ⟨rfl, .refl c, id, fun _ _ => rfl⟩).trans (State.keeps_endLost ..)
    · exact (s.work_awaitFill ..).keeps

theorem State.Keeps.count (s : State) (feed : Nat) {f : FeedContext → FeedContext}
    (hf : FeedContext.Counts f) : s.Keeps (s.mapCtx feed f) :=
  .mapCtx s feed f fun c => by rw [hf c]; exact ⟨rfl, .refl c, id, fun _ _ => rfl⟩

theorem State.keeps_jobEnds (s : State) (j : Job) (st : BrowseState) {count : FeedContext → FeedContext}
    (hcount : FeedContext.Counts count) : s.Keeps (s.jobEnds j st count) :=
  ((((State.Keeps.of_eq (t := s.removeJob j.uid) rfl rfl).trans (State.PosWork.mapPos _ _ _ _ fun _ => by rfl).keeps).trans
    (.count _ _ hcount)).trans (State.work_completePos ..).keeps).trans (State.keeps_afterDone ..)

theorem State.keeps_jobWritten (s : State) (j : Job) : s.Keeps (s.jobWritten j) := by
  unfold State.jobWritten
  split
  all_goals exact s.keeps_jobEnds _ _ fun _ => rfl

theorem State.keeps_jobFails (s : State) (j : Job) : s.Keeps (s.jobFails j) := by
  unfold State.jobFails
  repeat' split
  all_goals first
    | exact s.keeps_jobEnds _ _ fun _ => rfl
    | exact .of_eq rfl rfl

theorem State.keeps_markOver (s : State) (feed : Nat) (again : Bool) : s.Keeps (s.markOver feed again) := by
  have h1 : s.Keeps (s.mapCtx feed (fun c => { c with markReq := none, markAgain := false })) :=
    .mapCtx s feed _ fun c => by exact ⟨rfl, .refl c, id, fun _ _ => rfl⟩
  unfold State.markOver
  simp only
  split
  · exact h1.trans (State.work_markFallsDue ..).keeps
  · exact h1

/-- Storage requests end for a context past ACTIVE and CLOSING (R5, R7). -/
theorem State.keeps_endStorage {s : State} {feed : Nat} {c : FeedContext} (hc : s.ctx? feed = some c)
    (hw : c.working = false) (g : FeedContext → FeedContext)
    (hg : ∀ c, g c = { c with storageEnded := true, markReq := (g c).markReq, markAgain := (g c).markAgain }) :
    s.Keeps (s.mapCtx feed g) := by
  have hf : ∀ c, (g c).feed = c.feed := fun c => by rw [hg c]
  refine ⟨(s.touch_mapCtx feed g fun c => by rw [hg c]; exact ⟨rfl, .refl c⟩).grows, fun hs => ?_⟩
  refine State.SoundBut.sound ((hs.but feed).update (s.frame_mapCtx feed g hf).2.1 rfl
    (fun _ h => State.ctx?_mapCtx_ne hf h) fun c' d hc' hd hP => ?_)
  obtain rfl := Option.some.inj (hc.symm.trans hc')
  rw [s.ctx?_mapCtx feed feed g hf, hc] at hd
  simp only [beq_self_eq_true, if_true, Option.map_some, Option.some.injEq] at hd
  obtain ⟨⟨hord, hwork, hway, hend⟩, hall⟩ := hP
  rw [← hd, hg c]
  refine ⟨⟨⟨hord, hwork, hway, hend.1, hend.2.1, fun h => ?_⟩, hall⟩, fun _ _ => rfl⟩
  rw [(c.working_iff.mpr h)] at hw
  cases hw

theorem State.keeps_markDone {s : State} {feed : Nat} {c : FeedContext} (hc : s.ctx? feed = some c)
    (m : MarkState) : s.Keeps (s.markDone feed c m) := by
  have hover := s.keeps_markOver feed c.markAgain
  unfold State.markDone
  simp only
  split
  · exact hover.trans (State.keeps_startLinger ..)
  · split
    · next h =>
      simp only [Bool.and_eq_true, beq_iff_eq] at h
      have hs1 : (s.mapCtx feed (fun c => { c with markReq := none, markAgain := false })).ctx? feed
          = some { c with markReq := none, markAgain := false } := by
        refine (State.ctx?_mapCtx _ feed feed _ fun _ => by rfl).trans ?_
        simp [hc]
      have hfound : ∃ d, (s.markOver feed c.markAgain).ctx? feed = some d ∧ d.working = false := by
        unfold State.markOver
        simp only
        have hstate : ∀ d : FeedContext, d.outline = ({ c with markReq := none, markAgain := false } :
            FeedContext).outline → d.working = false := fun d ho => by
          have := congrArg FeedContext.state ho
          simp only [FeedContext.outline] at this
          simp [FeedContext.working, this, h.1]
        split
        · obtain ⟨d, hd, ho, -⟩ := (State.work_markFallsDue _ feed).ctx? hs1
          exact ⟨d, hd, hstate d ho⟩
        · exact ⟨_, hs1, hstate _ rfl⟩
      obtain ⟨d, hd, hw⟩ := hfound
      exact (hover.trans (State.keeps_endStorage hd hw _ fun _ => rfl)).trans (State.keeps_startLinger ..)
    · exact hover

theorem State.keeps_markDenied {s : State} {feed : Nat} {c : FeedContext} (hc : s.ctx? feed = some c) :
    s.Keeps (s.markDenied feed c) := by
  unfold State.markDenied
  split
  · exact s.keeps_enterFaulted feed
  · next hw =>
    exact ((State.keeps_endStorage hc (by simpa using hw) _ fun _ => rfl).trans
      (State.keeps_startLinger ..)).trans (.of_eq rfl rfl)

/-- An outcome handed to its owner keeps what a step keeps. -/
theorem State.keeps_handToOwner (s : State) (r : Request) (entries : List (Trailer × CheckWord))
    (o : Handed) : s.Keeps (s.handToOwner r entries o) := by
  have hwrite : ∀ f, s.Keeps (s.writeOutcome f r o) := fun f => by
    unfold State.writeOutcome
    split
    · exact (s.work_awaitCheck ..).keeps
    · exact (s.work_backToReady ..).keeps
    · exact (s.work_backToReady ..).keeps
    · exact s.keeps_enterFaulted f
  have hfill : ∀ f, s.Keeps (s.fillOutcome f r o) := fun f => by
    unfold State.fillOutcome
    split
    · exact s.keeps_enterFaulted f
    · exact .refl s
    · exact (State.Keeps.mapCtx s f _ fun c => by exact ⟨rfl, .refl c, id, fun _ _ => rfl⟩).trans (State.keeps_endLost ..)
    · exact (s.work_awaitCheck ..).keeps
    · exact (s.work_awaitCheck ..).keeps
  have hcheck : ∀ f, s.Keeps (s.checkOutcome f r entries o) := fun f => by
    unfold State.checkOutcome
    split
    · exact s.keeps_landingChecked ..
    · exact (s.work_awaitCheck ..).keeps
    · split
      · exact (s.work_awaitCheck ..).keeps
      · exact (s.work_backToReady ..).keeps
    · exact s.keeps_enterFaulted f
  have htrailer : ∀ f, s.Keeps (s.trailerOutcome f r entries o) := fun f => by
    unfold State.trailerOutcome
    split
    · exact s.keeps_enterFaulted f
    · exact .refl s
    · split
      · exact .refl s
      · exact s.keeps_trailerRead ..
    · exact (s.work_awaitCheck ..).keeps
    · exact (s.work_awaitCheck ..).keeps
  have hmark : ∀ f m, s.Keeps (s.markOutcome f m o) := fun f m => by
    unfold State.markOutcome
    split
    · exact .refl s
    · next hc =>
      split
      · exact State.keeps_markDone hc m
      · exact s.keeps_markOver ..
      · exact s.keeps_markOver ..
      · exact State.keeps_markDenied hc
  have hbrowse : ∀ u, s.Keeps (s.browseOutcome u o) := fun u => by
    unfold State.browseOutcome
    split
    · exact .refl s
    · split
      · exact s.keeps_jobWritten _
      · exact s.keeps_jobFails _
      · exact s.keeps_jobFails _
      · exact s.keeps_enterFaulted _
  unfold State.handToOwner
  split
  · exact hwrite _
  · exact hwrite _
  · exact hfill _
  · exact hcheck _
  · exact htrailer _
  · exact hmark _ _
  · exact hbrowse _
  · exact (s.work_probeOutcome o).keeps
  · exact .refl s

theorem State.keeps_takeAnswerOf (s : State) (k : ReqKind) : s.Keeps (s.takeAnswerOf k) := by
  have taken : ∀ (t : State) (a : StorageAnswer), t.Keeps (t.takeAnswer a) := fun t a => by
    unfold State.takeAnswer
    split
    · exact .refl t
    · exact .refl t
    · split
      · exact .refl t
      · split
        · exact .refl t
        · simp only
          split
          · have heff : t.Keeps ((t.setEntry a.tag .free).answerEffects a.outcome) :=
              .after (State.work_answerEffects ..).keeps rfl rfl
            exact heff.trans (State.keeps_handToOwner ..)
          · exact .of_eq rfl rfl
  unfold State.takeAnswerOf
  split
  · exact .refl s
  · simp only
    split
    · exact .of_eq rfl rfl
    · exact .after (taken _ _) rfl rfl

theorem State.keeps_timesOut (s : State) (tag : Fin 16) : s.Keeps (s.timesOut tag) := by
  unfold State.timesOut
  split
  · split
    · have h1 : s.Keeps s.countTimeout := s.work_countTimeout.keeps
      simp only
      split
      · exact h1.trans (.after (State.keeps_handToOwner ..) rfl rfl)
      · exact h1.trans (.of_eq rfl rfl)
    · exact .refl s
  · exact .refl s
  · exact .refl s

/-! ### The service order -/

theorem State.keeps_turnCheck (s : State) (tag : Fin 16) : ∀ u ∈ s.turnCheck tag, s.Keeps u := by
  intro u hu
  unfold State.turnCheck at hu
  split at hu
  · cases hu
  · split at hu
    · cases hu
    · cases hu
      exact .of_eq rfl rfl

theorem State.keeps_turnRewrite (s : State) (tag : Fin 16) : ∀ u ∈ s.turnRewrite tag, s.Keeps u := by
  intro u hu
  unfold State.turnRewrite at hu
  split at hu
  · cases hu
  · split at hu
    · cases hu
    · simp only at hu
      split at hu
      · cases hu
        exact .after (State.work_issueBatch ..).keeps rfl rfl
      · cases hu
        exact .after (State.work_issueFill ..).keeps rfl rfl

theorem State.keeps_turnMark (s : State) (tag : Fin 16) : ∀ u ∈ s.turnMark tag, s.Keeps u := by
  intro u hu
  unfold State.turnMark at hu
  split at hu
  · cases hu
  · split at hu
    · cases hu
    · split at hu
      · cases hu
      · cases hu
        refine State.Keeps.trans ?_ (State.work_issue ..).keeps
        exact (State.Keeps.of_eq (t := { s with waitMarks := _ }) rfl rfl).trans (.mapCtx _ _ _ fun c => by exact ⟨rfl, .refl c, id, fun _ _ => rfl⟩)

theorem State.keeps_turnLanding (s : State) (tag : Fin 16) : ∀ u ∈ s.turnLanding tag, s.Keeps u := by
  intro u hu
  unfold State.turnLanding at hu
  split at hu
  · cases hu
  · split at hu
    · cases hu
    · cases hu
      exact .after (State.work_issueBatch ..).keeps rfl rfl

theorem State.keeps_turnBrowse (s : State) (tag : Fin 16) : ∀ u ∈ s.turnBrowse tag, s.Keeps u := by
  intro u hu
  unfold State.turnBrowse at hu
  split at hu
  · cases hu
  · split at hu
    · cases hu
    · cases hu
      exact .of_eq rfl rfl

theorem State.keeps_turnProbe (s : State) (tag : Fin 16) : ∀ u ∈ s.turnProbe tag, s.Keeps u := by
  intro u hu
  unfold State.turnProbe at hu
  split at hu
  · cases hu
    exact .of_eq rfl rfl
  · cases hu

/-- The first of several turns that has work. -/
theorem forall_mem_orElse {α : Type} {P : α → Prop} {t u : Option α} (ht : ∀ x ∈ t, P x)
    (hu : ∀ x ∈ u, P x) : ∀ x ∈ (t <|> u), P x := fun x hx => by
  cases t with
  | none => exact hu x hx
  | some y => exact ht x hx

theorem State.keeps_serve (s : State) : s.Keeps s.serve := by
  unfold State.serve
  split
  · exact .refl s
  · next tag _ =>
    split
    · have key : ∀ u ∈ (s.turnProbe tag <|> s.turnCheck tag <|> s.turnRewrite tag <|> s.turnMark tag
          <|> s.turnLanding tag <|> s.turnBrowse tag), s.Keeps u :=
        forall_mem_orElse (s.keeps_turnProbe tag) (forall_mem_orElse (s.keeps_turnCheck tag)
          (forall_mem_orElse (s.keeps_turnRewrite tag) (forall_mem_orElse (s.keeps_turnMark tag)
            (forall_mem_orElse (s.keeps_turnLanding tag) (s.keeps_turnBrowse tag)))))
      revert key
      cases s.turnProbe tag <|> s.turnCheck tag <|> s.turnRewrite tag <|> s.turnMark tag
          <|> s.turnLanding tag <|> s.turnBrowse tag with
      | none => exact fun _ => .refl s
      | some u => exact fun key => key u rfl
    · exact .refl s

/-! ### The capture link and the move to LIVE -/

theorem State.work_stopGapWaits (s : State) : s.PosWork s.stopGapWaits := by
  refine ⟨?_, rfl, fun feed c hc => ⟨{ c with positions := c.positions.map (fun p =>
    { p with gapWait := none, attempts := 0, restarts := 0 }) }, ?_, .refl c⟩⟩
  · simp only [State.outlines, State.stopGapWaits, List.map_map]
    exact List.map_congr_left fun c _ => c.outline_mapPositions _ fun _ => rfl
  · have h := find?_map_key (p := fun c : FeedContext => c.feed == feed) (g := fun c => { c with
      positions := c.positions.map (fun p => { p with gapWait := none, attempts := 0, restarts := 0 }) })
      (fun _ => rfl) s.contexts
    exact h.trans (by rw [show s.contexts.find? (fun c => c.feed == feed) = some c from hc]; rfl)

theorem State.keeps_releaseAll (s : State) : s.Keeps s.releaseAll :=
  .foldl (fun t x _ => t.keeps_releaseTriple x) s

theorem State.removeAll_contexts (s : State) : s.removeAll.contexts = [] := by
  have hfeeds : ∀ (l : List Nat) (u : State), (l.foldl (fun u f => u.removeContext f) u).feeds
      = u.feeds.filter (fun f => !l.contains f) := fun l => by
    induction l with
    | nil => intro u; simp
    | cons f l ih =>
      intro u
      have hone : (u.removeContext f).feeds = u.feeds.filter (· != f) := by
        have h1 : (u.removeContext f).feeds = (((u.dropWindow f).discardWork f).removeCtx f).feeds := rfl
        have h2 : (u.dropWindow f).feeds = u.feeds := (u.frame_dropWindow f).2.1
        rw [h1, ← h2]
        simp only [State.feeds, State.removeCtx, State.discardWork, List.filter_map]
        rfl
      rw [List.foldl_cons, ih, hone, List.filter_filter]
      congr 1
      funext g
      by_cases h : g = f <;> simp [h]
  have h := hfeeds s.feeds s
  have hnil : s.feeds.filter (fun f => !s.feeds.contains f) = [] := by simp
  rw [hnil] at h
  exact List.map_eq_nil_iff.mp h

/-- A state without contexts and adopted triples is sound. -/
theorem State.sound_of_nil {s : State} (hc : s.contexts = []) (ha : s.adopted = []) : s.Sound := by
  have hf : s.feeds = [] := by simp [State.feeds, hc]
  refine ⟨⟨hf ▸ .nil, by simp [hc], fun f h => ?_⟩, ⟨ha ▸ .nil, by simp [ha], fun x hx => ?_⟩,
    fun g c h => ?_⟩
  · rw [hf] at h; cases h
  · rw [ha] at hx; cases hx
  · have := State.ctx?_mem h
    rw [hc] at this
    cases this

theorem State.keeps_buildWindow (s : State) (feed : Nat) : s.Keeps (s.buildWindow feed) := by
  refine ⟨(s.touch_buildWindow feed).grows, fun hs => State.SoundBut.refreshWindow
    ((hs.loose feed).mapCtx _ (fun c => ?_) (fun c k w => ?_) fun c h => ?_)⟩
  · split <;> rfl
  · split <;> rfl
  · split <;> exact h

theorem State.keeps_goLive (s : State) : s.Keeps s.goLive := by
  have hwin : ∀ (t : State) (f : Nat), t.Keeps (t.updateWindow f) := fun t f =>
    ((t.work_lookAgain f).keeps.trans (State.keeps_buildWindow ..)).trans (State.work_gapTest ..).keeps
  have hfold : s.Keeps (({ s with station := .live, listenUntil := none } : State).feeds.foldl
      (fun s f => s.updateWindow f) { s with station := .live, listenUntil := none }) :=
    .after (State.Keeps.foldl (fun t f _ => hwin t f) _) rfl rfl
  exact (hfold.trans (State.keeps_searchOrphans _)).trans (State.work_recomputeCommits _).keeps

/-! ### Every command -/

/-- What a command does to the contexts: it keeps what a step keeps, or it frees a context whose linger
has ended, or it is a reset or a REJOIN that leaves no context. -/
def State.StepsTo (s t : State) : Prop :=
  s.Keeps t
    ∨ (∃ u feed, s.PosWork u ∧ t.contexts = (State.removeContext u feed).contexts
        ∧ t.adopted = (State.removeContext u feed).adopted)
    ∨ (t.contexts = [] ∧ t.adopted = [])

theorem State.StepsTo.of_eq {s t : State} (hc : t.contexts = s.contexts) (ha : t.adopted = s.adopted) :
    s.StepsTo t := .inl (.of_eq hc ha)

theorem State.stepsTo_sortFrame (s : State) (f : Frame) : s.StepsTo (s.sortFrame f) := by
  unfold State.sortFrame
  split
  · exact .of_eq rfl rfl
  · split
    · exact .inl (s.keeps_intakeCell ..)
    split
    · exact .inl (s.keeps_intakeCell ..)
    split
    · exact .inl (s.keeps_receiveBeacon ..)
    split
    · exact .inl (s.work_receiveAsk ..).keeps
    split
    · unfold State.receiveDirective
      split
      · exact .of_eq rfl rfl
      · next d hd =>
        cases hf : d.feed? with
        | some feed => exact .inl (s.keeps_applyDirective hf (parseDirective_feed hd hf))
        | none =>
          cases d with
          | stationReset n =>
            simp only [State.applyDirective]
            split
            · exact .inr (.inr ⟨rfl, rfl⟩)
            · exact .of_eq rfl rfl
          | _ => cases hf
    · exact .of_eq rfl rfl

theorem State.stepsTo_receiveFrame (s : State) (f : Frame) : s.StepsTo (s.receiveFrame f) := by
  unfold State.receiveFrame
  split
  · exact .of_eq rfl rfl
  split
  · exact .of_eq rfl rfl
  split
  · exact .of_eq rfl rfl
  · exact s.stepsTo_sortFrame f

theorem State.stepsTo_linkReturns (s : State) : s.StepsTo s.linkReturns := by
  unfold State.linkReturns
  simp only
  split
  · unfold State.rejoin
    simp only
    split
    · have hrel : s.Keeps (State.releaseAll
          { s with linkUp := true, station := .listening, peers := [] }) :=
        .after (State.keeps_releaseAll _) rfl rfl
      exact .inl ((hrel.trans (State.work_stopGapWaits _).keeps).trans (.of_eq rfl rfl))
    · exact .inr (.inr ⟨State.removeAll_contexts _, rfl⟩)
  · exact .of_eq rfl rfl

theorem State.work_shed (s : State) (feed seq : Nat) : s.PosWork (s.shed feed seq) := by
  unfold State.shed
  split
  · exact .refl s
  · exact .of_eq rfl rfl

theorem State.work_decodeEnds (s : State) (ps : Option (List Picture)) : s.PosWork (s.decodeEnds ps) := by
  have hfail : ∀ j, s.PosWork (s.decodeFailed j) := fun j => by
    unfold State.decodeFailed
    split <;> exact .of_eq rfl rfl
  unfold State.decodeEnds
  split
  · exact .refl s
  · split
    · split
      · exact .of_eq rfl rfl
      · exact hfail _
    · exact hfail _

theorem State.work_takeFragment (s : State) (f : Frame) : s.PosWork (s.takeFragment f) := by
  have hgather : ∀ g, s.PosWork (s.gather g) := fun g => by
    unfold State.gather
    simp only
    split <;> exact .of_eq rfl rfl
  unfold State.takeFragment
  split
  · exact .refl s
  · simp only
    split
    · exact hgather _
    · split
      · exact hgather _
      · exact .of_eq rfl rfl

theorem State.work_writeCutOff (s : State) : s.PosWork s.writeCutOff := by
  unfold State.writeCutOff
  split <;> exact .of_eq rfl rfl

/-- Every command answers a next state, and leaves the contexts as `State.StepsTo` says. -/
theorem exec_stepsTo (i : Instr) (s : State) : ∃ t, exec i s = .next t ∧ s.StepsTo t := by
  cases i with
  | powerReset => exact ⟨_, rfl, .inr (.inr ⟨rfl, rfl⟩)⟩
  | loadingComplete b =>
    refine ⟨_, rfl, ?_⟩
    unfold State.loadingCompletes State.loadedWell
    repeat' (first | split | simp only)
    all_goals exact .of_eq rfl rfl
  | storageQuietTimeEnd =>
    refine ⟨_, rfl, ?_⟩
    unfold State.quietEnds
    split <;> exact .of_eq rfl rfl
  | captureLinkLost =>
    refine ⟨_, rfl, ?_⟩
    unfold State.linkLost
    simp only
    split <;> exact .of_eq rfl rfl
  | captureLinkReturn => exact ⟨_, rfl, s.stepsTo_linkReturns⟩
  | listeningPeriodEnd =>
    refine ⟨_, rfl, ?_⟩
    unfold State.listeningEnds
    split
    · split
      · exact .of_eq rfl rfl
      · exact .inl s.keeps_goLive
    · exact .of_eq rfl rfl
  | beaconTimerExpiry =>
    refine ⟨_, rfl, ?_⟩
    unfold State.beaconDue
    repeat' split
    all_goals exact .of_eq rfl rfl
  | portTransmit => exact ⟨_, rfl, .inl s.work_transmit.keeps⟩
  | peerSilent n =>
    refine ⟨_, rfl, .inl ?_⟩
    unfold State.peerFallsSilent
    split
    · exact .refl s
    · split
      · exact .after (State.keeps_afterPeerChange _) rfl rfl
      · exact .refl s
  | peerRemoved n =>
    refine ⟨_, rfl, .inl ?_⟩
    unfold State.peerRemoved
    split
    · exact .refl s
    · split
      · exact .after (State.keeps_afterPeerChange _) rfl rfl
      · exact .refl s
  | answerBackoffExpiry feed seq =>
    refine ⟨_, rfl, ?_⟩
    unfold State.answerDue
    repeat' split
    all_goals exact .of_eq rfl rfl
  | gapWaitExpiry feed seq => exact ⟨_, rfl, .inl (s.work_gapExpires ..).keeps⟩
  | storageIssue => exact ⟨_, rfl, .inl s.keeps_serve⟩
  | writeAnswer => exact ⟨_, rfl, .inl (s.keeps_takeAnswerOf _)⟩
  | checkAnswer => exact ⟨_, rfl, .inl (s.keeps_takeAnswerOf _)⟩
  | markAnswer => exact ⟨_, rfl, .inl (s.keeps_takeAnswerOf _)⟩
  | probeAnswer => exact ⟨_, rfl, .inl (s.keeps_takeAnswerOf _)⟩
  | storageTimeout tag => exact ⟨_, rfl, .inl (s.keeps_timesOut tag)⟩
  | stalePeriodEnd tag =>
    refine ⟨_, rfl, ?_⟩
    unfold State.staleEnds
    repeat' split
    all_goals exact .of_eq rfl rfl
  | probeTimerExpiry =>
    refine ⟨_, rfl, ?_⟩
    unfold State.probeTimerExpires
    repeat' split
    all_goals exact .of_eq rfl rfl
  | lingerExpiry feed =>
    refine ⟨_, rfl, ?_⟩
    unfold State.lingerExpires
    split
    · exact .of_eq rfl rfl
    · split
      · exact .inr (.inl ⟨s, feed, .refl s, rfl, rfl⟩)
      · exact .of_eq rfl rfl
  | pacingTimerExpiry feed =>
    refine ⟨_, rfl, .inl ?_⟩
    unfold State.pacingExpires
    split
    · exact .refl s
    · split
      · exact (State.Keeps.mapCtx s feed _ fun c => by exact ⟨rfl, .refl c, id, fun _ _ => rfl⟩).trans (State.work_paceTest ..).keeps
      · exact .refl s
  | landingDelayReached feed => exact ⟨_, rfl, .inl (s.work_noteDelay feed).keeps⟩
  | browseQueueEntry => exact ⟨_, rfl, .inl s.work_enterQueue.keeps⟩
  | reducerTakesJob =>
    refine ⟨_, rfl, ?_⟩
    unfold State.reducerTakes
    split <;> exact .of_eq rfl rfl
  | decodeComplete ps => exact ⟨_, rfl, .inl (s.work_decodeEnds ps).keeps⟩
  | shedAgeExpiry feed seq => exact ⟨_, rfl, .inl (s.work_shed ..).keeps⟩
  | readStatus =>
    refine ⟨_, rfl, ?_⟩
    unfold State.readStatus
    split <;> exact .of_eq rfl rfl
  | readRecord b =>
    refine ⟨_, rfl, ?_⟩
    unfold State.readRecord
    repeat' split
    all_goals exact .of_eq rfl rfl
  | writeRecord r =>
    refine ⟨_, rfl, ?_⟩
    unfold State.writeRecord
    repeat' split
    all_goals exact .of_eq rfl rfl
  | recordWriteComplete b =>
    refine ⟨_, rfl, .inl ?_⟩
    unfold State.recordWritten
    split
    · exact .refl s
    · split
      · exact .of_eq rfl rfl
      · exact s.work_writeCutOff.keeps.trans (.of_eq rfl rfl)
  | storageFragmentReceived f => exact ⟨_, rfl, .inl (s.work_takeFragment f).keeps⟩
  | maintenanceAnswerSent =>
    refine ⟨_, rfl, ?_⟩
    unfold State.answerSent
    split <;> exact .of_eq rfl rfl
  | _ f => exact ⟨_, rfl, s.stepsTo_receiveFrame f⟩

/-- What a step does from the state without the command it takes is what it does from the state. -/
theorem State.StepsTo.of_pending {s t : State} {rest : List Instr}
    (h : ({ s with pending := rest } : State).StepsTo t) : s.StepsTo t := by
  rcases h with h | h | h
  · exact .inl (.after h rfl rfl)
  · obtain ⟨u, g, hu, ht⟩ := h
    exact .inr (.inl ⟨u, g, (State.PosWork.of_eq rfl rfl).trans hu, ht⟩)
  · exact .inr (.inr h)

/-- What a step does to the contexts. -/
theorem step_stepsTo {s t : State} (h : step s = .next t) : s.StepsTo t := by
  unfold step at h
  split at h
  · cases h
    exact .of_eq rfl rfl
  · next i rest _ =>
    obtain ⟨u, hu, hstep⟩ := exec_stepsTo i { s with pending := rest }
    rw [hu] at h
    cases h
    exact hstep.of_pending

/-- Settles O60: a step keeps every context with what it carries, unless it frees it. -/
theorem stepCarriesContext : Obligations.StepCarriesContext := by
  intro s t feed c d hstep hc hd
  rcases step_stepsTo hstep with h | ⟨u, g, hu, hctx, -⟩ | ⟨hnil, -⟩
  · obtain ⟨d', hd', hcar⟩ := h.1 feed c hc
    exact Option.some.inj (hd'.symm.trans hd) ▸ hcar
  · have hfind : t.ctx? feed = (State.removeContext u g).ctx? feed := by
      simp only [State.ctx?, hctx]
    rw [hfind, u.ctx?_removeContext] at hd
    split at hd
    · cases hd
    · obtain ⟨c', hc', -, hcar⟩ := hu.ctx? hc
      exact Option.some.inj (hc'.symm.trans hd) ▸ hcar
  · have := State.ctx?_mem hd
    rw [hnil] at this
    cases this

/-- Ascending positions in the span are at most 512 (R73). -/
theorem FeedContext.positions_length_le {c : FeedContext} (hord : (c.positions.map (·.seq)).Pairwise (· < ·))
    (hspan : ∀ p ∈ c.positions, c.SpanHas p.seq) : c.positions.length ≤ 512 := by
  cases hp : c.positions with
  | nil => simp
  | cons q l =>
    obtain ⟨⟨m, hm, hlow, -⟩, -⟩ := hspan q (hp ▸ List.mem_cons_self)
    have hsub : (c.positions.map (·.seq)).toFinset ⊆ Finset.Ico (Mark.ord m) (Mark.ord m + 512) := by
      intro n hn
      obtain ⟨p, hpm, rfl⟩ := List.mem_map.mp (List.mem_toFinset.mp hn)
      obtain ⟨⟨m', hm', hlow', hge, hlt⟩, -⟩ := hspan p hpm
      have hmm : Mark.ord m' = Mark.ord m := Nat.le_antisymm (hlow' m hm) (hlow m' hm')
      rw [hmm] at hge hlt
      exact Finset.mem_Ico.mpr ⟨hge, hlt⟩
    have hnodup : (c.positions.map (·.seq)).Nodup := hord.imp Nat.ne_of_lt
    have hcard := Finset.card_le_card hsub
    rw [List.toFinset_card_of_nodup hnodup, List.length_map, Nat.card_Ico, hp] at hcard
    omega

/-- The windows and the end sequences in order, context by context. -/
theorem State.sound_iff (s : State) :
    s.Sound ↔ s.TableOk ∧ s.AdoptedOk ∧ s.WindowsOk ∧ s.EndsOk := by
  constructor
  · rintro ⟨htable, hadopted, hsound⟩
    have hmem : ∀ c ∈ s.contexts, c.Sound := fun c hc => hsound c.feed c (State.ctx?_of_mem htable hc)
    refine ⟨htable, hadopted, fun c hc => ?_, fun c hc => (hmem c hc).1.2.2.2⟩
    obtain ⟨⟨hord, hwork, hway, -⟩, hallow⟩ := hmem c hc
    refine ⟨hord, FeedContext.positions_length_le hord fun p hp => (hallow p hp).1,
      fun hne => c.working_iff.mp (hwork hne), fun p hp => ⟨(hallow p hp).1, hway p hp, ?_⟩⟩
    rw [hway p hp]
    exact (hallow p hp).2
  · rintro ⟨htable, hadopted, hwindows, hends⟩
    refine ⟨htable, hadopted, fun g c hc => ?_⟩
    obtain ⟨hord, -, hwork, hpos⟩ := hwindows c (State.ctx?_mem hc)
    refine ⟨⟨hord, fun hne => c.working_iff.mpr (hwork hne), fun p hp => (hpos p hp).2.1,
      hends c (State.ctx?_mem hc)⟩, fun p hp => ⟨(hpos p hp).1, ?_⟩⟩
    rw [← (hpos p hp).2.1]
    exact (hpos p hp).2.2

/-- Settles O57: the invariant is `State.Sound`, which every operation keeps. -/
theorem stepKeepsContexts : Obligations.StepKeepsContexts := by
  intro s t htable hadopted hwindows hends hstep
  refine t.sound_iff.mp ?_
  have hs : s.Sound := s.sound_iff.mpr ⟨htable, hadopted, hwindows, hends⟩
  rcases step_stepsTo hstep with h | ⟨u, g, hu, hctx, hset⟩ | ⟨hnil, hset⟩
  · exact h.2 hs
  · exact ((hs.posWork hu).removeContext g).posWork (.of_eq hctx hset)
  · exact State.sound_of_nil hnil hset

end Sys2Proof.Machine
end

