-- ==== Sys2Proof/Proofs/Pins.lean ====
section
/-! Pins and the browse engine under work on one feed's window. `State.Tracks` says that the pins of the
ring's entries follow the positions of the feed, and that the browse engine's queue, shed list and ready
writes lose jobs alone; one lemma for each operation. -/

namespace Sys2Proof.Machine

/-! ### Pins -/

/-- The position of a sequence number of a context holds a pin. -/
def FeedContext.pinAt (c : FeedContext) (n : Nat) : Bool := ((c.pos? n).map (·.pinned)).getD false

theorem State.holdsPin_of_ctx {s : State} {feed : Nat} {c : FeedContext} (hc : s.ctx? feed = some c)
    (n : Nat) : s.holdsPin feed n = c.pinAt n := by
  simp only [State.holdsPin, State.pos?, hc, Option.bind_some]
  rfl

theorem State.holdsPin_of_none {s : State} {feed : Nat} (hc : s.ctx? feed = none) (n : Nat) :
    s.holdsPin feed n = false := by
  simp [State.holdsPin, State.pos?, hc]

/-- What becomes of the pins of an entry whose position held a pin or not (`a`) and holds one or not now
(`b`); an entry without pins may gain one where its position gave its pin up and took it again. -/
def PinFn (a b : Bool) (f : Nat → Nat) : Prop :=
  match a, b with
  | false, false => ∀ n, f n = n
  | true, false => ∀ n, f n = n - 1
  | false, true => ∀ n, f n = n + 1
  | true, true => ∀ n, n ≤ f n ∧ f n ≤ max n 1

theorem PinFn.same (a : Bool) : PinFn a a id := by
  cases a
  · exact fun _ => rfl
  · exact fun n => ⟨Nat.le_refl n, Nat.le_max_left n 1⟩

theorem PinFn.comp {a b c : Bool} {f g : Nat → Nat} (hf : PinFn a b f) (hg : PinFn b c g) :
    PinFn a c (g ∘ f) := by
  cases a <;> cases b <;> cases c <;>
  · intro n
    have h1 := hf n
    have h2 := hg (f n)
    simp only [Function.comp] at *
    omega

/-- An entry with its pins changed. -/
def RingEntry.repin (f : Nat → Nat) (e : RingEntry) : RingEntry := { e with pins := f e.pins }

/-- The pins of the entries of one feed follow its positions, and no other entry changes. -/
def State.PinsTrack (s t : State) (feed : Nat) : Prop :=
  (∀ g n, g ≠ feed → t.entry? g n = s.entry? g n)
    ∧ ∀ n, ∃ f, PinFn (s.holdsPin feed n) (t.holdsPin feed n) f
        ∧ t.entry? feed n = (s.entry? feed n).map (RingEntry.repin f)

theorem State.PinsTrack.follow {s t : State} {feed : Nat} (h : s.PinsTrack t feed) :
    s.PinsFollow t feed := by
  refine ⟨h.1, fun n => ?_⟩
  obtain ⟨f, hf, he⟩ := h.2 n
  refine ⟨fun ha hb => ?_, fun ha hb => ?_, fun ha hb => ?_, fun ha hb hpos => ?_⟩
  · rw [ha, hb] at hf
    rw [he]
    exact congrArg (Option.map · _) (funext fun e => by simp only [RingEntry.repin, hf e.pins])
  · rw [ha, hb] at hf
    rw [he]
    exact congrArg (Option.map · _) (funext fun e => by simp only [RingEntry.repin, hf e.pins])
  · rw [ha, hb] at hf
    rw [he]
    cases s.entry? feed n with
    | none => rfl
    | some e => simp only [Option.map_some, RingEntry.repin, hf e.pins]
  · rw [ha, hb] at hf
    rw [he]
    cases hs : s.entry? feed n with
    | none => rfl
    | some e =>
      have hp := hpos e hs
      have hfe := hf e.pins
      have : f e.pins = e.pins := by omega
      simp only [Option.map_some, RingEntry.repin, this]

/-! ### The relation -/

/-- From `s` to `t` the pins follow the positions of one feed, and the browse engine loses jobs alone past
its waiting list. -/
structure State.Tracks (feed : Nat) (s t : State) : Prop where
  pins : s.PinsTrack t feed
  queue : ∀ j ∈ t.queueJobs, j ∈ s.queueJobs
  shed : ∀ j ∈ t.shedJobs, j ∈ s.shedJobs
  ready : ∀ u ∈ t.browseReady, u ∈ s.browseReady

theorem State.Tracks.trans {feed : Nat} {s t u : State} (h : s.Tracks feed t) (k : t.Tracks feed u) :
    s.Tracks feed u := by
  refine ⟨⟨fun g n hg => (k.pins.1 g n hg).trans (h.pins.1 g n hg), fun n => ?_⟩,
    fun j hj => h.queue j (k.queue j hj), fun j hj => h.shed j (k.shed j hj),
    fun v hv => h.ready v (k.ready v hv)⟩
  obtain ⟨f, hf, he⟩ := h.pins.2 n
  obtain ⟨g, hg, he'⟩ := k.pins.2 n
  refine ⟨g ∘ f, hf.comp hg, ?_⟩
  rw [he', he, Option.map_map]
  rfl

/-- The ring as it was, and each position of the feed with its pin or without. -/
theorem State.Tracks.of_pins {feed : Nat} {s t : State} (hr : t.ring = s.ring)
    (hp : ∀ n, t.holdsPin feed n = s.holdsPin feed n)
    (hq : ∀ j ∈ t.queueJobs, j ∈ s.queueJobs) (hs : ∀ j ∈ t.shedJobs, j ∈ s.shedJobs)
    (hb : ∀ u ∈ t.browseReady, u ∈ s.browseReady) : s.Tracks feed t := by
  have he : ∀ g n, t.entry? g n = s.entry? g n := fun g n => by simp only [State.entry?, hr]
  refine ⟨⟨fun g n _ => he g n, fun n => ⟨id, ?_, ?_⟩⟩, hq, hs, hb⟩
  · rw [hp n]
    exact .same _
  · rw [he]
    cases s.entry? feed n <;> rfl

/-- A change beside the contexts and the ring. -/
theorem State.Tracks.of_eq {feed : Nat} {s t : State} (hr : t.ring = s.ring) (hc : t.contexts = s.contexts)
    (hq : ∀ j ∈ t.queueJobs, j ∈ s.queueJobs) (hs : ∀ j ∈ t.shedJobs, j ∈ s.shedJobs)
    (hb : ∀ u ∈ t.browseReady, u ∈ s.browseReady) : s.Tracks feed t :=
  .of_pins hr (fun n => by simp only [State.holdsPin, State.pos?, State.ctx?, hc]) hq hs hb

theorem State.Tracks.refl (feed : Nat) (s : State) : s.Tracks feed s :=
  .of_eq rfl rfl (fun _ => id) (fun _ => id) (fun _ => id)

theorem State.Tracks.foldl {feed : Nat} {α : Type} {f : State → α → State} {l : List α}
    (h : ∀ (s : State) (a : α), a ∈ l → s.Tracks feed (f s a)) (s : State) : s.Tracks feed (l.foldl f s) :=
  foldl_keeps (I := fun t => s.Tracks feed t) (fun t a ha ht => ht.trans (h t a ha)) (.refl feed s)

/-- A change of the feed's context that leaves each position with its pin or without. -/
theorem State.Tracks.mapCtx (s : State) (feed : Nat) (g : FeedContext → FeedContext)
    (hf : ∀ c, (g c).feed = c.feed) (hg : ∀ c, s.ctx? feed = some c → ∀ n, (g c).pinAt n = c.pinAt n) :
    s.Tracks feed (s.mapCtx feed g) := by
  refine .of_pins rfl (fun n => ?_) (fun _ => id) (fun _ => id) (fun _ => id)
  have hctx := s.ctx?_mapCtx feed feed g hf
  cases hc : s.ctx? feed with
  | none =>
    rw [hc] at hctx
    rw [State.holdsPin_of_none hctx, State.holdsPin_of_none hc]
  | some c =>
    rw [hc] at hctx
    simp only [beq_self_eq_true, if_true, Option.map_some] at hctx
    rw [State.holdsPin_of_ctx hctx, State.holdsPin_of_ctx hc, hg c hc]

/-- A change of the feed's context beside its positions. -/
theorem State.Tracks.mapCtx_beside (s : State) (feed : Nat) (g : FeedContext → FeedContext)
    (hg : ∀ c, (g c).feed = c.feed ∧ (g c).positions = c.positions) : s.Tracks feed (s.mapCtx feed g) :=
  .mapCtx s feed g (fun c => (hg c).1) fun c _ n => by
    simp only [FeedContext.pinAt, FeedContext.pos?, (hg c).2]

theorem FeedContext.pinAt_mapPositions (c : FeedContext) (g : Position → Position)
    (hg : ∀ p, (g p).seq = p.seq ∧ (g p).pinned = p.pinned) (n : Nat) :
    ({ c with positions := c.positions.map g } : FeedContext).pinAt n = c.pinAt n := by
  simp only [FeedContext.pinAt, FeedContext.pos?]
  rw [find?_map_key (p := fun p : Position => p.seq == n) (fun p => by rw [(hg p).1]), Option.map_map]
  congr 2
  exact funext fun p => (hg p).2

/-- A change of the positions of the feed's context that leaves their pins. -/
theorem State.Tracks.mapPositions (s : State) (feed : Nat) (g : FeedContext → Position → Position)
    (hg : ∀ c p, (g c p).seq = p.seq ∧ (g c p).pinned = p.pinned) :
    s.Tracks feed (s.mapCtx feed (fun c => { c with positions := c.positions.map (g c) })) :=
  .mapCtx s feed _ (fun _ => rfl) fun c _ => c.pinAt_mapPositions (g c) (hg c)

theorem State.Tracks.mapPos (s : State) (feed seq : Nat) (g : Position → Position)
    (hg : ∀ p, (g p).seq = p.seq ∧ (g p).pinned = p.pinned) : s.Tracks feed (s.mapPos feed seq g) :=
  .mapPositions s feed (fun _ p => if p.seq == seq then g p else p) fun _ p => by
    split
    · exact hg p
    · exact ⟨rfl, rfl⟩

/-! ### Pins given up and taken -/

theorem State.holdsPin_mapPos (s : State) (feed seq n : Nat) (g : Position → Position) (b : Bool)
    (hg : ∀ p, (g p).seq = p.seq ∧ (g p).pinned = b) :
    (s.mapPos feed seq g).holdsPin feed n
      = if n = seq then ((s.pos? feed seq).isSome && b) else s.holdsPin feed n := by
  simp only [State.holdsPin]
  rw [s.pos?_mapPos feed seq feed n g fun p => (hg p).1]
  by_cases hn : n = seq
  · subst hn
    cases s.pos? feed n <;> simp [hg]
  · cases s.pos? feed n <;> simp [hn]

theorem State.entry?_repin (s : State) (feed seq g n : Nat) (f : Nat → Nat) :
    (s.mapEntry feed seq (RingEntry.repin f)).entry? g n
      = if g = feed ∧ n = seq then (s.entry? g n).map (RingEntry.repin f) else s.entry? g n := by
  rw [s.entry?_mapEntry feed seq g n (RingEntry.repin f) fun e => ⟨rfl, rfl⟩]
  cases s.entry? g n <;> split <;> simp_all

/-- A position's pin and its entry's pins changed together. -/
theorem State.Tracks.repin {s : State} {feed seq : Nat} {g : Position → Position} {f : Nat → Nat} {b : Bool}
    (hg : ∀ p, (g p).seq = p.seq ∧ (g p).pinned = b) (hpos : (s.pos? feed seq).isSome = true)
    (hf : PinFn (s.holdsPin feed seq) b f) :
    s.Tracks feed ((s.mapPos feed seq g).mapEntry feed seq (RingEntry.repin f)) := by
  have hentry : ∀ g' n, ((s.mapPos feed seq g).mapEntry feed seq (RingEntry.repin f)).entry? g' n
      = if g' = feed ∧ n = seq then (s.entry? g' n).map (RingEntry.repin f) else s.entry? g' n :=
    fun g' n => (s.mapPos feed seq g).entry?_repin feed seq g' n f
  have hpin : ∀ n, ((s.mapPos feed seq g).mapEntry feed seq (RingEntry.repin f)).holdsPin feed n
      = (s.mapPos feed seq g).holdsPin feed n := fun n => rfl
  refine ⟨⟨fun g' n hne => ?_, fun n => ?_⟩, fun _ => id, fun _ => id, fun _ => id⟩
  · rw [hentry, if_neg fun h => hne h.1]
  · by_cases hn : n = seq
    · subst hn
      refine ⟨f, ?_, ?_⟩
      · rw [hpin, s.holdsPin_mapPos feed n n g b hg]
        simpa [hpos] using hf
      · rw [hentry, if_pos ⟨rfl, rfl⟩]
    · refine ⟨id, ?_, ?_⟩
      · rw [hpin, s.holdsPin_mapPos feed seq n g b hg, if_neg hn]
        exact .same _
      · rw [hentry, if_neg fun h => hn h.2]
        cases s.entry? feed n <;> rfl

/-- After its pin is released a position holds none. -/
theorem State.holdsPin_releasePin (s : State) (feed seq : Nat) :
    (s.releasePin feed seq).holdsPin feed seq = false := by
  unfold State.releasePin
  split
  · next p hp =>
    split
    · have h := s.holdsPin_mapPos feed seq seq (fun q => { q with pinned := false }) false
        fun _ => ⟨rfl, rfl⟩
      have hsame : ((s.mapPos feed seq (fun q => { q with pinned := false })).unpin feed seq).holdsPin feed seq
          = (s.mapPos feed seq (fun q => { q with pinned := false })).holdsPin feed seq := rfl
      rw [hsame, h]
      simp
    · next h =>
      simp only [State.holdsPin, hp]
      simpa using h
  · next hp => simp [State.holdsPin, hp]

theorem State.tracks_releasePin (s : State) (feed seq : Nat) : s.Tracks feed (s.releasePin feed seq) := by
  unfold State.releasePin
  split
  · next p hp =>
    split
    · next hpin =>
      refine State.Tracks.repin (g := fun q => { q with pinned := false }) (f := fun n => n - 1) (b := false)
        (fun _ => ⟨rfl, rfl⟩) (by simp [hp]) ?_
      have : s.holdsPin feed seq = true := by simp [State.holdsPin, hp, hpin]
      rw [this]
      exact fun _ => rfl
    · exact .refl feed s
  · exact .refl feed s

theorem State.tracks_syncRewrite (s : State) (feed : Nat) : s.Tracks feed (s.syncRewrite feed) := by
  unfold State.syncRewrite
  split
  · split
    · exact .refl feed s
    · exact .of_eq rfl rfl (fun _ => id) (fun _ => id) (fun _ => id)
  · exact .of_eq rfl rfl (fun _ => id) (fun _ => id) (fun _ => id)

theorem State.tracks_withdrawJobs (s : State) (feed : Nat) : s.Tracks feed (s.withdrawJobs feed) :=
  .of_eq rfl rfl (fun _ h => (List.mem_filter.mp h).1) (fun _ h => (List.mem_filter.mp h).1)
    (fun _ h => (List.mem_filter.mp h).1)

/-- The positions of a context past those of some sequence numbers. -/
theorem FeedContext.pos?_without (c : FeedContext) (seqs : List Nat) (n : Nat) :
    (c.without seqs).pos? n = if n ∈ seqs then none else c.pos? n := by
  simp only [FeedContext.pos?, FeedContext.without]
  split
  · next h =>
    rw [List.find?_eq_none]
    intro p hp
    have hnot := (List.mem_filter.mp hp).2
    intro heq
    have hseq : p.seq = n := by simpa using heq
    rw [hseq] at hnot
    simp [h] at hnot
  · next h =>
    exact find?_filter_of_imp (fun p hp => by
      have hseq : p.seq = n := by simpa using hp
      simp [hseq, h]) _

theorem State.tracks_dropPos (s : State) (feed seq : Nat) : s.Tracks feed (s.dropPos feed seq) := by
  have hrel := s.tracks_releasePin feed seq
  have hwork : (s.releasePin feed seq).Tracks feed
      ((((s.releasePin feed seq).withdrawAsk feed seq).withdrawJob feed seq).withdrawWaiting feed seq) :=
    .of_eq rfl rfl (fun _ h => (List.mem_filter.mp h).1) (fun _ h => (List.mem_filter.mp h).1)
      (fun _ h => (List.mem_filter.mp h).1)
  have hfree : ((((s.releasePin feed seq).withdrawAsk feed seq).withdrawJob feed seq).withdrawWaiting
      feed seq).holdsPin feed seq = false := s.holdsPin_releasePin feed seq
  refine ((hrel.trans hwork).trans ?_).trans (State.tracks_syncRewrite _ feed)
  refine .mapCtx _ feed _ (fun _ => rfl) fun c hc n => ?_
  rw [State.holdsPin_of_ctx hc] at hfree
  have hw : ({ c with positions := c.positions.filter (·.seq != seq) } : FeedContext) = c.without [seq] := by
    simp only [FeedContext.without]; congr 2; funext p; by_cases h : p.seq = seq <;> simp [h]
  rw [hw]
  by_cases hn : n = seq
  · subst hn
    rw [hfree]
    simp [FeedContext.pinAt, FeedContext.pos?_without]
  · simp [FeedContext.pinAt, FeedContext.pos?_without, hn]

theorem State.tracks_dropPositions (s : State) (feed : Nat) (seqs : List Nat) :
    s.Tracks feed (s.dropPositions feed seqs) :=
  .foldl (fun t q _ => t.tracks_dropPos feed q) s

theorem State.tracks_dropWindow (s : State) (feed : Nat) : s.Tracks feed (s.dropWindow feed) := by
  unfold State.dropWindow
  split
  · exact .refl feed s
  · exact ((s.tracks_dropPositions feed _).trans (State.tracks_withdrawJobs _ feed)).trans
      (.mapCtx_beside _ feed _ fun _ => by exact ⟨rfl, rfl⟩)

theorem State.tracks_trim (s : State) (feed : Nat) : s.Tracks feed (s.trim feed) := by
  unfold State.trim
  split
  · exact .refl feed s
  · exact s.tracks_dropPositions feed _

theorem State.tracks_latchOverrun (s : State) (feed : Nat) (h : ChunkHeader) :
    s.Tracks feed (s.latchOverrun feed h) :=
  .mapCtx_beside s feed _ fun c => by split <;> exact ⟨rfl, rfl⟩

theorem State.tracks_handOverChunk (s : State) (feed seq : Nat) (h : ChunkHeader) :
    s.Tracks feed (s.handOverChunk feed seq h) := by
  unfold State.handOverChunk
  split
  · exact .refl feed s
  · simp only
    split
    · exact .refl feed s
    · split
      all_goals
        refine State.Tracks.trans ?_ (State.tracks_latchOverrun _ feed h)
        exact .of_eq rfl rfl (fun _ => id) (fun _ => id) (fun _ => id)

theorem State.tracks_handOverChunkless (s : State) (feed seq : Nat) :
    s.Tracks feed (s.handOverChunkless feed seq) := by
  unfold State.handOverChunkless
  split
  · exact .refl feed s
  · split
    · exact .refl feed s
    · exact .of_eq rfl rfl (fun _ => id) (fun _ => id) (fun _ => id)

/-- A position without a pin takes its chunk, and its entry one pin more. -/
theorem State.tracks_takeChunk {s : State} {feed seq : Nat} (hfree : s.holdsPin feed seq = false)
    (h : ChunkHeader) : s.Tracks feed (s.takeChunk feed seq h) := by
  unfold State.takeChunk
  split
  · exact .refl feed s
  · next p hp =>
    have hpin : s.Tracks feed ((s.mapPos feed seq (fun p =>
        { p with land := .ready, hasRef := true, pinned := true, gapWait := none,
                 readySince := if p.wantsLand || p.lost != .idle then some s.now else none,
                 lost := .idle, req := none })).pin feed seq) := by
      refine State.Tracks.repin (f := fun n => n + 1) (b := true) (fun _ => ⟨rfl, rfl⟩) (by simp [hp]) ?_
      rw [hfree]
      exact fun _ => rfl
    have hwork : s.Tracks feed ((((s.mapPos feed seq (fun p =>
        { p with land := .ready, hasRef := true, pinned := true, gapWait := none,
                 readySince := if p.wantsLand || p.lost != .idle then some s.now else none,
                 lost := .idle, req := none })).pin feed seq).withdrawAsk feed seq).withdrawWaiting feed
          seq) :=
      hpin.trans (.of_eq rfl rfl (fun _ => id) (fun _ => id) (fun _ => id))
    simp only
    split
    · exact hwork.trans (State.tracks_handOverChunk _ feed seq h)
    · exact hwork

theorem State.tracks_lookup {s : State} {feed seq : Nat} (hfree : s.holdsPin feed seq = false) :
    s.Tracks feed (s.lookup feed seq) := by
  unfold State.lookup
  split
  · exact .mapPos s feed seq _ fun _ => ⟨rfl, rfl⟩
  · split
    · exact State.tracks_takeChunk hfree _
    · exact .mapPos s feed seq _ fun _ => ⟨rfl, rfl⟩

theorem FeedContext.startWait_seq_pinned (c : FeedContext) (due : Nat) (p : Position) :
    (c.startWait due p).seq = p.seq ∧ (c.startWait due p).pinned = p.pinned := by
  unfold FeedContext.startWait
  split <;> exact ⟨rfl, rfl⟩

theorem State.tracks_gapTest (s : State) (feed : Nat) : s.Tracks feed (s.gapTest feed) := by
  unfold State.gapTest
  split
  · exact .mapPositions s feed _ fun c p => c.startWait_seq_pinned _ p
  · exact .refl feed s

theorem State.tracks_gapTestAt (s : State) (feed seq : Nat) : s.Tracks feed (s.gapTestAt feed seq) := by
  unfold State.gapTestAt
  split
  · refine .mapPositions s feed (fun c p => if p.seq == seq then c.startWait _ p else p) fun c p => ?_
    split
    · exact c.startWait_seq_pinned _ p
    · exact ⟨rfl, rfl⟩
  · exact .refl feed s

/-- The position of a sequence number in a window with a fresh position. -/
theorem FeedContext.pos?_withNew {c : FeedContext} {n : Nat} (hnone : c.pos? n = none) (q : Nat) :
    (c.withNew n).pos? q = if q = n then some (c.newPosition n) else c.pos? q := by
  have hseq : (c.newPosition n).seq = n := rfl
  simp only [FeedContext.pos?, FeedContext.withNew] at hnone ⊢
  generalize c.newPosition n = new at hseq ⊢
  generalize c.positions = l at hnone ⊢
  induction l with
  | nil =>
    by_cases hq : q = n
    · simp [insertPos, hq, hseq]
    · simp [insertPos, hq, hseq, Ne.symm hq]
  | cons p l ih =>
    have hall := List.find?_eq_none.mp hnone
    have hp' : p.seq ≠ n := by simpa using hall p List.mem_cons_self
    have hl : l.find? (fun p => p.seq == n) = none :=
      List.find?_eq_none.mpr fun q hq => hall q (List.mem_cons_of_mem p hq)
    unfold insertPos
    split
    · by_cases hq : q = n
      · simp [hq, hseq]
      · simp [hq, hseq, Ne.symm hq]
    · by_cases hpq : p.seq = q
      · have hq : q ≠ n := fun h => hp' (hpq.trans h)
        simp [hpq, hq]
      · simp [hpq, ih hl]

theorem State.tracks_createPos (s : State) (feed seq : Nat) : s.Tracks feed (s.createPos feed seq) := by
  unfold State.createPos
  split
  · exact .refl feed s
  · next c hc =>
    split
    · next hcond =>
      simp only [Bool.and_eq_true, Option.isNone_iff_eq_none] at hcond
      have hnew : s.Tracks feed (s.mapCtx feed (fun c =>
          { c with positions := insertPos (c.newPosition seq) c.positions })) := by
        refine .mapCtx s feed _ (fun _ => rfl) fun c' hc' n => ?_
        obtain rfl := Option.some.inj (hc.symm.trans hc')
        have h := FeedContext.pos?_withNew hcond.2 n
        simp only [FeedContext.pinAt]
        rw [show ({ c with positions := insertPos (c.newPosition seq) c.positions } : FeedContext).pos? n = _
          from h]
        split
        · next hn =>
          subst hn
          rw [hcond.2]
          rfl
        · rfl
      have hfree : (s.mapCtx feed (fun c =>
          { c with positions := insertPos (c.newPosition seq) c.positions })).holdsPin feed seq = false := by
        have hctx := s.ctx?_mapCtx feed feed (·.withNew seq) fun _ => rfl
        rw [hc] at hctx
        simp only [beq_self_eq_true, if_true, Option.map_some] at hctx
        have h := State.holdsPin_of_ctx hctx seq
        simp only [FeedContext.pinAt, FeedContext.pos?_withNew hcond.2, if_true] at h
        exact h
      exact (hnew.trans (State.tracks_lookup hfree)).trans (State.tracks_gapTestAt _ feed seq)
    · exact .refl feed s

theorem State.tracks_fillSpan (s : State) (feed : Nat) : s.Tracks feed (s.fillSpan feed) := by
  unfold State.fillSpan
  split
  · exact .refl feed s
  · split
    · split
      · exact .refl feed s
      · exact .foldl (fun t q _ => t.tracks_createPos feed q) s
    · exact .refl feed s

theorem State.tracks_refreshWindow (s : State) (feed : Nat) : s.Tracks feed (s.refreshWindow feed) :=
  (s.tracks_trim feed).trans (State.tracks_fillSpan _ feed)

theorem State.tracks_completePos (s : State) (feed seq : Nat) : s.Tracks feed (s.completePos feed seq) := by
  unfold State.completePos
  split
  · exact .refl feed s
  · split
    · exact ((s.tracks_releasePin feed seq).trans (.mapPos _ feed seq _ fun _ => by exact ⟨rfl, rfl⟩)).trans
        (.of_eq rfl rfl (fun _ => id) (fun _ => id) (fun _ => id))
    · exact .refl feed s

/-! ### Marks, the commit and the life of a context -/

theorem State.tracks_markFallsDue (s : State) (feed : Nat) : s.Tracks feed (s.markFallsDue feed) := by
  unfold State.markFallsDue
  split
  · exact .refl feed s
  · split
    · exact .refl feed s
    · split
      · exact .mapCtx_beside s feed _ fun _ => ⟨rfl, rfl⟩
      · split
        · exact .refl feed s
        · exact .of_eq rfl rfl (fun _ => id) (fun _ => id) (fun _ => id)

theorem State.tracks_paceTest (s : State) (feed : Nat) : s.Tracks feed (s.paceTest feed) := by
  unfold State.paceTest
  split
  · exact .refl feed s
  · split
    · exact s.tracks_markFallsDue feed
    · exact .refl feed s

theorem State.tracks_recomputeCommit (s : State) (feed : Nat) : s.Tracks feed (s.recomputeCommit feed) := by
  unfold State.recomputeCommit
  split
  · exact .refl feed s
  · simp only
    split
    · exact State.Tracks.trans (.mapCtx_beside s feed _ fun _ => by exact ⟨rfl, rfl⟩)
        (State.tracks_paceTest _ feed)
    · exact .refl feed s

theorem State.tracks_enterFinal (s : State) (feed : Nat) : s.Tracks feed (s.enterFinal feed) :=
  ((State.Tracks.trans (.mapCtx_beside s feed _ fun _ => by exact ⟨rfl, rfl⟩)
    (State.tracks_dropWindow _ feed)).trans (State.tracks_recomputeCommit _ feed)).trans
    (State.tracks_markFallsDue _ feed)

theorem State.tracks_finalTest (s : State) (feed : Nat) : s.Tracks feed (s.finalTest feed) := by
  unfold State.finalTest
  split
  · exact .refl feed s
  · split
    · exact s.tracks_enterFinal feed
    · exact .refl feed s

theorem State.tracks_afterMarks (s : State) (feed : Nat) (commit : Bool) :
    s.Tracks feed (s.afterMarks feed commit) := by
  have hwin : s.Tracks feed ((s.mapCtx feed FeedContext.reachEnd).refreshWindow feed) :=
    State.Tracks.trans (.mapCtx_beside s feed _ fun c => ⟨c.reachEnd_feed, c.reachEnd_positions⟩)
      (State.tracks_refreshWindow _ feed)
  unfold State.afterMarks
  simp only
  split
  · exact (hwin.trans (State.tracks_recomputeCommit _ feed)).trans (State.tracks_finalTest _ feed)
  · exact hwin.trans (State.tracks_finalTest _ feed)

theorem State.tracks_afterDone (s : State) (feed : Nat) : s.Tracks feed (s.afterDone feed) :=
  State.Tracks.trans (.mapCtx_beside s feed _ fun c => by split <;> exact ⟨rfl, rfl⟩)
    (State.tracks_afterMarks _ feed _)

theorem State.tracks_takeEnd (s : State) (feed e : Nat) : s.Tracks feed (s.takeEnd feed e) := by
  unfold State.takeEnd
  split
  · exact .refl feed s
  · split
    · exact (State.Tracks.trans (.mapCtx_beside s feed _ fun c =>
        ⟨FeedContext.offerEnd_feed e c, c.offerEnd_positions e⟩) (State.tracks_afterMarks _ feed true)).trans
        (State.tracks_gapTest _ feed)
    · exact .refl feed s

theorem State.tracks_discardWork (s : State) (feed : Nat) : s.Tracks feed (s.discardWork feed) :=
  .of_eq rfl rfl (fun _ => id) (fun _ => id) (fun _ => id)

theorem State.tracks_enterAborted (s : State) (feed : Nat) : s.Tracks feed (s.enterAborted feed) :=
  (((s.tracks_dropWindow feed).trans (State.tracks_discardWork _ feed)).trans
    (.mapCtx_beside _ feed _ fun _ => by exact ⟨rfl, rfl⟩)).trans (State.tracks_markFallsDue _ feed)

theorem State.tracks_enterFaulted (s : State) (feed : Nat) : s.Tracks feed (s.enterFaulted feed) := by
  have hdrop := (s.tracks_dropWindow feed).trans (State.tracks_discardWork _ feed)
  have hfault := hdrop.trans (.mapCtx_beside _ feed (fun c =>
    { c with state := .faulted, markReq := none, markAgain := false }) fun _ => ⟨rfl, rfl⟩)
  have hmarks : ∀ t : State, t.Tracks feed { t with waitMarks := t.waitMarks.filter (· != feed) } :=
    fun _ => .of_eq rfl rfl (fun _ => id) (fun _ => id) (fun _ => id)
  exact hfault.trans (hmarks _)

/-- No position of a dropped window holds a pin. -/
theorem State.holdsPin_dropWindow {s : State} {feed : Nat} {c : FeedContext} (hc : s.ctx? feed = some c)
    (n : Nat) : (s.dropWindow feed).holdsPin feed n = false :=
  State.holdsPin_of_ctx (State.ctx?_dropWindow hc) n

theorem State.tracks_removeContext {s : State} {feed : Nat} {c : FeedContext} (hc : s.ctx? feed = some c) :
    s.Tracks feed (s.removeContext feed) := by
  have hrest : ∀ t : State, (∀ n, t.holdsPin feed n = false) → t.Tracks feed
      { (t.discardWork feed).removeCtx feed with
        adopted := t.adopted.filter (fun x => x.feed != feed)
        waitMarks := t.waitMarks.filter (· != feed) } := fun t ht => by
    refine .of_pins rfl (fun n => ?_) (fun _ => id) (fun _ => id) (fun _ => id)
    rw [ht n]
    refine State.holdsPin_of_none ?_ n
    have hnone := (t.discardWork feed).ctx?_removeCtx feed feed
    rw [if_pos rfl] at hnone
    exact hnone
  exact (s.tracks_dropWindow feed).trans (hrest _ fun n => State.holdsPin_dropWindow hc n)

end Sys2Proof.Machine
end

