-- ==== Sys2Proof/Proofs/Ends.lean ====
section
/-! How a context ends: ABORT, a DENIED or RANGE answer, and the linger. Each drops the window; what that
leaves of the browse engine is said once. -/

namespace Sys2Proof.Machine

/-! ### The window dropped -/

theorem State.releasePin_engine (s : State) (feed seq : Nat) :
    (s.releasePin feed seq).waitJobs = s.waitJobs ∧ (s.releasePin feed seq).queueJobs = s.queueJobs
      ∧ (s.releasePin feed seq).shedJobs = s.shedJobs
      ∧ (s.releasePin feed seq).browseReady = s.browseReady := by
  unfold State.releasePin
  split
  · split <;> exact ⟨rfl, rfl, rfl, rfl⟩
  · exact ⟨rfl, rfl, rfl, rfl⟩

theorem State.syncRewrite_engine (s : State) (feed : Nat) :
    (s.syncRewrite feed).waitJobs = s.waitJobs ∧ (s.syncRewrite feed).queueJobs = s.queueJobs
      ∧ (s.syncRewrite feed).shedJobs = s.shedJobs
      ∧ (s.syncRewrite feed).browseReady = s.browseReady := by
  unfold State.syncRewrite
  split
  · split <;> exact ⟨rfl, rfl, rfl, rfl⟩
  · exact ⟨rfl, rfl, rfl, rfl⟩

/-- What the browse engine has: its three lists, and its ready writes. -/
def State.engine (s : State) : (List Job × List Job × List Job) × List Nat :=
  ((s.waitJobs, s.queueJobs, s.shedJobs), s.browseReady)

/-- The jobs of a feed are withdrawn alike after one of them is. -/
theorem State.withdrawJobs_withdrawJob (s : State) (feed seq : Nat) :
    ((s.withdrawJob feed seq).withdrawJobs feed).engine = (s.withdrawJobs feed).engine := by
  have hfilter : ∀ l : List Job,
      (l.filter (fun j => !j.isFor feed seq)).filter (fun j => j.feed != feed)
        = l.filter (fun j => j.feed != feed) := fun l => by
    rw [List.filter_filter]
    refine List.filter_congr fun j _ => ?_
    by_cases h : j.feed = feed <;> simp [Job.isFor, h]
  have hready : ((s.withdrawJob feed seq).withdrawJobs feed).browseReady
      = (s.withdrawJobs feed).browseReady := by
    simp only [State.withdrawJobs, State.withdrawJob, List.filter_filter]
    refine List.filter_congr fun u _ => ?_
    rw [Bool.eq_iff_iff]
    simp only [Bool.and_eq_true, Bool.not_eq_true', List.contains_eq_mem, decide_eq_false_iff_not, List.mem_map,
      List.mem_filter, List.mem_append, not_exists, not_and, and_imp, Job.isFor, beq_iff_eq]
    constructor
    · rintro ⟨h1, h2⟩ j hj hf hu
      by_cases hs : j.seq = seq
      · exact h2 j hj hf hs hu
      · exact h1 j (hj.imp (Or.imp (⟨·, by simp [hs]⟩) (⟨·, by simp [hs]⟩)) (⟨·, by simp [hs]⟩)) hf hu
    · intro h
      exact ⟨fun j hj hf hu => h j (hj.imp (Or.imp And.left And.left) And.left) hf hu,
        fun j hj hf _ hu => h j hj hf hu⟩
  simp only [State.engine, hready]
  simp only [State.withdrawJobs, State.withdrawJob, hfilter]

theorem State.withdrawJobs_engine_congr {s t : State} (h : t.engine = s.engine) (feed : Nat) :
    (t.withdrawJobs feed).engine = (s.withdrawJobs feed).engine := by
  simp only [State.engine, Prod.mk.injEq] at h
  obtain ⟨⟨hw, hq, hs⟩, hr⟩ := h
  simp only [State.engine, State.withdrawJobs, hw, hq, hs, hr]

theorem State.dropPos_engine (s : State) (feed seq : Nat) :
    (s.dropPos feed seq).engine = (s.withdrawJob feed seq).engine := by
  have hsync : ∀ t : State, (t.syncRewrite feed).engine = t.engine := fun t => by
    obtain ⟨hw, hq, hs, hr⟩ := t.syncRewrite_engine feed
    simp only [State.engine, hw, hq, hs, hr]
  have hrel : ∀ t : State, t.engine = s.engine → (t.withdrawJob feed seq).engine = (s.withdrawJob feed seq).engine :=
    fun t h => by
      simp only [State.engine, Prod.mk.injEq] at h
      obtain ⟨⟨hw, hq, hs⟩, hr⟩ := h
      simp only [State.engine, State.withdrawJob, hw, hq, hs, hr]
  have hpin : ((s.releasePin feed seq).withdrawAsk feed seq).engine = s.engine := by
    obtain ⟨hw, hq, hs, hr⟩ := s.releasePin_engine feed seq
    simp only [State.engine, State.withdrawAsk, hw, hq, hs, hr]
  exact (hsync _).trans (hrel _ hpin)

/-- A dropped window leaves the engine without the jobs of the feed (R6, R7). -/
theorem State.dropWindow_engine {s : State} {feed : Nat} {c : FeedContext} (hc : s.ctx? feed = some c) :
    (s.dropWindow feed).engine = (s.withdrawJobs feed).engine := by
  have hdrop : ∀ (seqs : List Nat) (t : State),
      ((t.dropPositions feed seqs).withdrawJobs feed).engine = (t.withdrawJobs feed).engine := by
    intro seqs
    induction seqs with
    | nil => exact fun _ => rfl
    | cons q seqs ih =>
      intro t
      calc ((t.dropPositions feed (q :: seqs)).withdrawJobs feed).engine
          = ((t.dropPos feed q).withdrawJobs feed).engine := ih _
        _ = ((t.withdrawJob feed q).withdrawJobs feed).engine :=
            State.withdrawJobs_engine_congr (t.dropPos_engine feed q) feed
        _ = (t.withdrawJobs feed).engine := t.withdrawJobs_withdrawJob feed q
  simp only [State.dropWindow, hc]
  exact hdrop _ s

/-! ### MARKs falling due -/

/-- A MARK that falls due is noted in the context or waits, and nothing else of the context changes
(R128). -/
theorem State.ctx?_markFallsDue {s : State} {feed : Nat} {c : FeedContext} (hc : s.ctx? feed = some c) :
    ∃ b, (s.markFallsDue feed).ctx? feed = some { c with markAgain := b }
      ∧ (c.storageEnded = false → c.state ≠ .faulted →
          (c.markReq = none → feed ∈ (s.markFallsDue feed).waitMarks) ∧ (c.markReq ≠ none → b = true)) := by
  simp only [State.markFallsDue, hc]
  split
  · next h =>
    refine ⟨c.markAgain, hc, fun hse hst => ?_⟩
    simp [hse, hst] at h
  · split
    · next hreq =>
      have hsome : c.markReq ≠ none := by
        rw [← Option.isSome_iff_ne_none]
        exact hreq
      refine ⟨true, (s.ctx?_mapCtx feed feed _ fun _ => by rfl).trans (by simp [hc]), fun _ _ =>
        ⟨fun h => absurd h hsome, fun _ => rfl⟩⟩
    · next hreq =>
      have hnone : c.markReq = none := by simpa using hreq
      split
      · next hin => exact ⟨c.markAgain, hc, fun _ _ => ⟨fun _ => by simpa using hin, fun h => absurd hnone h⟩⟩
      · exact ⟨c.markAgain, hc, fun _ _ => ⟨fun _ => by simp, fun h => absurd hnone h⟩⟩

/-! ### ABORT -/

theorem State.startLinger_spec {s : State} {feed : Nat} {c : FeedContext} (hc : s.ctx? feed = some c) :
    (s.startLinger feed).ctx? feed
        = some (if c.linger.isNone then { c with linger := some (s.now + 10000) } else c)
      ∧ { s.startLinger feed with contexts := s.contexts } = s := by
  refine ⟨(State.ctx?_mapCtx s feed feed _ fun c => by split <;> rfl).trans ?_, rfl⟩
  simp [hc, Config.lingerTime]

/-- An aborted context keeps its fields but its window; its ABORTED mark is due (R7). -/
theorem State.enterAborted_spec {s : State} {feed : Nat} {c : FeedContext} (hc : s.ctx? feed = some c) :
    ∃ b, (s.enterAborted feed).ctx? feed = some { c with
        state := .aborted, positions := [], windowBuilt := false, delayReached := false, markAgain := b }
      ∧ (c.storageEnded = false → (c.markReq = none → feed ∈ (s.enterAborted feed).waitMarks)
          ∧ (c.markReq ≠ none → b = true)) := by
  have hmap : (((s.dropWindow feed).discardWork feed).mapCtx feed (fun c =>
      { c with state := .aborted })).ctx? feed
        = some { c with state := .aborted, positions := [], windowBuilt := false, delayReached := false } := by
    refine (State.ctx?_mapCtx _ feed feed _ fun _ => by rfl).trans ?_
    have hd : ((s.dropWindow feed).discardWork feed).ctx? feed = (s.dropWindow feed).ctx? feed := rfl
    rw [hd, State.ctx?_dropWindow hc]
    simp
  obtain ⟨b, hb, hdue⟩ := State.ctx?_markFallsDue hmap
  exact ⟨b, hb, fun hse => hdue hse (by simp)⟩

theorem State.markFallsDue_engine (s : State) (feed : Nat) : (s.markFallsDue feed).engine = s.engine := by
  unfold State.markFallsDue
  repeat' split
  all_goals rfl

/-- After a window was dropped no job of the feed is left in the engine. -/
theorem State.not_job_of_engine {s t : State} {feed : Nat} (h : t.engine = (s.withdrawJobs feed).engine)
    {j : Job} (hj : j ∈ t.waitJobs ++ t.queueJobs ++ t.shedJobs) : j.feed ≠ feed := by
  simp only [State.engine, Prod.mk.injEq] at h
  obtain ⟨⟨hw, hq, hs⟩, -⟩ := h
  rw [hw, hq, hs] at hj
  simp only [State.withdrawJobs, List.mem_append, List.mem_filter, bne_iff_ne] at hj
  rcases hj with (⟨-, h⟩ | ⟨-, h⟩) | ⟨-, h⟩ <;> exact h

/-- Settles O37: an ABORT acts by the state of the context. -/
theorem abortActs : Obligations.AbortActs := by
  intro s f feed hends hear
  have hexec : exec (.abortFeed f) s = .next (s.abortContext feed) := exec_directive hear (by simp [receiveCommands])
  refine ⟨fun hc => ?_, fun c hc => ⟨fun hstate => ?_, fun hstate hlinger => ?_, fun hstate hlinger => ?_,
    fun hstate => ?_⟩⟩
  · rw [hexec]
    simp [State.abortContext, hc]
  · rw [hexec]
    rcases hstate with h | h <;> simp [State.abortContext, hc, h]
  · obtain ⟨hctx, hrest⟩ := State.startLinger_spec hc
    refine ⟨s.startLinger feed, ?_, ?_, hrest⟩
    · rw [hexec]
      simp [State.abortContext, hc, hstate]
    · simpa [hlinger] using hctx
  · obtain ⟨hctx, hrest⟩ := State.startLinger_spec hc
    refine ⟨s.startLinger feed, ?_, ?_, hrest⟩
    · rw [hexec]
      simp [State.abortContext, hc, hstate]
    · have : c.linger.isNone = false := by simpa [Option.isSome_iff_ne_none] using hlinger
      simpa [this] using hctx
  · have hended : c.storageEnded = false := (hends c (State.ctx?_mem hc)).2.2 hstate
    obtain ⟨b, hd, hdue⟩ := State.enterAborted_spec hc
    have hframe := s.frame_enterAborted feed
    have hengine : (s.enterAborted feed).engine = (s.withdrawJobs feed).engine :=
      (State.markFallsDue_engine _ feed).trans (State.dropWindow_engine hc)
    refine ⟨s.enterAborted feed, _, ?_, hd, rfl, rfl, (s.tracks_enterAborted feed).pins.follow, rfl, rfl,
      rfl, rfl, rfl, rfl, (hdue hended).1, (hdue hended).2, hframe.observe (·.lastRefusal) (fun _ => rfl),
      hframe.observe (·.table) (fun _ => rfl), fun j hj p _ h => State.not_job_of_engine hengine hj h.1⟩
    rw [hexec]
    rcases hstate with h | h <;> simp [State.abortContext, hc, h]

/-! ### DENIED and RANGE (R8, R129) -/

/-- The state once an answer was taken: it has left the arrived ones, and its entry is FREE (R113). -/
def State.answerTaken (s : State) (m : List Byte) (a : StorageAnswer) : State :=
  ({ s with arrived := s.arrived.erase m } : State).setEntry a.tag .free

/-- An answer that some work owns has its effects, and the owner is handed the outcome (R113, R116). -/
theorem exec_answer_owned {s : State} {m : List Byte} {a : StorageAnswer} {r : Request} (hans : s.Answered m a)
    (hreq : s.table[a.tag] = .issued r) (hkind : r.purpose.kind = a.kind)
    (hcheck : a.kind = .check → a.outcome = .done → a.entries.length = r.slots.length)
    (howned : s.owned r = true) :
    exec (answerCommand a.kind) s = .next (((s.answerTaken m a).answerEffects a.outcome).handToOwner r a.entries
      a.outcome.handed) := by
  rw [exec_answerCommand, State.takeAnswerOf_of_answered hans]
  exact congrArg Host.Outcome.next (State.takeAnswer_owned (s := { s with arrived := s.arrived.erase m })
    hreq hkind hcheck howned)

/-- The owner of a request of an ACTIVE or CLOSING feed that is denied faults the context (R129). -/
theorem State.handToOwner_denied {s : State} {r : Request} {feed : Nat} {c : FeedContext}
    (hc : s.ctx? feed = some c) (hw : c.working = true) (hp : r.purpose ≠ .probe) (hf : r.feed = some feed)
    (hjob : ∀ j k, r.purpose = .browse j → s.job? j = some k → k.feed = feed) (ho : s.owned r = true)
    (entries : List (Trailer × CheckWord)) :
    s.handToOwner r entries .denied = s.enterFaulted feed := by
  unfold State.handToOwner
  cases hpur : r.purpose with
  | probe => exact absurd hpur hp
  | mark m => simp [hf, State.markOutcome, hc, State.markDenied, hw]
  | browse j =>
    simp only [State.browseOutcome]
    cases hj : s.job? j with
    | none =>
      simp only [State.owned, hpur, hj] at ho
      cases ho
    | some k => simp [hjob j k hpur hj]
  | _ => simp [hf, State.writeOutcome, State.fillOutcome, State.checkOutcome, State.trailerOutcome]

theorem State.enterFaulted_spec (s : State) (feed : Nat) : feed ∉ (s.enterFaulted feed).waitMarks := by
  simp [State.enterFaulted]

/-- Settles O48: DENIED and RANGE fault the context of the request. -/
theorem deniedFaultsContext : Obligations.DeniedFaultsContext := by
  intro s m a r feed c htable hans hout hreq hkind hprobe hfeed hjob howned hc hstate
  have hw : c.working = true := c.working_iff.mpr hstate
  have hhanded : a.outcome.handed = .denied := by rcases hout with h | h <;> rw [h] <;> rfl
  have hcheck : a.kind = .check → a.outcome = .done → a.entries.length = r.slots.length :=
    fun _ h => by rcases hout with h' | h' <;> rw [h'] at h <;> cases h
  have heff : (s.answerTaken m a).answerEffects a.outcome = (s.answerTaken m a).countStorageRefusal := by
    rcases hout with h | h <;> rw [h] <;> rfl
  have hstep : exec (answerCommand a.kind) s
      = .next ((s.answerTaken m a).countStorageRefusal.enterFaulted feed) := by
    rw [exec_answer_owned hans hreq hkind hcheck howned, hhanded, heff]
    exact congrArg Host.Outcome.next (State.handToOwner_denied (s := (s.answerTaken m a).countStorageRefusal)
      hc hw hprobe hfeed hjob howned _)
  have hfault := State.ctx?_enterFaulted (s := (s.answerTaken m a).countStorageRefusal) hc
  have hframe := (s.answerTaken m a).countStorageRefusal.frame_enterFaulted feed
  have htrack := (s.answerTaken m a).countStorageRefusal.tracks_enterFaulted feed
  exact ⟨_, _, hstep, hfault, rfl, rfl, htrack.pins.follow, rfl, rfl, rfl, rfl,
    State.enterFaulted_spec _ feed, hframe.observe (·.localHold) (fun _ => rfl),
    hframe.observe (·.table) (fun _ => rfl), hframe.observe (·.counters) (fun _ => rfl)⟩

/-! ### The linger (R6) -/

theorem State.tracks_writeClosed (s : State) (feed : Nat) (id : BitVec 64) :
    s.Tracks feed (s.writeClosed feed id) :=
  .of_eq rfl rfl (fun _ h => h) (fun _ h => h) (fun _ h => h)

/-- The closed-identity entry of a feed written, and no other (R18). -/
theorem State.closedId_writeClosed (s : State) {feed : Nat} (hf : feed < Config.feeds) (id : BitVec 64) (g : Nat) :
    (s.writeClosed feed id).closedId g = if g = feed then some id else s.closedId g := by
  have hlen : feed < 64 := hf
  simp only [State.closedId, State.writeClosed, Vector.getElem?_setIfInBounds, hlen, if_true, eq_comm (a := feed)]
  split <;> rfl

/-- What is left of the waiting work and the engine where a context has left the table (R6). -/
theorem State.removeContext_work (s : State) (feed : Nat) :
    (s.removeContext feed).engine = (s.dropWindow feed).engine
      ∧ (s.removeContext feed).ring = (s.dropWindow feed).ring
      ∧ (s.removeContext feed).adopted = (s.dropWindow feed).adopted.filter (fun t => t.feed != feed)
      ∧ feed ∉ (s.removeContext feed).waitMarks
      ∧ (∀ w ∈ (s.removeContext feed).waitChecks, w.feed ≠ feed)
      ∧ ∀ w ∈ (s.removeContext feed).waitRewrites, w.feed ≠ feed := by
  simp only [State.removeContext]
  generalize s.dropWindow feed = t
  refine ⟨rfl, rfl, rfl, ?_, fun w hw => ?_, fun w hw => ?_⟩
  · simp
  · simp only [State.removeCtx, State.discardWork, List.mem_filter, bne_iff_ne] at hw
    exact hw.2
  · simp only [State.removeCtx, State.discardWork, List.mem_filter] at hw
    cases w <;> simpa [WaitRewrite.feed] using hw.2

/-- A context that leaves the table leaves what window work does not touch (R6). -/
theorem State.removeContext_outside (s : State) (feed : Nat) :
    (s.removeContext feed).answers = s.answers ∧ (s.removeContext feed).mendQueue = s.mendQueue
      ∧ (s.removeContext feed).table = s.table ∧ (s.removeContext feed).closedIds = s.closedIds := by
  have hframe := s.frame_dropWindow feed
  have hanswers := hframe.observe (·.answers) fun _ => rfl
  have hmend := hframe.observe (·.mendQueue) fun _ => rfl
  have htable := hframe.observe (·.table) fun _ => rfl
  have hclosed := hframe.observe (·.closedIds) fun _ => rfl
  simp only [State.removeContext]
  generalize s.dropWindow feed = t at hanswers hmend htable hclosed
  exact ⟨hanswers, hmend, htable, hclosed⟩

/-- Settles O40: the end of the linger frees the context and its work. -/
theorem lingerFreesContext : Obligations.LingerFreesContext := by
  intro s feed c htable hc
  have hexec : exec (.lingerExpiry feed) s = .next (s.lingerExpires feed) := rfl
  refine ⟨fun hr => ?_, fun hr => ⟨(s.removeContext feed).writeClosed feed c.params.fileId, ?_, ?_⟩⟩
  · rw [hexec]
    simp [State.lingerExpires, hc, hr]
  · rw [hexec]
    simp [State.lingerExpires, hc, hr]
  · have hfeed : feed < Config.feeds := htable.2.2 feed ((s.mem_feeds_iff feed).mpr ⟨c, hc⟩)
    have hframe := s.frame_dropWindow feed
    obtain ⟨hengine, hring, hset, hmarks, hchecks, hrewrites⟩ := s.removeContext_work feed
    have hjobs := hengine.trans (State.dropWindow_engine hc)
    simp only [State.engine, Prod.mk.injEq] at hjobs
    obtain ⟨⟨hwait, hqueue, hshed⟩, hready⟩ := hjobs
    have hctx : ∀ g, ((s.removeContext feed).writeClosed feed c.params.fileId).ctx? g
        = if g = feed then none else s.ctx? g := s.ctx?_removeContext feed
    have htrack := (s.tracks_removeContext hc).trans
      (State.tracks_writeClosed (s.removeContext feed) feed c.params.fileId)
    obtain ⟨hanswers, hmend, htab, hclosed⟩ := s.removeContext_outside feed
    refine ⟨?_, fun g hg => ?_, ?_, fun g hg => ?_, ?_, hwait, hqueue, hshed, ?_, ?_,
      htrack.pins.follow, hanswers, hmend, htab, hmarks, hchecks, hrewrites⟩
    · rw [hctx, if_pos rfl]
    · rw [hctx, if_neg hg]
    · rw [State.closedId_writeClosed _ hfeed, if_pos rfl]
    · rw [State.closedId_writeClosed _ hfeed, if_neg hg]
      simp only [State.closedId, hclosed]
    · exact hset.trans (congrArg _ hframe.adopted)
    · refine hready.trans (List.filter_congr fun u _ => ?_)
      congr 1
      rw [Bool.eq_iff_iff]
      simp only [List.contains_eq_mem, List.mem_map, List.mem_filter, decide_eq_true_eq, List.any_eq_true,
        Bool.and_eq_true, beq_iff_eq, and_assoc]
    · exact (congrArg (List.map _) hring).trans hframe.2.2

end Sys2Proof.Machine
end

