-- ==== Sys2Proof/Proofs/Marks.lean ====
section
/-! What follows a change of the marks, of E or of the held ways: the window trimmed and filled, the
commit, and the FINAL test. `FeedContext.bare` is a context without what this changes. -/

namespace Sys2Proof.Machine

/-! ### A context without its window, its commit and its MARKs -/

/-- A context without its positions, its flags, its published commit and its pending MARK. -/
def FeedContext.bare (c : FeedContext) : FeedContext :=
  { c with
    positions := [], flags := .clear, published := none, markAgain := false, windowBuilt := false,
    delayReached := false }

theorem FeedContext.bare_of_outline {c d : FeedContext} (h : d.outline = c.outline) : d.bare = c.bare := by
  have : ∀ x : FeedContext, x.bare = { x.outline with positions := [] } := fun _ => rfl
  rw [this, this, h]

/-- What is read off the bare context is the same for contexts that differ in window, commit and MARKs. -/
theorem FeedContext.of_bare {c d : FeedContext} (h : d.bare = c.bare) {α : Type} (f : FeedContext → α)
    (hf : ∀ x : FeedContext, f x = f x.bare) : f d = f c := by
  rw [hf d, hf c, h]

theorem FeedContext.callsFor_of_bare {c d : FeedContext} (h : d.bare = c.bare) (n : Nat) :
    d.callsFor n = c.callsFor n :=
  FeedContext.of_bare h (·.callsFor n) fun _ => rfl

theorem FeedContext.heldMarks_of_bare {c d : FeedContext} (h : d.bare = c.bare) :
    d.heldMarks = c.heldMarks :=
  FeedContext.of_bare h (·.heldMarks) fun _ => rfl

/-- The computed commit reads the feed, the parameters, the landing holds and marks and E alone, and the
peers (R133). -/
theorem State.computedCommit_congr {s t : State} {c d : FeedContext} (hp : t.peers = s.peers)
    (hfeed : d.feed = c.feed) (hparams : d.params = c.params) (hkind : d.landKind = c.landKind)
    (hlv : d.lv = c.lv) (he : d.e = c.e) : t.computedCommit d = s.computedCommit c := by
  have hcap : d.cap = c.cap := by simp only [FeedContext.cap, he, hparams]
  have hways : d.waysInUse = c.waysInUse := by simp only [FeedContext.waysInUse, hparams]
  have hhigh : t.wayHigh d = s.wayHigh c := by
    funext w
    have hholds : d.holds .landing w = c.holds .landing w := by
      simp only [FeedContext.holds, FeedContext.kindOf, hkind]
    have hmark : d.markOf .landing w = c.markOf .landing w := by simp only [FeedContext.markOf, hlv]
    have hpeer : t.peerHolders d .landing w = s.peerHolders c .landing w := by
      simp only [State.peerHolders, State.viewRecords, PeerEntry.recordFor, hp, hfeed, hparams]
    simp only [State.wayHigh, State.holderOrds, hholds, hmark, hpeer]
  simp only [State.computedCommit, hcap, hways, hhigh]

/-! ### Work at one position -/

/-- `d` is `c` with work done on the position of one sequence number alone. -/
structure FeedContext.SameBut (n : Nat) (c d : FeedContext) : Prop where
  outline : d.outline = c.outline
  published : d.published = c.published
  markAgain : d.markAgain = c.markAgain
  windowBuilt : d.windowBuilt = c.windowBuilt
  others : ∀ q, q ≠ n → d.pos? q = c.pos? q

theorem FeedContext.SameBut.refl (n : Nat) (c : FeedContext) : FeedContext.SameBut n c c :=
  ⟨rfl, rfl, rfl, rfl, fun _ _ => rfl⟩

theorem FeedContext.SameBut.trans {n : Nat} {c d e : FeedContext} (h : FeedContext.SameBut n c d)
    (k : FeedContext.SameBut n d e) : FeedContext.SameBut n c e :=
  ⟨k.outline.trans h.outline, k.published.trans h.published, k.markAgain.trans h.markAgain,
    k.windowBuilt.trans h.windowBuilt, fun q hq => (k.others q hq).trans (h.others q hq)⟩

/-- From `s` to `t` work is done on one position of one feed alone, and on its browse job. -/
structure State.At (feed n : Nat) (s t : State) : Prop where
  ctx : ∀ c, s.ctx? feed = some c → ∃ d, t.ctx? feed = some d ∧ FeedContext.SameBut n c d
  jobs : ∀ j, j.isFor feed n = false → (j ∈ t.waitJobs ↔ j ∈ s.waitJobs)

theorem State.At.trans {feed n : Nat} {s t u : State} (h : s.At feed n t) (k : t.At feed n u) :
    s.At feed n u := by
  refine ⟨fun c hc => ?_, fun j hj => (k.jobs j hj).trans (h.jobs j hj)⟩
  obtain ⟨d, hd, h1⟩ := h.ctx c hc
  obtain ⟨e, he, h2⟩ := k.ctx d hd
  exact ⟨e, he, h1.trans h2⟩

/-- A change beside the contexts and the waiting browse jobs. -/
theorem State.At.of_eq {feed n : Nat} {s t : State} (hc : t.contexts = s.contexts)
    (hj : t.waitJobs = s.waitJobs) : s.At feed n t :=
  ⟨fun c h => ⟨c, by simpa only [State.ctx?, hc] using h, .refl n c⟩, fun _ _ => by rw [hj]⟩

theorem State.At.refl (feed n : Nat) (s : State) : s.At feed n s := .of_eq rfl rfl

theorem FeedContext.sameBut_mapPos (c : FeedContext) (n : Nat) (g : Position → Position)
    (hg : ∀ p, (g p).place = p.place) : FeedContext.SameBut n c (c.mapPos n g) := by
  have hseq : ∀ p, (g p).seq = p.seq := fun p => by
    have := congrArg Position.seq (hg p)
    exact this
  refine ⟨c.outline_mapPositions _ fun p => ?_, rfl, rfl, rfl, fun q hq => ?_⟩
  · split
    · exact hg p
    · rfl
  · rw [c.pos?_mapPos n q g hseq]
    cases c.pos? q <;> simp [hq]

theorem State.At.mapPos (s : State) (feed n : Nat) (g : Position → Position)
    (hg : ∀ p, (g p).place = p.place) : s.At feed n (s.mapPos feed n g) := by
  refine ⟨fun c hc => ⟨c.mapPos n g, ?_, c.sameBut_mapPos n g hg⟩, fun _ _ => Iff.rfl⟩
  exact (s.ctx?_mapCtx feed feed (fun c => c.mapPos n g) fun _ => rfl).trans (by simp [hc])

theorem State.at_latchOverrun (s : State) (feed n : Nat) (h : ChunkHeader) :
    s.At feed n (s.latchOverrun feed h) := by
  refine ⟨fun c hc => ⟨if c.overruns h then c.latchBrowseOverrun else c, ?_, ?_⟩, fun _ _ => Iff.rfl⟩
  · exact (s.ctx?_mapCtx feed feed _ fun c => by split <;> rfl).trans (by simp [hc])
  · split
    · exact ⟨rfl, rfl, rfl, rfl, fun _ _ => rfl⟩
    · exact .refl n c

theorem Job.syncAge_isFor (j : Job) (now : Nat) (held : Bool) (feed n : Nat) :
    (j.syncAge now held).isFor feed n = j.isFor feed n := by
  unfold Job.syncAge
  repeat' split
  all_goals rfl

theorem State.at_handOverChunk (s : State) (feed n : Nat) (h : ChunkHeader) :
    s.At feed n (s.handOverChunk feed n h) := by
  unfold State.handOverChunk
  split
  · exact .refl feed n s
  · next c hc =>
    have hfor : ∀ u, ((c.chunkJob u n h).syncAge s.now (s.browseHeld feed)).isFor feed n = true := fun u => by
      rw [Job.syncAge_isFor]
      simp [Job.isFor, FeedContext.chunkJob, State.ctx?_feed hc]
    simp only
    split
    · exact .refl feed n s
    · split
      · refine State.At.trans ?_ (State.at_latchOverrun _ feed n h)
        refine ⟨fun c hc => ⟨c, hc, .refl n c⟩, fun j hj => ?_⟩
        simp only [List.mem_map]
        constructor
        · rintro ⟨k, hk, rfl⟩
          split at hj
          · rw [hfor] at hj
            cases hj
          · next hk' => rwa [if_neg hk']
        · exact fun hk => ⟨j, hk, by simp [hj]⟩
      · refine State.At.trans ?_ (State.at_latchOverrun _ feed n h)
        refine ⟨fun c hc => ⟨c, hc, .refl n c⟩, fun j hj => ?_⟩
        simp only [State.bumpUid_waitJobs, List.mem_append, List.mem_singleton, or_iff_left_iff_imp]
        rintro rfl
        rw [hfor] at hj
        cases hj

theorem State.at_takeChunk (s : State) (feed n : Nat) (h : ChunkHeader) :
    s.At feed n (s.takeChunk feed n h) := by
  unfold State.takeChunk
  split
  · exact .refl feed n s
  · have hwork : ∀ t : State, s.At feed n t →
        s.At feed n (((t.pin feed n).withdrawAsk feed n).withdrawWaiting feed n) :=
      fun t ht => ht.trans (.of_eq rfl rfl)
    simp only
    split
    · exact (hwork _ (.mapPos s _ _ _ fun _ => by rfl)).trans (State.at_handOverChunk _ feed n h)
    · exact hwork _ (.mapPos s _ _ _ fun _ => by rfl)

theorem State.at_lookup (s : State) (feed n : Nat) : s.At feed n (s.lookup feed n) := by
  unfold State.lookup
  split
  · exact .mapPos s feed n _ fun _ => by rfl
  · split
    · exact s.at_takeChunk feed n _
    · exact .mapPos s feed n _ fun _ => by rfl

theorem State.at_gapTestAt (s : State) (feed n : Nat) : s.At feed n (s.gapTestAt feed n) := by
  unfold State.gapTestAt
  split
  · refine ⟨fun c hc => ⟨c.mapPos n (c.startWait (s.now + s.settings.gapWait)), ?_,
      c.sameBut_mapPos n _ fun p => c.startWait_place _ p⟩, fun _ _ => Iff.rfl⟩
    exact (s.ctx?_mapCtx feed feed _ fun _ => by rfl).trans (by simp [hc])
  · exact .refl feed n s

/-! ### Creation -/

/-- `d` is `c` with positions created where they are called for: every position that was there stands
unchanged. -/
structure FeedContext.Filled (c d : FeedContext) : Prop where
  bare : d.bare = c.bare
  published : d.published = c.published
  markAgain : d.markAgain = c.markAgain
  windowBuilt : d.windowBuilt = c.windowBuilt
  kept : ∀ n p, c.pos? n = some p → d.pos? n = some p
  created : ∀ n, c.pos? n = none → d.pos? n ≠ none → c.callsFor n = true

theorem FeedContext.Filled.refl (c : FeedContext) : c.Filled c :=
  ⟨rfl, rfl, rfl, rfl, fun _ _ h => h, fun _ h h' => absurd h h'⟩

theorem FeedContext.Filled.trans {c d e : FeedContext} (h : c.Filled d) (k : d.Filled e) : c.Filled e := by
  refine ⟨k.bare.trans h.bare, k.published.trans h.published, k.markAgain.trans h.markAgain,
    k.windowBuilt.trans h.windowBuilt, fun n p hp => k.kept n p (h.kept n p hp), fun n hn he => ?_⟩
  by_cases hd : d.pos? n = none
  · rw [← FeedContext.callsFor_of_bare h.bare]
    exact k.created n hd he
  · exact h.created n hn hd

theorem State.createPos_filled {s : State} {feed : Nat} {c : FeedContext} (hc : s.ctx? feed = some c) (n : Nat) :
    ∃ d, (s.createPos feed n).ctx? feed = some d ∧ c.Filled d := by
  by_cases h : c.callsFor n = true ∧ c.pos? n = none
  · obtain ⟨hcall, hnone⟩ := h
    have hnew : (s.mapCtx feed (·.withNew n)).ctx? feed = some (c.withNew n) :=
      (s.ctx?_mapCtx feed feed (·.withNew n) fun _ => rfl).trans (by simp [hc])
    have hcond : (c.callsFor n && (c.pos? n).isNone) = true := by simp [hcall, hnone]
    obtain ⟨d, hd, hsame⟩ := (((s.mapCtx feed (·.withNew n)).at_lookup feed n).trans
      (State.at_gapTestAt _ feed n)).ctx _ hnew
    refine ⟨d, ?_, ?_⟩
    · simp only [State.createPos, hc, hcond, if_true]
      exact hd
    · refine ⟨(FeedContext.bare_of_outline hsame.outline).trans rfl, hsame.published, hsame.markAgain,
        hsame.windowBuilt, fun q p hp => ?_, fun q hq hdq => ?_⟩
      · have hne : q ≠ n := by
          rintro rfl
          rw [hnone] at hp
          cases hp
        rw [hsame.others q hne, FeedContext.pos?_withNew hnone, if_neg hne, hp]
      · by_cases hne : q = n
        · exact hne ▸ hcall
        · rw [hsame.others q hne, FeedContext.pos?_withNew hnone, if_neg hne] at hdq
          exact absurd hq hdq
  · refine ⟨c, ?_, .refl c⟩
    rw [State.createPos_of_not]
    · exact hc
    · intro c' hc' hcall hnone
      obtain rfl := Option.some.inj (hc.symm.trans hc')
      exact h ⟨hcall, hnone⟩

theorem State.fillSpan_filled {s : State} {feed : Nat} {c : FeedContext} (hc : s.ctx? feed = some c) :
    ∃ d, (s.fillSpan feed).ctx? feed = some d ∧ c.Filled d := by
  have hself : ∃ d, s.ctx? feed = some d ∧ c.Filled d := ⟨c, hc, .refl c⟩
  simp only [State.fillSpan, hc]
  split
  · split
    · exact hself
    · refine foldl_keeps (I := fun t : State => ∃ d, t.ctx? feed = some d ∧ c.Filled d)
        (fun t q _ ⟨d, hd, hf⟩ => ?_) hself
      obtain ⟨e, he, hf'⟩ := State.createPos_filled hd q
      exact ⟨e, he, hf.trans hf'⟩
  · exact hself

/-! ### The window recomputed (R73) -/

theorem State.refreshWindow_filled {s : State} {feed : Nat} {c : FeedContext} (hc : s.ctx? feed = some c) :
    ∃ d, (s.refreshWindow feed).ctx? feed = some d ∧ (c.without c.overdue).Filled d :=
  State.fillSpan_filled (State.ctx?_trim hc)

theorem FeedContext.pos?_mem {c : FeedContext} {n : Nat} {p : Position} (h : c.pos? n = some p) :
    p ∈ c.positions :=
  List.mem_of_find?_eq_some h

theorem FeedContext.pos?_seq {c : FeedContext} {n : Nat} {p : Position} (h : c.pos? n = some p) :
    p.seq = n := by
  simpa using List.find?_some h

/-- Every sequence number with a position after the window was recomputed is called for. -/
theorem FeedContext.Filled.callsFor {c d : FeedContext} (h : (c.without c.overdue).Filled d) {n : Nat}
    (hn : d.pos? n ≠ none) : c.callsFor n = true := by
  cases hp : (c.without c.overdue).pos? n with
  | none => exact h.created n hp hn
  | some p =>
    have hk := (FeedContext.keeps_of_mem_trimmed (FeedContext.pos?_mem hp)).2
    rw [← FeedContext.pos?_seq hp]
    exact FeedContext.callsFor_of_keeps hk

/-! ### The commit -/

theorem State.ctx?_paceTest {s : State} {feed : Nat} {c : FeedContext} (hc : s.ctx? feed = some c) :
    ∃ b, (s.paceTest feed).ctx? feed = some { c with markAgain := b } := by
  simp only [State.paceTest, hc]
  split
  · obtain ⟨b, hb, -⟩ := State.ctx?_markFallsDue hc
    exact ⟨b, hb⟩
  · exact ⟨c.markAgain, hc⟩

/-- The commit recomputed: the published commit is the higher one, and a MARK may be due (R136). -/
theorem State.ctx?_recomputeCommit {s : State} {feed : Nat} {c : FeedContext} (hc : s.ctx? feed = some c) :
    ∃ m b, (s.recomputeCommit feed).ctx? feed = some { c with published := m, markAgain := b }
      ∧ (c.computes = true → Mark.ord m = max (Mark.ord c.published) (Mark.ord (s.computedCommit c)))
      ∧ (c.computes = false → m = c.published) := by
  simp only [State.recomputeCommit, hc]
  split
  · next h =>
    simp only [Bool.and_eq_true, decide_eq_true_eq] at h
    have hmap : (s.mapCtx feed (fun d => { d with published := s.computedCommit c })).ctx? feed
        = some { c with published := s.computedCommit c } :=
      (s.ctx?_mapCtx feed feed _ fun _ => by rfl).trans (by simp [hc])
    obtain ⟨b, hb⟩ := State.ctx?_paceTest hmap
    refine ⟨s.computedCommit c, b, hb, fun _ => ?_, fun hno => ?_⟩
    · omega
    · rw [h.1] at hno
      cases hno
  · next h =>
    refine ⟨c.published, c.markAgain, hc, fun hcomp => ?_, fun _ => rfl⟩
    have hle : ¬Mark.ord c.published < Mark.ord (s.computedCommit c) := fun hlt => h (by simp [hcomp, hlt])
    omega

/-! ### The FINAL test (R5) -/

theorem FeedContext.allAtEnd_iff {c : FeedContext} (he : c.e ≠ none) :
    c.allAtEnd = true ↔ ∀ m ∈ c.heldMarks, m = c.e := by
  obtain ⟨e, he⟩ := Option.ne_none_iff_exists'.mp he
  simp [FeedContext.allAtEnd, he]

/-- The test depends on the state, E, the storage requests and the MARK of the context before. -/
theorem State.EndTested.of_eq {t : State} {b c d : FeedContext} (h : t.EndTested b d)
    (hstate : c.state = b.state) (he : c.e = b.e) (hended : c.storageEnded = b.storageEnded)
    (hreq : c.markReq = b.markReq) (hfeed : c.feed = b.feed) : t.EndTested c d := by
  unfold State.EndTested
  rw [hstate, he, hended, hreq, hfeed]
  exact h

/-- A context that became FINAL (R5): no position is left, its commit was computed afresh, and nothing else
of it changed. -/
structure State.MadeFinal (s : State) (c d : FeedContext) : Prop where
  was : c.state = .closing ∧ c.allAtEnd = true
  bare : d.bare = ({ c with state := .final } : FeedContext).bare
  flags : d.flags = c.flags
  positions : d.positions = []
  published : Mark.ord d.published = max (Mark.ord c.published) (Mark.ord (s.computedCommit c))

theorem State.enterFinal_spec {s : State} {feed : Nat} {c : FeedContext} (hc : s.ctx? feed = some c)
    (hwas : c.state = .closing ∧ c.allAtEnd = true) :
    ∃ d, (s.enterFinal feed).ctx? feed = some d ∧ s.MadeFinal c d
      ∧ (c.storageEnded = false → (c.markReq = none → feed ∈ (s.enterFinal feed).waitMarks)
          ∧ (c.markReq ≠ none → d.markAgain = true)) := by
  have hfinal : (s.mapCtx feed (fun c => { c with state := .final })).ctx? feed
      = some { c with state := .final } :=
    (s.ctx?_mapCtx feed feed _ fun _ => by rfl).trans (by simp [hc])
  obtain ⟨m, b, hcommit, hm, -⟩ := State.ctx?_recomputeCommit (State.ctx?_dropWindow hfinal)
  obtain ⟨b', hd, hdue⟩ := State.ctx?_markFallsDue hcommit
  have hpeers : ((s.mapCtx feed (fun c => { c with state := .final })).dropWindow feed).peers = s.peers :=
    (State.frame_dropWindow _ feed).observe (·.peers) fun _ => rfl
  refine ⟨_, hd, ⟨hwas, rfl, rfl, rfl, ?_⟩, fun hse => hdue hse (by simp)⟩
  rw [hm rfl]
  congr 1
  exact congrArg Mark.ord (State.computedCommit_congr hpeers rfl rfl rfl rfl rfl)

/-- The FINAL test leaves the context as it is, or makes it FINAL. -/
theorem State.finalTest_spec {s : State} {feed : Nat} {c : FeedContext} (hc : s.ctx? feed = some c) :
    ∃ d, (s.finalTest feed).ctx? feed = some d ∧ (s.finalTest feed).EndTested c d
      ∧ ((d = c ∧ ¬(c.state = .closing ∧ c.allAtEnd = true)) ∨ s.MadeFinal c d) := by
  by_cases hwas : c.state = .closing ∧ c.allAtEnd = true
  · have hrun : s.finalTest feed = s.enterFinal feed := by simp [State.finalTest, hc, hwas]
    rw [hrun]
    obtain ⟨d, hd, hfin, hdue⟩ := State.enterFinal_spec hc hwas
    have hstate : d.state = .final := FeedContext.of_bare hfin.bare (·.state) fun _ => rfl
    have he : d.e = c.e := FeedContext.of_bare hfin.bare (·.e) fun _ => rfl
    have hheld : d.heldMarks = c.heldMarks := FeedContext.of_bare hfin.bare (·.heldMarks) fun _ => rfl
    refine ⟨d, hd, ⟨.inr ⟨hwas.1, hstate⟩, fun _ hne => ?_, fun _ _ => ⟨hfin.positions, fun hse => ?_⟩⟩, .inr hfin⟩
    · rw [he, hheld]
      exact iff_of_true hstate ((FeedContext.allAtEnd_iff hne).mp hwas.2)
    · rw [State.ctx?_feed hc]
      exact hdue hse
  · have hrun : s.finalTest feed = s := by
      simp only [State.finalTest, hc]
      rw [if_neg (by simpa using hwas)]
    rw [hrun]
    refine ⟨c, hc, ⟨.inl rfl, fun hcl hne => ?_, fun hcl hf => ?_⟩, .inl ⟨rfl, hwas⟩⟩
    · rw [hcl]
      refine iff_of_false (by simp) fun hall => hwas ⟨hcl, (FeedContext.allAtEnd_iff hne).mpr hall⟩
    · rw [hcl] at hf
      cases hf

/-! ### What follows a change of the marks (R73) -/

/-- After the window and the commit: `x` is `c` with its window recomputed. -/
structure FeedContext.Refreshed (c x : FeedContext) : Prop where
  bare : x.bare = c.bare
  kept : ∀ n p, (c.without c.overdue).pos? n = some p → x.pos? n = some p
  calls : ∀ n, x.pos? n ≠ none → c.callsFor n = true

/-- After the marks changed: the marks are brought to E, the window is recomputed, the commit where it is
asked for, and the FINAL test is taken. -/
theorem State.afterMarks_spec {s : State} {feed : Nat} {c : FeedContext} (hc : s.ctx? feed = some c)
    (commit : Bool) :
    ∃ u x d, (s.afterMarks feed commit).ctx? feed = some d ∧ c.reachEnd.Refreshed x
      ∧ State.peers u = s.peers ∧ (s.afterMarks feed commit).EndTested x d ∧ (d = x ∨ u.MadeFinal x d)
      ∧ (commit = true → c.computes = true → Mark.ord x.published
          = max (Mark.ord c.published) (Mark.ord (s.computedCommit c.reachEnd))) := by
  have hreach : (s.mapCtx feed FeedContext.reachEnd).ctx? feed = some c.reachEnd :=
    (s.ctx?_mapCtx feed feed _ FeedContext.reachEnd_feed).trans (by simp [hc])
  obtain ⟨y, hy, hfill⟩ := State.refreshWindow_filled hreach
  have hpeers : ((s.mapCtx feed FeedContext.reachEnd).refreshWindow feed).peers = s.peers :=
    (State.frame_refreshWindow _ feed).observe (·.peers) fun _ => rfl
  have hbare : y.bare = c.reachEnd.bare := hfill.bare
  have hstate : y.state = c.state := by
    have h1 : y.state = c.reachEnd.state := FeedContext.of_bare hbare (·.state) fun _ => rfl
    exact h1.trans (by unfold FeedContext.reachEnd; split <;> rfl)
  have hcommitted : y.published = c.published :=
    hfill.published.trans (by
      have h1 : (c.reachEnd.without c.reachEnd.overdue).published = c.reachEnd.published := rfl
      rw [h1]; unfold FeedContext.reachEnd; split <;> rfl)
  have hfresh : c.reachEnd.Refreshed y := ⟨hbare, hfill.kept, fun n hn => hfill.callsFor hn⟩
  unfold State.afterMarks
  simp only
  split
  · obtain ⟨m, b, hx, hm, -⟩ := State.ctx?_recomputeCommit hy
    obtain ⟨d, hd, htest, hfin⟩ := State.finalTest_spec hx
    refine ⟨_, { y with published := m, markAgain := b }, d, hd, ⟨hbare, hfill.kept, fun n hn => hfill.callsFor hn⟩,
      ((State.frame_recomputeCommit _ feed).observe (·.peers) fun _ => rfl).trans hpeers, htest,
      hfin.imp And.left id, fun _ hcomp => ?_⟩
    have hcy : y.computes = true := by
      simpa only [FeedContext.computes, FeedContext.working, hstate] using hcomp
    have hsame : State.computedCommit ((s.mapCtx feed FeedContext.reachEnd).refreshWindow feed) y
        = s.computedCommit c.reachEnd :=
      State.computedCommit_congr hpeers (FeedContext.of_bare hbare (·.feed) fun _ => rfl) (FeedContext.of_bare hbare (·.params) fun _ => rfl)
        (FeedContext.of_bare hbare (·.landKind) fun _ => rfl) (FeedContext.of_bare hbare (·.lv) fun _ => rfl) (FeedContext.of_bare hbare (·.e) fun _ => rfl)
    rw [← hcommitted, ← hsame]
    exact hm hcy
  · next hno =>
    obtain ⟨d, hd, htest, hfin⟩ := State.finalTest_spec hy
    refine ⟨_, y, d, hd, hfresh, hpeers, htest, hfin.imp And.left id, fun hcom => ?_⟩
    rw [hcom] at hno
    exact absurd rfl hno

end Sys2Proof.Machine
end

