-- ==== Sys2Proof/Proofs/Close.lean ====
section
/-! A candidate for E taken (R13), and CLOSE by the state of the context (R14). -/

namespace Sys2Proof.Machine

/-! ### The gap waits of a window (R83) -/

/-- A context with the gap waits started that are due. -/
def FeedContext.waitsStarted (c : FeedContext) (due : Nat) : FeedContext :=
  { c with positions := c.positions.map (c.startWait due) }

theorem State.ctx?_gapTest {s : State} {feed : Nat} {c : FeedContext} (hc : s.ctx? feed = some c) :
    (s.gapTest feed).ctx? feed
      = some (if s.windowsRun then c.waitsStarted (s.now + s.settings.gapWait) else c) := by
  unfold State.gapTest
  split
  · exact (s.ctx?_mapCtx feed feed _ fun _ => by rfl).trans (by simp [hc, FeedContext.waitsStarted])
  · exact hc

theorem State.gapTest_waitMarks (s : State) (feed : Nat) : (s.gapTest feed).waitMarks = s.waitMarks := by
  unfold State.gapTest
  split <;> rfl

/-- The start of gap waits leaves what the FINAL test made. -/
theorem State.EndTested.gapTest {t : State} {c d : FeedContext} (h : t.EndTested c d) (feed due : Nat) :
    (t.gapTest feed).EndTested c (d.waitsStarted due) := by
  obtain ⟨hstate, hfinal, hdone⟩ := h
  refine ⟨hstate, hfinal, fun hc hd => ?_⟩
  obtain ⟨hnil, hmarks⟩ := hdone hc hd
  refine ⟨by simp [FeedContext.waitsStarted, hnil], fun hse => ?_⟩
  rw [t.gapTest_waitMarks]
  exact hmarks hse

theorem State.EndTested.gapTest_same {t : State} {c d : FeedContext} (h : t.EndTested c d) (feed : Nat) :
    (t.gapTest feed).EndTested c d := by
  unfold State.EndTested
  rw [t.gapTest_waitMarks]
  exact h

/-- A position awaits its chunk where it is ABSENT or GATHERING and not complete. -/
theorem Position.awaits_iff (p : Position) : p.Awaits ↔ p.empty = true ∧ p.complete = false := by
  simp only [Position.Awaits, Position.empty, Position.complete, Position.landDone, Position.browseDone,
    Bool.or_eq_true, beq_iff_eq]
  refine and_congr_right fun h => ?_
  rcases h with h | h <;> cases p.wantsLand <;> cases p.wantsBrowse <;> simp [h]

/-- A position that waits for its chunk in a CLOSING window, not above E, has a gap wait once they were
started. -/
theorem FeedContext.gapWait_waitsStarted {c : FeedContext} {due : Nat} (hstate : c.state = .closing)
    (hend : ∀ p ∈ c.positions, p.seq + 1 ≤ Mark.ord c.e) {p : Position}
    (hp : p ∈ (c.waitsStarted due).positions) (hw : p.Awaits) : p.gapWait ≠ none := by
  obtain ⟨q, hq, rfl⟩ := List.mem_map.mp hp
  have hle := hend q hq
  have hbehind : c.isBehind q.seq = true := by
    cases he : c.e with
    | none =>
      rw [he] at hle
      exact absurd hle (Nat.not_succ_le_zero _)
    | some e =>
      rw [he] at hle
      have : q.seq ≤ e := Nat.le_of_succ_le_succ hle
      simp [FeedContext.isBehind, hstate, he, this]
  have hsame : q.Awaits := by
    unfold FeedContext.startWait at hw
    split at hw <;> exact hw
  obtain ⟨hq1, hq2⟩ := q.awaits_iff.mp hsame
  unfold FeedContext.startWait
  split
  · simp
  · next hno =>
    intro hnone
    exact hno (by simp [hnone, hq1, hq2, hbehind])

/-! ### A candidate for E -/

theorem FeedContext.offerEnd_of_takes {c : FeedContext} {x : Nat} (h : c.takesEnd x = true) :
    c.offerEnd x = { c with e := c.endAfter x, state := .closing } := by
  simp only [FeedContext.offerEnd, h, if_true]

theorem FeedContext.reachEnd_fields (c : FeedContext) :
    c.reachEnd.state = c.state ∧ c.reachEnd.e = c.e ∧ c.reachEnd.storageEnded = c.storageEnded
      ∧ c.reachEnd.markReq = c.markReq ∧ c.reachEnd.feed = c.feed ∧ c.reachEnd.published = c.published
      ∧ c.reachEnd.params = c.params ∧ c.reachEnd.positions = c.positions := by
  unfold FeedContext.reachEnd
  split <;> exact ⟨rfl, rfl, rfl, rfl, rfl, rfl, rfl, rfl⟩

/-- What the FINAL test reads of a context is not changed by the recomputation of its window. -/
theorem FeedContext.Refreshed.endTested {t : State} {c x d : FeedContext} (h : c.reachEnd.Refreshed x)
    (ht : t.EndTested x d) : t.EndTested c d := by
  obtain ⟨hstate, he, hended, hreq, hfeed, -⟩ := c.reachEnd_fields
  exact State.EndTested.of_eq ht
    (hstate.symm.trans (FeedContext.of_bare h.bare (·.state) fun _ => rfl).symm)
    (he.symm.trans (FeedContext.of_bare h.bare (·.e) fun _ => rfl).symm)
    (hended.symm.trans (FeedContext.of_bare h.bare (·.storageEnded) fun _ => rfl).symm)
    (hreq.symm.trans (FeedContext.of_bare h.bare (·.markReq) fun _ => rfl).symm)
    (hfeed.symm.trans (FeedContext.of_bare h.bare (·.feed) fun _ => rfl).symm)

theorem FeedContext.pos?_ne_none_of_mem {c : FeedContext} {p : Position} (hp : p ∈ c.positions) :
    c.pos? p.seq ≠ none := fun h => (c.pos?_none_iff p.seq).mp h p hp rfl

/-- Where E is known no position is above it after the window was recomputed and the FINAL test taken. -/
theorem FeedContext.Refreshed.below_end {u : State} {c x d : FeedContext} (h : c.Refreshed x) (he : c.e ≠ none)
    (hd : d = x ∨ u.MadeFinal x d) : ∀ p ∈ d.positions, p.seq + 1 ≤ Mark.ord c.e := by
  rcases hd with rfl | hfin
  · intro p hp
    have hcall := h.calls p.seq (FeedContext.pos?_ne_none_of_mem hp)
    obtain ⟨-, -, hle⟩ := ((c.callsFor_iff p.seq).mp hcall).1
    obtain ⟨e, he⟩ := Option.ne_none_iff_exists'.mp he
    rw [he]
    exact Nat.succ_le_succ (hle e he)
  · rw [hfin.positions]
    exact fun p hp => absurd hp List.not_mem_nil

/-- The published commit after the FINAL test is still the higher of the one before and the computed one. -/
theorem State.published_after {s u : State} {b c x d : FeedContext} (hpeers : u.peers = s.peers)
    (hbare : x.bare = c.bare) (hx : Mark.ord x.published = max (Mark.ord b.published) (Mark.ord (s.computedCommit c)))
    (hd : d = x ∨ u.MadeFinal x d) {t : State} (ht : t.peers = s.peers) :
    Mark.ord d.published = max (Mark.ord b.published) (Mark.ord (t.computedCommit d)) := by
  have hux : u.computedCommit x = s.computedCommit c :=
    State.computedCommit_congr hpeers (FeedContext.of_bare hbare (·.feed) fun _ => rfl)
      (FeedContext.of_bare hbare (·.params) fun _ => rfl) (FeedContext.of_bare hbare (·.landKind) fun _ => rfl)
      (FeedContext.of_bare hbare (·.lv) fun _ => rfl) (FeedContext.of_bare hbare (·.e) fun _ => rfl)
  have htd : t.computedCommit d = u.computedCommit x := by
    have htu : t.peers = u.peers := ht.trans hpeers.symm
    rcases hd with rfl | hfin
    · exact State.computedCommit_congr htu rfl rfl rfl rfl rfl
    · exact State.computedCommit_congr htu (FeedContext.of_bare hfin.bare (·.feed) fun _ => rfl)
        (FeedContext.of_bare hfin.bare (·.params) fun _ => rfl)
        (FeedContext.of_bare hfin.bare (·.landKind) fun _ => rfl)
        (FeedContext.of_bare hfin.bare (·.lv) fun _ => rfl) (FeedContext.of_bare hfin.bare (·.e) fun _ => rfl)
  rw [htd]
  rcases hd with rfl | hfin
  · rw [hux]
    exact hx
  · rw [hfin.published, hx, hux]
    omega

/-- A candidate that changes E: the marks follow, the window, the commit, the FINAL test and the gap waits. -/
theorem State.takeEnd_spec {s : State} {feed x : Nat} {c : FeedContext} (hc : s.ctx? feed = some c)
    (ht : c.takesEnd x = true) :
    ∃ d, (s.takeEnd feed x).ctx? feed = some d ∧ d.e = c.endAfter x
      ∧ (s.takeEnd feed x).EndTested { c with e := c.endAfter x, state := .closing } d
      ∧ Mark.ord d.published = max (Mark.ord c.published) (Mark.ord ((s.takeEnd feed x).computedCommit d))
      ∧ (∀ p ∈ d.positions, p.seq + 1 ≤ Mark.ord d.e)
      ∧ (s.windowsRun = true → d.state = .closing → ∀ p ∈ d.positions, p.Awaits → p.gapWait ≠ none) := by
  have hoffer : (s.mapCtx feed (FeedContext.offerEnd x)).ctx? feed
      = some { c with e := c.endAfter x, state := .closing } :=
    (s.ctx?_mapCtx feed feed _ (FeedContext.offerEnd_feed x)).trans (by
      simp [hc, FeedContext.offerEnd_of_takes ht])
  have hrun : s.takeEnd feed x
      = ((s.mapCtx feed (FeedContext.offerEnd x)).afterMarks feed true).gapTest feed := by
    simp only [State.takeEnd, hc, ht, if_true]
  obtain ⟨u, y, d, hd, hfresh, hpeers, htest, hfin, hpub⟩ := State.afterMarks_spec hoffer true
  have hne : c.endAfter x ≠ none := c.endAfter_ne_none x
  have hre : ({ c with e := c.endAfter x, state := .closing } : FeedContext).reachEnd.e = c.endAfter x :=
    (FeedContext.reachEnd_fields _).2.1
  have hye : y.e = c.endAfter x := (FeedContext.of_bare hfresh.bare (·.e) fun _ => rfl).trans hre
  have hde : d.e = c.endAfter x := by
    rcases hfin with rfl | hfin
    · exact hye
    · exact (FeedContext.of_bare hfin.bare (·.e) fun _ => rfl).trans hye
  have hbelow : ∀ p ∈ d.positions, p.seq + 1 ≤ Mark.ord d.e := by
    rw [hde]
    have hend := hfresh.below_end (by rw [hre]; exact hne) hfin
    rwa [hre] at hend
  have hframe := State.frame_afterMarks (s.mapCtx feed (FeedContext.offerEnd x)) feed true
  have hpeer : ((s.mapCtx feed (FeedContext.offerEnd x)).afterMarks feed true).peers = s.peers :=
    hframe.observe (·.peers) fun _ => rfl
  have hruns : ((s.mapCtx feed (FeedContext.offerEnd x)).afterMarks feed true).windowsRun = s.windowsRun :=
    hframe.observe (·.windowsRun) fun _ => rfl
  have hcommit : ∀ t : State, t.peers = s.peers →
      Mark.ord d.published = max (Mark.ord c.published) (Mark.ord (t.computedCommit d)) := fun t hp =>
    State.published_after (b := c) hpeers hfresh.bare (hpub rfl rfl) hfin hp
  have hgap := State.ctx?_gapTest hd
  have htest' := hfresh.endTested htest
  rw [hrun, hruns] at *
  have hgpeer : (((s.mapCtx feed (FeedContext.offerEnd x)).afterMarks feed true).gapTest feed).peers = s.peers :=
    ((State.frame_gapTest _ feed).observe (·.peers) fun _ => rfl).trans hpeer
  cases hw : s.windowsRun with
  | false =>
    rw [hw] at hgap
    exact ⟨d, hgap, hde, htest'.gapTest_same feed, hcommit _ hgpeer, hbelow, fun h => nomatch h⟩
  | true =>
    rw [hw, if_pos rfl] at hgap
    refine ⟨_, hgap, hde, htest'.gapTest feed _, ?_, fun p hp => ?_, fun _ hcl p hp haw => ?_⟩
    · exact (hcommit _ hgpeer).trans (congrArg (fun m => max _ (Mark.ord m))
        (State.computedCommit_congr rfl rfl rfl rfl rfl rfl).symm)
    · obtain ⟨q, hq, rfl⟩ := List.mem_map.mp hp
      rw [(d.startWait_seq_pinned _ q).1]
      exact hbelow q hq
    · exact FeedContext.gapWait_waitsStarted (c := d) hcl hbelow hp haw

/-- Settles O36: a CLOSE acts by the state of the context. -/
theorem closeActs : Obligations.CloseActs := by
  intro s f feed e hends hear
  have hexec : exec (.closeFeed f) s = .next (s.closeContext feed e) := exec_directive hear (by simp [receiveCommands])
  refine ⟨fun hc => ?_, fun c hc => ⟨fun hstate => ?_, fun hstate hlinger => ?_, fun hstate hlinger => ?_,
    fun hstate he => ?_, fun hstate x he => ?_⟩⟩
  · rw [hexec]
    simp [State.closeContext, hc]
  · rw [hexec]
    rcases hstate with h | h <;> simp [State.closeContext, hc, h]
  · obtain ⟨hctx, hrest⟩ := State.startLinger_spec hc
    refine ⟨s.startLinger feed, ?_, ?_, hrest⟩
    · rw [hexec]
      simp [State.closeContext, hc, hstate]
    · have : c.linger.isNone = false := by simpa [Option.isSome_iff_ne_none] using hlinger
      simpa [this] using hctx
  · obtain ⟨hctx, hrest⟩ := State.startLinger_spec hc
    refine ⟨s.startLinger feed, ?_, ?_, hrest⟩
    · rw [hexec]
      simp [State.closeContext, hc, hstate]
    · simpa [hlinger] using hctx
  · rw [hexec, he]
    rcases hstate with h | h <;> simp [State.closeContext, hc, h]
  · have hrun : exec (.closeFeed f) s = .next (s.takeEnd feed x) := by
      rw [hexec, he]
      rcases hstate with h | h <;> simp [State.closeContext, hc, h]
    have hwork : c.working = true := c.working_iff.mpr hstate
    have hrefusal : (s.takeEnd feed x).lastRefusal = s.lastRefusal :=
      (s.frame_takeEnd feed x).observe (·.lastRefusal) fun _ => rfl
    by_cases htakes : c.e = c.endAfter x
    · have hsame : s.takeEnd feed x = s := by
        simp [State.takeEnd, hc, FeedContext.takesEnd, ← htakes]
      refine ⟨s.takeEnd feed x, c, hrun, by rw [hsame]; exact hc, htakes, ?_, hrefusal, fun _ => hsame,
        (s.tracks_takeEnd feed x).pins.follow, fun hne => absurd htakes hne⟩
      rcases hstate with h | h
      · exact absurd (htakes.symm.trans ((hends c (State.ctx?_mem hc)).1 h)) (c.endAfter_ne_none x)
      · exact .inl h
    · have ht : c.takesEnd x = true := by simp [FeedContext.takesEnd, hwork, htakes]
      obtain ⟨d, hd, hde, htest, hpub, hbelow, hgap⟩ := State.takeEnd_spec hc ht
      refine ⟨s.takeEnd feed x, d, hrun, hd, hde, ?_, hrefusal, fun h => absurd h htakes,
        (s.tracks_takeEnd feed x).pins.follow, fun _ => ⟨htest, hpub, fun hlive => ?_, hbelow⟩⟩
      · exact htest.1.imp id And.right
      · exact hgap (by simp [State.windowsRun, hlive])

end Sys2Proof.Machine
end

