-- ==== Sys2Proof/Proofs/Rejoin.lean ====
section
/-! DETACHED and REJOIN (R181, R182). While the station is LISTENING a release of an adopted way changes
of a context its holds, its marks, its window and its commit alone, and may make it FINAL. -/

namespace Sys2Proof.Machine

/-! ### Changes of positions alone -/

/-- From `s` to `t` every context changes in its positions alone. -/
def State.PosOnly (s t : State) : Prop :=
  ∀ g c, s.ctx? g = some c → ∃ ps, t.ctx? g = some { c with positions := ps }

theorem State.PosOnly.of_eq {s t : State} (h : t.contexts = s.contexts) : s.PosOnly t :=
  fun g c hc => ⟨c.positions, by simpa only [State.ctx?, h] using hc⟩

theorem State.PosOnly.refl (s : State) : s.PosOnly s := .of_eq rfl

theorem State.PosOnly.trans {s t u : State} (h : s.PosOnly t) (k : t.PosOnly u) : s.PosOnly u :=
  fun g c hc => by
    obtain ⟨ps, hd⟩ := h g c hc
    obtain ⟨qs, he⟩ := k g _ hd
    exact ⟨qs, he⟩

theorem State.PosOnly.mapPos (s : State) (feed seq : Nat) (f : Position → Position) :
    s.PosOnly (s.mapPos feed seq f) := fun g c hc => by
  have hctx := s.ctx?_mapCtx feed g (fun c => c.mapPos seq f) fun _ => rfl
  rw [hc] at hctx
  by_cases hg : g = feed
  · exact ⟨(c.mapPos seq f).positions, hctx.trans (by simp [hg, FeedContext.mapPos])⟩
  · exact ⟨c.positions, hctx.trans (by simp [hg])⟩

theorem State.posOnly_dropPos (s : State) (feed seq : Nat) : s.PosOnly (s.dropPos feed seq) := fun g c hc => by
  rw [s.ctx?_dropPos, hc]
  by_cases hg : g = feed
  · exact ⟨(c.without [seq]).positions, by
      simp only [hg, beq_self_eq_true, if_true, Option.map_some, FeedContext.without]⟩
  · exact ⟨c.positions, by simp [hg]⟩

theorem State.posOnly_handOverChunkless (s : State) (feed seq : Nat) :
    s.PosOnly (s.handOverChunkless feed seq) := by
  unfold State.handOverChunkless
  repeat' split
  all_goals exact .of_eq rfl

theorem State.posOnly_releasePin (s : State) (feed seq : Nat) : s.PosOnly (s.releasePin feed seq) := by
  rcases s.releasePin_contexts feed seq with h | h
  · exact .of_eq h
  · exact (State.PosOnly.mapPos s feed seq _).trans (.of_eq h)

theorem State.posOnly_completePos (s : State) (feed seq : Nat) : s.PosOnly (s.completePos feed seq) := by
  unfold State.completePos
  split
  · exact .refl s
  · split
    · exact ((s.posOnly_releasePin feed seq).trans (.mapPos _ feed seq _)).trans (.of_eq rfl)
    · exact .refl s

theorem State.posOnly_loseLanding (s : State) (feed seq : Nat) (p : Position) :
    s.PosOnly (s.loseLanding feed seq p) := by
  have hwait : s.PosOnly (s.withdrawWaiting feed seq) := .of_eq rfl
  unfold State.loseLanding
  simp only
  split
  · exact ((hwait.trans (.mapPos _ feed seq _)).trans (.of_eq (State.syncRewrite_contexts _ feed))).trans
      (State.posOnly_handOverChunkless _ feed seq)
  · exact (hwait.trans (.mapPos _ feed seq _)).trans (.of_eq (State.syncRewrite_contexts _ feed))

theorem State.posOnly_loseBrowse (s : State) (feed seq : Nat) : s.PosOnly (s.loseBrowse feed seq) :=
  (State.PosOnly.of_eq (t := s.withdrawJob feed seq) rfl).trans (.mapPos _ feed seq _)

theorem State.posOnly_loseJob (s : State) (feed : Nat) (k : WorkKind) (seq : Nat) :
    s.PosOnly (s.loseJob feed k seq) := by
  unfold State.loseJob
  repeat' split
  all_goals first
    | exact .refl s
    | exact s.posOnly_dropPos feed seq
    | exact (s.posOnly_loseLanding feed seq _).trans (State.posOnly_completePos _ feed seq)
    | exact (s.posOnly_loseBrowse feed seq).trans (State.posOnly_completePos _ feed seq)

/-! ### What a release leaves of a context while no window runs -/

/-- A context without its state, its holds and marks, its window and its commit. -/
def FeedContext.rest (c : FeedContext) : FeedContext :=
  { c with
    state := .active, landKind := .same .unheld, browseKind := .same .unheld, lv := .same none,
    bv := .same none, retainedLand := .same none, retainedBrowse := .same none, published := none,
    markAgain := false, windowBuilt := false, positions := [], delayReached := false }

/-- `d` is `c` with other holds, marks, window and commit; a CLOSING one may be FINAL. -/
def FeedContext.Rests (c d : FeedContext) : Prop :=
  d.rest = c.rest ∧ (d.state = c.state ∨ (c.state = .closing ∧ d.state = .final))

theorem FeedContext.Rests.refl (c : FeedContext) : c.Rests c := ⟨rfl, .inl rfl⟩

theorem FeedContext.Rests.trans {c d e : FeedContext} (h : c.Rests d) (k : d.Rests e) : c.Rests e := by
  refine ⟨k.1.trans h.1, ?_⟩
  rcases h.2 with h1 | ⟨h1, h2⟩ <;> rcases k.2 with k1 | ⟨k1, k2⟩
  · exact .inl (k1.trans h1)
  · exact .inr ⟨h1.symm.trans k1, k2⟩
  · exact .inr ⟨h1, k1.trans h2⟩
  · rw [h2] at k1
    cases k1

theorem FeedContext.rest_of_bare {c d : FeedContext} (h : d.bare = c.bare) (hf : d.flags = c.flags) :
    d.rest = c.rest := by
  have hrest : ∀ x : FeedContext, x.rest = ({ x.bare with flags := x.flags } : FeedContext).rest := fun _ => rfl
  calc d.rest = ({ d.bare with flags := d.flags } : FeedContext).rest := hrest d
    _ = ({ c.bare with flags := c.flags } : FeedContext).rest := by rw [h, hf]
    _ = c.rest := (hrest c).symm

theorem FeedContext.kindOf_of_bare {c d : FeedContext} (h : d.bare = c.bare) (k : WorkKind) (w : Way) :
    d.kindOf k w = c.kindOf k w :=
  FeedContext.of_bare h (·.kindOf k w) fun x => by cases k <;> rfl

theorem State.fillSpan_of_quiet {s : State} (hq : s.windowsRun = false) (feed : Nat) : s.fillSpan feed = s := by
  unfold State.fillSpan
  split
  · rfl
  · simp [hq]

/-- What follows a change of the marks while no window runs. -/
theorem State.afterMarks_rests {s : State} (hq : s.windowsRun = false) (feed : Nat) (commit : Bool) {g : Nat}
    {c : FeedContext} (hc : s.ctx? g = some c) :
    ∃ d, (s.afterMarks feed commit).ctx? g = some d ∧ c.Rests d ∧ ∀ k w, d.kindOf k w = c.kindOf k w := by
  by_cases hg : g = feed
  · subst hg
    have hreach : (s.mapCtx g FeedContext.reachEnd).ctx? g = some c.reachEnd :=
      (s.ctx?_mapCtx g g _ FeedContext.reachEnd_feed).trans (by simp [hc])
    have hquiet : ((s.mapCtx g FeedContext.reachEnd).trim g).windowsRun = false :=
      ((State.frame_trim _ g).observe (·.windowsRun) fun _ => rfl).trans hq
    have hwin : ((s.mapCtx g FeedContext.reachEnd).refreshWindow g).ctx? g
        = some (c.reachEnd.without c.reachEnd.overdue) := by
      rw [State.refreshWindow, State.fillSpan_of_quiet hquiet]
      exact State.ctx?_trim hreach
    have hrests : c.Rests (c.reachEnd.without c.reachEnd.overdue) := by
      unfold FeedContext.reachEnd
      split <;> exact ⟨rfl, .inl rfl⟩
    have hkinds : ∀ k w, (c.reachEnd.without c.reachEnd.overdue).kindOf k w = c.kindOf k w :=
      fun k w => FeedContext.kindOf_reachEnd c k w
    have hfinal : ∀ (u : State) (x : FeedContext), u.ctx? g = some x → c.Rests x →
        (∀ k w, x.kindOf k w = c.kindOf k w) →
        ∃ d, (u.finalTest g).ctx? g = some d ∧ c.Rests d ∧ ∀ k w, d.kindOf k w = c.kindOf k w := by
      intro u x hx hr hk
      obtain ⟨d, hd, -, ⟨rfl, -⟩ | hfin⟩ := State.finalTest_spec hx
      · exact ⟨d, hd, hr, hk⟩
      · have hstate : d.state = .final := FeedContext.of_bare hfin.bare (·.state) fun _ => rfl
        have hrest : d.rest = x.rest :=
          (FeedContext.rest_of_bare (c := { x with state := .final }) hfin.bare hfin.flags).trans rfl
        exact ⟨d, hd, hr.trans ⟨hrest, .inr ⟨hfin.was.1, hstate⟩⟩,
          fun k w => (FeedContext.kindOf_of_bare hfin.bare k w).trans (hk k w)⟩
    unfold State.afterMarks
    simp only
    split
    · obtain ⟨m, b, hx, -⟩ := State.ctx?_recomputeCommit hwin
      exact hfinal _ _ hx (hrests.trans ⟨rfl, .inl rfl⟩) hkinds
    · exact hfinal _ _ hwin hrests hkinds
  · exact ⟨c, ((s.touch_afterMarks feed commit).1 g hg).trans hc, .refl c, fun _ _ => rfl⟩

/-! ### The release of every adopted way (R44, R182) -/

/-- The station without what the release of adopted ways may change. -/
def State.outer (s : State) : State := { s.outside with adopted := [] }

/-- Nothing beside window work and the adopted set changed, and the ring holds the same chunks. -/
def State.SameOuter (s t : State) : Prop := t.outer = s.outer ∧ t.chunks = s.chunks

theorem State.SameOutside.outer {s t : State} (h : s.SameOutside t) : s.SameOuter t := by
  refine ⟨?_, h.2.2⟩
  simp only [State.outer, h.1]

theorem State.SameOuter.refl (s : State) : s.SameOuter s := ⟨rfl, rfl⟩

theorem State.SameOuter.trans {s t u : State} (h : s.SameOuter t) (k : t.SameOuter u) : s.SameOuter u :=
  ⟨k.1.trans h.1, k.2.trans h.2⟩

theorem State.SameOuter.foldl {α : Type} {f : State → α → State} {l : List α}
    (h : ∀ (s : State) (a : α), s.SameOuter (f s a)) (s : State) : s.SameOuter (l.foldl f s) :=
  foldl_keeps (I := fun t => s.SameOuter t) (fun t a _ ht => ht.trans (h t a)) (.refl s)

theorem State.SameOuter.observe {α : Type} {s t : State} (h : s.SameOuter t) (g : State → α)
    (hg : ∀ u : State, g u = g u.outer) : g t = g s := by
  rw [hg t, hg s, h.1]

/-- A release of a triple: its own feed's context gives up the way, and what follows. -/
theorem State.releaseTriple_frame (s : State) (x : Triple) :
    s.SameOuter (s.releaseTriple x) ∧ (s.releaseTriple x).feeds = s.feeds
      ∧ (s.releaseTriple x).adopted = s.adopted.filter (· != x) := by
  cases hc : s.ctx? x.feed with
  | none =>
    rw [State.releaseTriple_of_none hc]
    exact ⟨⟨rfl, rfl⟩, rfl, rfl⟩
  | some c =>
    rw [State.releaseTriple_eq hc]
    have hgo : s.SameOuter (s.letGo x) ∧ (s.letGo x).feeds = s.feeds :=
      ⟨⟨rfl, rfl⟩, (State.frame_mapCtx { s with adopted := s.adopted.filter (· != x) } x.feed _
        fun c => (c.released_keeps x.kind x.way).1).2.1⟩
    have hafter := (State.SameOutside.foldl _ (fun u q => u.frame_loseJob x.feed x.kind q)
      ((c.positions.filter (fun p => p.way == x.way)).map (·.seq)) (s.letGo x)).trans
      (State.frame_afterMarks _ x.feed true)
    exact ⟨hgo.1.trans hafter.outer, hafter.2.1.trans hgo.2, hafter.adopted⟩

/-- A release while no window runs: each context rests, and one way of its feed may be held no more. -/
theorem State.releaseTriple_rests {s : State} (hq : s.windowsRun = false) (x : Triple) {g : Nat} {c : FeedContext}
    (hc : s.ctx? g = some c) :
    ∃ d, (s.releaseTriple x).ctx? g = some d ∧ c.Rests d
      ∧ ∀ k w, d.kindOf k w = if Triple.mk g w k = x then .unheld else c.kindOf k w := by
  by_cases hg : g = x.feed
  · subst hg
    rw [State.releaseTriple_eq hc]
    have hgo : (s.letGo x).ctx? x.feed = some (c.released x.kind x.way) := by
      rw [s.ctx?_letGo, hc]
      simp
    have hlose : (s.letGo x).PosOnly
        (((c.positions.filter (fun p => p.way == x.way)).map (·.seq)).foldl
          (fun s q => s.loseJob x.feed x.kind q) (s.letGo x)) :=
      foldl_keeps (I := fun t => (s.letGo x).PosOnly t)
        (fun t q _ ht => ht.trans (t.posOnly_loseJob x.feed x.kind q)) (.refl _)
    have hquiet : (((c.positions.filter (fun p => p.way == x.way)).map (·.seq)).foldl
          (fun s q => s.loseJob x.feed x.kind q) (s.letGo x)).windowsRun = false :=
      ((State.SameOutside.foldl _ (fun u q => u.frame_loseJob x.feed x.kind q) _ _).observe (·.windowsRun)
        fun _ => rfl).trans hq
    obtain ⟨ps, hps⟩ := hlose _ _ hgo
    obtain ⟨d, hd, hrests, hkinds⟩ := State.afterMarks_rests hquiet x.feed true hps
    have hrel : c.Rests { c.released x.kind x.way with positions := ps } := by
      cases x.kind <;> exact ⟨rfl, .inl rfl⟩
    refine ⟨d, hd, hrel.trans hrests, fun k w => (hkinds k w).trans ?_⟩
    have hsame : ({ c.released x.kind x.way with positions := ps } : FeedContext).kindOf k w
        = (c.released x.kind x.way).kindOf k w := by cases k <;> rfl
    rw [hsame, c.kindOf_released]
    congr 1
    cases x
    simp [and_comm]
  · refine ⟨c, ((s.touch_releaseTriple x).1 g hg).trans hc, .refl c, fun k w => ?_⟩
    rw [if_neg]
    rintro rfl
    exact hg rfl

/-- Triples released one after the other while no window runs. -/
theorem State.release_foldl {s : State} (l : List Triple) :
    let t := l.foldl (fun u x => State.releaseTriple u x) s
    s.SameOuter t ∧ t.feeds = s.feeds ∧ t.adopted = s.adopted.filter (fun x => !l.contains x)
      ∧ (s.windowsRun = false → ∀ g c, s.ctx? g = some c → ∃ d, t.ctx? g = some d ∧ c.Rests d
        ∧ ∀ k w, d.kindOf k w = if Triple.mk g w k ∈ l then .unheld else c.kindOf k w) := by
  induction l generalizing s with
  | nil =>
    refine ⟨.refl s, rfl, ?_, fun _ g c hc => ⟨c, hc, .refl c, fun k w => ?_⟩⟩
    · simp
    · simp
  | cons x l ih =>
    obtain ⟨hout, hfeeds, hadopted⟩ := s.releaseTriple_frame x
    obtain ⟨hout', hfeeds', hadopted', hctx'⟩ := ih (s := s.releaseTriple x)
    refine ⟨hout.trans hout', hfeeds'.trans hfeeds, ?_, fun hq g c hc => ?_⟩
    · refine hadopted'.trans ?_
      rw [hadopted, List.filter_filter]
      refine List.filter_congr fun y _ => ?_
      by_cases h : y = x <;> simp [h]
    · have hquiet : (s.releaseTriple x).windowsRun = false := (hout.observe (·.windowsRun) fun _ => rfl).trans hq
      obtain ⟨d, hd, hr, hk⟩ := State.releaseTriple_rests hq x hc
      obtain ⟨e, he, hr', hk'⟩ := hctx' hquiet g d hd
      refine ⟨e, he, hr.trans hr', fun k w => ?_⟩
      rw [hk' k w, hk k w]
      by_cases h1 : Triple.mk g w k = x <;> by_cases h2 : Triple.mk g w k ∈ l <;> simp [h1, h2]

theorem State.removeContext_outer (s : State) (feed : Nat) : s.SameOuter (s.removeContext feed) := by
  have hframe := (s.frame_dropWindow feed).outer
  refine hframe.trans ?_
  simp only [State.removeContext]
  generalize s.dropWindow feed = t
  exact ⟨rfl, rfl⟩

theorem State.removeAll_outer (s : State) : s.SameOuter s.removeAll :=
  (State.SameOuter.foldl (l := s.feeds) (fun t f => t.removeContext_outer f) s).trans ⟨rfl, rfl⟩

/-! ### The capture link -/

/-- A REJOIN begins: the station listens, without peers (R182). -/
def State.rejoining (s : State) : State := { s with linkUp := true, station := .listening, peers := [] }

/-- What REJOIN leaves of the contexts and the adopted ways. -/
def State.rejoinKept (s : State) : State :=
  if s.settings.keepContexts then s.rejoining.releaseAll.stopGapWaits else s.rejoining.removeAll

theorem State.linkReturns_of_detached {s : State} (h : s.station = .detached) :
    s.linkReturns = s.rejoinKept.enterListening := by
  have hd : (s.station == .detached) = true := by simp [h]
  simp only [State.linkReturns, hd, if_true, State.rejoin]
  rfl

theorem State.rejoinKept_outer (s : State) : s.rejoining.SameOuter s.rejoinKept := by
  unfold State.rejoinKept
  split
  · exact (State.release_foldl _).1.trans ⟨rfl, rfl⟩
  · exact s.rejoining.removeAll_outer

theorem State.rejoinKept_adopted (s : State) : s.rejoinKept.adopted = [] := by
  unfold State.rejoinKept
  split
  · have h := (State.release_foldl (s := s.rejoining) s.rejoining.adopted).2.2.1
    have hnil : s.rejoining.adopted.filter (fun x => !s.rejoining.adopted.contains x) = [] := by
      simp [List.filter_eq_nil_iff]
    exact h.trans hnil
  · rfl

/-- A context whose positions ask for nothing (R110). -/
def FeedContext.askingStopped (c : FeedContext) : FeedContext :=
  { c with positions := c.positions.map (fun p => { p with gapWait := none, attempts := 0, restarts := 0 }) }

theorem State.stopGapWaits_contexts (s : State) :
    s.stopGapWaits.contexts = s.contexts.map FeedContext.askingStopped := rfl

theorem State.ctx?_stopGapWaits {s : State} {g : Nat} {c : FeedContext} (hc : s.ctx? g = some c) :
    s.stopGapWaits.ctx? g = some c.askingStopped := by
  have h := find?_map_key (p := fun c : FeedContext => c.feed == g) (g := FeedContext.askingStopped)
    (fun _ => rfl) s.contexts
  rw [show s.contexts.find? (fun c => c.feed == g) = some c from hc] at h
  exact h

/-- With Keep Contexts set the contexts are those after the releases, asking for nothing. -/
theorem State.rejoinKept_of_keep {s : State} (h : s.settings.keepContexts = true) :
    s.rejoinKept = s.rejoining.releaseAll.stopGapWaits := by
  simp only [State.rejoinKept, h, if_true]

/-- Settles O8: a lost link empties the transmit queue; its return releases the adopted ways or frees the
contexts. -/
theorem captureLinkFollowed : Obligations.CaptureLinkFollowed := by
  intro s
  have hlost : exec .captureLinkLost s = .next s.linkLost := rfl
  have hback : exec .captureLinkReturn s = .next s.linkReturns := rfl
  refine ⟨fun hr => ?_, fun hr => ?_, fun hst => ?_, fun hst => ?_⟩
  · rw [hlost, State.linkLost, if_pos hr]
    rfl
  · rw [hlost, State.linkLost]
    simp [hr]
  · rw [hback]
    simp [State.linkReturns, hst]
  · have houter := s.rejoinKept_outer
    have hsettings : s.rejoinKept.settings = s.settings := houter.observe (·.settings) fun _ => rfl
    have hnow : s.rejoinKept.now = s.now := houter.observe (·.now) fun _ => rfl
    refine ⟨s.rejoinKept.enterListening, hback.trans (by rw [State.linkReturns_of_detached hst]), rfl,
      houter.observe (·.linkUp) fun _ => rfl, ?_, ?_, ?_, houter.observe (·.peers) fun _ => rfl,
      s.rejoinKept_adopted, fun hkeep => ?_, fun hkeep => ?_, fun hkeep hnone => ?_,
      fun hkeep htable feed c hc => ?_, houter.2, houter.observe (·.table) fun _ => rfl,
      houter.observe (·.quietUntil) fun _ => rfl, houter.observe (·.localHold) fun _ => rfl,
      houter.observe (·.timeoutRun) fun _ => rfl, houter.observe (·.counters) fun _ => rfl,
      houter.observe (·.lastRefusal) fun _ => rfl, houter.observe (·.closedIds) fun _ => rfl,
      houter.observe (·.dupNumber) fun _ => rfl, hsettings⟩
    · exact congrArg (fun n => some (n + 3000)) hnow
    · rfl
    · have htimer : s.rejoinKept.enterListening.beaconTimer
          = some (s.rejoinKept.now + s.rejoinKept.settings.beaconPeriod) := rfl
      rw [htimer, hnow, hsettings]
    · have hnil := s.rejoining.removeAll_contexts
      simp only [State.rejoinKept, hkeep, Bool.false_eq_true, if_false]
      exact hnil
    · rw [State.rejoinKept_of_keep hkeep]
      refine ⟨?_, fun c hc p hp => ?_⟩
      · have hstop : s.rejoining.releaseAll.stopGapWaits.feeds = s.rejoining.releaseAll.feeds := by
          simp only [State.feeds, State.stopGapWaits_contexts, List.map_map]
          rfl
        exact hstop.trans (State.release_foldl (s := s.rejoining) s.rejoining.adopted).2.1
      · obtain ⟨c', -, rfl⟩ := List.mem_map.mp (show c ∈ s.rejoining.releaseAll.contexts.map
          FeedContext.askingStopped from hc)
        obtain ⟨q, -, rfl⟩ := List.mem_map.mp hp
        exact ⟨rfl, rfl, rfl⟩
    · have hrel : s.rejoining.releaseAll = s.rejoining := by
        have hno : s.rejoining.adopted = [] := hnone
        simp only [State.releaseAll, hno, List.foldl_nil]
      rw [State.rejoinKept_of_keep hkeep, hrel]
      rfl
    · rw [State.rejoinKept_of_keep hkeep]
      obtain ⟨d, hd, ⟨hrest, hstate⟩, hkinds⟩ :=
        (State.release_foldl (s := s.rejoining) s.rejoining.adopted).2.2.2 rfl feed c hc
      have hfield : ∀ {α : Type} (f : FeedContext → α), (∀ x : FeedContext, f x = f x.rest) → f d = f c :=
        fun f hf => by rw [hf d, hf c, hrest]
      exact ⟨d.askingStopped, State.ctx?_stopGapWaits hd, hstate, hfield (·.origin) fun _ => rfl,
        hfield (·.params) fun _ => rfl, hfield (·.effRate) fun _ => rfl, hfield (·.effFactor) fun _ => rfl,
        hfield (·.e) fun _ => rfl, hfield (·.h) fun _ => rfl, hfield (·.landHold) fun _ => rfl,
        hfield (·.browseHold) fun _ => rfl, hfield (·.flags) fun _ => rfl, hfield (·.counts) fun _ => rfl,
        hfield (·.linger) fun _ => rfl, hfield (·.carried) fun _ => rfl, hfield (·.pacing) fun _ => rfl,
        hfield (·.markWrites) fun _ => rfl, hfield (·.markReq) fun _ => rfl, fun k w => by
          have hsame : d.askingStopped.kindOf k w = d.kindOf k w := by cases k <;> rfl
          exact hsame.trans (hkinds k w)⟩

end Sys2Proof.Machine
end

