-- ==== Sys2Proof/Proofs/Learn.lean ====
section
/-! A beacon that a LIVE station takes (R17, R19, R47): what the record of a feed does, and what the
release tests, the orphan search and the commits after it leave of E and of the state of a context. -/

namespace Sys2Proof.Machine

/-! ### What E and the state of a context become by a change of the holds -/

/-- From `s` to `t` every context keeps its E, and its state but for a CLOSING one that is FINAL. -/
def State.EndsKept (s t : State) : Prop :=
  ∀ g c, s.ctx? g = some c → ∃ d, t.ctx? g = some d ∧ d.e = c.e
    ∧ (d.state = c.state ∨ (c.state = .closing ∧ d.state = .final))

theorem State.EndsKept.trans {s t u : State} (h : s.EndsKept t) (k : t.EndsKept u) : s.EndsKept u :=
  fun g c hc => by
    obtain ⟨d, hd, he, hst⟩ := h g c hc
    obtain ⟨x, hx, he', hst'⟩ := k g d hd
    refine ⟨x, hx, he'.trans he, ?_⟩
    rcases hst with h1 | ⟨h1, h2⟩ <;> rcases hst' with k1 | ⟨k1, k2⟩
    · exact .inl (k1.trans h1)
    · exact .inr ⟨h1.symm.trans k1, k2⟩
    · exact .inr ⟨h1, k1.trans h2⟩
    · rw [h2] at k1
      cases k1

theorem State.EndsKept.of_eq {s t : State} (h : t.contexts = s.contexts) : s.EndsKept t :=
  fun g c hc => ⟨c, by simpa only [State.ctx?, h] using hc, rfl, .inl rfl⟩

theorem State.EndsKept.refl (s : State) : s.EndsKept s := .of_eq rfl

theorem State.EndsKept.foldl {α : Type} {f : State → α → State} {l : List α}
    (h : ∀ (s : State) (a : α), s.EndsKept (f s a)) (s : State) : s.EndsKept (l.foldl f s) :=
  foldl_keeps (I := fun t => s.EndsKept t) (fun t a _ ht => ht.trans (h t a)) (.refl s)

theorem State.PosWork.endsKept {s t : State} (h : s.PosWork t) : s.EndsKept t := fun g c hc => by
  obtain ⟨d, hd, ho, -⟩ := h.ctx? hc
  have hb := FeedContext.bare_of_outline ho
  exact ⟨d, hd, FeedContext.of_bare hb (·.e) fun _ => rfl, .inl (FeedContext.of_bare hb (·.state) fun _ => rfl)⟩

theorem State.PosOnly.endsKept {s t : State} (h : s.PosOnly t) : s.EndsKept t := fun g c hc => by
  obtain ⟨ps, hd⟩ := h g c hc
  exact ⟨_, hd, rfl, .inl rfl⟩

theorem State.EndsKept.mapCtx (s : State) (feed : Nat) (f : FeedContext → FeedContext)
    (hf : ∀ c, (f c).feed = c.feed ∧ (f c).e = c.e ∧ (f c).state = c.state) : s.EndsKept (s.mapCtx feed f) :=
  fun g c hc => by
    have hctx := s.ctx?_mapCtx feed g f fun c => (hf c).1
    rw [hc] at hctx
    refine ⟨_, hctx, ?_⟩
    split
    · exact ⟨(hf c).2.1, .inl (hf c).2.2⟩
    · exact ⟨rfl, .inl rfl⟩

/-- Work on one feed's context that leaves E and tests for FINAL. -/
theorem State.EndsKept.touched {s t : State} {feed : Nat} (h : s.Touches feed t)
    (hown : ∀ c, s.ctx? feed = some c → ∃ d, t.ctx? feed = some d ∧ d.e = c.e
      ∧ (d.state = c.state ∨ (c.state = .closing ∧ d.state = .final))) : s.EndsKept t := fun g c hc => by
  by_cases hg : g = feed
  · subst hg
    exact hown c hc
  · exact ⟨c, (h.1 g hg).trans hc, rfl, .inl rfl⟩

theorem State.endsKept_finalTest (s : State) (feed : Nat) : s.EndsKept (s.finalTest feed) :=
  .touched (s.touch_finalTest feed) fun c hc => by
    obtain ⟨d, hd, htest, ⟨rfl, -⟩ | hfin⟩ := State.finalTest_spec hc
    · exact ⟨d, hd, rfl, .inl rfl⟩
    · exact ⟨d, hd, FeedContext.of_bare hfin.bare (·.e) fun _ => rfl, htest.1⟩

theorem State.endsKept_refreshWindow (s : State) (feed : Nat) : s.EndsKept (s.refreshWindow feed) :=
  .touched (s.touch_refreshWindow feed) fun c hc => by
    obtain ⟨d, hd, hfill⟩ := State.refreshWindow_filled hc
    have hb : d.bare = c.bare := hfill.bare
    exact ⟨d, hd, FeedContext.of_bare hb (·.e) fun _ => rfl,
      .inl (FeedContext.of_bare hb (·.state) fun _ => rfl)⟩

theorem State.endsKept_reachEnd (s : State) (feed : Nat) : s.EndsKept (s.mapCtx feed FeedContext.reachEnd) :=
  .mapCtx s feed _ fun c => ⟨c.reachEnd_feed, c.reachEnd_fields.2.1, c.reachEnd_fields.1⟩

theorem State.endsKept_afterMarks (s : State) (feed : Nat) (commit : Bool) :
    s.EndsKept (s.afterMarks feed commit) := by
  have hwin := (s.endsKept_reachEnd feed).trans (State.endsKept_refreshWindow _ feed)
  unfold State.afterMarks
  simp only
  split
  · exact (hwin.trans (State.work_recomputeCommit _ feed).endsKept).trans (State.endsKept_finalTest _ feed)
  · exact hwin.trans (State.endsKept_finalTest _ feed)

theorem State.endsKept_releaseTriple (s : State) (x : Triple) : s.EndsKept (s.releaseTriple x) := by
  cases hc : s.ctx? x.feed with
  | none =>
    rw [State.releaseTriple_of_none hc]
    exact .of_eq rfl
  | some c =>
    rw [State.releaseTriple_eq hc]
    have hgo : s.EndsKept (s.letGo x) :=
      (State.EndsKept.of_eq (t := { s with adopted := s.adopted.filter (· != x) }) rfl).trans
        (.mapCtx _ x.feed _ fun c => by cases x.kind <;> exact ⟨rfl, rfl, rfl⟩)
    exact (hgo.trans (.foldl (fun t q => (t.posOnly_loseJob x.feed x.kind q).endsKept) _)).trans
      (State.endsKept_afterMarks _ x.feed true)

theorem State.endsKept_adopt (s : State) (feed : Nat) (k : WorkKind) (w : Way) :
    s.EndsKept (s.adopt feed k w) := by
  cases hc : s.ctx? feed with
  | none =>
    simp only [State.adopt, hc]
    exact .refl s
  | some c =>
    rw [State.adopt_eq hc]
    have hup : s.EndsKept (s.takeUp feed k w (s.startMark c k w)) :=
      (State.EndsKept.of_eq (t := { s with adopted := s.adopted ++ [Triple.mk feed w k] }) rfl).trans
        (.mapCtx _ feed _ fun c => by cases k <;> exact ⟨rfl, rfl, rfl⟩)
    have htrim : ∀ t : State, t.EndsKept (t.trim feed) := fun t =>
      .touched (t.touch_trim feed) fun c hc => ⟨_, State.ctx?_trim hc, rfl, .inl rfl⟩
    exact ((hup.trans (htrim _)).trans (State.work_gainJobs _ feed k w).endsKept).trans
      (State.endsKept_afterMarks _ feed _)

/-- An adoption changes window work and the adopted set alone. -/
theorem State.adopt_outer (s : State) (feed : Nat) (k : WorkKind) (w : Way) :
    s.SameOuter (s.adopt feed k w) := by
  cases hc : s.ctx? feed with
  | none =>
    simp only [State.adopt, hc]
    exact .refl s
  | some c =>
    rw [State.adopt_eq hc]
    have hup : s.SameOuter (s.takeUp feed k w (s.startMark c k w)) := ⟨rfl, rfl⟩
    exact hup.trans (((State.frame_trim _ feed).trans (State.frame_gainJobs _ feed k w)).trans
      (State.frame_afterMarks _ feed _)).outer

theorem State.endsKept_searchTriple (s : State) (feed : Nat) (k : WorkKind) (w : Way) :
    s.EndsKept (s.searchTriple feed k w) ∧ s.SameOuter (s.searchTriple feed k w) := by
  unfold State.searchTriple
  split
  · exact ⟨.refl s, .refl s⟩
  · split
    · exact ⟨s.endsKept_adopt feed k w, s.adopt_outer feed k w⟩
    · exact ⟨.refl s, .refl s⟩

theorem State.endsKept_releaseTests (s : State) : s.EndsKept s.releaseTests ∧ s.SameOuter s.releaseTests := by
  unfold State.releaseTests
  refine ⟨.foldl (fun t x => ?_) s, .foldl (fun t x => ?_) s⟩
  · split
    · exact t.endsKept_releaseTriple x
    · exact .refl t
  · split
    · exact (t.releaseTriple_frame x).1
    · exact .refl t

/-- The orphan search of one feed over a list of its ways. -/
def State.searchWays (l : List (Way × WorkKind)) (s : State) (feed : Nat) : State :=
  l.foldl (fun t wk => t.searchTriple feed wk.2 wk.1) s

theorem State.endsKept_searchWays (l : List (Way × WorkKind)) (s : State) (feed : Nat) :
    s.EndsKept (s.searchWays l feed) ∧ s.SameOuter (s.searchWays l feed) := by
  unfold State.searchWays
  exact ⟨State.EndsKept.foldl (f := fun (t : State) (wk : Way × WorkKind) => t.searchTriple feed wk.2 wk.1)
      (fun t wk => (t.endsKept_searchTriple feed wk.2 wk.1).1) s,
    State.SameOuter.foldl (f := fun (t : State) (wk : Way × WorkKind) => t.searchTriple feed wk.2 wk.1)
      (fun t wk => (t.endsKept_searchTriple feed wk.2 wk.1).2) s⟩

theorem State.searchOrphans_eq (s : State) :
    s.searchOrphans = s.feeds.foldl (State.searchWays waysAndKinds) s := rfl

theorem State.endsKept_searchOrphans (s : State) : s.EndsKept s.searchOrphans ∧ s.SameOuter s.searchOrphans := by
  rw [State.searchOrphans_eq]
  generalize waysAndKinds = l
  exact ⟨State.EndsKept.foldl (fun t f => (t.endsKept_searchWays l f).1) s,
    State.SameOuter.foldl (fun t f => (t.endsKept_searchWays l f).2) s⟩

/-- Steps 3 to 5 of R47. -/
def State.beaconRest (s : State) : State := ((s.releaseTests).searchOrphans).recomputeCommits

/-- Steps 3 to 5 of R47 keep every E, and every state but for a CLOSING context that is FINAL by them. -/
theorem State.endsKept_beaconRest (s : State) : s.EndsKept s.beaconRest :=
  (s.endsKept_releaseTests.1.trans s.releaseTests.endsKept_searchOrphans.1).trans
    (State.work_recomputeCommits s.releaseTests.searchOrphans).endsKept

theorem State.beaconRest_outer (s : State) : s.SameOuter s.beaconRest :=
  (s.endsKept_releaseTests.2.trans s.releaseTests.endsKept_searchOrphans.2).trans
    (State.frame_recomputeCommits s.releaseTests.searchOrphans).outer

theorem State.beaconRest_grows (s : State) : s.Grows s.beaconRest :=
  (s.keeps_releaseTests.1.trans s.releaseTests.keeps_searchOrphans.1).trans
    (State.work_recomputeCommits s.releaseTests.searchOrphans).2.2

/-! ### The computed commit -/

theorem State.mem_holderOrds (s : State) (c : FeedContext) (w : Way) (n : Nat) :
    n ∈ s.holderOrds c w ↔ ∃ m, s.HolderMark c w m ∧ Mark.ord m = n := by
  have hpeer : ∀ p r, (p, r) ∈ s.peerHolders c .landing w
      ↔ s.Views c p r ∧ r.landKind.get w ≠ .unheld := fun p r => by
    simp only [State.peerHolders, State.viewRecords, List.mem_filter, List.mem_filterMap, Option.map_eq_some_iff,
      Prod.mk.injEq, PeerEntry.inView, PeerEntry.recordFor, FeedRecord.holds, FeedRecord.kindOf, State.Views,
      Bool.or_eq_true, beq_iff_eq, bne_iff_ne]
    constructor
    · rintro ⟨⟨p, ⟨hp, hst⟩, r, hr, rfl, rfl⟩, hk⟩
      exact ⟨⟨hp, hst, hr⟩, hk⟩
    · rintro ⟨⟨hp, hst, hr⟩, hk⟩
      exact ⟨⟨p, ⟨hp, hst⟩, r, hr, rfl, rfl⟩, hk⟩
  have hown : n ∈ (if c.holds .landing w then [Mark.ord (c.markOf .landing w)] else [])
      ↔ c.landKind.get w ≠ .unheld ∧ Mark.ord (c.lv.get w) = n := by
    simp only [FeedContext.holds, FeedContext.kindOf, FeedContext.markOf, bne_iff_ne]
    split
    · next h => simp [h, eq_comm]
    · next h => simp [h]
  rw [State.holderOrds, List.mem_append, hown, List.mem_map]
  constructor
  · rintro (⟨hk, rfl⟩ | ⟨⟨p, r⟩, hpr, rfl⟩)
    · exact ⟨_, .inl ⟨hk, rfl⟩, rfl⟩
    · exact ⟨_, .inr ⟨p, r, ((hpeer p r).mp hpr).1, ((hpeer p r).mp hpr).2, rfl⟩, rfl⟩
  · rintro ⟨m, ⟨hk, rfl⟩ | ⟨p, r, hv, hk, rfl⟩, rfl⟩
    · exact .inl ⟨hk, rfl⟩
    · exact .inr ⟨(p, r), (hpeer p r).mpr ⟨hv, hk⟩, rfl⟩

/-- A way high is there where the way has a holder, and is then the highest of its holders' marks. -/
theorem State.wayHigh_none_iff (s : State) (c : FeedContext) (w : Way) :
    s.wayHigh c w = none ↔ ∀ m, ¬s.HolderMark c w m := by
  rw [State.wayHigh, List.max?_eq_none_iff, List.eq_nil_iff_forall_not_mem]
  simp only [State.mem_holderOrds]
  exact ⟨fun h m hm => h _ ⟨m, hm, rfl⟩, fun h n ⟨m, hm, _⟩ => h m hm⟩

theorem State.wayHigh_some {s : State} {c : FeedContext} {w : Way} {n : Nat} (h : s.wayHigh c w = some n) :
    (∃ m, s.HolderMark c w m ∧ Mark.ord m = n) ∧ ∀ m, s.HolderMark c w m → Mark.ord m ≤ n := by
  rw [State.wayHigh, List.max?_eq_some_iff] at h
  exact ⟨(s.mem_holderOrds c w n).mp h.1, fun m hm => h.2 _ ((s.mem_holderOrds c w _).mpr ⟨m, hm, rfl⟩)⟩

/-- A list mapped through a function that may have no value: none where one of its members has no image. -/
theorem mapM_option_cases {α β : Type} (f : α → Option β) (l : List α) :
    (l.mapM f = none ∧ ∃ a ∈ l, f a = none) ∨ ∃ bs, l.mapM f = some bs ∧ l.map f = bs.map some := by
  induction l with
  | nil => exact .inr ⟨[], rfl, rfl⟩
  | cons a l ih =>
    rw [List.mapM_cons]
    cases ha : f a with
    | none => exact .inl ⟨rfl, a, List.mem_cons_self, ha⟩
    | some b =>
      rcases ih with ⟨hn, x, hx, hfx⟩ | ⟨bs, hs, hmap⟩
      · rw [hn]
        exact .inl ⟨rfl, x, List.mem_cons_of_mem _ hx, hfx⟩
      · rw [hs]
        exact .inr ⟨b :: bs, rfl, by rw [List.map_cons, hmap, ha, List.map_cons]⟩

theorem waysInUse_ne_nil (fn : Nat) : waysInUse fn ≠ [] := by
  unfold waysInUse
  split <;> exact List.cons_ne_nil _ _

/-- The commit as it is computed is the one R133 asks for. -/
theorem State.computedCommit_rule (s : State) (c : FeedContext) : s.CommitRule c (s.computedCommit c) := by
  unfold State.computedCommit
  rcases mapM_option_cases (s.wayHigh c) c.waysInUse with ⟨hnone, w, hw, hwn⟩ | ⟨highs, hsome, hmap⟩
  · rw [hnone]
    refine ⟨fun _ => rfl, fun hall => ?_⟩
    obtain ⟨m, hm⟩ := hall w hw
    exact absurd hm ((s.wayHigh_none_iff c w).mp hwn m)
  · rw [hsome]
    have hhigh : ∀ w ∈ c.waysInUse, ∃ n ∈ highs, s.wayHigh c w = some n := fun w hw => by
      have hmem : s.wayHigh c w ∈ highs.map some := hmap ▸ List.mem_map_of_mem hw
      obtain ⟨n, hn, he⟩ := List.mem_map.mp hmem
      exact ⟨n, hn, he.symm⟩
    have hway : ∀ n ∈ highs, ∃ w ∈ c.waysInUse, s.wayHigh c w = some n := fun n hn => by
      have hmem : some n ∈ c.waysInUse.map (s.wayHigh c) := hmap ▸ List.mem_map_of_mem hn
      exact List.mem_map.mp hmem
    refine ⟨fun ⟨w, hw, hno⟩ => ?_, fun _ => ?_⟩
    · obtain ⟨n, -, hn⟩ := hhigh w hw
      rw [(s.wayHigh_none_iff c w).mpr hno] at hn
      cases hn
    · obtain ⟨w0, hw0⟩ := List.exists_mem_of_ne_nil c.waysInUse (waysInUse_ne_nil _)
      obtain ⟨n0, hn0, -⟩ := hhigh w0 hw0
      obtain ⟨low, hlow⟩ := Option.ne_none_iff_exists'.mp
        (mt List.min?_eq_none_iff.mp (List.ne_nil_of_mem hn0))
      obtain ⟨hmem, hle⟩ := List.min?_eq_some_iff.mp hlow
      simp only [hlow, Option.getD_some, Mark.ord_ofOrd]
      refine ⟨Nat.min_le_right .., fun w hw => ?_, ?_⟩
      · obtain ⟨n, hn, hwn⟩ := hhigh w hw
        obtain ⟨m, hm, hord⟩ := (State.wayHigh_some hwn).1
        exact ⟨m, hm, by have := hle n hn; omega⟩
      · obtain ⟨w, hw, hwl⟩ := hway low hmem
        by_cases hcap : c.cap + 1 ≤ low
        · exact .inl (by omega)
        · exact .inr ⟨w, hw, fun m hm => by have := (State.wayHigh_some hwl).2 m hm; omega⟩

/-! ### The end of a context as it is created -/

/-- A candidate for E of a context that is created (R15, R17): the record's, or a WHOLE chunk in the ring
that carries the LAST flag. -/
def State.EndCandidate (s : State) (feed : Nat) (recordE : Mark) (z : Nat) : Prop :=
  recordE = some z ∨ ∃ e ∈ s.ring, e.feed = feed ∧ e.whole = true ∧ e.hdr.last = true ∧ e.seq = z

end Sys2Proof.Machine
end

