-- ==== Sys2Proof/Proofs/LearnOpen.lean ====
section
/-! A feed opened from a peer's record (R17), and what a beacon does to a feed with a context (R19). -/

namespace Sys2Proof.Machine

/-! ### E of a context as it is created (R13, R15) -/

/-- A context that is being created, with the lowest of the candidates for E it was offered so far. -/
structure FeedContext.Offered (c : FeedContext) (p : OpenParams) (start : Mark) (lowest : Option Nat) :
    Prop where
  params : c.params = p
  floor : Mark.ord c.endFloor = Mark.ord start
  unknown : lowest = none → c.e = none ∧ c.state = .active
  known : ∀ z, lowest = some z →
    Mark.ord c.e = max (min z (p.slotCount - 1) + 1) (Mark.ord start) ∧ c.state = .closing

/-- The lower of two candidates that may be absent. -/
def lowerOf : Option Nat → Option Nat → Option Nat
  | none, b => b
  | some x, none => some x
  | some x, some y => some (min x y)

theorem FeedContext.offerEnd_e {c : FeedContext} (hw : c.working = true) (x : Nat) :
    (c.offerEnd x).e = c.endAfter x := by
  unfold FeedContext.offerEnd
  split
  · rfl
  · next h =>
    simp only [FeedContext.takesEnd, hw, Bool.true_and, bne_iff_ne, ne_eq, not_not] at h
    exact h

theorem FeedContext.offerEnd_endFloor (c : FeedContext) (x : Nat) :
    (c.offerEnd x).endFloor = c.endFloor ∧ (c.offerEnd x).params = c.params := by
  unfold FeedContext.offerEnd
  split <;> exact ⟨rfl, rfl⟩

/-- An ACTIVE or CLOSING context whose E is unknown in ACTIVE alone is CLOSING after a candidate. -/
theorem FeedContext.offerEnd_closing {c : FeedContext} (x : Nat)
    (h : (c.e = none ∧ c.state = .active) ∨ c.state = .closing) : (c.offerEnd x).state = .closing := by
  unfold FeedContext.offerEnd
  split
  · rfl
  · next hno =>
    rcases h with ⟨he, hst⟩ | hst
    · have hne := c.endAfter_ne_none x
      simp [FeedContext.takesEnd, FeedContext.working, hst, he, hne.symm] at hno
    · exact hst

theorem FeedContext.Offered.offer {c : FeedContext} {p : OpenParams} {start : Mark} {lowest : Option Nat}
    (h : c.Offered p start lowest) (m : Mark) : (c.offerEnd? m).Offered p start (lowerOf lowest m) := by
  cases m with
  | none => cases lowest <;> exact h
  | some x =>
    have hst : (c.e = none ∧ c.state = .active) ∨ c.state = .closing := by
      cases hl : lowest with
      | none => exact .inl (h.unknown hl)
      | some z => exact .inr (h.known z hl).2
    have hw : c.working = true := by
      rcases hst with ⟨-, h'⟩ | h' <;> simp [FeedContext.working, h']
    have hfl := c.offerEnd_endFloor x
    refine ⟨hfl.2.trans h.params, by rw [FeedContext.offerEnd?, hfl.1, h.floor], fun hn => ?_, fun z hz => ?_⟩
    · cases lowest <;> simp [lowerOf] at hn
    · refine ⟨?_, FeedContext.offerEnd_closing x hst⟩
      rw [FeedContext.offerEnd?, FeedContext.offerEnd_e hw]
      have htaken := fun hk => congrArg Mark.ord (FeedContext.endAfter_taken (c := c) (x := x) hk)
      rw [Mark.ord_higher, h.floor, h.params] at htaken
      have hkept := fun e he hle => FeedContext.endAfter_kept (c := c) (x := x) (e := e) he hle
      rw [h.params] at hkept
      have hcons : ∀ n : Nat, Mark.ord (some n) = n + 1 := fun n => rfl
      cases hl : lowest with
      | none =>
        have he := (h.unknown hl).1
        have hzx : z = x := by simpa [hl, lowerOf, eq_comm] using hz
        rw [htaken fun e h' => by simp [he] at h', hcons, hzx]
      | some y =>
        have hord := (h.known y hl).1
        have hzx : z = min y x := by simpa [hl, lowerOf, eq_comm] using hz
        cases he : c.e with
        | none => rw [he] at hord; simp [Mark.ord] at hord; omega
        | some e =>
          rw [he, hcons] at hord
          by_cases hle : e ≤ min x (p.slotCount - 1)
          · rw [hkept e he hle, hcons]
            omega
          · rw [htaken fun e' h' => by rw [he] at h'; cases h'; omega, hcons]
            omega

theorem PerWay.get_ofFn {α : Type} (f : Way → α) (w : Way) : (PerWay.ofFn f).get w = f w := by
  fin_cases w <;> rfl

/-- A fresh context has marks at the start commit or at none. -/
theorem FeedContext.fresh_endFloor (feed : Nat) (r : Range) (p : OpenParams) (origin : Origin)
    (start h : Mark) (m : Nat) :
    Mark.ord ((FeedContext.fresh feed r p origin start h).assessAllotment m).endFloor = Mark.ord start := by
  have hassess : ((FeedContext.fresh feed r p origin start h).assessAllotment m).endFloor
      = (FeedContext.fresh feed r p origin start h).endFloor := by
    unfold FeedContext.assessAllotment
    split <;> rfl
  rw [hassess]
  have hmark : ∀ x ∈ (FeedContext.fresh feed r p origin start h).heldMarks, x = start := fun x hx => by
    obtain ⟨⟨w, k⟩, hwk, rfl⟩ := List.mem_map.mp hx
    have hheld := (List.mem_filter.mp hwk).2
    cases k with
    | landing =>
      simp only [FeedContext.markOf, FeedContext.fresh, PerWay.get_ofFn]
      exact if_pos hheld
    | browse =>
      simp only [FeedContext.markOf, FeedContext.fresh, PerWay.get_ofFn]
      exact if_pos hheld
  rcases Mark.highest_cons_mem start (FeedContext.fresh feed r p origin start h).heldMarks with hmem | hmem
  · exact congrArg Mark.ord hmem
  · exact congrArg Mark.ord (hmark _ hmem)

theorem State.mem_ringLast (s : State) (feed z : Nat) :
    z ∈ (s.ring.filter (fun e => e.feed == feed && e.whole && e.hdr.last)).map (·.seq)
      ↔ ∃ e ∈ s.ring, e.feed = feed ∧ e.whole = true ∧ e.hdr.last = true ∧ e.seq = z := by
  simp only [List.mem_map, List.mem_filter, Bool.and_eq_true, beq_iff_eq]
  exact ⟨fun ⟨e, ⟨he, ⟨hf, hw⟩, hl⟩, hs⟩ => ⟨e, he, hf, hw, hl, hs⟩,
    fun ⟨e, he, hf, hw, hl, hs⟩ => ⟨e, ⟨he, ⟨hf, hw⟩, hl⟩, hs⟩⟩

/-- Where nothing is a candidate the lowest is unknown; else it is the lowest. -/
theorem State.lowerOf_ringLast (s : State) (feed : Nat) (recordE : Mark) :
    ((∀ z, ¬s.EndCandidate feed recordE z) → lowerOf recordE (s.ringLast feed) = none)
      ∧ ∀ z, s.EndCandidate feed recordE z → (∀ y, s.EndCandidate feed recordE y → z ≤ y) →
          lowerOf recordE (s.ringLast feed) = some z := by
  cases hr : s.ringLast feed with
  | none =>
    have hring : ∀ z, s.EndCandidate feed recordE z ↔ recordE = some z := fun z => by
      rw [State.EndCandidate, ← State.mem_ringLast, List.min?_eq_none_iff.mp hr]
      simp
    simp only [hring]
    cases recordE <;> simp [lowerOf]
  | some m =>
    obtain ⟨hm, hle⟩ := List.min?_eq_some_iff.mp hr
    have hmc : s.EndCandidate feed recordE m := .inr ((s.mem_ringLast feed m).mp hm)
    refine ⟨fun hno => absurd hmc (hno m), fun z hz hleast => ?_⟩
    have hzm : z ≤ m := hleast m hmc
    rw [State.EndCandidate, ← State.mem_ringLast] at hz
    cases hx : recordE with
    | none =>
      have hmz : m ≤ z := hle z (hz.resolve_left (by simp [hx]))
      exact congrArg some (Nat.le_antisymm hmz hzm)
    | some x =>
      have hzx : z ≤ x := hleast x (.inl hx)
      refine congrArg some ?_
      rcases hz with hz | hz
      · have : x = z := Option.some.inj (hx.symm.trans hz)
        omega
      · have := hle z hz
        omega

section
variable (s : State) (feed : Nat) (r : Range) (p : OpenParams) (origin : Origin)
  (start recordH recordE : Mark)

theorem State.created_offered :
    (s.created feed r p origin start recordH recordE).Offered p start
      (lowerOf recordE (s.ringLast feed)) := by
  have hfresh : ((FeedContext.fresh feed r p origin start
      (Mark.higher (s.ringHigh feed p.slotCount) recordH)).assessAllotment s.settings.margin).Offered
        p start none := by
    refine ⟨?_, FeedContext.fresh_endFloor .., fun _ => ?_, fun z hz => nomatch hz⟩
    all_goals unfold FeedContext.assessAllotment; split
    all_goals first | rfl | exact ⟨rfl, rfl⟩
  exact (hfresh.offer recordE).offer (s.ringLast feed)

/-- A creation keeps the E and the state of what took its place, but that it may be FINAL at once. -/
theorem State.endsKept_createContext :
    (s.addCtx (s.created feed r p origin start recordH recordE)).EndsKept
      (s.createContext feed r p origin start recordH recordE) := by
  have h1 := (s.addCtx (s.created feed r p origin start recordH recordE)).endsKept_reachEnd feed
  have hbuild : ∀ t : State, t.EndsKept (t.buildWindow feed) := fun t =>
    (State.EndsKept.mapCtx t feed _ fun c => by split <;> exact ⟨rfl, rfl, rfl⟩).trans
      (State.endsKept_refreshWindow _ feed)
  have hlast : ∀ t : State, t.EndsKept (((t.recomputeCommit feed).finalTest feed).paceTest feed) := fun t =>
    ((State.work_recomputeCommit t feed).endsKept.trans (State.endsKept_finalTest _ feed)).trans
      (State.work_paceTest _ feed).endsKept
  unfold State.createContext
  simp only
  split
  · exact (h1.trans (hbuild _)).trans (hlast _)
  · exact h1.trans (hlast _)

/-- A created context: what it carries of its parameters, and the E that its candidates give it. -/
theorem State.createContext_end (hc : s.ctx? feed = none) :
    ∃ d, (s.createContext feed r p origin start recordH recordE).ctx? feed = some d
      ∧ (FeedContext.fresh feed r p origin start
          (Mark.higher (s.ringHigh feed p.slotCount) recordH)).Carries d
      ∧ ((∀ z, ¬s.EndCandidate feed recordE z) → d.e = none ∧ d.state = .active)
      ∧ ∀ z, s.EndCandidate feed recordE z → (∀ y, s.EndCandidate feed recordE y → z ≤ y) →
          Mark.ord d.e = max (min z (p.slotCount - 1) + 1) (Mark.ord start)
            ∧ (d.state = .closing ∨ d.state = .final) := by
  have hcarries := s.created_carries feed r p origin start recordH recordE
  have hoffered := s.created_offered feed r p origin start recordH recordE
  obtain ⟨hnone, hleast⟩ := s.lowerOf_ringLast feed recordE
  obtain ⟨⟨d, hd, hcar⟩, -⟩ := s.createContext_spec feed r p origin start recordH recordE hc
  have hadd : (s.addCtx (s.created feed r p origin start recordH recordE)).ctx? feed
      = some (s.created feed r p origin start recordH recordE) := by
    rw [s.ctx?_addCtx _ (hcarries.1.symm ▸ hc), if_pos hcarries.1.symm]
  obtain ⟨d', hd', he, hst⟩ := s.endsKept_createContext feed r p origin start recordH recordE feed _ hadd
  obtain rfl : d = d' := Option.some.inj (hd.symm.trans hd')
  refine ⟨d, hd, hcarries.2.trans hcar, fun hno => ?_, fun z hz hlow => ?_⟩
  · obtain ⟨he', hst'⟩ := hoffered.unknown (hnone hno)
    refine ⟨he.trans he', ?_⟩
    rcases hst with h | ⟨h, -⟩
    · exact h.trans hst'
    · rw [hst'] at h
      cases h
  · obtain ⟨he', hst'⟩ := hoffered.known z (hleast z hz hlow)
    refine ⟨he.symm ▸ he', ?_⟩
    rcases hst with h | ⟨-, h⟩
    · exact .inl (h.trans hst')
    · exact .inr h

end

/-! ### A beacon from a LIVE peer (R17, R19) -/

/-- A station that takes a beacon in LIVE. -/
theorem exec_beacon_live {s : State} {f : Frame} {b : PeerBeacon} (hlive : s.station = .live)
    (hh : s.Hears f 0x03#8) (hb : parseBeacon f.body = some b) (hother : b.number ≠ s.settings.station) :
    exec (.beacon f) s = .next ((s.updatePeer b).learn b).beaconRest := by
  have hown : (b.number == s.settings.station) = false := beq_false_of_ne hother
  have hl : (s.updatePeer b).station = .live := hlive
  rw [exec_receive (f := f) (by simp [receiveCommands]), State.receiveFrame_beacon hh]
  simp only [State.receiveBeacon, hb, hown, State.takeBeacon, hl, State.beaconRest, Bool.false_eq_true, if_false,
    beq_self_eq_true, if_true]

theorem State.learn_record {s : State} {b : PeerBeacon} {q : FeedRecord} (hl : b.live = true)
    (hr : b.records = [q]) : s.learn b = s.learnRecord q := by
  simp [State.learn, hl, hr]

/-- A record that opens its feed (R17). -/
theorem State.learnRecord_opens {s : State} {q : FeedRecord} {r : Range}
    (hst : q.state = .active ∨ q.state = .closing) (hr : rangeOf s.settings.ranges q.feed = some r)
    (hc : s.ctx? q.feed = none) (hid : s.closedId q.feed ≠ some q.params.fileId)
    (hroom : s.contexts.length < Config.maxContexts) (hcheck : q.params.check = none) :
    s.learnRecord q = s.createContext q.feed r q.params .learned (s.startCommit r q) q.h q.e := by
  have hkind : (q.state == .active || q.state == .closing) = true := by
    rcases hst with h | h <;> simp [h]
  have hne : (s.closedId q.feed != some q.params.fileId) = true := bne_iff_ne.mpr hid
  simp only [State.learnRecord, hc, State.learnOpen, hr, hkind, hne, hroom, hcheck, decide_true,
    Option.isNone_none, Bool.and_self, if_true]

/-- A record of another file identity (R19). -/
theorem State.learnRecord_conflict {s : State} {q : FeedRecord} {c : FeedContext}
    (hc : s.ctx? q.feed = some c) (hid : c.params.fileId ≠ q.params.fileId) :
    s.learnRecord q = s.mapCtx q.feed FeedContext.latchConflict := by
  have hne : (c.params.fileId != q.params.fileId) = true := bne_iff_ne.mpr hid
  simp only [State.learnRecord, hc, hne, if_true]

section
variable {s : State} {q : FeedRecord} {c : FeedContext}

/-- A record of the context's file identity that gives no E is taken by its state (R19). -/
theorem State.learnRecord_same (hc : s.ctx? q.feed = some c) (hid : c.params.fileId = q.params.fileId) :
    s.learnRecord q = (if q.state == .closing && c.state == .active && c.e.isNone then
      s.takeEnd? q.feed q.e else if q.state == .aborted then s.abortContext q.feed else s) := by
  have hne : (c.params.fileId != q.params.fileId) = false := bne_eq_false_iff_eq.mpr hid
  simp only [State.learnRecord, hc, hne, Bool.false_eq_true, if_false]

theorem State.learnRecord_end {z : Nat} (hc : s.ctx? q.feed = some c) (hid : c.params.fileId = q.params.fileId)
    (hq : q.state = .closing) (hst : c.state = .active) (he : c.e = none) (hz : q.e = some z) :
    s.learnRecord q = s.takeEnd q.feed z ∧ c.takesEnd z = true := by
  refine ⟨?_, ?_⟩
  · rw [State.learnRecord_same hc hid]
    simp only [hq, hst, he, hz, beq_self_eq_true, Option.isNone_none, Bool.and_self, if_true, State.takeEnd?]
  · simp [FeedContext.takesEnd, FeedContext.working, hst, he, (c.endAfter_ne_none z).symm]

theorem State.learnRecord_abort (hc : s.ctx? q.feed = some c) (hid : c.params.fileId = q.params.fileId)
    (hq : q.state = .aborted) : s.learnRecord q = (match c.state with
      | .active | .closing => s.enterAborted q.feed
      | .faulted => s.startLinger q.feed
      | .final | .aborted => s) := by
  rw [State.learnRecord_same hc hid]
  simp only [hq, State.abortContext, hc] <;> rfl

/-- A record that asks for nothing (R19). -/
theorem State.learnRecord_idle (hc : s.ctx? q.feed = some c) (hid : c.params.fileId = q.params.fileId)
    (hq : q.state = .active ∨ q.state = .final ∨ q.state = .faulted
      ∨ (q.state = .closing ∧ (c.state ≠ .active ∨ c.e ≠ none ∨ q.e = none))) : s.learnRecord q = s := by
  rw [State.learnRecord_same hc hid]
  rcases hq with hq | hq | hq | ⟨hq, h⟩
  · simp [hq]
  · simp [hq]
  · simp [hq]
  · rcases h with h | h | h
    · simp [hq, h]
    · simp [hq, Option.isNone_iff_eq_none, h]
    · simp [hq, h, State.takeEnd?]

end

/-- A record of a feed with a context changes nothing beside that feed's work. -/
theorem State.frame_learnRecord {s : State} {q : FeedRecord} {c : FeedContext} (hc : s.ctx? q.feed = some c) :
    s.SameOutside (s.learnRecord q) := by
  unfold State.learnRecord
  rw [hc]
  simp only
  split
  · exact s.frame_mapCtx q.feed _ fun _ => rfl
  · split
    · exact s.frame_takeEnd? q.feed q.e
    · split
      · exact s.frame_abortContext q.feed
      · exact .refl s

/-- A feed opened from a peer's record, as the beacon leaves it (R17). -/
theorem State.learnOpen_settled {s : State} {q : FeedRecord} {r : Range}
    (hst : q.state = .active ∨ q.state = .closing) (hr : rangeOf s.settings.ranges q.feed = some r)
    (hc : s.ctx? q.feed = none) (hid : s.closedId q.feed ≠ some q.params.fileId)
    (hroom : s.contexts.length < Config.maxContexts) (hcheck : q.params.check = none) :
    ∃ c, (s.learnRecord q).beaconRest.ctx? q.feed = some c
      ∧ (FeedContext.fresh q.feed r q.params .learned (s.startCommit r q)
          (Mark.higher (s.ringHigh q.feed q.params.slotCount) q.h)).Carries c
      ∧ (s.learnRecord q).beaconRest.lastRefusal = s.lastRefusal
      ∧ ((∀ z, ¬s.EndCandidate q.feed q.e z) → c.e = none ∧ c.state = .active)
      ∧ ∀ z, s.EndCandidate q.feed q.e z → (∀ y, s.EndCandidate q.feed q.e y → z ≤ y) →
          Mark.ord c.e = max (min z (q.params.slotCount - 1) + 1) (Mark.ord (s.startCommit r q))
            ∧ (c.state = .closing ∨ c.state = .final) := by
  rw [State.learnRecord_opens hst hr hc hid hroom hcheck]
  obtain ⟨d, hd, hcar, hno, hlow⟩ :=
    s.createContext_end q.feed r q.params .learned (s.startCommit r q) q.h q.e hc
  have hframe := s.frame_createContext q.feed r q.params .learned (s.startCommit r q) q.h q.e
  revert hd hframe
  generalize s.createContext q.feed r q.params .learned (s.startCommit r q) q.h q.e = t
  intro hd hframe
  obtain ⟨c, hc', hce, hcs⟩ := t.endsKept_beaconRest q.feed d hd
  obtain ⟨c', hc'', hcar'⟩ := t.beaconRest_grows q.feed d hd
  obtain rfl : c = c' := Option.some.inj (hc'.symm.trans hc'')
  refine ⟨c, hc', hcar.trans hcar', ?_, fun h => ?_, fun z hz hle => ?_⟩
  · exact (t.beaconRest_outer.observe (·.lastRefusal) fun _ => rfl).trans
      (hframe.observe (·.lastRefusal) fun _ => rfl)
  · obtain ⟨he, hs⟩ := hno h
    rw [hs] at hcs
    exact ⟨hce.trans he, hcs.resolve_right fun h => nomatch h.1⟩
  · obtain ⟨he, hs⟩ := hlow z hz hle
    refine ⟨hce.symm ▸ he, ?_⟩
    rcases hcs with h | ⟨-, h⟩
    · rwa [h]
    · exact .inr h

/-- What the record of a known feed does (R19): its four cases, decided by identity and by state. -/
theorem State.learnRecord_known {s : State} {q : FeedRecord} {c : FeedContext} (hc : s.ctx? q.feed = some c) :
    (c.params.fileId ≠ q.params.fileId → s.learnRecord q = { s with contexts := s.contexts.map (fun d =>
        if d.feed == q.feed then { d with flags := { d.flags with conflict := true } } else d) })
    ∧ (c.params.fileId = q.params.fileId → q.state = .closing → c.state = .active → c.e = none →
        ∀ z, q.e = some z → ∃ d, (s.learnRecord q).ctx? q.feed = some d ∧ d.e = c.endAfter z
          ∧ (s.learnRecord q).EndTested { c with e := c.endAfter z, state := .closing } d)
    ∧ (c.params.fileId = q.params.fileId → q.state = .aborted → (c.state = .active ∨ c.state = .closing) →
        ∃ d, (s.learnRecord q).ctx? q.feed = some d ∧ d.state = .aborted ∧ d.positions = []
          ∧ d.lv = c.lv ∧ d.bv = c.bv ∧ d.e = c.e ∧ d.published = c.published)
    ∧ (c.params.fileId = q.params.fileId → q.state = .aborted → c.state = .faulted →
        s.learnRecord q = { s with contexts := s.contexts.map (fun d => if d.feed == q.feed then
          (if d.linger = none then { d with linger := some (s.now + 10000) } else d) else d) })
    ∧ (c.params.fileId = q.params.fileId → q.state = .aborted → (c.state = .final ∨ c.state = .aborted) →
        s.learnRecord q = s) := by
  refine ⟨fun hid => ?_, fun hid hq hst he z hz => ?_, fun hid hq hst => ?_, fun hid hq hst => ?_,
    fun hid hq hst => ?_⟩
  · rw [State.learnRecord_conflict hc hid]
    rfl
  · obtain ⟨hrun, htakes⟩ := State.learnRecord_end hc hid hq hst he hz
    rw [hrun]
    obtain ⟨d, hd, hde, htest, -⟩ := State.takeEnd_spec hc htakes
    exact ⟨d, hd, hde, htest⟩
  · obtain ⟨b, hd, -⟩ := State.enterAborted_spec hc
    have hrun : s.learnRecord q = s.enterAborted q.feed := by
      rw [State.learnRecord_abort hc hid hq]
      rcases hst with h | h <;> rw [h]
    rw [hrun]
    exact ⟨_, hd, rfl, rfl, rfl, rfl, rfl, rfl⟩
  · rw [State.learnRecord_abort hc hid hq, hst]
    simp only [State.startLinger, State.mapCtx, Option.isNone_iff_eq_none, Config.lingerTime]
  · rw [State.learnRecord_abort hc hid hq]
    rcases hst with h | h <;> rw [h]

/-- Settles O26: a feed opened is one created with its candidates, a known one goes by the cases of R19, and
the steps of R47 that follow keep E and the state. -/
theorem beaconLearnsOpen : Obligations.BeaconLearnsOpen := by
  refine ⟨fun s f b q r htable hlive hh hb hother hbl hrec hst hr hc hid hroom hcheck => ?opened,
    fun s b => ⟨fun h => ?silent, fun h => ?records⟩, fun s q c hc => ?known,
    fun s f b q c htable hlive hh hb hother hbl hrec hc => ?after⟩
  case silent => simp [State.learn, h]
  case records => simp [State.learn, h]
  case known =>
    obtain ⟨h1, h2, h3, h4, h5⟩ := State.learnRecord_known hc
    exact ⟨h1, h2, h3, h4, h5, fun hid hq => State.learnRecord_idle hc hid hq⟩
  case opened =>
    intro start candidate
    obtain ⟨c, hctx, hcar, hrefusal, hno, hlow⟩ :=
      State.learnOpen_settled (s := s.updatePeer b) hst hr hc hid hroom hcheck
    obtain ⟨hparams, horigin, hrate, hfactor, hpub, hh', -⟩ := hcar
    have hcommit := State.computedCommit_rule (s.updatePeer b)
      (FeedContext.fresh q.feed r q.params .learned none none)
    refine ⟨_, c, exec_beacon_live hlive hh hb hother, ?_, horigin, hparams, hrate, hfactor, hpub, ?_, ?_,
      hcommit, hno, hlow⟩
    · rw [State.learn_record hbl hrec]
      exact hctx
    · have hrec := Mark.ord_higher ((s.updatePeer b).ringHigh q.feed q.params.slotCount) q.h
      have hle : Mark.ord (Mark.higher ((s.updatePeer b).ringHigh q.feed q.params.slotCount) q.h)
        ≤ Mark.ord c.h := hh'
      omega
    · rw [State.learn_record hbl hrec]
      exact hrefusal
  case after =>
    have hc' : (s.updatePeer b).ctx? q.feed = some c := hc
    obtain ⟨hconflict, hend, habort, -⟩ := State.learnRecord_known hc'
    have hgo : ∀ d, ((s.updatePeer b).learnRecord q).ctx? q.feed = some d → ∃ x,
        ((s.updatePeer b).learnRecord q).beaconRest.ctx? q.feed = some x ∧ d.Carries x ∧ x.e = d.e
          ∧ (x.state = d.state ∨ (d.state = .closing ∧ x.state = .final)) := fun d hd => by
      obtain ⟨x, hx, hcar⟩ := State.beaconRest_grows _ q.feed d hd
      obtain ⟨y, hy, he, hs⟩ := State.endsKept_beaconRest _ q.feed d hd
      obtain rfl : x = y := Option.some.inj (hx.symm.trans hy)
      exact ⟨x, hx, hcar, he, hs⟩
    have hfeed : q.feed < Config.feeds := parseBeacon_feed hb (hrec ▸ List.mem_singleton_self q)
    obtain ⟨d, hd, -⟩ := ((s.updatePeer b).keeps_learnRecord q hfeed).1 q.feed c hc'
    obtain ⟨x, hx, hcar, hxe, hxs⟩ := hgo d hd
    refine ⟨_, x, exec_beacon_live hlive hh hb hother, ?_, ?_, fun hid => ?_, fun hid =>
      ⟨fun hq hst he z hz => ?_, fun hq hst => ?_⟩⟩
    · rw [State.learn_record hbl hrec]
      exact hx
    · rw [State.learn_record hbl hrec]
      exact ((State.beaconRest_outer _).observe (·.lastRefusal) fun _ => rfl).trans
        ((State.frame_learnRecord hc').observe (·.lastRefusal) fun _ => rfl)
    · obtain ⟨-, -, -, -, -, -, -, -, -, -, -, -, hflag⟩ := hcar
      have hmap : d = FeedContext.latchConflict c := by
        rw [State.learnRecord_conflict hc' hid] at hd
        have hctx := (s.updatePeer b).ctx?_mapCtx q.feed q.feed FeedContext.latchConflict fun _ => rfl
        rw [hctx, hc'] at hd
        simpa [eq_comm] using hd
      rw [hmap] at hflag hxe
      exact ⟨hflag rfl, hxe⟩
    · obtain ⟨y, hy, hye, hytest⟩ := hend hid hq hst he z hz
      obtain rfl : d = y := Option.some.inj (hd.symm.trans hy)
      refine ⟨hxe.trans hye, ?_⟩
      have hyst : d.state = .closing ∨ d.state = .final := hytest.1.imp id And.right
      rcases hxs with h | ⟨-, h⟩
      · rwa [h]
      · exact .inr h
    · obtain ⟨y, hy, hys, -⟩ := habort hid hq hst
      obtain rfl : d = y := Option.some.inj (hd.symm.trans hy)
      rw [hys] at hxs
      exact hxs.resolve_right fun h => nomatch h.1

end Sys2Proof.Machine
end

