-- ==== Sys2Proof/Proofs/Sight.lean ====
section
/-! A cell of a feed with a context (R20, R21, R53): the sighting, and what placing a cell in the ring leaves of
H and of the gap waits. -/

namespace Sys2Proof.Machine

/-! ### What the ring's work leaves of H and of the gap waits -/

/-- `d` is `c` after work at sequence number `n`: H stays; and where E is not touched (`plain`), the state and
E stay, and every other position that has its gap wait where it is behind keeps the gap wait it has. -/
structure FeedContext.WaitsKept (plain : Bool) (n : Nat) (c d : FeedContext) : Prop where
  h : d.h = c.h
  ends : plain = true → d.state = c.state ∧ d.e = c.e
  waits : plain = true → ∀ q p, q ≠ n → c.pos? q = some p → (p.gapWait = none → c.isBehind q = false) →
    ∃ p', d.pos? q = some p' ∧ p'.gapWait = p.gapWait

theorem FeedContext.isBehind_congr {c d : FeedContext} (hh : d.h = c.h) (hs : d.state = c.state)
    (he : d.e = c.e) (q : Nat) : d.isBehind q = c.isBehind q := by
  simp only [FeedContext.isBehind, hh, hs, he]

theorem FeedContext.WaitsKept.trans {plain : Bool} {n : Nat} {c d x : FeedContext}
    (h : FeedContext.WaitsKept plain n c d) (k : FeedContext.WaitsKept plain n d x) :
    FeedContext.WaitsKept plain n c x := by
  refine ⟨k.h.trans h.h, fun hp => ⟨(k.ends hp).1.trans (h.ends hp).1, (k.ends hp).2.trans (h.ends hp).2⟩,
    fun hp q p hq hpos hbehind => ?_⟩
  obtain ⟨p', hp', hw⟩ := h.waits hp q p hq hpos hbehind
  obtain ⟨hs, he⟩ := h.ends hp
  obtain ⟨p'', hp'', hw'⟩ := k.waits hp q p' hq hp' fun hnone => by
    rw [FeedContext.isBehind_congr h.h hs he]
    exact hbehind (hw.symm.trans hnone)
  exact ⟨p'', hp'', hw'.trans hw⟩

/-- A change of a context beside H, E, its state and its positions. -/
theorem FeedContext.WaitsKept.of_eq {plain : Bool} {n : Nat} {c d : FeedContext} (hh : d.h = c.h)
    (hs : d.state = c.state) (he : d.e = c.e) (hp : d.positions = c.positions) :
    FeedContext.WaitsKept plain n c d :=
  ⟨hh, fun _ => ⟨hs, he⟩, fun _ q p _ hpos _ => ⟨p, by simpa only [FeedContext.pos?, hp] using hpos, rfl⟩⟩

theorem FeedContext.SameBut.waitsKept {n : Nat} {c d : FeedContext} (h : FeedContext.SameBut n c d)
    (plain : Bool) : FeedContext.WaitsKept plain n c d := by
  have hb := FeedContext.bare_of_outline h.outline
  exact ⟨FeedContext.of_bare hb (·.h) fun _ => rfl,
    fun _ => ⟨FeedContext.of_bare hb (·.state) fun _ => rfl, FeedContext.of_bare hb (·.e) fun _ => rfl⟩,
    fun _ q p hq hp _ => ⟨p, (h.others q hq).trans hp, rfl⟩⟩

/-- Work on one position that starts its gap wait only where it is behind. -/
theorem FeedContext.waitsKept_mapPos (plain : Bool) (n m : Nat) (c : FeedContext) (g : Position → Position)
    (hseq : ∀ p, (g p).seq = p.seq)
    (hg : ∀ p, (p.gapWait = none → c.isBehind p.seq = false) → (g p).gapWait = p.gapWait) :
    FeedContext.WaitsKept plain n c (c.mapPos m g) := by
  refine ⟨rfl, fun _ => ⟨rfl, rfl⟩, fun _ q p _ hp hbehind => ?_⟩
  have hpos := c.pos?_mapPos m q g hseq
  rw [hp] at hpos
  refine ⟨_, hpos, ?_⟩
  split
  · exact hg p (FeedContext.pos?_seq hp ▸ hbehind)
  · rfl

/-- From `s` to `t` the context of the feed is there still, with H and its gap waits kept. -/
def State.Waits (plain : Bool) (feed n : Nat) (s t : State) : Prop :=
  ∀ c, s.ctx? feed = some c → ∃ d, t.ctx? feed = some d ∧ FeedContext.WaitsKept plain n c d

section
variable {plain : Bool} {feed n : Nat}

theorem State.Waits.trans {s t u : State} (h : s.Waits plain feed n t) (k : t.Waits plain feed n u) :
    s.Waits plain feed n u := fun c hc => by
  obtain ⟨d, hd, h1⟩ := h c hc
  obtain ⟨x, hx, h2⟩ := k d hd
  exact ⟨x, hx, h1.trans h2⟩

theorem State.Waits.of_eq {s t : State} (h : t.contexts = s.contexts) : s.Waits plain feed n t :=
  fun c hc => ⟨c, by simpa only [State.ctx?, h] using hc, .of_eq rfl rfl rfl rfl⟩

/-- Work after a change beside the contexts. -/
theorem State.Waits.after {s t u : State} (h : t.Waits plain feed n u) (hc : t.contexts = s.contexts) :
    s.Waits plain feed n u := (State.Waits.of_eq hc).trans h

theorem State.Waits.refl (s : State) : s.Waits plain feed n s := .of_eq rfl

theorem State.At.waits {s t : State} (h : s.At feed n t) : s.Waits plain feed n t := fun c hc => by
  obtain ⟨d, hd, hk⟩ := h.ctx c hc
  exact ⟨d, hd, hk.waitsKept plain⟩

theorem State.Waits.mapCtx (s : State) (g : Nat) (f : FeedContext → FeedContext)
    (hfeed : ∀ c, (f c).feed = c.feed) (hf : ∀ c, FeedContext.WaitsKept plain n c (f c)) :
    s.Waits plain feed n (s.mapCtx g f) := fun c hc => by
  have hctx := s.ctx?_mapCtx g feed f hfeed
  rw [hc] at hctx
  refine ⟨_, hctx, ?_⟩
  split
  · exact hf c
  · exact .of_eq rfl rfl rfl rfl

theorem State.waits_reportRemoved (s : State) (g m : Nat) :
    s.Waits plain feed n (s.reportRemoved g m) := by
  have hmap : s.Waits plain feed n (s.mapPos g m fun p => { p with land := .absent, hasRef := false }) :=
    .mapCtx s g _ (fun _ => rfl) fun c => c.waitsKept_mapPos plain n m _ (fun _ => rfl) fun _ _ => rfl
  have htest : ∀ t : State, t.Waits plain feed n (t.gapTestAt g m) := fun t => by
    unfold State.gapTestAt
    split
    · refine .mapCtx t g _ (fun _ => rfl) fun c => c.waitsKept_mapPos plain n m _ (fun p => ?_) fun p hp => ?_
      · exact c.startWait_seq_pinned _ p |>.1
      · unfold FeedContext.startWait
        split
        · next hcond =>
          simp only [Bool.and_eq_true, Option.isNone_iff_eq_none] at hcond
          obtain ⟨⟨⟨hnone, -⟩, -⟩, hbehind⟩ := hcond
          rw [hp hnone] at hbehind
          cases hbehind
        · rfl
    · exact .refl t
  unfold State.reportRemoved
  split
  · split
    · exact .refl s
    · split
      · exact hmap.trans (htest _)
      · exact .refl s
  · exact .refl s

theorem State.waits_removeEntry (s : State) (g m : Nat) : s.Waits plain feed n (s.removeEntry g m) :=
  ((State.Waits.of_eq (t := s.dropEntry g m) rfl).trans (State.waits_reportRemoved _ g m)).trans
    (.of_eq rfl)

theorem State.waits_makeRoom (s : State) (g m : Nat) (new : Bool) :
    s.Waits plain feed n (s.makeRoom g m new) := by
  have hevict : ∀ fuel (t : State), t.Waits plain feed n (State.evict g m new fuel t) := fun fuel => by
    induction fuel with
    | zero => exact fun t => .refl t
    | succ fuel ih =>
      intro t
      unfold State.evict
      split
      · exact .refl t
      · split
        · exact .refl t
        · exact (t.waits_removeEntry _ _).trans (ih _)
  exact hevict _ s

theorem State.waits_reportWhole (s : State) (h : ChunkHeader) :
    s.Waits plain feed n (s.reportWhole feed n h) := by
  have hcount : ∀ f : FeedContext → FeedContext, (∀ c, ∃ k, f c = { c with counts := k }) →
      s.Waits plain feed n (s.mapCtx feed f) := fun f hf => by
    refine .mapCtx s feed f (fun c => ?_) fun c => ?_
    all_goals obtain ⟨k, hk⟩ := hf c; rw [hk]
    exact .of_eq rfl rfl rfl rfl
  unfold State.reportWhole
  repeat' split
  all_goals first
    | exact .refl s
    | exact (s.at_takeChunk feed n h).waits
    | exact hcount _ fun c => ⟨_, rfl⟩

theorem State.waits_reportCreated (s : State) : s.Waits plain feed n (s.reportCreated feed n) := by
  unfold State.reportCreated
  split
  · split
    · exact .refl s
    · split
      · exact (State.At.mapPos s feed n _ fun _ => by rfl).waits
      · exact .refl s
  · exact .refl s

end

theorem FeedContext.reachEnd_h (c : FeedContext) : c.reachEnd.h = c.h := by
  unfold FeedContext.reachEnd
  split <;> rfl

/-- A candidate for E leaves H. -/
theorem State.waits_takeEnd (s : State) (feed x n : Nat) : s.Waits false feed n (s.takeEnd feed x) := by
  intro c hc
  suffices h : ∃ d, (s.takeEnd feed x).ctx? feed = some d ∧ d.h = c.h by
    obtain ⟨d, hd, hh⟩ := h
    exact ⟨d, hd, hh, nofun, nofun⟩
  by_cases ht : c.takesEnd x = true
  · have hoffer : (s.mapCtx feed (FeedContext.offerEnd x)).ctx? feed
        = some { c with e := c.endAfter x, state := .closing } :=
      (s.ctx?_mapCtx feed feed _ (FeedContext.offerEnd_feed x)).trans (by
        simp [hc, FeedContext.offerEnd_of_takes ht])
    have hrun : s.takeEnd feed x
        = ((s.mapCtx feed (FeedContext.offerEnd x)).afterMarks feed true).gapTest feed := by
      simp only [State.takeEnd, hc, ht, if_true]
    obtain ⟨u, y, d, hd, hfresh, -, -, hfin, -⟩ := State.afterMarks_spec hoffer true
    have hyh : y.h = c.h := (FeedContext.of_bare hfresh.bare (·.h) fun _ => rfl).trans (FeedContext.reachEnd_h _)
    have hdh : d.h = c.h := by
      rcases hfin with rfl | hfin
      · exact hyh
      · exact (FeedContext.of_bare hfin.bare (·.h) fun _ => rfl).trans hyh
    rw [hrun]
    refine ⟨_, State.ctx?_gapTest hd, ?_⟩
    split <;> exact hdh
  · have hrun : s.takeEnd feed x = s := by
      rw [State.takeEnd, hc]
      exact if_neg ht
    exact ⟨c, by rw [hrun]; exact hc, rfl⟩

/-! ### Placing a cell -/

theorem State.ring_reportRemoved (s : State) (feed n : Nat) : (s.reportRemoved feed n).ring = s.ring := by
  have htest : ∀ t : State, (t.gapTestAt feed n).ring = t.ring := fun t => by
    unfold State.gapTestAt
    split <;> rfl
  unfold State.reportRemoved
  split
  · split
    · rfl
    · split
      · exact htest _
      · rfl
  · rfl

/-- An entry removed is not found, and the others as before. -/
theorem State.entry?_removeEntry (s : State) (feed seq g q : Nat) :
    (s.removeEntry feed seq).entry? g q = if g = feed ∧ q = seq then none else s.entry? g q := by
  rw [← s.entry?_dropEntry feed seq g q]
  exact congrArg (List.find? (fun e : RingEntry => e.feed == g && e.seq == q)) (State.ring_reportRemoved _ feed seq)

/-- Room made for a cell leaves the entry of its own sequence number. -/
theorem State.entry?_makeRoom (s : State) (feed n : Nat) (new : Bool) :
    (s.makeRoom feed n new).entry? feed n = s.entry? feed n := by
  have hevict : ∀ fuel (t : State), (State.evict feed n new fuel t).entry? feed n = t.entry? feed n := fun fuel => by
    induction fuel with
    | zero => exact fun t => rfl
    | succ fuel ih =>
      intro t
      unfold State.evict
      split
      · rfl
      · split
        · rfl
        · next e he =>
          have hother := List.find?_some he
          simp only [Bool.and_eq_true, Bool.not_eq_true', Bool.and_eq_false_iff, beq_eq_false_iff_ne] at hother
          rw [ih, State.entry?_removeEntry, if_neg fun h => ?_]
          exact hother.2.elim (absurd h.1.symm) (absurd h.2.symm)
  exact hevict _ s

section
variable {plain : Bool} {feed n : Nat}

theorem State.waits_checkChunk (s : State)
    (hlast : plain = true → ∀ e, s.entry? feed n = some e → e.hdr.last = false) :
    s.Waits plain feed n (s.checkChunk feed n) := by
  unfold State.checkChunk
  split
  · exact .refl s
  · next e he =>
    split
    · split
      · have hwhole : s.Waits plain feed n ((s.mapEntry feed n (fun e => { e with whole := true })).reportWhole
            feed n e.hdr) := .after (State.waits_reportWhole _ e.hdr) rfl
        unfold State.reportLast
        split
        · next hl =>
          have hfalse : plain = false := by
            by_contra hp
            rw [hlast (by simpa using hp) e he] at hl
            cases hl
          subst hfalse
          exact hwhole.trans (State.waits_takeEnd _ feed n n)
        · exact hwhole
      · exact s.waits_removeEntry feed n
    · exact .refl s

end

/-- The report of a new entry leaves the ring. -/
theorem State.ring_reportCreated (s : State) (feed n : Nat) : (s.reportCreated feed n).ring = s.ring := by
  unfold State.reportCreated
  repeat' split
  all_goals rfl

/-- A cell placed where it does not end the feed keeps H and the gap waits of the other positions; and any
cell keeps H. -/
theorem State.waits_placeCell (s : State) (c : Cell) {plain : Bool} (hlast : plain = true → c.hdr.last = false) :
    s.Waits plain c.feed c.seq (s.placeCell c) := by
  have hdrop : ∀ t : State, t.Waits plain c.feed c.seq (t.dropCell c.feed) := fun t =>
    (State.Waits.of_eq (t := t.countPoolOverrun) rfl).trans
      (.mapCtx _ c.feed _ (fun _ => rfl) fun _ => .of_eq rfl rfl rfl rfl)
  have hroom : ∀ new, s.Waits plain c.feed c.seq (s.makeRoom c.feed c.seq new) := s.waits_makeRoom _ _
  unfold State.placeCell
  split
  · next hnone =>
    unfold State.createEntry
    have hfind := (s.entry?_makeRoom c.feed c.seq true).trans hnone
    revert hfind
    have hr := hroom true
    revert hr
    generalize s.makeRoom c.feed c.seq true = t
    intro hr hfind
    simp only
    split
    · refine (hr.trans ?_).trans (State.waits_checkChunk _ fun hp e he => ?_)
      · exact .after (State.waits_reportCreated _) rfl
      · rw [State.entry?, State.ring_reportCreated] at he
        simp only [State.countAccepted_ring, List.find?_append] at he
        simp only [State.entry?] at hfind
        rw [hfind] at he
        simp at he
        rw [← he]
        exact hlast hp
    · exact hr.trans (hdrop _)
  · next e he =>
    split
    · exact .of_eq rfl
    · next hsame =>
      split
      · exact .refl s
      · unfold State.storeCell
        have hfind := (s.entry?_makeRoom c.feed c.seq false).trans he
        revert hfind
        have hr := hroom false
        revert hr
        generalize s.makeRoom c.feed c.seq false = t
        intro hr hfind
        simp only
        split
        · refine hr.trans (.after (State.waits_checkChunk _ fun hp e' he' => ?_) rfl)
          have hmap := t.entry?_mapEntry c.feed c.seq c.feed c.seq
            (fun e => { e with cells := insertCell c.index c.payload e.cells }) fun _ => ⟨rfl, rfl⟩
          rw [hfind] at hmap
          obtain rfl : _ = e' := Option.some.inj (hmap.symm.trans he')
          have hhdr : e.hdr = c.hdr := by simpa using hsame
          simp [hhdr, hlast hp]
        · exact hr.trans (hdrop _)

/-! ### The sighting (R20) -/

/-- A context whose H rises to a sequence number, its allotment assessed. -/
def FeedContext.risen (c : FeedContext) (margin seq : Nat) : FeedContext :=
  ({ c with h := some seq } : FeedContext).assessAllotment margin

theorem FeedContext.risen_fields (c : FeedContext) (margin seq : Nat) :
    (c.risen margin seq).h = some seq ∧ (c.risen margin seq).state = c.state ∧ (c.risen margin seq).e = c.e
      ∧ (c.risen margin seq).positions = c.positions
      ∧ (c.params.slotCount ≤ seq + 1 + margin → (c.risen margin seq).flags.allotLow = true) := by
  unfold FeedContext.risen FeedContext.assessAllotment
  split
  · exact ⟨rfl, rfl, rfl, rfl, fun _ => rfl⟩
  · next hno => exact ⟨rfl, rfl, rfl, rfl, fun h => absurd h hno⟩

section
variable {s : State} {feed seq : Nat} {x : FeedContext}

/-- A sighting that does not raise H. -/
theorem State.sight_of_not_rising (hc : s.ctx? feed = some x) (hh : ¬Mark.ord x.h ≤ seq) :
    s.sight feed seq = s := by
  simp [State.sight, hc, hh]

/-- A sighting that raises H: the allotment is assessed and the gap waits are tested. -/
theorem State.ctx?_sight (hc : s.ctx? feed = some x) (hseq : seq < x.params.slotCount)
    (hh : Mark.ord x.h ≤ seq) :
    (s.sight feed seq).ctx? feed = some (if s.windowsRun then
      (x.risen s.settings.margin seq).waitsStarted (s.now + s.settings.gapWait)
      else x.risen s.settings.margin seq) := by
  have hrise : (s.mapCtx feed (fun c => c.risen s.settings.margin seq)).ctx? feed
      = some (x.risen s.settings.margin seq) :=
    (s.ctx?_mapCtx feed feed _ fun c => by unfold FeedContext.risen FeedContext.assessAllotment; split <;> rfl).trans
      (by simp [hc])
  have hrun : s.sight feed seq
      = (s.mapCtx feed (fun c => c.risen s.settings.margin seq)).gapTest feed := by
    simp only [State.sight, hc, hseq, hh, and_self, if_true]
    rfl
  rw [hrun]
  exact State.ctx?_gapTest hrise

theorem FeedContext.startWait_gapWait (c : FeedContext) (due : Nat) (p : Position) :
    (c.startWait due p).gapWait
      = if p.gapWait = none ∧ p.Awaits ∧ c.isBehind p.seq = true then some due else p.gapWait := by
  simp only [FeedContext.startWait, Position.awaits_iff, ← Option.isNone_iff_eq_none]
  by_cases hcond : (p.gapWait.isNone && p.empty && !p.complete && c.isBehind p.seq) = true
  · rw [if_pos hcond, if_pos (by simpa [and_assoc] using hcond)]
  · rw [if_neg hcond, if_neg (by simpa [and_assoc] using hcond)]

theorem FeedContext.pos?_waitsStarted (c : FeedContext) (due n : Nat) :
    (c.waitsStarted due).pos? n = (c.pos? n).map (c.startWait due) :=
  find?_map_key (p := fun p : Position => p.seq == n)
    (fun p => by simp only [(c.startWait_seq_pinned due p).1]) c.positions

/-- What a sighting makes of H, of the allotment and of the gap waits (R20, R83). -/
theorem State.sight_spec (hc : s.ctx? feed = some x) (hseq : seq < x.params.slotCount) :
    ∃ y, (s.sight feed seq).ctx? feed = some y ∧ y.h = Mark.higher x.h (some seq)
      ∧ (Mark.ord x.h ≤ seq → x.params.slotCount ≤ seq + 1 + s.settings.margin → y.flags.allotLow = true)
      ∧ y.state = x.state
      ∧ (s.windowsRun = true → Mark.ord x.h ≤ seq → ∀ n p, x.pos? n = some p → p.Awaits →
          ∃ q, y.pos? n = some q ∧ (q.gapWait = none → y.isBehind n = false)
            ∧ (p.gapWait = none → y.isBehind n = true → q.gapWait = some (s.now + s.settings.gapWait))
            ∧ (p.gapWait = none → y.isBehind n = false → q.gapWait = none)
            ∧ (p.gapWait ≠ none → q.gapWait = p.gapWait)) := by
  by_cases hh : Mark.ord x.h ≤ seq
  · obtain ⟨h1, h2, h3, h4, h5⟩ := x.risen_fields s.settings.margin seq
    have hhigher : Mark.higher x.h (some seq) = some seq := by
      apply Mark.ord_injective
      rw [Mark.ord_higher]
      have : Mark.ord (some seq) = seq + 1 := rfl
      omega
    have hsight := State.ctx?_sight hc hseq hh
    cases hw : s.windowsRun with
    | false =>
      rw [hw] at hsight
      exact ⟨_, hsight, h1.trans hhigher.symm, fun _ => h5, h2, nofun⟩
    | true =>
      rw [hw, if_pos rfl] at hsight
      refine ⟨_, hsight, h1.trans hhigher.symm, fun _ => h5, h2, fun _ _ n p hp haw => ?_⟩
      have hp' : (x.risen s.settings.margin seq).pos? n = some p := by
        simpa only [FeedContext.pos?, h4] using hp
      have hq := (x.risen s.settings.margin seq).pos?_waitsStarted (s.now + s.settings.gapWait) n
      rw [hp'] at hq
      have hn := FeedContext.pos?_seq hp
      have hwait := (x.risen s.settings.margin seq).startWait_gapWait (s.now + s.settings.gapWait) p
      rw [hn] at hwait
      have hsame : ((x.risen s.settings.margin seq).waitsStarted (s.now + s.settings.gapWait)).isBehind n
          = (x.risen s.settings.margin seq).isBehind n := rfl
      refine ⟨_, hq, fun hnone => ?_, fun hp hb => ?_, fun hp hb => ?_, fun hp => ?_⟩
      · rw [hsame]
        by_contra hb
        rw [hwait] at hnone
        split at hnone
        · cases hnone
        · next hno => exact hno ⟨hnone, haw, by simpa using hb⟩
      · rw [hwait, if_pos ⟨hp, haw, hsame ▸ hb⟩]
      · rw [hwait, if_neg fun h => by rw [hsame, h.2.2] at hb; cases hb]
        exact hp
      · rw [hwait, if_neg fun h => hp h.1]
  · refine ⟨x, by rw [State.sight_of_not_rising hc hh]; exact hc, ?_, fun h => absurd h hh, rfl,
      fun _ h => absurd h hh⟩
    apply Mark.ord_injective
    rw [Mark.ord_higher]
    have : Mark.ord (some seq) = seq + 1 := rfl
    omega

end

/-- A cell of a feed with a context below C is sighted and placed. -/
theorem State.takeCell_sighted {s : State} {c : Cell} {x : FeedContext} (hc : s.ctx? c.feed = some x)
    (hseq : c.seq < x.params.slotCount) : s.takeCell c = (s.sight c.feed c.seq).placeCell c := by
  simp only [State.takeCell, hc, if_neg (Nat.not_le.mpr hseq)]

theorem State.takeCell_beyond {s : State} {c : Cell} {x : FeedContext} (hc : s.ctx? c.feed = some x)
    (hseq : x.params.slotCount ≤ c.seq) : s.takeCell c = s.mapCtx c.feed FeedContext.latchLandOverrun := by
  simp only [State.takeCell, hc, if_pos hseq]

/-- The state in which a heard cell is taken: a mend cell has been reported to the answering side. -/
def State.reported (s : State) (mend : Bool) (c : Cell) : State :=
  if mend then s.seeMendCell c.feed c.seq c.index else s

theorem exec_cell {s : State} {f : Frame} {mend : Bool} {c : Cell} (h : s.HearsCell f mend c) {i : Instr}
    (hi : i ∈ receiveCommands f) : exec i s = .next ((s.reported mend c).takeCell c) := by
  rw [exec_receive hi, State.receiveFrame_cell h]
  rfl

/-- Settles O23: the sighting raises H and starts the gap waits, and placing the cell keeps both. -/
theorem cellSighted : Obligations.CellSighted := by
  intro s f mend c x hear hc overrun
  have hctx : (s.reported mend c).ctx? c.feed = some x := by cases mend <;> exact hc
  have hcmd : ∀ i ∈ [Instr.feedCell f, Instr.mendCell f], i ∈ receiveCommands f := fun i hi => by
    simp only [List.mem_cons, List.not_mem_nil, or_false] at hi
    rcases hi with rfl | rfl <;> simp [receiveCommands]
  refine ⟨fun hseq i hi => ?_, fun hseq i hi => ?_⟩
  · rw [exec_cell hear (hcmd i hi), State.takeCell_beyond hctx hseq]
    refine ⟨fun hm => ?_, fun hm => ?_⟩
    · subst hm
      rfl
    · subst hm
      exact ⟨_, rfl, rfl, rfl⟩
  · rw [exec_cell hear (hcmd i hi), State.takeCell_sighted hctx hseq]
    obtain ⟨y, hy, hyh, hylow, hyst, hwait⟩ := State.sight_spec hctx hseq
    have hmargin : (s.reported mend c).settings = s.settings := by cases mend <;> rfl
    have hnow : (s.reported mend c).now = s.now := by cases mend <;> rfl
    have hrun : (s.reported mend c).windowsRun = s.windowsRun := by cases mend <;> rfl
    rw [hmargin] at hylow
    rw [hrun, hnow, hmargin] at hwait
    obtain ⟨d, hd, hkept⟩ := State.waits_placeCell ((s.reported mend c).sight c.feed c.seq) c
      (plain := false) nofun y hy
    obtain ⟨d', hd', hcar⟩ := (State.keeps_placeCell ((s.reported mend c).sight c.feed c.seq) c).1 _ y hy
    obtain rfl : d = d' := Option.some.inj (hd.symm.trans hd')
    obtain ⟨-, -, -, -, -, -, hallot, -⟩ := hcar
    refine ⟨_, d, rfl, hd, hkept.h.trans hyh, fun h1 h2 => hallot (hylow h1 h2),
      fun hlive hh hlast n p hn hp haw => ?_⟩
    obtain ⟨d', hd', hk⟩ := State.waits_placeCell ((s.reported mend c).sight c.feed c.seq) c
      (plain := true) (fun _ => hlast) y hy
    obtain rfl : d = d' := Option.some.inj (hd.symm.trans hd')
    have hruns : s.windowsRun = true := by simp [State.windowsRun, hlive]
    obtain ⟨q, hq, hq1, hq2, hq3, hq4⟩ := hwait hruns hh n p hp haw
    obtain ⟨q', hq', hg⟩ := hk.waits rfl n q hn hq hq1
    have hord : Mark.ord y.h = c.seq + 1 := by
      rw [hyh, Mark.ord_higher]
      have : Mark.ord (some c.seq) = c.seq + 1 := rfl
      omega
    refine ⟨q', hq', fun hlt hnone => hg.trans (hq2 hnone ?_), fun hlt hact hnone => hg.trans (hq3 hnone ?_),
      fun hne => hg.trans (hq4 hne)⟩
    · simp only [FeedContext.isBehind, hord, Bool.or_eq_true, decide_eq_true_eq]
      exact .inl (by omega)
    · simp only [FeedContext.isBehind, hord, hyst, hact, Bool.or_eq_false_iff, decide_eq_false_iff_not]
      exact ⟨by omega, rfl⟩

end Sys2Proof.Machine
end

