-- ==== Sys2Proof/Proofs/Whole.lean ====
section
/-! The completing cell (R58): the chunk taken by the window (R80, R153), or the entry removed (R102). -/

namespace Sys2Proof.Machine

/-! ### A browse job handed over WITH CHUNK (R153) -/

/-- A WITH CHUNK job of a chunk as it is handed over: it waits, with the written set of the chunk and no age. -/
def FeedContext.HandsOver (c : FeedContext) (now seq : Nat) (h : ChunkHeader) (j : Job) : Prop :=
  j.feed = c.feed ∧ j.seq = seq ∧ j.kind = .withChunk ∧ j.stage = .waiting ∧ j.chunk = some h
    ∧ j.content = .present ∧ j.written = c.writtenSet h ∧ j.naturalFirst = c.naturalFrom h.first
    ∧ j.retrySpent = false ∧ j.ageAt now = 0

theorem FeedContext.chunkJob_handsOver (c : FeedContext) (uid seq now : Nat) (h : ChunkHeader) (held : Bool) :
    c.HandsOver now seq h ((c.chunkJob uid seq h).syncAge now held)
      ∧ ((c.chunkJob uid seq h).syncAge now held).uid = uid := by
  unfold Job.syncAge
  split
  · exact ⟨⟨rfl, rfl, rfl, rfl, rfl, rfl, rfl, rfl, rfl, by simp [Job.ageAt, FeedContext.chunkJob]⟩, rfl⟩
  · exact ⟨⟨rfl, rfl, rfl, rfl, rfl, rfl, rfl, rfl, rfl, by simp [Job.ageAt, FeedContext.chunkJob]⟩, rfl⟩

/-- The engine has drawn the job of a chunk from its waiting ones. -/
def State.jobDrawn (s : State) (feed seq : Nat) : Bool :=
  s.queueJobs.any (·.isFor feed seq) || s.shedJobs.any (·.isFor feed seq)

/-- The context after its chunk's written set was computed (R151). -/
def FeedContext.overrunLatched (c : FeedContext) (h : ChunkHeader) : FeedContext :=
  if c.overruns h then c.latchBrowseOverrun else c

theorem FeedContext.overrunLatched_fields (c : FeedContext) (h : ChunkHeader) :
    (c.overrunLatched h).positions = c.positions ∧ (c.overrunLatched h).counts = c.counts
      ∧ (c.overrunLatched h).flags.browseOverrun = (c.flags.browseOverrun || c.overruns h) := by
  unfold FeedContext.overrunLatched
  split
  · next ho => exact ⟨rfl, rfl, by simp [FeedContext.latchBrowseOverrun, ho]⟩
  · next ho => exact ⟨rfl, rfl, by simp [ho]⟩

theorem State.ctx?_latchOverrun {s : State} {feed : Nat} {c : FeedContext} (hc : s.ctx? feed = some c)
    (h : ChunkHeader) : (s.latchOverrun feed h).ctx? feed = some (c.overrunLatched h) :=
  (s.ctx?_mapCtx feed feed _ fun c => by split <;> rfl).trans (by simp [hc, FeedContext.overrunLatched])

section
variable {s : State} {feed : Nat} {c : FeedContext}

theorem State.handOverChunk_drawn (seq : Nat) (h : ChunkHeader)
    (hd : s.jobDrawn feed seq = true) : s.handOverChunk feed seq h = s := by
  unfold State.handOverChunk
  split
  · rfl
  · exact if_pos hd

theorem State.handOverChunk_new (hc : s.ctx? feed = some c) (seq : Nat) (h : ChunkHeader)
    (hd : s.jobDrawn feed seq = false) (hw : s.waitJobs.any (·.isFor feed seq) = false) :
    ∃ j n, c.HandsOver s.now seq h j ∧ s.handOverChunk feed seq h
      = ({ s with waitJobs := s.waitJobs ++ [j], nextUid := n } : State).latchOverrun feed h := by
  have hd' : ¬(s.queueJobs.any (·.isFor feed seq) || s.shedJobs.any (·.isFor feed seq)) = true :=
    fun hk => Bool.false_ne_true (hd.symm.trans hk)
  simp only [State.handOverChunk, hc, if_neg hd', hw, Bool.false_eq_true, if_false]
  exact ⟨_, _, (c.chunkJob_handsOver s.nextUid seq s.now h (s.browseHeld feed)).1, rfl⟩

theorem State.handOverChunk_again (hc : s.ctx? feed = some c) (seq : Nat) (h : ChunkHeader)
    (hd : s.jobDrawn feed seq = false) (hw : s.waitJobs.any (·.isFor feed seq) = true) :
    s.handOverChunk feed seq h = ({ s with waitJobs := s.waitJobs.map (fun j =>
      if j.isFor feed seq then (c.chunkJob j.uid seq h).syncAge s.now (s.browseHeld feed) else j) }
        : State).latchOverrun feed h := by
  have hd' : ¬(s.queueJobs.any (·.isFor feed seq) || s.shedJobs.any (·.isFor feed seq)) = true :=
    fun hk => Bool.false_ne_true (hd.symm.trans hk)
  simp only [State.handOverChunk, hc, if_neg hd', hw, if_true]

end

/-! ### A chunk taken by its position (R80) -/

/-- The position of a chunk that was taken: READY with its pin, its wait and its lost procedure over. -/
def Position.taken (now : Nat) (p : Position) : Position :=
  { p with land := .ready, hasRef := true, pinned := true, gapWait := none,
           readySince := if p.wantsLand || p.lost != .idle then some now else none,
           lost := .idle, req := none }

/-- The state in which the browse job of a chunk is handed over. -/
def State.chunkPinned (s : State) (feed seq : Nat) : State :=
  (((s.mapPos feed seq (Position.taken s.now)).pin feed seq).withdrawAsk feed seq).withdrawWaiting feed seq

section
variable {s : State} {feed seq : Nat} {c : FeedContext} {p : Position}

theorem State.takeChunk_eq (hc : s.ctx? feed = some c) (hp : c.pos? seq = some p) (h : ChunkHeader) :
    s.takeChunk feed seq h = if p.browse = some .waiting then
      (s.chunkPinned feed seq).handOverChunk feed seq h else s.chunkPinned feed seq := by
  have hpos : s.pos? feed seq = some p := by simp [State.pos?, hc, hp]
  simp only [State.takeChunk, hpos, beq_iff_eq]
  rfl

theorem State.contexts_chunkPinned : (s.chunkPinned feed seq).contexts
    = (s.mapPos feed seq (Position.taken s.now)).contexts := rfl

theorem State.ring_chunkPinned : (s.chunkPinned feed seq).ring = (s.pin feed seq).ring := rfl

theorem State.ctx?_chunkPinned (hc : s.ctx? feed = some c) :
    (s.chunkPinned feed seq).ctx? feed = some (c.mapPos seq (Position.taken s.now)) := by
  have hmap := s.ctx?_mapCtx feed feed (fun c => c.mapPos seq (Position.taken s.now)) fun _ => rfl
  rw [hc] at hmap
  rw [State.ctx?, State.contexts_chunkPinned]
  exact hmap.trans (by simp)

theorem State.entry?_chunkPinned :
    (s.chunkPinned feed seq).entry? feed seq = (s.entry? feed seq).map (fun e => { e with pins := e.pins + 1 }) := by
  have hmap := s.entry?_mapEntry feed seq feed seq (fun e => { e with pins := e.pins + 1 }) fun _ => ⟨rfl, rfl⟩
  rw [State.entry?, State.ring_chunkPinned]
  exact hmap.trans (by simp)

theorem State.jobs_chunkPinned : (s.chunkPinned feed seq).waitJobs = s.waitJobs
    ∧ (s.chunkPinned feed seq).queueJobs = s.queueJobs ∧ (s.chunkPinned feed seq).shedJobs = s.shedJobs
    ∧ (s.chunkPinned feed seq).now = s.now ∧ (s.chunkPinned feed seq).askQueue
      = s.askQueue.filter (fun a => !(a.feed == feed && a.seq == seq)) := by
  simp only [State.chunkPinned, State.withdrawWaiting_waitJobs, State.withdrawWaiting_queueJobs,
    State.withdrawWaiting_shedJobs, State.withdrawWaiting_now, State.withdrawWaiting_askQueue, State.withdrawAsk,
    State.pin, State.mapEntry, State.mapPos, State.mapCtx, and_self]

/-- Nothing of a position waits for storage after its waiting work is withdrawn. -/
theorem State.withdrawWaiting_none (s : State) (feed seq : Nat) :
    (∀ w ∈ (s.withdrawWaiting feed seq).waitChecks, w.feed = feed → seq ∉ w.seqs)
      ∧ WaitRewrite.fill feed seq ∉ (s.withdrawWaiting feed seq).waitRewrites := by
  constructor
  · intro w hw hf hseq
    obtain ⟨v, -, rfl⟩ := List.mem_map.mp (List.mem_filter.mp hw).1
    by_cases hv : (v.feed == feed) = true
    · rw [if_pos hv] at hseq
      simp at hseq
    · rw [if_neg hv] at hf
      exact hv (by simpa using hf)
  · simp [State.withdrawWaiting]

end

/-- The hand-over of a job reads no position. -/
theorem FeedContext.handsOver_mapPos (c : FeedContext) (n : Nat) (g : Position → Position) :
    (c.mapPos n g).HandsOver = c.HandsOver := rfl

theorem FeedContext.overruns_mapPos (c : FeedContext) (n : Nat) (g : Position → Position) (h : ChunkHeader) :
    (c.mapPos n g).overruns h = c.overruns h := rfl

/-- The browse job of a chunk that was taken, as R153 has it handed over: not, where it is not waited for or
the engine has drawn one; anew; or in the place of one that waits. -/
abbrev State.JobTaken (s t : State) (x d : FeedContext) (seq : Nat) (h : ChunkHeader) (b : Option BrowseState) :
    Prop :=
  (b ≠ some .waiting → t.waitJobs = s.waitJobs ∧ d.flags.browseOverrun = x.flags.browseOverrun)
    ∧ (b = some .waiting → s.hasJob x.feed seq = false →
        d.flags.browseOverrun = (x.flags.browseOverrun || x.overruns h)
        ∧ ∃ j, t.waitJobs = s.waitJobs ++ [j] ∧ x.HandsOver s.now seq h j)
    ∧ (b = some .waiting → s.jobDrawn x.feed seq = true →
        t.waitJobs = s.waitJobs ∧ d.flags.browseOverrun = x.flags.browseOverrun)
    ∧ (b = some .waiting → s.jobDrawn x.feed seq = false → s.waitJobs.any (·.isFor x.feed seq) = true →
        d.flags.browseOverrun = (x.flags.browseOverrun || x.overruns h)
        ∧ ∃ f : Job → Job, t.waitJobs = s.waitJobs.map (fun j => if j.isFor x.feed seq then f j else j)
          ∧ ∀ j, x.HandsOver s.now seq h (f j) ∧ (f j).uid = j.uid)

/-- The hand-over reads the jobs and the time of the state, and of the context what its window and H leave. -/
theorem State.JobTaken.of_same {s s' t : State} {x x' d : FeedContext} {seq : Nat} {h : ChunkHeader}
    {b : Option BrowseState} (k : s'.JobTaken t x' d seq h b) (hwait : s'.waitJobs = s.waitJobs)
    (hqueue : s'.queueJobs = s.queueJobs) (hshed : s'.shedJobs = s.shedJobs) (hnow : s'.now = s.now)
    (hhands : x'.HandsOver = x.HandsOver) (hfeed : x'.feed = x.feed)
    (hover : x'.overruns h = x.overruns h) (hflag : x'.flags.browseOverrun = x.flags.browseOverrun) :
    s.JobTaken t x d seq h b := by
  have hhas : s'.hasJob = s.hasJob := by
    funext f n
    simp only [State.hasJob, hwait, hqueue, hshed]
  have hdrawn : s'.jobDrawn = s.jobDrawn := by
    funext f n
    simp only [State.jobDrawn, hqueue, hshed]
  simpa only [State.JobTaken, hwait, hhas, hdrawn, hnow, hhands, hfeed, hover, hflag] using k

section
variable {s : State} {feed seq : Nat} {c : FeedContext}

theorem State.handOverChunk_taken (hc : s.ctx? feed = some c) (h : ChunkHeader) :
    ∃ y, (s.handOverChunk feed seq h).ctx? feed = some y ∧ y.positions = c.positions ∧ y.counts = c.counts
      ∧ s.JobTaken (s.handOverChunk feed seq h) c y seq h (some .waiting)
      ∧ (s.handOverChunk feed seq h).ring = s.ring ∧ (s.handOverChunk feed seq h).askQueue = s.askQueue
      ∧ (s.handOverChunk feed seq h).waitChecks = s.waitChecks
      ∧ (s.handOverChunk feed seq h).waitRewrites = s.waitRewrites := by
  have hfeed : c.feed = feed := State.ctx?_feed hc
  have hhas : s.hasJob feed seq = (s.waitJobs.any (·.isFor feed seq) || s.jobDrawn feed seq) := by
    simp only [State.hasJob, State.jobDrawn, Bool.or_assoc]
  unfold State.JobTaken
  rw [hfeed, hhas]
  obtain ⟨h1, h2, h3⟩ := c.overrunLatched_fields h
  cases hd : s.jobDrawn feed seq with
  | true =>
    rw [State.handOverChunk_drawn seq h hd]
    exact ⟨c, hc, rfl, rfl, ⟨fun hn => absurd rfl hn, by simp, fun _ _ => ⟨rfl, rfl⟩, nofun⟩, rfl, rfl, rfl, rfl⟩
  | false =>
    cases hw : s.waitJobs.any (·.isFor feed seq) with
    | false =>
      obtain ⟨j, n, hj, hrun⟩ := State.handOverChunk_new hc seq h hd hw
      rw [hrun]
      refine ⟨_, State.ctx?_latchOverrun (by exact hc) h, h1, h2, ⟨fun hn => absurd rfl hn,
        fun _ _ => ⟨h3, j, rfl, hj⟩, nofun, nofun⟩, rfl, rfl, rfl, rfl⟩
    | true =>
      rw [State.handOverChunk_again hc seq h hd hw]
      refine ⟨_, State.ctx?_latchOverrun (by exact hc) h, h1, h2, ⟨fun hn => absurd rfl hn, nofun, nofun,
        fun _ _ _ => ⟨h3, _, rfl, fun j => c.chunkJob_handsOver j.uid seq s.now h _⟩⟩, rfl, rfl, rfl, rfl⟩

/-- What taking a chunk does (R80): the position is READY with its pin, its ask and its waiting storage work
are withdrawn, and its browse job is handed over. -/
structure State.ChunkTaken (s t : State) (c d : FeedContext) (seq : Nat) (h : ChunkHeader) (p : Position) :
    Prop where
  counts : d.counts = c.counts
  pos : d.pos? seq = some (p.taken s.now)
  entry : t.entry? c.feed seq = (s.entry? c.feed seq).map (fun e => { e with pins := e.pins + 1 })
  asks : t.askQueue = s.askQueue.filter (fun a => !(a.feed == c.feed && a.seq == seq))
  checks : ∀ w ∈ t.waitChecks, w.feed = c.feed → seq ∉ w.seqs
  fills : WaitRewrite.fill c.feed seq ∉ t.waitRewrites
  job : s.JobTaken t c d seq h p.browse

theorem State.takeChunk_spec {p : Position} (hc : s.ctx? feed = some c) (hp : c.pos? seq = some p)
    (h : ChunkHeader) :
    ∃ d, (s.takeChunk feed seq h).ctx? feed = some d ∧ s.ChunkTaken (s.takeChunk feed seq h) c d seq h p := by
  have hfeed : c.feed = feed := State.ctx?_feed hc
  have hctx := State.ctx?_chunkPinned (seq := seq) hc
  have hpos : (c.mapPos seq (Position.taken s.now)).pos? seq = some (p.taken s.now) :=
    (c.pos?_mapPos seq seq (Position.taken s.now) fun _ => rfl).trans (by simp [hp])
  have hentry := State.entry?_chunkPinned (s := s) (feed := feed) (seq := seq)
  obtain ⟨hchecks, hfills⟩ :=
    (((s.mapPos feed seq (Position.taken s.now)).pin feed seq).withdrawAsk feed seq).withdrawWaiting_none feed seq
  obtain ⟨hwait, hqueue, hshed, hnow, hask⟩ := State.jobs_chunkPinned (s := s) (feed := feed) (seq := seq)
  rw [State.takeChunk_eq hc hp]
  split
  · next hb =>
    obtain ⟨y, hy, hyp, hyc, hjob, hring, hasks, hcheck, hrewrite⟩ := State.handOverChunk_taken (seq := seq) hctx h
    refine ⟨y, hy, ⟨hyc, ?_, ?_, ?_, ?_, ?_, ?_⟩⟩
    · simpa only [FeedContext.pos?, hyp] using hpos
    · rw [hfeed, ← hentry]
      exact congrArg (List.find? _) hring
    · rw [hasks, hask, hfeed]
    · rw [hcheck, hfeed]
      exact hchecks
    · rw [hrewrite, hfeed]
      exact hfills
    · rw [hb]
      exact hjob.of_same hwait hqueue hshed hnow (c.handsOver_mapPos _ _) rfl (c.overruns_mapPos _ _ h) rfl
  · next hb =>
    subst hfeed
    refine ⟨_, hctx, ⟨rfl, hpos, hentry, hask, hchecks, hfills, ?_⟩⟩
    exact ⟨fun _ => ⟨hwait, rfl⟩, fun h => absurd h hb, fun h => absurd h hb, fun h => absurd h hb⟩

end

/-! ### The report of a WHOLE chunk (R80) -/

/-- The report of chunk `seq` reaches the window: its context works it, its way is held and it lies within the
cap. -/
def FeedContext.Reaches (c : FeedContext) (seq : Nat) : Prop :=
  c.working = true ∧ c.windowBuilt = true ∧ seq ≤ c.cap
    ∧ (c.holds .landing (c.wayOf seq) = true ∨ c.holds .browse (c.wayOf seq) = true)

section
variable {s : State} {feed seq : Nat} {c : FeedContext} (h : ChunkHeader)

theorem State.reportWhole_unreached (hc : s.ctx? feed = some c) (hno : ¬c.Reaches seq) :
    s.reportWhole feed seq h = s := by
  simp only [State.reportWhole, hc]
  split
  · rfl
  · next hw =>
    split
    · rfl
    · next hheld =>
      split
      · rfl
      · next hcap =>
        simp only [Bool.or_eq_true, Bool.not_eq_true', not_or, Bool.not_eq_false] at hw hheld
        exact absurd ⟨hw.1.2, hw.2, Nat.le_of_not_lt hcap, by simpa [← not_or] using hheld⟩ hno

/-- The rows of R80, for a report that reaches the window. -/
theorem State.reportWhole_reached {b : Nat} (hrun : s.windowsRun = true) (hc : s.ctx? feed = some c)
    (hr : c.Reaches seq) (hb : c.base = some b) :
    (seq < b → s.reportWhole feed seq h = s.mapCtx feed FeedContext.countLate)
    ∧ (b + 512 ≤ seq → s.reportWhole feed seq h = s.mapCtx feed FeedContext.countAhead)
    ∧ (b ≤ seq → seq < b + 512 →
      (c.pos? seq = none → s.reportWhole feed seq h = s.mapCtx feed FeedContext.countLate)
      ∧ ∀ p, c.pos? seq = some p →
        ((p.landDone || p.complete) = true → s.reportWhole feed seq h = s.mapCtx feed FeedContext.countLate)
        ∧ ((p.landDone || p.complete) = false → (p.empty || (p.land == .checking && p.lost != .idle)) = true →
          s.reportWhole feed seq h = s.takeChunk feed seq h)) := by
  obtain ⟨hwork, hbuilt, hcap, hheld⟩ := hr
  have h1 : (!s.windowsRun || !c.working || !c.windowBuilt) = false := by simp [hrun, hwork, hbuilt]
  have h2 : (!(c.holds .landing (c.wayOf seq) || c.holds .browse (c.wayOf seq))) = false := by
    rcases hheld with hl | hl <;> simp [hl]
  have hrows : s.reportWhole feed seq h = if seq < b then s.mapCtx feed FeedContext.countLate
      else if b + Config.span ≤ seq then s.mapCtx feed FeedContext.countAhead
      else match c.pos? seq with
        | none => s.mapCtx feed FeedContext.countLate
        | some p =>
          if p.landDone || p.complete then s.mapCtx feed FeedContext.countLate
          else if p.empty || (p.land == .checking && p.lost != .idle) then s.takeChunk feed seq h
          else s := by
    simp only [State.reportWhole, hc, h1, h2, if_neg (Nat.not_lt.mpr hcap), hb, Bool.false_eq_true, if_false]
      <;> rfl
  rw [hrows]
  refine ⟨fun hlt => if_pos hlt, fun hge => ?_, fun hge hlt => ⟨fun hnone => ?_, fun p hp => ⟨fun hdone => ?_,
    fun hdone hopen => ?_⟩⟩⟩
  · rw [if_neg (by omega), if_pos (by exact hge)]
  all_goals rw [if_neg (by omega), if_neg (by exact Nat.not_le.mpr hlt)]
  · rw [hnone]
  · simp only [hp, hdone, if_true]
  · simp only [hp, hdone, hopen, Bool.false_eq_true, if_false, if_true]

end

/-- `s` is `u` after a sighting of chunk `seq` of the feed of context `x` and the ring's own work: what the
report of the chunk reads is the same but for the gap waits. -/
structure State.Sighted (u s : State) (x c : FeedContext) (seq : Nat) : Prop where
  waitJobs : s.waitJobs = u.waitJobs
  queueJobs : s.queueJobs = u.queueJobs
  shedJobs : s.shedJobs = u.shedJobs
  asks : s.askQueue = u.askQueue
  now : s.now = u.now
  pins : (s.entry? x.feed seq).map (·.pins) = (u.entry? x.feed seq).map (·.pins)
  ctx : ∃ h a ps, c = { x with h := h, flags := { x.flags with allotLow := a }, positions := ps }
  pos : c.pos? seq = none ∧ x.pos? seq = none ∨ ∃ p p', x.pos? seq = some p ∧ c.pos? seq = some p'
    ∧ p' = { p with gapWait := p'.gapWait }

/-- The rows of R80 by the position's landing state: its chunk is late, or it is taken. -/
theorem Position.late_of {p : Position} (hp : p.land = .landed ∨ p.land = .lost ∨ (p.wantsLand = false
    ∧ p.wantsBrowse = true ∧ (p.browse = some .done ∨ p.browse = some .shed))) :
    (p.landDone || p.complete) = true := by
  rcases hp with hl | hl | ⟨hl, hb, hd⟩
  · simp [Position.landDone, hl]
  · simp [Position.landDone, hl]
  · rcases hd with hd | hd <;> simp [Position.complete, Position.browseDone, hl, hd]

theorem Position.takes_of {p : Position} (hl : p.land = .absent ∨ p.land = .gathering
      ∨ (p.land = .checking ∧ p.lost ≠ .idle))
    (hw : p.wantsLand = true ∨ (p.wantsBrowse = true ∧ p.browse ≠ some .done ∧ p.browse ≠ some .shed)) :
    (p.landDone || p.complete) = false ∧ (p.empty || (p.land == .checking && p.lost != .idle)) = true := by
  have hdone : p.landDone = false := by
    rcases hl with hl | hl | ⟨hl, -⟩ <;> simp [Position.landDone, hl]
  have hopen : p.complete = false := by
    rcases hw with hw | ⟨hb, h1, h2⟩
    · simp [Position.complete, hw, hdone]
    · simp [Position.complete, Position.browseDone, hb, h1, h2]
  refine ⟨by simp [hdone, hopen], ?_⟩
  rcases hl with hl | hl | ⟨hl, hi⟩ <;> simp_all [Position.empty]

/-- The hand-over in the words of R80. -/
theorem State.JobTaken.clauses {u t : State} {x d : FeedContext} {seq : Nat} {h : ChunkHeader}
    {b : Option BrowseState} (k : u.JobTaken t x d seq h b) :
    (b ≠ some .waiting → t.waitJobs = u.waitJobs ∧ d.flags.browseOverrun = x.flags.browseOverrun)
    ∧ (b = some .waiting → u.hasJob x.feed seq = false →
        d.flags.browseOverrun = (x.flags.browseOverrun || x.overruns h)
        ∧ ∃ j, t.waitJobs = u.waitJobs ++ [j] ∧ j.feed = x.feed ∧ j.seq = seq
          ∧ j.kind = .withChunk ∧ j.stage = .waiting ∧ j.chunk = some h
          ∧ j.written = x.writtenSet h ∧ j.naturalFirst = x.naturalFrom h.first
          ∧ j.retrySpent = false ∧ j.ageAt u.now = 0)
    ∧ (b = some .waiting → (∃ j ∈ u.queueJobs ++ u.shedJobs, j.feed = x.feed ∧ j.seq = seq) →
        t.waitJobs = u.waitJobs ∧ d.flags.browseOverrun = x.flags.browseOverrun)
    ∧ (b = some .waiting → (∀ j ∈ u.queueJobs ++ u.shedJobs, ¬(j.feed = x.feed ∧ j.seq = seq)) →
        (∃ j ∈ u.waitJobs, j.feed = x.feed ∧ j.seq = seq) →
        d.flags.browseOverrun = (x.flags.browseOverrun || x.overruns h)
        ∧ t.waitJobs.length = u.waitJobs.length
        ∧ ∀ (i : Nat) (j : Job), u.waitJobs[i]? = some j →
          (¬(j.feed = x.feed ∧ j.seq = seq) → t.waitJobs[i]? = some j)
          ∧ (j.feed = x.feed → j.seq = seq → ∃ k, t.waitJobs[i]? = some k ∧ k.uid = j.uid
            ∧ k.feed = j.feed ∧ k.seq = j.seq ∧ k.kind = .withChunk ∧ k.stage = .waiting
            ∧ k.chunk = some h ∧ k.content = .present ∧ k.written = x.writtenSet h
            ∧ k.naturalFirst = x.naturalFrom h.first ∧ k.retrySpent = false ∧ k.ageAt u.now = 0)) := by
  obtain ⟨hidle, hnew, hdrawn, hagain⟩ := k
  have hfor : ∀ j : Job, j.isFor x.feed seq = true ↔ j.feed = x.feed ∧ j.seq = seq := fun j => by
    simp [Job.isFor]
  have hd : u.jobDrawn x.feed seq = true ↔ ∃ j ∈ u.queueJobs ++ u.shedJobs, j.feed = x.feed ∧ j.seq = seq := by
    rw [State.jobDrawn, ← List.any_append, List.any_eq_true]
    simp only [hfor]
  refine ⟨hidle, fun hb hno => ?_, fun hb hdr => hdrawn hb (hd.mpr hdr), fun hb hdr hw => ?_⟩
  · obtain ⟨hflag, j, hj, h1, h2, h3, h4, h5, -, h6⟩ := hnew hb hno
    exact ⟨hflag, j, hj, h1, h2, h3, h4, h5, h6⟩
  · have hdrawn : u.jobDrawn x.feed seq = false := by
      rw [← Bool.not_eq_true, hd]
      rintro ⟨j, hj, hk⟩
      exact hdr j hj hk
    have hany : u.waitJobs.any (·.isFor x.feed seq) = true := by
      rw [List.any_eq_true]
      simpa only [hfor] using hw
    obtain ⟨hflag, f, hjobs, hf⟩ := hagain hb hdrawn hany
    rw [hjobs]
    refine ⟨hflag, List.length_map .., fun i j hij => ⟨fun hno => ?_, fun h1 h2 => ?_⟩⟩
    · rw [List.getElem?_map, hij, Option.map_some, if_neg (mt (hfor j).mp hno)]
    · rw [List.getElem?_map, hij, Option.map_some, if_pos ((hfor j).mpr ⟨h1, h2⟩)]
      obtain ⟨⟨k1, k2, k3⟩, huid⟩ := hf j
      exact ⟨f j, rfl, huid, k1.trans h1.symm, k2.trans h2.symm, k3⟩

/-- A sighting leaves of the context all that the report of the chunk reads but the position's gap wait. -/
theorem State.Sighted.reads {u s : State} {x c : FeedContext} {seq : Nat} (hs : u.Sighted s x c seq) :
    (c.Reaches seq ↔ x.Reaches seq) ∧ c.heldMarks = x.heldMarks ∧ c.counts = x.counts ∧ c.feed = x.feed
      ∧ c.flags.browseOverrun = x.flags.browseOverrun ∧ c.HandsOver = x.HandsOver
      ∧ ∀ h, c.overruns h = x.overruns h := by
  obtain ⟨hh, a, ps, rfl⟩ := hs.ctx
  exact ⟨Iff.rfl, rfl, rfl, rfl, rfl, rfl, fun _ => rfl⟩

/-- A chunk that is late or ahead changes a count alone. -/
theorem State.ctx?_counted {s : State} {feed : Nat} {c : FeedContext} (hc : s.ctx? feed = some c)
    (f : FeedContext → FeedContext) (hf : ∀ c, (f c).feed = c.feed) : (s.mapCtx feed f).ctx? feed = some (f c) :=
  (s.ctx?_mapCtx feed feed f hf).trans (by simp [hc])

/-- The row of R80 that a position of the span decides. -/
theorem State.wholeReported_at {u s t : State} {x c d : FeedContext} {seq b : Nat} {h : ChunkHeader}
    {p p' : Position} (hs : u.Sighted s x c seq) (hx : x.Reaches seq) (hone : ∀ b', x.BaseIs b' → b' = b)
    (hge : b ≤ seq) (hlt : seq < b + 512) (hxp : x.pos? seq = some p)
    (hp' : p' = { p with gapWait := p'.gapWait })
    (hlate : (p.landDone || p.complete) = true → d.counts = { x.counts with late := x.counts.late + 1 })
    (htaken : (p.landDone || p.complete) = false →
      (p.empty || (p.land == .checking && p.lost != .idle)) = true → s.ChunkTaken t c d seq h p') :
    u.WholeReported t x d seq h := by
  obtain ⟨-, -, hcounts, hfeed, hflag, hhands, hover⟩ := hs.reads
  refine ⟨fun hno => absurd hx hno, fun _ b' hb' => ?_⟩
  obtain rfl := hone b' hb'
  refine ⟨fun h' => absurd h' (by omega), fun h' => absurd h' (by omega),
    fun _ _ => ⟨fun hn => absurd (hxp.symm.trans hn) (Option.some_ne_none p), fun q hq => ?_⟩⟩
  obtain rfl : p = q := Option.some.inj (hxp.symm.trans hq)
  refine ⟨fun hl => hlate (Position.late_of hl), fun hl hw => ?_⟩
  obtain ⟨hdone, hopen⟩ := Position.takes_of hl hw
  have htk := htaken hdone hopen
  have hjob := (htk.job.of_same hs.waitJobs hs.queueJobs hs.shedJobs hs.now hhands hfeed (hover h) hflag).clauses
  have hbrowse : p'.browse = p.browse := by rw [hp']
  have hentry := congrArg (Option.map (·.pins)) htk.entry
  have hasks := htk.asks
  have hchecks := htk.checks
  have hfills := htk.fills
  rw [hbrowse] at hjob
  rw [hfeed] at hentry hasks hchecks hfills
  refine ⟨htk.counts.trans hcounts, ⟨_, htk.pos, rfl, rfl, rfl, rfl, rfl, ?_⟩, ?_, ?_, hchecks, hfills, hjob⟩
  · have hready : (p'.taken s.now).readySince
        = if p.wantsLand || p.lost != .idle then some s.now else none := by rw [hp']; rfl
    rw [hready, hs.now]
    simp only [Bool.or_eq_true, bne_iff_ne]
  · have hpins := congrArg (Option.map (· + 1)) hs.pins
    simp only [Option.map_map] at hentry hpins
    exact hentry.trans hpins
  · rw [hasks, hs.asks]

/-- The report of a WHOLE chunk after its sighting, in the words of R80. -/
theorem State.reportWhole_taken {u s : State} {x c : FeedContext} {seq : Nat} (h : ChunkHeader)
    (hrun : s.windowsRun = true) (hc : s.ctx? x.feed = some c) (hs : u.Sighted s x c seq) :
    ∃ d, (s.reportWhole x.feed seq h).ctx? x.feed = some d
      ∧ u.WholeReported (s.reportWhole x.feed seq h) x d seq h := by
  obtain ⟨hreach, hmarks, hcounts, hfeed, hflag, hhands, hover⟩ := hs.reads
  by_cases hr : c.Reaches seq
  · have hbase : ∀ b, x.BaseIs b ↔ c.base = some b := fun b => by
      rw [c.base_eq_some_iff, FeedContext.BaseIs, FeedContext.BaseIs, hmarks]
    have hx : x.Reaches seq := hreach.mp hr
    cases hb : c.base with
    | none =>
      obtain ⟨d, hd, -⟩ := (s.keeps_reportWhole x.feed seq h).1 x.feed c hc
      refine ⟨d, hd, fun hno => absurd hx hno, fun _ b hb' => ?_⟩
      rw [(hbase b).mp hb'] at hb
      cases hb
    | some b =>
      obtain ⟨hlate, hahead, hspan⟩ := State.reportWhole_reached h hrun hc hr hb
      have hone : ∀ b', x.BaseIs b' → b' = b := fun b' hb' =>
        Option.some.inj (((hbase b').mp hb').symm.trans hb)
      have hlater : s.reportWhole x.feed seq h = s.mapCtx x.feed FeedContext.countLate →
          (s.reportWhole x.feed seq h).ctx? x.feed = some c.countLate := fun hrep => by
        rw [hrep]
        exact State.ctx?_counted hc FeedContext.countLate fun _ => rfl
      have hlatecount : c.countLate.counts = { x.counts with late := x.counts.late + 1 } := by
        rw [← hcounts]
        rfl
      by_cases h1 : seq < b
      · refine ⟨_, hlater (hlate h1), fun hno => absurd hx hno, fun _ b' hb' => ?_⟩
        obtain rfl := hone b' hb'
        exact ⟨fun _ => hlatecount, fun h' => absurd h' (by omega), fun h' => absurd h' (by omega)⟩
      · by_cases h2 : b + 512 ≤ seq
        · refine ⟨c.countAhead, ?_, fun hno => absurd hx hno, fun _ b' hb' => ?_⟩
          · rw [hahead h2]
            exact State.ctx?_counted hc FeedContext.countAhead fun _ => rfl
          · obtain rfl := hone b' hb'
            refine ⟨fun h' => absurd h' h1, fun _ => ?_, fun _ h' => absurd h' (by omega)⟩
            rw [← hcounts]
            rfl
        · obtain ⟨hnone, hsome⟩ := hspan (by omega) (by omega)
          rcases hs.pos with ⟨hcp, hxp⟩ | ⟨p, p', hxp, hcp, hp'⟩
          · refine ⟨_, hlater (hnone hcp), fun hno => absurd hx hno, fun _ b' hb' => ?_⟩
            obtain rfl := hone b' hb'
            refine ⟨fun h' => absurd h' h1, fun h' => absurd h' h2, fun _ _ => ⟨fun _ => hlatecount, fun p hp => ?_⟩⟩
            rw [hxp] at hp
            cases hp
          · obtain ⟨hdone, htake⟩ := hsome p' hcp
            have hd : (p'.landDone || p'.complete) = (p.landDone || p.complete) := by rw [hp']; rfl
            have ho : (p'.empty || (p'.land == .checking && p'.lost != .idle))
                = (p.empty || (p.land == .checking && p.lost != .idle)) := by rw [hp']; rfl
            rw [hd] at hdone
            rw [hd, ho] at htake
            cases hdp : (p.landDone || p.complete) with
            | true =>
              exact ⟨_, hlater (hdone hdp), State.wholeReported_at hs hx hone (by omega) (by omega) hxp hp'
                (fun _ => hlatecount) (by simp [hdp])⟩
            | false =>
              cases hop : (p.empty || (p.land == .checking && p.lost != .idle)) with
              | true =>
                obtain ⟨d, hd', htaken⟩ := State.takeChunk_spec hc hcp h
                rw [← htake hdp hop] at hd' htaken
                exact ⟨d, hd', State.wholeReported_at hs hx hone (by omega) (by omega) hxp hp' (by simp [hdp])
                  fun _ _ => htaken⟩
              | false =>
                obtain ⟨d, hd', -⟩ := (s.keeps_reportWhole x.feed seq h).1 x.feed c hc
                exact ⟨d, hd', State.wholeReported_at hs hx hone (by omega) (by omega) hxp hp' (by simp [hdp])
                  (by simp [hop])⟩
  · rw [State.reportWhole_unreached h hc hr]
    refine ⟨c, hc, fun _ => ⟨hcounts, hs.waitJobs, fun p hp => ?_⟩, fun hx => absurd (hreach.mpr hx) hr⟩
    rcases hs.pos with ⟨-, hxp⟩ | ⟨p', q, hxp, hcp, hq⟩
    · rw [hxp] at hp
      cases hp
    · obtain rfl : p' = p := Option.some.inj (hxp.symm.trans hp)
      exact ⟨q, hcp, by rw [hq], by rw [hq]⟩

end Sys2Proof.Machine
end

