-- ==== Sys2Proof/Proofs/Completing.lean ====
section
/-! The cell that completes an entry, from its arrival to the report of its chunk (R53, R57, R58, R59). -/

namespace Sys2Proof.Machine

/-! ### The steps of the completing cell -/

/-- A mend cell seen is what the answering side makes of it (R101). -/
theorem State.reported_eq (s : State) (mend : Bool) (c : Cell) : s.reported mend c = s.seen mend c := by
  cases mend with
  | false => rfl
  | true =>
    simp only [State.reported, State.seen, if_true, State.seeMendCell, State.mendSeen, State.stillOwes]
    congr 3
    funext x
    simp only [Bool.and_eq_true, beq_iff_eq, Bool.or_eq_true, Bool.not_eq_true', List.any_eq_true,
      List.contains_iff_mem, and_assoc]

theorem State.makeRoom_of_room {s : State} {new : Bool} (h : s.hasRoom new = true) (feed seq : Nat) :
    s.makeRoom feed seq new = s := by
  unfold State.makeRoom
  cases s.ring.length with
  | zero => rfl
  | succ n => simp only [State.evict, h, if_true]

/-- A cell stored in its entry. -/
def State.stored (s : State) (c : Cell) : State :=
  (s.mapEntry c.feed c.seq (fun e => { e with cells := insertCell c.index c.payload e.cells })).countAccepted

theorem insertCell_length (i : Nat) (payload : List Byte) (l : List (Nat × List Byte)) :
    (insertCell i payload l).length = l.length + 1 := by
  induction l with
  | nil => rfl
  | cons x l ih =>
    unfold insertCell
    split
    · rfl
    · exact congrArg Nat.succ ih

section
variable {s : State} {c : Cell} {e : RingEntry}

theorem State.placeCell_stored (he : s.entry? c.feed c.seq = some e) (hh : e.hdr = c.hdr)
    (hw : e.whole = false) (hi : c.index ∉ e.cells.map (·.1)) (hb : s.buffersUsed < Config.poolBuffers) :
    s.placeCell c = (s.stored c).checkChunk c.feed c.seq := by
  have hroom : s.hasRoom false = true := by simp [State.hasRoom, hb]
  have hne : (e.hdr != c.hdr) = false := by simp [hh]
  have hold : (e.whole || (e.cells.map (·.1)).contains c.index) = false := by
    simp only [hw, Bool.false_or, List.contains_eq_mem, decide_eq_false_iff_not]
    exact hi
  simp only [State.placeCell, he, hne, hold, Bool.false_eq_true, if_false, State.storeCell,
    State.makeRoom_of_room hroom, hroom, if_true]
  rfl

theorem State.entry?_stored (he : s.entry? c.feed c.seq = some e) :
    (s.stored c).entry? c.feed c.seq
      = some { e with cells := insertCell c.index c.payload e.cells } :=
  (s.entry?_mapEntry c.feed c.seq c.feed c.seq
    (fun e => { e with cells := insertCell c.index c.payload e.cells }) fun _ => ⟨rfl, rfl⟩).trans (by simp [he])

/-- The chunk of a completed entry passes its check: the entry is WHOLE and reported. -/
theorem State.checkChunk_passed (he : s.entry? c.feed c.seq = some e) (hw : e.whole = false)
    (hf : e.cells.length = e.hdr.cells) (hk : checkWord e.payload = e.hdr.check) :
    s.checkChunk c.feed c.seq = ((s.mapEntry c.feed c.seq (fun e => { e with whole := true })).reportWhole
      c.feed c.seq e.hdr).reportLast c.feed c.seq e.hdr := by
  simp [State.checkChunk, he, RingEntry.full, hf, hw, hk]

theorem State.checkChunk_failed (he : s.entry? c.feed c.seq = some e) (hw : e.whole = false)
    (hf : e.cells.length = e.hdr.cells) (hk : checkWord e.payload ≠ e.hdr.check) :
    s.checkChunk c.feed c.seq = s.removeEntry c.feed c.seq := by
  simp [State.checkChunk, he, RingEntry.full, hf, hw, hk]

end

/-- The entry of a chunk that passed its check. -/
def State.wholed (s : State) (c : Cell) : State :=
  (s.stored c).mapEntry c.feed c.seq (fun e => { e with whole := true })

/-- What the completing cell makes of its entry (R58). -/
theorem State.placeCell_completes {s : State} {c : Cell} {e : RingEntry}
    (he : s.entry? c.feed c.seq = some e) (hh : e.hdr = c.hdr)
    (hw : e.whole = false) (hi : c.index ∉ e.cells.map (·.1)) (hn : e.cells.length + 1 = e.hdr.cells)
    (hb : s.buffersUsed < Config.poolBuffers) :
    let word := checkWord (((insertCell c.index c.payload e.cells).flatMap (·.2)).take c.hdr.length)
    (word = c.hdr.check → s.placeCell c
        = ((s.wholed c).reportWhole c.feed c.seq c.hdr).reportLast c.feed c.seq c.hdr)
      ∧ (word ≠ c.hdr.check → s.placeCell c = (s.stored c).removeEntry c.feed c.seq) := by
  intro word
  have hfull : (insertCell c.index c.payload e.cells).length = e.hdr.cells :=
    (insertCell_length ..).trans hn
  have hent := State.entry?_stored he
  have hword : checkWord ({ e with cells := insertCell c.index c.payload e.cells } : RingEntry).payload = word := by
    rw [RingEntry.payload, hh]
  rw [State.placeCell_stored he hh hw hi hb]
  refine ⟨fun hk => ?_, fun hk => ?_⟩
  · rw [State.checkChunk_passed hent hw hfull (by rw [hword, hk, hh]), hh]
    rfl
  · exact State.checkChunk_failed hent hw hfull (by rw [hword, hh]; exact hk)

/-- The ring after the completing cell passed or failed. -/
theorem State.ring_wholed (s : State) (c : Cell) : (s.wholed c).ring = s.ring.map (fun x =>
    if x.feed == c.feed && x.seq == c.seq then
      { x with cells := insertCell c.index c.payload x.cells, whole := true } else x) := by
  simp only [State.wholed, State.stored, State.mapEntry, State.countAccepted, List.map_map]
  refine List.map_congr_left fun x _ => ?_
  cases hx : (x.feed == c.feed && x.seq == c.seq) <;>
    simp only [Function.comp_apply, hx, Bool.false_eq_true, if_true, if_false]

theorem State.wholed_eq (s : State) (c : Cell) : s.wholed c = { s with
    ring := s.ring.map (fun x => if x.feed == c.feed && x.seq == c.seq then
      { x with cells := insertCell c.index c.payload x.cells, whole := true } else x)
    counters := { s.counters with cellsAccepted := s.counters.cellsAccepted + 1 } } := by
  rw [← State.ring_wholed]
  rfl

theorem State.windowsRun_wholed (s : State) (c : Cell) : (s.wholed c).windowsRun = s.windowsRun := rfl

theorem State.ctx?_wholed (s : State) (c : Cell) (feed : Nat) : (s.wholed c).ctx? feed = s.ctx? feed := rfl

theorem State.ring_dropped (s : State) (c : Cell) :
    (s.stored c).ring.filter (fun x => !(x.feed == c.feed && x.seq == c.seq))
      = s.ring.filter (fun x => !(x.feed == c.feed && x.seq == c.seq)) := by
  simp only [State.stored, State.mapEntry, State.countAccepted]
  induction s.ring with
  | nil => rfl
  | cons x l ih =>
    rw [List.map_cons, List.filter_cons, List.filter_cons, ih]
    cases hx : (x.feed == c.feed && x.seq == c.seq) <;> simp only [hx, Bool.not_true, Bool.not_false, Bool.false_eq_true, if_true, if_false]

/-! ### A feed with no context -/

section
variable {s : State} {c : Cell} (hc : s.ctx? c.feed = none)
include hc

theorem State.wholed_quiet : ((s.wholed c).reportWhole c.feed c.seq c.hdr).reportLast c.feed c.seq c.hdr
    = s.wholed c := by
  have hctx : (s.wholed c).ctx? c.feed = none := hc
  have hrep : (s.wholed c).reportWhole c.feed c.seq c.hdr = s.wholed c := by
    simp only [State.reportWhole, hctx]
  rw [hrep]
  unfold State.reportLast
  split
  · simp only [State.takeEnd, hctx]
  · rfl

theorem State.removed_quiet : (s.stored c).removeEntry c.feed c.seq = { s with
    ring := s.ring.filter (fun x => !(x.feed == c.feed && x.seq == c.seq))
    answers := s.answers.filter (fun x => !(x.feed == c.feed && x.seq == c.seq))
    mendQueue := s.mendQueue.filter (fun m => !(m.feed == c.feed && m.seq == c.seq))
    counters := { s.counters with cellsAccepted := s.counters.cellsAccepted + 1 } } := by
  have hpos : ((s.stored c).dropEntry c.feed c.seq).pos? c.feed c.seq = none := by
    have hctx : ((s.stored c).dropEntry c.feed c.seq).ctx? c.feed = none := hc
    simp [State.pos?, hctx]
  have hrep : ((s.stored c).dropEntry c.feed c.seq).reportRemoved c.feed c.seq
      = (s.stored c).dropEntry c.feed c.seq := by
    unfold State.reportRemoved
    simp only [hpos, ite_self]
  rw [State.removeEntry, State.reportRemoval, hrep, ← State.ring_dropped]
  rfl

end

/-! ### A feed with a context -/

/-- The start of a gap wait changes nothing else of a position. -/
theorem FeedContext.startWait_eq (c : FeedContext) (due : Nat) (p : Position) :
    c.startWait due p = { p with gapWait := (c.startWait due p).gapWait } := by
  unfold FeedContext.startWait
  split <;> rfl

/-- A position whose entry left the ring is ABSENT, and keeps its attempts and restarts (R81). -/
theorem State.reportRemoved_pos {s : State} {feed n : Nat} {c : FeedContext} {p : Position}
    (hrun : s.windowsRun = true) (hc : s.ctx? feed = some c) (hp : c.pos? n = some p)
    (hl : p.land = .gathering) (href : p.hasRef = true) :
    ∃ d q, (s.reportRemoved feed n).ctx? feed = some d ∧ d.pos? n = some q
      ∧ q = { p with land := .absent, hasRef := false, gapWait := q.gapWait } := by
  have hpos : s.pos? feed n = some p := by simp [State.pos?, hc, hp]
  have hrep : s.reportRemoved feed n
      = (s.mapPos feed n (fun p => { p with land := .absent, hasRef := false })).gapTestAt feed n := by
    simp [State.reportRemoved, hrun, hpos, hl, href]
  have hmap : (s.mapPos feed n (fun p => { p with land := .absent, hasRef := false })).ctx? feed
      = some (c.mapPos n (fun p => { p with land := .absent, hasRef := false })) :=
    State.ctx?_counted hc (fun c => c.mapPos n (fun p => { p with land := .absent, hasRef := false })) fun _ => rfl
  have hmpos : (c.mapPos n (fun p => { p with land := .absent, hasRef := false })).pos? n
      = some { p with land := .absent, hasRef := false } :=
    (c.pos?_mapPos n n (fun p => { p with land := .absent, hasRef := false }) fun _ => rfl).trans (by simp [hp])
  have htest : (s.mapPos feed n (fun p => { p with land := .absent, hasRef := false })).gapTestAt feed n
      = (s.mapPos feed n (fun p => { p with land := .absent, hasRef := false })).mapCtx feed (fun c =>
        c.mapPos n (c.startWait (s.now + s.settings.gapWait))) := if_pos hrun
  rw [hrep, htest]
  refine ⟨_, _, State.ctx?_counted hmap _ fun _ => by rfl, (FeedContext.pos?_mapPos _ n n _ fun p =>
    (FeedContext.startWait_seq_pinned _ _ p).1).trans (by rw [hmpos]; rfl), ?_⟩
  simp only [beq_self_eq_true, if_true]
  exact FeedContext.startWait_eq ..

/-- What a sighting leaves of a context: all but H, ALLOT LOW and gap waits. -/
theorem State.sight_leaves {s : State} {feed seq : Nat} {x : FeedContext} (hc : s.ctx? feed = some x)
    (hseq : seq < x.params.slotCount) :
    ∃ y, (s.sight feed seq).ctx? feed = some y
      ∧ (∃ h a ps, y = { x with h := h, flags := { x.flags with allotLow := a }, positions := ps })
      ∧ ∀ n, y.pos? n = none ∧ x.pos? n = none ∨ ∃ p p', x.pos? n = some p ∧ y.pos? n = some p'
          ∧ p' = { p with gapWait := p'.gapWait } := by
  have hsame : ∀ y : FeedContext, y.positions = x.positions →
      ∀ n, y.pos? n = none ∧ x.pos? n = none ∨ ∃ p p', x.pos? n = some p ∧ y.pos? n = some p'
          ∧ p' = { p with gapWait := p'.gapWait } := fun y hy n => by
    have hn : y.pos? n = x.pos? n := by simp only [FeedContext.pos?, hy]
    cases hp : x.pos? n with
    | none => exact .inl ⟨hn.trans hp, rfl⟩
    | some p => exact .inr ⟨p, p, rfl, hn.trans hp, rfl⟩
  by_cases hh : Mark.ord x.h ≤ seq
  · have hrisen : ∃ a, x.risen s.settings.margin seq
        = { x with h := some seq, flags := { x.flags with allotLow := a } } := by
      unfold FeedContext.risen FeedContext.assessAllotment
      split
      · exact ⟨true, rfl⟩
      · exact ⟨x.flags.allotLow, rfl⟩
    obtain ⟨a, ha⟩ := hrisen
    have hsight := State.ctx?_sight hc hseq hh
    cases hw : s.windowsRun with
    | false =>
      rw [hw] at hsight
      exact ⟨_, hsight, ⟨some seq, a, x.positions, ha⟩, hsame _ (x.risen_fields _ _).2.2.2.1⟩
    | true =>
      rw [hw, if_pos rfl] at hsight
      refine ⟨_, hsight, ⟨some seq, a, _, by rw [ha]; rfl⟩, fun n => ?_⟩
      rw [FeedContext.pos?_waitsStarted]
      rcases hsame _ (x.risen_fields s.settings.margin seq).2.2.2.1 n with ⟨h1, h2⟩ | ⟨p, p', h1, h2, h3⟩
      · exact .inl ⟨by rw [h1]; rfl, h2⟩
      · refine .inr ⟨p, _, h1, by rw [h2]; rfl, ?_⟩
        have hstart := (x.risen s.settings.margin seq).startWait_eq (s.now + s.settings.gapWait) p'
        rw [h3] at hstart ⊢
        exact hstart
  · rw [State.sight_of_not_rising hc hh]
    exact ⟨x, hc, ⟨x.h, x.flags.allotLow, x.positions, rfl⟩, hsame x rfl⟩

/-- A sighting changes the contexts alone. -/
theorem State.sight_rest (s : State) (feed seq : Nat) : { s.sight feed seq with contexts := s.contexts } = s := by
  unfold State.sight
  split
  · rfl
  · split
    · unfold State.gapTest
      split <;> rfl
    · rfl

theorem State.ring_sight (s : State) (feed seq : Nat) : (s.sight feed seq).ring = s.ring :=
  (congrArg State.ring (s.sight_rest feed seq) :)

/-- What the failing chunk leaves beside its window (R102). -/
theorem State.removed_frame (s : State) (c : Cell) :
    ((s.stored c).removeEntry c.feed c.seq).ring
        = s.ring.filter (fun x => !(x.feed == c.feed && x.seq == c.seq))
      ∧ ((s.stored c).removeEntry c.feed c.seq).answers
        = s.answers.filter (fun x => !(x.feed == c.feed && x.seq == c.seq))
      ∧ ((s.stored c).removeEntry c.feed c.seq).mendQueue
        = s.mendQueue.filter (fun m => !(m.feed == c.feed && m.seq == c.seq))
      ∧ ((s.stored c).removeEntry c.feed c.seq).counters
        = { s.counters with cellsAccepted := s.counters.cellsAccepted + 1 } := by
  have hframe := ((s.stored c).dropEntry c.feed c.seq).frame_reportRemoved c.feed c.seq
  have hring := ((s.stored c).dropEntry c.feed c.seq).ring_reportRemoved c.feed c.seq
  refine ⟨hring.trans (s.ring_dropped c), ?_, ?_, hframe.observe (·.counters) fun _ => rfl⟩
  · exact congrArg (List.filter _) (hframe.observe (·.answers) fun _ => rfl)
  · exact congrArg (List.filter _) (hframe.observe (·.mendQueue) fun _ => rfl)

/-- The failing chunk of a GATHERING position (R81). -/
theorem State.removed_pos {s : State} {c : Cell} {y : FeedContext} {p : Position} (hrun : s.windowsRun = true)
    (hc : s.ctx? c.feed = some y) (hp : y.pos? c.seq = some p) (hl : p.land = .gathering)
    (href : p.hasRef = true) :
    ∃ d q, ((s.stored c).removeEntry c.feed c.seq).ctx? c.feed = some d ∧ d.pos? c.seq = some q
      ∧ q = { p with land := .absent, hasRef := false, gapWait := q.gapWait } :=
  State.reportRemoved_pos (s := (s.stored c).dropEntry c.feed c.seq) hrun hc hp hl href

/-- Entries of states with the same chunks differ in their pins alone. -/
theorem State.entry?_of_chunks {s t : State} (h : t.chunks = s.chunks) {feed seq : Nat} {e : RingEntry}
    (he : s.entry? feed seq = some e) : ∃ n, t.entry? feed seq = some { e with pins := n } := by
  have hfind : ∀ u : State, (u.entry? feed seq).map (fun e => { e with pins := 0 })
      = u.chunks.find? (fun e => e.feed == feed && e.seq == seq) := fun u =>
    (find?_map_key (p := fun e : RingEntry => e.feed == feed && e.seq == seq) (fun _ => by rfl) u.ring).symm
  have hmap : (t.entry? feed seq).map (fun e => { e with pins := 0 }) = some { e with pins := 0 } := by
    rw [hfind t, h, ← hfind s, he]
    rfl
  obtain ⟨e', he', heq⟩ := Option.map_eq_some_iff.mp hmap
  refine ⟨e'.pins, he'.trans (congrArg some ?_)⟩
  cases e
  cases e'
  simp only [RingEntry.mk.injEq] at heq ⊢
  obtain ⟨h1, h2, h3, h4, h5, -⟩ := heq
  exact ⟨h1, h2, h3, h4, h5, trivial⟩

theorem State.frame_reportLast (s : State) (feed seq : Nat) (h : ChunkHeader) :
    s.SameOutside (s.reportLast feed seq h) := by
  unfold State.reportLast
  split
  · exact s.frame_takeEnd feed seq
  · exact .refl s

theorem State.entry?_wholed {s : State} {c : Cell} {e : RingEntry} (he : s.entry? c.feed c.seq = some e) :
    (s.wholed c).entry? c.feed c.seq
      = some { e with cells := insertCell c.index c.payload e.cells, whole := true } :=
  ((s.stored c).entry?_mapEntry c.feed c.seq c.feed c.seq (fun e => { e with whole := true })
    fun _ => ⟨rfl, rfl⟩).trans (by simp [State.entry?_stored he])

/-- The passing chunk: its entry is WHOLE, and the cell is counted. -/
theorem State.wholed_frame {s : State} {c : Cell} {e : RingEntry} (he : s.entry? c.feed c.seq = some e)
    (h : ChunkHeader) :
    let t := ((s.wholed c).reportWhole c.feed c.seq h).reportLast c.feed c.seq h
    t.counters = { s.counters with cellsAccepted := s.counters.cellsAccepted + 1 }
      ∧ ∃ n, t.entry? c.feed c.seq
          = some { e with cells := insertCell c.index c.payload e.cells, whole := true, pins := n } := by
  have hframe := ((s.wholed c).frame_reportWhole c.feed c.seq h).trans
    (State.frame_reportLast _ c.feed c.seq h)
  obtain ⟨n, hn⟩ := State.entry?_of_chunks hframe.2.2 (State.entry?_wholed he)
  exact ⟨hframe.observe (·.counters) fun _ => rfl, n, hn⟩

/-- `d` takes a candidate for E as `c` does. -/
def FeedContext.EndsAs (c d : FeedContext) : Prop :=
  d.working = c.working ∧ ∀ x, d.endAfter x = c.endAfter x

theorem FeedContext.EndsAs.of_same {c d : FeedContext} (hs : d.state = c.state) (he : d.e = c.e)
    (hp : d.params = c.params) (hpub : d.published = c.published) (hm : d.heldMarks = c.heldMarks) :
    FeedContext.EndsAs c d :=
  ⟨by simp only [FeedContext.working, hs],
    fun x => by simp only [FeedContext.endAfter, FeedContext.endFloor, he, hp, hpub, hm]⟩

/-- The report of a WHOLE chunk leaves what a candidate for E reads. -/
theorem State.reportWhole_ends {s : State} {feed seq : Nat} {c : FeedContext} (hc : s.ctx? feed = some c)
    (h : ChunkHeader) :
    ∃ d, (s.reportWhole feed seq h).ctx? feed = some d ∧ FeedContext.EndsAs c d := by
  have hlate : ∃ d, (s.mapCtx feed FeedContext.countLate).ctx? feed = some d ∧ FeedContext.EndsAs c d :=
    ⟨_, State.ctx?_counted hc FeedContext.countLate fun _ => rfl, .of_same rfl rfl rfl rfl rfl⟩
  have hahead : ∃ d, (s.mapCtx feed FeedContext.countAhead).ctx? feed = some d ∧ FeedContext.EndsAs c d :=
    ⟨_, State.ctx?_counted hc FeedContext.countAhead fun _ => rfl, .of_same rfl rfl rfl rfl rfl⟩
  have htake : ∃ d, (s.takeChunk feed seq h).ctx? feed = some d ∧ FeedContext.EndsAs c d := by
    obtain ⟨d, hd, hk⟩ := (s.at_takeChunk feed seq h).ctx c hc
    have hb := FeedContext.bare_of_outline hk.outline
    exact ⟨d, hd, .of_same (FeedContext.of_bare hb (·.state) fun _ => rfl)
      (FeedContext.of_bare hb (·.e) fun _ => rfl) (FeedContext.of_bare hb (·.params) fun _ => rfl) hk.published
      (FeedContext.heldMarks_of_bare hb)⟩
  have hsame : ∃ d, s.ctx? feed = some d ∧ FeedContext.EndsAs c d := ⟨c, hc, .of_same rfl rfl rfl rfl rfl⟩
  unfold State.reportWhole
  rw [hc]
  simp only
  repeat' split
  all_goals assumption

/-- A candidate for E of a working context gives it the E of R13. -/
theorem State.takeEnd_e {s : State} {feed x : Nat} {c : FeedContext} (hc : s.ctx? feed = some c)
    (hw : c.working = true) : ∃ d, (s.takeEnd feed x).ctx? feed = some d ∧ d.e = c.endAfter x := by
  by_cases ht : c.takesEnd x = true
  · obtain ⟨d, hd, he, -⟩ := State.takeEnd_spec hc ht
    exact ⟨d, hd, he⟩
  · refine ⟨c, ?_, ?_⟩
    · rw [State.takeEnd, hc]
      exact (congrArg (State.ctx? · feed) (if_neg ht)).trans hc
    · simpa [FeedContext.takesEnd, hw] using ht

/-- The chunk that completes the feed gives its end (R15, R59). -/
theorem State.wholed_end {s : State} {c : Cell} {y x : FeedContext} (hc : s.ctx? c.feed = some y)
    (hxy : FeedContext.EndsAs x y) (hl : c.hdr.last = true) (hw : x.working = true) :
    ∃ d, (((s.wholed c).reportWhole c.feed c.seq c.hdr).reportLast c.feed c.seq c.hdr).ctx? c.feed = some d
      ∧ d.e = x.endAfter c.seq := by
  obtain ⟨z, hz, hzy⟩ := State.reportWhole_ends (s := s.wholed c) (seq := c.seq) hc c.hdr
  obtain ⟨d, hd, he⟩ := State.takeEnd_e (x := c.seq) hz (hzy.1.trans (hxy.1.trans hw))
  refine ⟨d, ?_, he.trans ((hzy.2 _).trans (hxy.2 _))⟩
  rw [State.reportLast, if_pos hl]
  exact hd

/-- Settles O21: the cell is stored, its entry passes or fails, and the window takes the report. -/
theorem ringChecksChunk : Obligations.RingChecksChunk := by
  intro s f mend c e hear he hh hw hi hn hb u i full word accepted
  have hcmd : i ∈ receiveCommands f := by
    change cellCommand mend f ∈ receiveCommands f
    cases mend <;> simp [cellCommand, receiveCommands]
  have hrun : exec i s = .next (u.takeCell c) := by
    rw [exec_cell hear hcmd, State.reported_eq]
  have hring : u.ring = s.ring := by cases mend <;> rfl
  have hcnt : u.counters = s.counters := by cases mend <;> rfl
  have hctx : u.ctx? c.feed = s.ctx? c.feed := by cases mend <;> rfl
  have hstation : u.station = s.station := by cases mend <;> rfl
  refine ⟨fun hc => ?none, fun x hc hseq => ?some⟩
  case none =>
    have hcu : u.ctx? c.feed = none := hctx.trans hc
    have hue : u.entry? c.feed c.seq = some e := by simpa only [State.entry?, hring] using he
    have hub : u.buffersUsed < Config.poolBuffers := by simpa only [State.buffersUsed, hring] using hb
    obtain ⟨hpass, hfail⟩ := State.placeCell_completes hue hh hw hi hn hub
    have hplace : u.takeCell c = u.placeCell c := by simp only [State.takeCell, hcu]
    rw [hrun, hplace]
    refine ⟨fun hk => ?_, fun hk => ?_⟩
    · rw [hpass hk, State.wholed_quiet hcu, State.wholed_eq, hring, hcnt]
    · rw [hfail hk, State.removed_quiet hcu, hring, hcnt]
  case some =>
    have hcu : u.ctx? c.feed = some x := hctx.trans hc
    obtain ⟨y, hy, hyx, hypos⟩ := State.sight_leaves hcu hseq
    have hframe := u.frame_sight c.feed c.seq
    have hwring : (u.sight c.feed c.seq).ring = s.ring := (u.ring_sight c.feed c.seq).trans hring
    have hwe : (u.sight c.feed c.seq).entry? c.feed c.seq = some e := by
      simpa only [State.entry?, hwring] using he
    have hwb : (u.sight c.feed c.seq).buffersUsed < Config.poolBuffers := by
      simpa only [State.buffersUsed, hwring] using hb
    have hwcnt : (u.sight c.feed c.seq).counters = s.counters :=
      (hframe.observe (·.counters) fun _ => rfl).trans hcnt
    have hwrun : s.station = .live → (u.sight c.feed c.seq).windowsRun = true := fun hlive =>
      (hframe.observe (·.windowsRun) fun _ => rfl).trans (by simp [State.windowsRun, hstation, hlive])
    have hplace : u.takeCell c = (u.sight c.feed c.seq).placeCell c := State.takeCell_sighted hcu hseq
    obtain ⟨hpass, hfail⟩ := State.placeCell_completes hwe hh hw hi hn hwb
    have hyself : x.feed = c.feed := State.ctx?_feed hcu
    have hends : FeedContext.EndsAs x y := by
      obtain ⟨_, _, _, rfl⟩ := hyx
      exact .of_same rfl rfl rfl rfl rfl
    obtain ⟨d, hd, -⟩ := (State.keeps_placeCell (u.sight c.feed c.seq) c).1 c.feed y hy
    rw [hrun, hplace]
    refine ⟨_, d, rfl, hd, ?counters, fun hk => ?failed, fun hk => ?passed⟩
    case counters =>
      by_cases hk : word = c.hdr.check
      · rw [hpass hk, (State.wholed_frame hwe c.hdr).1, hwcnt]
      · rw [hfail hk, (State.removed_frame _ c).2.2.2, hwcnt]
    case failed =>
      obtain ⟨h1, h2, h3, -⟩ := State.removed_frame (u.sight c.feed c.seq) c
      rw [hfail hk] at hd ⊢
      refine ⟨h1.trans (congrArg _ hwring), h2.trans (congrArg _ (hframe.observe (·.answers) fun _ => rfl)),
        h3.trans (congrArg _ (hframe.observe (·.mendQueue) fun _ => rfl)), fun p hlive hp hl href => ?_⟩
      rcases hypos c.seq with ⟨-, hnone⟩ | ⟨p₀, p', hp₀, hp', heq⟩
      · rw [hnone] at hp
        cases hp
      · obtain rfl : p₀ = p := Option.some.inj (hp₀.symm.trans hp)
        obtain ⟨d', q, hd', hq, hqe⟩ := State.removed_pos (hwrun hlive) hy hp' (by rw [heq]; exact hl)
          (by rw [heq]; exact href)
        obtain rfl : d = d' := Option.some.inj (hd.symm.trans hd')
        rw [hqe] at hq
        refine ⟨_, hq, rfl, rfl, ?_, ?_⟩ <;> rw [heq]
    case passed =>
      rw [hpass hk] at hd ⊢
      refine ⟨(State.wholed_frame hwe c.hdr).2, fun hl hw => ?_, fun hlive => ?_⟩
      · obtain ⟨d', hd', he'⟩ := State.wholed_end hy hends hl hw
        obtain rfl : d = d' := Option.some.inj (hd.symm.trans hd')
        exact he'
      · have hrest := u.sight_rest c.feed c.seq
        have hsighted : u.Sighted ((u.sight c.feed c.seq).wholed c) x y c.seq :=
          { waitJobs := (congrArg State.waitJobs hrest :)
            queueJobs := (congrArg State.queueJobs hrest :)
            shedJobs := (congrArg State.shedJobs hrest :)
            asks := (congrArg State.askQueue hrest :)
            now := (congrArg State.now hrest :)
            pins := by
              have hue : u.entry? c.feed c.seq = some e := by simpa only [State.entry?, hring] using he
              rw [hyself, State.entry?_wholed hwe, hue]
              rfl
            ctx := hyx
            pos := hypos c.seq }
        have hrunw : ((u.sight c.feed c.seq).wholed c).windowsRun = true := by
          rw [State.windowsRun_wholed]
          exact hwrun hlive
        have hyw : ((u.sight c.feed c.seq).wholed c).ctx? x.feed = some y := by
          rw [State.ctx?_wholed, hyself]
          exact hy
        obtain ⟨z, hz, hzr⟩ := State.reportWhole_taken c.hdr hrunw hyw hsighted
        rw [hyself] at hz hzr
        exact ⟨((u.sight c.feed c.seq).wholed c).reportWhole c.feed c.seq c.hdr, z, hz, hzr, by rw [State.reportLast]⟩

end Sys2Proof.Machine
end

