-- ==== Sys2Proof/Proofs/MarkRules.lean ====
section
/-! The marks that R72 computes, and the marks brought to E: what they say of the jobs below them. -/

namespace Sys2Proof.Machine

/-! ### The recurrence of a way (R26) -/

theorem effectiveWay_of_div {fn depth n : Nat} {w : Way} (hw : w ∈ waysInUse fn) (hn : n / depth % 4 = w.val) :
    effectiveWay fn depth n = w := by
  unfold effectiveWay
  simp only [hn]
  clear hn
  revert w
  match fn with
  | 0 => decide
  | 1 => decide
  | 2 => decide
  | _ + 3 => exact fun w _ => by fin_cases w <;> rfl

theorem FeedContext.wayOf_mem (c : FeedContext) (n : Nat) : c.wayOf n ∈ c.waysInUse := by
  have hv : n / c.params.depth % 4 < 4 := Nat.mod_lt _ (by decide)
  unfold FeedContext.wayOf FeedContext.waysInUse effectiveWay
  simp only
  generalize n / c.params.depth % 4 = v at hv
  revert v
  match c.params.wayFn with
  | 0 => decide
  | 1 => decide
  | 2 => decide
  | _ + 3 =>
    have hall : ∀ w : Way, w ∈ ([0, 1, 2, 3] : List Way) := by decide
    exact fun v _ => hall _

/-- A sequence number of each quarter of the stripes, within 32 of any start. -/
theorem exists_stripe {depth : Nat} (hd : depth ∈ [1, 2, 4, 8]) (start : Nat) (w : Way) :
    ∃ n, start ≤ n ∧ n < start + 32 ∧ n / depth % 4 = w.val := by
  have hw := w.isLt
  simp only [List.mem_cons, List.not_mem_nil, or_false] at hd
  have hlow : ∀ b, b = 4 * depth → start ≤ start / b * b + w.val * depth →
      ∃ n, start ≤ n ∧ n < start + 32 ∧ n / depth % 4 = w.val := fun b hb h => by
    refine ⟨start / b * b + w.val * depth, h, ?_, ?_⟩ <;>
      rcases hd with rfl | rfl | rfl | rfl <;> subst hb <;> omega
  have hhigh : ∀ b, b = 4 * depth → ¬start ≤ start / b * b + w.val * depth →
      ∃ n, start ≤ n ∧ n < start + 32 ∧ n / depth % 4 = w.val := fun b hb h => by
    refine ⟨start / b * b + w.val * depth + b, ?_, ?_, ?_⟩ <;>
      rcases hd with rfl | rfl | rfl | rfl <;> subst hb <;> omega
  by_cases h : start ≤ start / (4 * depth) * (4 * depth) + w.val * depth
  · exact hlow _ rfl h
  · exact hhigh _ rfl h

/-- A way in use recurs within 32 (R26). -/
theorem FeedContext.way_recurs {c : FeedContext} (hg : c.params.geometryOk = true) {w : Way}
    (hw : w ∈ c.waysInUse) (start : Nat) : ∃ n, start ≤ n ∧ n < start + 32 ∧ c.wayOf n = w := by
  obtain ⟨-, -, -, -, -, -, hd⟩ := c.params.geometryOk_iff.mp hg
  obtain ⟨n, h1, h2, h3⟩ := exists_stripe hd start w
  exact ⟨n, h1, h2, effectiveWay_of_div hw h3⟩

/-! ### The first sequence number not done -/

theorem find?_range'_eq_some {p : Nat → Bool} {a len n : Nat} (h : (List.range' a len).find? p = some n) :
    a ≤ n ∧ n < a + len ∧ p n = true ∧ ∀ q, a ≤ q → q < n → p q = false := by
  obtain ⟨hp, l₁, l₂, hl, hno⟩ := List.find?_eq_some_iff_append.mp h
  have hmem : n ∈ List.range' a len := List.mem_of_find?_eq_some h
  obtain ⟨h1, h2⟩ := List.mem_range'_1.mp hmem
  refine ⟨h1, h2, hp, fun q hq hqn => ?_⟩
  have hq' : q ∈ List.range' a len := List.mem_range'_1.mpr ⟨hq, by omega⟩
  rw [hl, List.mem_append] at hq'
  rcases hq' with hq' | hq'
  · simpa using hno q hq'
  · have hsort : (List.range' a len).Pairwise (· < ·) := List.pairwise_lt_range'
    rw [hl, List.pairwise_append] at hsort
    rcases List.mem_cons.mp hq' with rfl | hq'
    · omega
    · have := List.rel_of_pairwise_cons hsort.2.1 hq'
      omega

theorem find?_range'_eq_none {p : Nat → Bool} {a len : Nat} (h : (List.range' a len).find? p = none) :
    ∀ q, a ≤ q → q < a + len → p q = false := fun q h1 h2 => by
  simpa using List.find?_eq_none.mp h q (List.mem_range'_1.mpr ⟨h1, h2⟩)

theorem FeedContext.doneAt_iff (c : FeedContext) (k : WorkKind) (n : Nat) :
    c.doneAt k n = true ↔ c.JobDoneAt k n := by
  unfold FeedContext.doneAt FeedContext.JobDoneAt
  cases hp : c.pos? n with
  | none => simp
  | some p => cases k <;> simp [Position.landDone, Position.browseDone]

/-- The first sequence number not done: the jobs of its way from the mark up to it are done, and its own is
not, where the search finds one. -/
theorem FeedContext.firstUndone_spec (c : FeedContext) (k : WorkKind) (w : Way) (m : Mark) :
    Mark.ord m ≤ c.firstUndone k w m
      ∧ (∀ n, Mark.ord m ≤ n → n < c.firstUndone k w m → c.wayOf n = w → c.doneAt k n = true)
      ∧ ((∃ n, Mark.ord m ≤ n ∧ n < Mark.ord m + 640 ∧ c.wayOf n = w ∧ c.doneAt k n = false) →
          c.wayOf (c.firstUndone k w m) = w ∧ c.doneAt k (c.firstUndone k w m) = false) := by
  unfold FeedContext.firstUndone
  cases hf : (List.range' (Mark.ord m) 640).find? (fun s => c.wayOf s == w && !c.doneAt k s) with
  | none =>
    have hnone := find?_range'_eq_none hf
    refine ⟨Nat.le_add_right _ _, fun n h1 h2 hw => ?_, fun ⟨n, h1, h2, h3, h4⟩ => ?_⟩
    · simpa [hw] using hnone n h1 h2
    · simpa [h3, h4] using hnone n h1 h2
  | some n =>
    obtain ⟨h1, -, h3, h4⟩ := find?_range'_eq_some hf
    refine ⟨h1, fun q hq hqn hw => ?_, fun _ => ?_⟩
    · simpa [hw] using h4 q hq hqn
    · simpa using h3

/-! ### The computed mark (R72) -/

section
variable (c : FeedContext) (k : WorkKind) (w : Way)

/-- The three cases of R72. -/
theorem FeedContext.computedMark_cases :
    (c.cap < c.firstUndone k w (c.markOf k w) ∧ c.computedMark k w = some c.cap)
    ∨ (c.firstUndone k w (c.markOf k w) ≤ c.cap ∧ c.markOf k w = none
        ∧ c.nextOfWay w 0 = some (c.firstUndone k w (c.markOf k w)) ∧ c.computedMark k w = none)
    ∨ (c.firstUndone k w (c.markOf k w) ≤ c.cap
        ∧ Mark.ord (c.computedMark k w) = c.firstUndone k w (c.markOf k w)) := by
  unfold FeedContext.computedMark
  simp only
  split
  · next h => exact .inl ⟨h, rfl⟩
  · next h =>
    split
    · next h' => exact .inr (.inl ⟨Nat.le_of_not_lt h, h'.1, h'.2, rfl⟩)
    · exact .inr (.inr ⟨Nat.le_of_not_lt h, Mark.ord_ofOrd _⟩)

theorem FeedContext.computedMark_le_cap : Mark.ord (c.computedMark k w) ≤ c.cap + 1 := by
  rcases c.computedMark_cases k w with ⟨-, h⟩ | ⟨-, -, -, h⟩ | ⟨h, h'⟩
  · rw [h]
    exact Nat.le_refl _
  · rw [h]
    exact Nat.zero_le _
  · omega

theorem FeedContext.computedMark_le_firstUndone :
    Mark.ord (c.computedMark k w) ≤ c.firstUndone k w (c.markOf k w) := by
  rcases c.computedMark_cases k w with ⟨h, h'⟩ | ⟨-, -, -, h⟩ | ⟨-, h⟩
  · rw [h']
    exact h
  · rw [h]
    exact Nat.zero_le _
  · exact h.le

/-- A mark that is computed anew falls at the most to the cap. -/
theorem FeedContext.markOf_le_of_computedMark_le {n : Nat} (hn : n ≤ c.cap)
    (h : Mark.ord (c.computedMark k w) ≤ n) : Mark.ord (c.markOf k w) ≤ n := by
  have hfirst := (c.firstUndone_spec k w (c.markOf k w)).1
  rcases c.computedMark_cases k w with ⟨-, h'⟩ | ⟨-, h', -, -⟩ | ⟨-, h'⟩
  · rw [h'] at h
    exact absurd (show c.cap + 1 ≤ n from h) (by omega)
  · rw [h']
    exact Nat.zero_le _
  · omega

end

/-- The mark as R72 has it: it stops at the first sequence number of its way not done, or at the cap. -/
theorem FeedContext.computedMark_stops {c : FeedContext} {k : WorkKind} {w : Way}
    (hg : c.params.geometryOk = true) (hw : w ∈ c.waysInUse)
    (hp : ∀ p ∈ c.positions, p.seq < Mark.ord (c.markOf k w) + 512) :
    Mark.ord (c.computedMark k w) = c.cap + 1
      ∨ ∃ n, Mark.ord (c.markOf k w) ≤ n ∧ c.wayOf n = w ∧ ¬c.JobDoneAt k n
        ∧ (Mark.ord (c.computedMark k w) = n
          ∨ (c.markOf k w = none ∧ c.computedMark k w = none ∧ ∀ q, q < n → c.wayOf q ≠ w)) := by
  obtain ⟨n, h1, h2, h3⟩ := FeedContext.way_recurs hg hw (Mark.ord (c.markOf k w) + 512)
  have hundone : c.doneAt k n = false := by
    have hnone : c.pos? n = none := by
      by_contra hne
      obtain ⟨p, hpos⟩ := Option.ne_none_iff_exists'.mp hne
      have := hp p (FeedContext.pos?_mem hpos)
      rw [FeedContext.pos?_seq hpos] at this
      omega
    unfold FeedContext.doneAt
    rw [hnone]
  obtain ⟨hge, -, hfound⟩ := c.firstUndone_spec k w (c.markOf k w)
  obtain ⟨hway, hnot⟩ := hfound ⟨n, by omega, by omega, h3, hundone⟩
  have hnot' : ¬c.JobDoneAt k (c.firstUndone k w (c.markOf k w)) := by
    rw [← c.doneAt_iff, hnot]
    exact Bool.false_ne_true
  rcases c.computedMark_cases k w with ⟨-, h⟩ | ⟨-, hm, hnext, h⟩ | ⟨-, h⟩
  · exact .inl (by rw [h]; rfl)
  · refine .inr ⟨_, hge, hway, hnot', .inr ⟨hm, h, fun q hq => ?_⟩⟩
    obtain ⟨-, -, -, hbefore⟩ := find?_range'_eq_some hnext
    simpa using hbefore q (Nat.zero_le _) hq
  · exact .inr ⟨_, hge, hway, hnot', .inl h⟩

end Sys2Proof.Machine
end

