-- ==== Sys2Proof/Proofs/Done.lean ====
section
/-! What follows when a job is done (R72, R84, R5): the marks, the window, the FINAL test, and what stays of a
position through them. -/

namespace Sys2Proof.Machine

/-! ### The marks after a job was done -/

/-- A context with its marks computed afresh, where it works. -/
def FeedContext.remarked (c : FeedContext) : FeedContext := if c.working then c.recomputeMarks else c

/-- A context whose marks were computed afresh and brought to E. -/
def FeedContext.settled (c : FeedContext) : FeedContext := c.remarked.reachEnd

section
variable (c : FeedContext) (k : WorkKind) (w : Way)

theorem FeedContext.remarked_of_working (hw : c.working = true) : c.remarked = c.recomputeMarks := if_pos hw

theorem FeedContext.settled_of_idle (hw : c.working = false) : c.settled = c := by
  have hr : c.remarked = c := by
    unfold FeedContext.remarked
    rw [hw]
    rfl
  unfold FeedContext.settled FeedContext.reachEnd
  rw [hr, hw]
  rfl

theorem FeedContext.markOf_recomputeMarks (hk : c.holds k w = true) :
    c.recomputeMarks.markOf k w = c.computedMark k w := by
  cases k <;> exact (PerWay.get_ofFn _ w).trans (if_pos hk)

theorem FeedContext.markOf_settled (hw : c.working = true) :
    c.settled.markOf k w = c.recomputeMarks.endMark k w := by
  have hr : c.recomputeMarks.working = true := hw
  unfold FeedContext.settled FeedContext.reachEnd
  rw [c.remarked_of_working hw, hr]
  cases k <;> exact PerWay.get_ofFn _ w

/-- What the marks do not touch of a context. -/
theorem FeedContext.settled_fields : c.settled.feed = c.feed ∧ c.settled.state = c.state ∧ c.settled.e = c.e
    ∧ c.settled.params = c.params ∧ c.settled.landKind = c.landKind ∧ c.settled.browseKind = c.browseKind
    ∧ c.settled.counts = c.counts ∧ c.settled.positions = c.positions
    ∧ c.settled.storageEnded = c.storageEnded ∧ c.settled.markReq = c.markReq := by
  unfold FeedContext.settled FeedContext.remarked FeedContext.reachEnd
  repeat' split
  all_goals exact ⟨rfl, rfl, rfl, rfl, rfl, rfl, rfl, rfl, rfl, rfl⟩

/-- A mark brought to E rises to it at the most. -/
theorem FeedContext.endMark_eq_or : c.endMark k w = c.markOf k w
    ∨ c.endMark k w = Mark.higher (c.markOf k w) (some c.cap) := by
  unfold FeedContext.endMark
  simp only
  exact (ite_eq_or_eq _ _ _).symm

theorem FeedContext.endMark_of_unknown (he : c.e = none) : c.endMark k w = c.markOf k w := by
  unfold FeedContext.endMark
  rw [he]
  rfl

theorem FeedContext.le_endMark : Mark.ord (c.markOf k w) ≤ Mark.ord (c.endMark k w) := by
  rcases c.endMark_eq_or k w with h | h <;> rw [h]
  rw [Mark.ord_higher]
  exact Nat.le_max_left _ _

/-- Where a sequence number of the way is left between the mark and E, the mark stays. -/
theorem FeedContext.endMark_of_left (hg : c.params.geometryOk = true)
    (h : ∃ n, Mark.ord (c.markOf k w) ≤ n ∧ n ≤ c.cap ∧ c.wayOf n = w) :
    c.endMark k w = c.markOf k w := by
  obtain ⟨n, h1, h2, h3⟩ := h
  have hway : w ∈ c.waysInUse := h3 ▸ c.wayOf_mem n
  obtain ⟨m, hm1, hm2, hm3⟩ := FeedContext.way_recurs hg hway (Mark.ord (c.markOf k w))
  have hnext : ∃ q, c.nextOfWay w (Mark.ord (c.markOf k w)) = some q ∧ q ≤ c.cap := by
    cases hf : c.nextOfWay w (Mark.ord (c.markOf k w)) with
    | none => simpa [hm3] using find?_range'_eq_none hf m hm1 (by omega)
    | some q =>
      refine ⟨q, rfl, ?_⟩
      obtain ⟨-, hq, -, hbefore⟩ := find?_range'_eq_some hf
      by_contra hcap
      have hlt : n < q := by omega
      simpa [h3] using hbefore n h1 hlt
  obtain ⟨q, hq, hle⟩ := hnext
  unfold FeedContext.endMark
  simp only [hq, Nat.not_lt.mpr hle, decide_false, Bool.and_false, Bool.false_eq_true, if_false]

/-- Where none is left, the mark stands at E. -/
theorem FeedContext.endMark_of_none (he : c.e ≠ none) (hk : c.holds k w = true)
    (h : ∀ n, Mark.ord (c.markOf k w) ≤ n → n ≤ c.cap → c.wayOf n ≠ w) :
    Mark.ord (c.endMark k w) = max (Mark.ord (c.markOf k w)) (c.cap + 1) := by
  have hsome : c.e.isSome = true := Option.isSome_iff_ne_none.mpr he
  have hend : c.endMark k w = Mark.higher (c.markOf k w) (some c.cap) := by
    unfold FeedContext.endMark
    simp only
    cases hf : c.nextOfWay w (Mark.ord (c.markOf k w)) with
    | none => simp [hsome, hk]
    | some q =>
      obtain ⟨h1, -, h3, -⟩ := find?_range'_eq_some hf
      have hq : c.cap < q := by
        by_contra hle
        exact h q h1 (by omega) (by simpa using h3)
      simp [hsome, hk, hq]
  rw [hend, Mark.ord_higher]
  rfl

/-- A mark that came to stand at a sequence number or below it within the cap stood there before. -/
theorem FeedContext.markOf_le_of_settled {n : Nat} (hk : c.holds k w = true) (hn : n ≤ c.cap)
    (h : Mark.ord (c.settled.markOf k w) ≤ n) : Mark.ord (c.markOf k w) ≤ n := by
  cases hw : c.working with
  | false => rwa [c.settled_of_idle hw] at h
  | true =>
    rw [c.markOf_settled k w hw] at h
    have hle := c.recomputeMarks.le_endMark k w
    rw [c.markOf_recomputeMarks k w hk] at hle
    exact c.markOf_le_of_computedMark_le k w hn (hle.trans h)

end

/-- The computed mark reads the mark, the parameters, E and the jobs done. -/
theorem FeedContext.computedMark_congr {c z : FeedContext} {k : WorkKind} {w : Way}
    (hm : z.markOf k w = c.markOf k w) (hp : z.params = c.params) (he : z.e = c.e)
    (hd : ∀ n, z.doneAt k n = c.doneAt k n) : z.computedMark k w = c.computedMark k w := by
  have hcap : z.cap = c.cap := by simp only [FeedContext.cap, hp, he]
  have hway : z.wayOf = c.wayOf := by funext n; simp only [FeedContext.wayOf, hp]
  have hfirst : z.firstUndone k w (c.markOf k w) = c.firstUndone k w (c.markOf k w) := by
    simp only [FeedContext.firstUndone, hway, hd]
  have hnext : z.nextOfWay w 0 = c.nextOfWay w 0 := by simp only [FeedContext.nextOfWay, hway]
  simp only [FeedContext.computedMark, hm, hcap, hfirst, hnext]

/-! ### A context with jobs done -/

/-- `z` is `c` after work on its jobs: its feed counts aside, its window alone changed, and `f` says which
jobs of a position are done then. -/
structure FeedContext.Worked (c z : FeedContext) (f : Position → Position) : Prop where
  bare : z.bare = ({ c with counts := z.counts } : FeedContext).bare
  seqs : z.positions.map (·.seq) = c.positions.map (·.seq)
  keeps : ∀ p, (f p).seq = p.seq
  pos : ∀ n p, c.pos? n = some p → ∃ p', z.pos? n = some p' ∧ p'.wantsLand = p.wantsLand
    ∧ p'.wantsBrowse = p.wantsBrowse ∧ p'.landDone = (f p).landDone ∧ p'.browseDone = (f p).browseDone

section
variable {c z : FeedContext} {f : Position → Position}

theorem FeedContext.Worked.field (h : c.Worked z f) {α : Type} (g : FeedContext → α)
    (hg : ∀ x : FeedContext, g x = g x.bare) (hc : ∀ n, g { c with counts := n } = g c) : g z = g c := by
  rw [FeedContext.of_bare h.bare g hg, hc]

theorem FeedContext.Worked.pos?_none (h : c.Worked z f) {n : Nat} (hn : c.pos? n = none) : z.pos? n = none := by
  rw [FeedContext.pos?_none_iff] at hn ⊢
  intro p hp hs
  have hmem : p.seq ∈ c.positions.map (·.seq) := h.seqs ▸ List.mem_map_of_mem hp
  obtain ⟨q, hq, hqs⟩ := List.mem_map.mp hmem
  exact hn q hq (hqs.trans hs)

theorem FeedContext.Worked.doneAt (h : c.Worked z f) (k : WorkKind) (n : Nat) :
    z.doneAt k n = ({ c with positions := c.positions.map f } : FeedContext).doneAt k n := by
  have hmap : ({ c with positions := c.positions.map f } : FeedContext).pos? n = (c.pos? n).map f :=
    find?_map_key (p := fun p : Position => p.seq == n) (fun p => by simp only [h.keeps]) c.positions
  unfold FeedContext.doneAt
  rw [hmap]
  cases hp : c.pos? n with
  | none => rw [h.pos?_none hp]; rfl
  | some p =>
    obtain ⟨p', hp', -, -, hl, hb⟩ := h.pos n p hp
    rw [hp']
    cases k
    · exact hl
    · exact hb

theorem FeedContext.Worked.marks (h : c.Worked z f) (hw : c.working = true) :
    c.MarksFollow z.settled f := by
  intro k w hk
  have hparams : z.params = c.params := h.field (·.params) (fun _ => rfl) fun _ => rfl
  have he : z.e = c.e := h.field (·.e) (fun _ => rfl) fun _ => rfl
  have hmark : z.markOf k w = c.markOf k w := h.field (·.markOf k w) (fun _ => by cases k <;> rfl)
    fun _ => by cases k <;> rfl
  have hkind : z.kindOf k w = c.kindOf k w := h.field (·.kindOf k w) (fun _ => by cases k <;> rfl)
    fun _ => by cases k <;> rfl
  have hwork : z.working = true := (h.field (·.working) (fun _ => rfl) fun _ => rfl).trans hw
  have hholds : z.holds k w = true := by simpa [FeedContext.holds, hkind] using hk
  have hcomp : z.computedMark k w
      = ({ c with positions := c.positions.map f } : FeedContext).computedMark k w :=
    FeedContext.computedMark_congr (hmark.trans (by cases k <;> rfl)) hparams he (h.doneAt k)
  have hre : z.recomputeMarks.markOf k w
      = ({ c with positions := c.positions.map f } : FeedContext).computedMark k w :=
    (z.markOf_recomputeMarks k w hholds).trans hcomp
  have hcap : z.recomputeMarks.cap = c.cap :=
    (show z.recomputeMarks.cap = z.cap from rfl).trans (by simp only [FeedContext.cap, hparams, he])
  have hway : ∀ n, z.recomputeMarks.wayOf n = c.wayOf n := fun n =>
    (show z.recomputeMarks.wayOf n = z.wayOf n from rfl).trans (by simp only [FeedContext.wayOf, hparams])
  have hre' : z.recomputeMarks.e = c.e := he
  simp only
  rw [z.markOf_settled k w hwork, ← hre]
  refine ⟨fun hnone => z.recomputeMarks.endMark_of_unknown k w (hre'.trans hnone), fun hne hg => ⟨fun hleft => ?_,
    fun hnone => ?_⟩⟩
  · refine z.recomputeMarks.endMark_of_left k w (by rw [← hg, ← hparams]; rfl) ?_
    obtain ⟨n, h1, h2, h3⟩ := hleft
    exact ⟨n, h1, hcap ▸ h2, (hway n).trans h3⟩
  · rw [z.recomputeMarks.endMark_of_none k w (hre' ▸ hne) hholds fun n h1 h2 h3 =>
      hnone n h1 (hcap ▸ h2) ((hway n).symm.trans h3), hcap]

end

end Sys2Proof.Machine
end

