-- ==== Sys2Proof/Proofs/Stays.lean ====
section
/-! What stays of a position through the marks, the window and the FINAL test that follow a job that was done. -/

namespace Sys2Proof.Machine

/-! ### A position that stays -/

/-- A position in the ready set that is due for a rewrite. -/
def Position.rewriteDue (p : Position) : Bool := p.inReadySet && p.dueRewrite

/-- From `s` to `t` the position `p` of sequence number `n` stays: itself, its browse jobs that wait, and, where
it is due for a rewrite, the batch of its feed that waits. -/
def State.Stays (feed n : Nat) (p : Position) (s t : State) : Prop :=
  s.pos? feed n = some p → t.pos? feed n = some p
    ∧ (∀ j : Job, j.isFor feed n = true → (j ∈ t.waitJobs ↔ j ∈ s.waitJobs))
    ∧ (p.rewriteDue = true → WaitRewrite.batch feed ∈ s.waitRewrites → WaitRewrite.batch feed ∈ t.waitRewrites)

section
variable {feed n : Nat} {p : Position}

theorem State.Stays.refl (s : State) : State.Stays feed n p s s := fun h => ⟨h, fun _ _ => Iff.rfl, fun _ => id⟩

theorem State.Stays.trans {s t u : State} (h : State.Stays feed n p s t) (k : State.Stays feed n p t u) :
    State.Stays feed n p s u := fun hp => by
  obtain ⟨h1, h2, h3⟩ := h hp
  obtain ⟨k1, k2, k3⟩ := k h1
  exact ⟨k1, fun j hj => (k2 j hj).trans (h2 j hj), fun hd => k3 hd ∘ h3 hd⟩

theorem State.Stays.foldl {α : Type} {f : State → α → State} {l : List α}
    (h : ∀ (s : State) (a : α), a ∈ l → State.Stays feed n p s (f s a)) (s : State) :
    State.Stays feed n p s (l.foldl f s) :=
  foldl_keeps (I := fun t => State.Stays feed n p s t) (fun t a ha ht => ht.trans (h t a ha)) (.refl s)

/-- A change beside the positions of a context. -/
theorem State.Stays.mapCtx (s : State) (g : Nat) (f : FeedContext → FeedContext)
    (hfeed : ∀ c, (f c).feed = c.feed) (hpos : ∀ c, (f c).positions = c.positions) :
    State.Stays feed n p s (s.mapCtx g f) := fun hp => by
  refine ⟨?_, fun _ _ => Iff.rfl, fun _ => id⟩
  have hctx := s.ctx?_mapCtx g feed f hfeed
  unfold State.pos? at hp ⊢
  rw [hctx]
  cases hc : s.ctx? feed with
  | none => rw [hc] at hp; exact hp
  | some c =>
    rw [hc] at hp
    simp only [Option.map_some, Option.bind_some] at hp ⊢
    split
    · simpa only [FeedContext.pos?, hpos] using hp
    · exact hp

/-- A change beside the contexts, the waiting browse jobs and the waiting rewrites. -/
theorem State.Stays.of_eq {s t : State} (hc : t.contexts = s.contexts) (hj : t.waitJobs = s.waitJobs)
    (hr : t.waitRewrites = s.waitRewrites) : State.Stays feed n p s t := fun hp =>
  ⟨by simpa only [State.pos?, State.ctx?, hc] using hp, fun _ _ => by rw [hj], fun _ => by rw [hr]; exact id⟩

/-- A batch waits for a feed with a position due for a rewrite. -/
theorem State.batch_syncRewrite {s : State} (hp : s.pos? feed n = some p) (hd : p.rewriteDue = true) :
    WaitRewrite.batch feed ∈ (s.syncRewrite feed).waitRewrites := by
  have hdue : s.hasDueRewrite feed = true := by
    obtain ⟨c, hc, hpos⟩ := Option.bind_eq_some_iff.mp hp
    simp only [State.hasDueRewrite, hc, List.any_eq_true]
    exact ⟨p, FeedContext.pos?_mem hpos, hd⟩
  unfold State.syncRewrite
  rw [if_pos hdue]
  split
  · next h => simpa using h
  · simp

theorem State.stays_dropPos (s : State) {m : Nat} (hm : m ≠ n) : State.Stays feed n p s (s.dropPos feed m) := by
  intro hp
  have hpos : (s.dropPos feed m).pos? feed n = some p := by
    obtain ⟨c, hc, hcp⟩ := Option.bind_eq_some_iff.mp hp
    unfold State.pos?
    rw [s.ctx?_dropPos, hc]
    simp only [Option.map_some, beq_self_eq_true, if_true, Option.bind_some]
    rw [FeedContext.pos?_without, if_neg (by simpa using hm.symm)]
    exact hcp
  refine ⟨hpos, fun j hj => ?_, fun hd _ => ?_⟩
  · have hjobs : (s.dropPos feed m).waitJobs = s.waitJobs.filter (fun j => !j.isFor feed m) :=
      congrArg (·.1.1) (s.dropPos_engine feed m)
    have hother : j.isFor feed m = false := by
      simp only [Job.isFor, Bool.and_eq_true, beq_iff_eq] at hj
      simp only [Job.isFor, hj.2, Bool.and_eq_false_iff, beq_eq_false_iff_ne]
      exact .inr hm.symm
    rw [hjobs, List.mem_filter, hother]
    simp
  · unfold State.dropPos at hpos ⊢
    refine State.batch_syncRewrite (n := n) ?_ hd
    simpa only [State.pos?, State.ctx?, State.syncRewrite_contexts] using hpos

theorem State.rewrites_handOverChunk (s : State) (feed m : Nat) (h : ChunkHeader) :
    (s.handOverChunk feed m h).waitRewrites = s.waitRewrites := by
  unfold State.handOverChunk
  split
  · rfl
  · simp only
    split
    · rfl
    · split <;> rfl

theorem State.batch_lookup {s : State} (feed m : Nat) (h : WaitRewrite.batch feed ∈ s.waitRewrites) :
    WaitRewrite.batch feed ∈ (s.lookup feed m).waitRewrites := by
  have hfilter : WaitRewrite.batch feed ∈ s.waitRewrites.filter (· != .fill feed m) :=
    List.mem_filter.mpr ⟨h, by simp⟩
  have htake : ∀ k : ChunkHeader, WaitRewrite.batch feed ∈ (s.takeChunk feed m k).waitRewrites := fun k => by
    unfold State.takeChunk
    split
    · exact h
    · simp only
      split
      · rw [State.rewrites_handOverChunk]
        exact hfilter
      · exact hfilter
  unfold State.lookup
  split
  · exact h
  · split
    · exact htake _
    · exact h

theorem State.rewrites_gapTestAt (s : State) (feed m : Nat) : (s.gapTestAt feed m).waitRewrites = s.waitRewrites := by
  unfold State.gapTestAt
  split <;> rfl

theorem State.stays_createPos (s : State) (m : Nat) : State.Stays feed n p s (s.createPos feed m) := by
  intro hp
  obtain ⟨c, hc, hcp⟩ := Option.bind_eq_some_iff.mp hp
  by_cases hcond : (c.callsFor m && (c.pos? m).isNone) = true
  · have hnone : c.pos? m = none := by
      simp only [Bool.and_eq_true, Option.isNone_iff_eq_none] at hcond
      exact hcond.2
    have hne : n ≠ m := by
      rintro rfl
      rw [hnone] at hcp
      cases hcp
    have hnew : (s.mapCtx feed (·.withNew m)).ctx? feed = some (c.withNew m) :=
      State.ctx?_counted hc (·.withNew m) fun _ => rfl
    have hat := ((s.mapCtx feed (·.withNew m)).at_lookup feed m).trans (State.at_gapTestAt _ feed m)
    obtain ⟨d, hd, hsame⟩ := hat.ctx _ hnew
    have hrun : s.createPos feed m = ((s.mapCtx feed (·.withNew m)).lookup feed m).gapTestAt feed m := by
      simp only [State.createPos, hc, hcond, if_true]
      rfl
    rw [hrun]
    refine ⟨?_, fun j hj => hat.jobs j ?_, fun _ hb => ?_⟩
    · unfold State.pos?
      rw [hd, Option.bind_some, hsame.others n hne, FeedContext.pos?_withNew hnone, if_neg hne, hcp]
    · simp only [Job.isFor, Bool.and_eq_true, beq_iff_eq] at hj
      simp only [Job.isFor, hj.2, Bool.and_eq_false_iff, beq_eq_false_iff_ne]
      exact .inr hne
    · rw [State.rewrites_gapTestAt]
      exact State.batch_lookup feed m hb
  · have hrun : s.createPos feed m = s := by
      simp only [State.createPos, hc]
      exact if_neg hcond
    rw [hrun]
    exact State.Stays.refl s hp

theorem State.stays_markFallsDue (s : State) : State.Stays feed n p s (s.markFallsDue feed) := by
  unfold State.markFallsDue
  split
  · exact .refl s
  · split
    · exact .refl s
    · split
      · exact .mapCtx s feed _ (fun _ => rfl) fun _ => rfl
      · split
        · exact .refl s
        · exact .of_eq rfl rfl rfl

theorem State.stays_recomputeCommit (s : State) : State.Stays feed n p s (s.recomputeCommit feed) := by
  have hpace : ∀ t : State, State.Stays feed n p t (t.paceTest feed) := fun t => by
    unfold State.paceTest
    split
    · exact .refl t
    · split
      · exact t.stays_markFallsDue
      · exact .refl t
  unfold State.recomputeCommit
  split
  · exact .refl s
  · simp only
    split
    · refine State.Stays.trans ?_ (hpace _)
      exact .mapCtx s feed _ (fun _ => by rfl) fun _ => by rfl
    · exact .refl s

theorem State.stays_fillSpan (s : State) : State.Stays feed n p s (s.fillSpan feed) := by
  unfold State.fillSpan
  split
  · exact .refl s
  · split
    · split
      · exact .refl s
      · exact .foldl (fun t m _ => t.stays_createPos m) s
    · exact .refl s

theorem FeedContext.eq_of_pos? (c : FeedContext) (hasc : (c.positions.map (·.seq)).Pairwise (· < ·))
    (hp : c.pos? n = some p) {q : Position} (hq : q ∈ c.positions) (hqn : q.seq = n) : q = p := by
  have hpm := FeedContext.pos?_mem hp
  have hps := FeedContext.pos?_seq hp
  have hnodup : (c.positions.map (·.seq)).Nodup := hasc.imp fun h => Nat.ne_of_lt h
  exact List.inj_on_of_nodup_map hnodup hq hpm (hqn.trans hps.symm)

/-- A position that the marks keep stays through the recomputation of the window. -/
theorem State.stays_refreshWindow {s : State} {c : FeedContext} (hc : s.ctx? feed = some c)
    (hasc : (c.positions.map (·.seq)).Pairwise (· < ·)) (hp : c.pos? n = some p) (hk : c.keeps p = true) :
    State.Stays feed n p s (s.refreshWindow feed) := by
  have hnot : n ∉ c.overdue := by
    intro hn
    obtain ⟨q, hq, hqn⟩ := List.mem_map.mp hn
    obtain ⟨hqm, hqk⟩ := List.mem_filter.mp hq
    have hqp : q = p := c.eq_of_pos? hasc hp hqm hqn
    rw [hqp, hk] at hqk
    cases hqk
  have htrim : State.Stays feed n p s (s.trim feed) := by
    simp only [State.trim, hc]
    exact State.Stays.foldl (f := fun t m => t.dropPos feed m) (l := c.overdue)
      (fun t m hm => t.stays_dropPos fun heq : m = n => hnot (heq ▸ hm)) s
  exact htrim.trans (State.stays_fillSpan _)

end

/-! ### What the settled marks keep -/

/-- The mark of a held way is among the held marks. -/
theorem FeedContext.markOf_mem_heldMarks {c : FeedContext} {k : WorkKind} {w : Way} (h : c.holds k w = true) :
    c.markOf k w ∈ c.heldMarks := by
  refine List.mem_map.mpr ⟨(w, k), List.mem_filter.mpr ⟨?_, h⟩, rfl⟩
  cases k <;> fin_cases w <;> decide

theorem FeedContext.callsFor_iff_calledFor (c : FeedContext) (n : Nat) : c.callsFor n = true ↔ c.CalledFor n := by
  rw [c.callsFor_iff, c.wants_iff, c.wants_iff]
  simp only [FeedContext.holds, FeedContext.kindOf, FeedContext.markOf, bne_iff_ne]

/-- A position that wants what is called for is kept where its sequence number is called for. -/
theorem FeedContext.keeps_of_calls {c : FeedContext} {p : Position} {n : Nat} (hseq : p.seq = n)
    (hwants : c.WantsCalled p) (hcall : c.settled.callsFor n = true) : c.settled.keeps p = true := by
  subst hseq
  obtain ⟨hfeed, hstate, he, hparams, hlk, hbk, -⟩ := c.settled_fields
  obtain ⟨hspan, hw⟩ := (c.settled.callsFor_iff p.seq).mp hcall
  obtain ⟨-, hlt, hend⟩ := hspan
  have hcap : p.seq ≤ c.cap := by
    rw [he] at hend
    rw [hparams] at hlt
    unfold FeedContext.cap
    cases hce : c.e with
    | none => simp only; omega
    | some e =>
      have : p.seq ≤ e := hend e (by simp [hce])
      simp only
      omega
  have hway : c.settled.wayOf p.seq = c.wayOf p.seq := by simp only [FeedContext.wayOf, hparams]
  have hkind : ∀ k w, c.settled.kindOf k w = c.kindOf k w := fun k w => by
    cases k
    · simp only [FeedContext.kindOf, hlk]
    · simp only [FeedContext.kindOf, hbk]
  have hmark : ∀ k, c.settled.wants k p.seq = true → c.holds k (c.wayOf p.seq) = true
      ∧ Mark.ord (c.markOf k (c.wayOf p.seq)) ≤ p.seq := fun k hk => by
    obtain ⟨h1, h2⟩ := (c.settled.wants_iff k p.seq).mp hk
    rw [hway] at h1 h2
    have h1' : c.holds k (c.wayOf p.seq) = true := by simpa only [FeedContext.holds, hkind] using h1
    exact ⟨h1', c.markOf_le_of_settled k _ h1' hcap h2⟩
  have hspan' : c.settled.inSpan p.seq = true :=
    (c.settled.inSpan_iff p.seq).mpr ((c.settled.callsFor_iff p.seq).mp hcall).1
  simp only [FeedContext.keeps, hspan', Bool.true_and, Bool.or_eq_true, Bool.and_eq_true]
  rcases hw with hw | hw
  · obtain ⟨h1, h2⟩ := hmark .landing hw
    exact .inl ⟨hwants.1 (by simpa [FeedContext.holds, FeedContext.kindOf] using h1) h2, hw⟩
  · obtain ⟨h1, h2⟩ := hmark .browse hw
    exact .inr ⟨hwants.2 (by simpa [FeedContext.holds, FeedContext.kindOf] using h1) h2, hw⟩

/-- In a context that is FINAL by its marks nothing is called for. -/
theorem FeedContext.not_calledFor_of_allAtEnd {c : FeedContext} (h : c.allAtEnd = true) (n : Nat) :
    ¬c.CalledFor n := by
  intro hcall
  obtain ⟨⟨-, -, hend⟩, hw⟩ := hcall
  cases he : c.e with
  | none => simp [FeedContext.allAtEnd, he] at h
  | some e =>
    have hall := (FeedContext.allAtEnd_iff (by simp [he])).mp h
    have hne : n ≤ e := hend e (by simp [he])
    have hlow : ∀ k w, c.kindOf k w ≠ .unheld → ¬Mark.ord (c.markOf k w) ≤ n := fun k w hk hle => by
      rw [hall _ (FeedContext.markOf_mem_heldMarks (by simpa [FeedContext.holds] using hk)), he] at hle
      exact absurd (show e + 1 ≤ n from hle) (by omega)
    rcases hw with ⟨h1, h2⟩ | ⟨h1, h2⟩
    · exact hlow .landing _ h1 h2
    · exact hlow .browse _ h1 h2

/-! ### After a job was done -/

theorem State.afterDone_eq (s : State) (feed : Nat) : s.afterDone feed
    = (s.mapCtx feed FeedContext.remarked).afterMarks feed
      ((s.mapCtx feed FeedContext.remarked).landingMarks feed != s.landingMarks feed) := rfl

/-- What follows a job that was done: the marks are settled, the window follows, and the FINAL test is taken. -/
theorem State.afterDone_spec {s : State} {feed : Nat} {z : FeedContext} (hz : s.ctx? feed = some z) :
    ∃ u x d, (s.afterDone feed).ctx? feed = some d ∧ z.settled.Refreshed x
      ∧ (s.afterDone feed).EndTested z d ∧ (d = x ∨ State.MadeFinal u x d) := by
  have hmap : (s.mapCtx feed FeedContext.remarked).ctx? feed = some z.remarked :=
    State.ctx?_counted hz FeedContext.remarked fun c => by unfold FeedContext.remarked; split <;> rfl
  rw [State.afterDone_eq]
  obtain ⟨u, x, d, hd, hfresh, -, htest, hfin, -⟩ := State.afterMarks_spec hmap
    ((s.mapCtx feed FeedContext.remarked).landingMarks feed != s.landingMarks feed)
  obtain ⟨hfeed, hstate, he, -, -, -, -, -, hended, hreq⟩ := z.settled_fields
  refine ⟨u, x, d, hd, hfresh, State.EndTested.of_eq htest ?_ ?_ ?_ ?_ ?_, hfin⟩
  · exact hstate.symm.trans (FeedContext.of_bare hfresh.bare (·.state) fun _ => rfl).symm
  · exact he.symm.trans (FeedContext.of_bare hfresh.bare (·.e) fun _ => rfl).symm
  · exact hended.symm.trans (FeedContext.of_bare hfresh.bare (·.storageEnded) fun _ => rfl).symm
  · exact hreq.symm.trans (FeedContext.of_bare hfresh.bare (·.markReq) fun _ => rfl).symm
  · exact hfeed.symm.trans (FeedContext.of_bare hfresh.bare (·.feed) fun _ => rfl).symm

section
variable {s : State} {feed n : Nat} {z : FeedContext} {p : Position}

/-- A position that wants what is called for is there after the marks where it is called for. -/
theorem FeedContext.Refreshed.stands {z x d : FeedContext} {u : State} (hx : z.settled.Refreshed x)
    (hd : d = x ∨ State.MadeFinal u x d) (hasc : (z.positions.map (·.seq)).Pairwise (· < ·))
    (hp : z.pos? n = some p) (hwants : z.WantsCalled p) :
    (d.CalledFor n → d.pos? n ≠ none) ∧ (d.pos? n ≠ none → d.pos? n = some p ∧ z.settled.keeps p = true) := by
  have hpos : z.settled.pos? n = some p := by
    obtain ⟨-, -, -, -, -, -, -, hpositions, -⟩ := z.settled_fields
    simpa only [FeedContext.pos?, hpositions] using hp
  have hsasc : (z.settled.positions.map (·.seq)).Pairwise (· < ·) := by
    obtain ⟨-, -, -, -, -, -, -, hpositions, -⟩ := z.settled_fields
    rw [hpositions]
    exact hasc
  have hstay : z.settled.callsFor n = true → x.pos? n = some p ∧ z.settled.keeps p = true := fun hcall => by
    have hkeep := z.keeps_of_calls (FeedContext.pos?_seq hp) hwants hcall
    refine ⟨hx.kept n p ?_, hkeep⟩
    rw [FeedContext.pos?_without, if_neg, hpos]
    intro hn
    obtain ⟨q, hq, hqn⟩ := List.mem_map.mp hn
    obtain ⟨hqm, hqk⟩ := List.mem_filter.mp hq
    rw [z.settled.eq_of_pos? hsasc hpos hqm hqn, hkeep] at hqk
    cases hqk
  rcases hd with rfl | hfin
  · refine ⟨fun hcall => ?_, fun hne => hstay (hx.calls n hne)⟩
    have hcall' : d.callsFor n = true := (d.callsFor_iff_calledFor n).mpr hcall
    rw [FeedContext.callsFor_of_bare hx.bare] at hcall'
    rw [(hstay hcall').1]
    exact Option.some_ne_none p
  · have hnone : d.pos? n = none := by simp [FeedContext.pos?, hfin.positions]
    refine ⟨fun hcall => ?_, fun hne => absurd hnone hne⟩
    have hcall' : x.callsFor n = true := by
      have h1 : d.callsFor n = x.callsFor n := FeedContext.of_bare hfin.bare (·.callsFor n) fun _ => rfl
      rw [← h1]
      exact (d.callsFor_iff_calledFor n).mpr hcall
    exact absurd ((x.callsFor_iff_calledFor n).mp hcall') (FeedContext.not_calledFor_of_allAtEnd hfin.was.2 n)

theorem State.stays_finalTest {d : FeedContext} (hd : (s.finalTest feed).ctx? feed = some d)
    (hne : d.pos? n ≠ none) : State.Stays feed n p s (s.finalTest feed) := by
  unfold State.finalTest at hd ⊢
  split at hd
  · exact .refl s
  · next c hc =>
    split at hd
    · next hcond =>
      simp only [Bool.and_eq_true, beq_iff_eq] at hcond
      obtain ⟨d', hd', hfin, -⟩ := State.enterFinal_spec hc hcond
      obtain rfl : d = d' := Option.some.inj (hd.symm.trans hd')
      exact absurd (by simp [FeedContext.pos?, hfin.positions]) hne
    · next hcond =>
      rw [if_neg hcond]
      exact .refl s

/-- A position with a place in the window after the marks has stayed through them. -/
theorem State.afterDone_stays {d : FeedContext} (hz : s.ctx? feed = some z)
    (hasc : (z.positions.map (·.seq)).Pairwise (· < ·)) (hp : z.pos? n = some p)
    (hk : z.settled.keeps p = true) (hd : (s.afterDone feed).ctx? feed = some d) (hne : d.pos? n ≠ none) :
    State.Stays feed n p s (s.afterDone feed) := by
  obtain ⟨-, -, -, -, -, -, -, hpositions, -⟩ := z.settled_fields
  have hremark : ∀ c : FeedContext, c.remarked.feed = c.feed ∧ c.remarked.positions = c.positions := fun c => by
    unfold FeedContext.remarked
    split <;> exact ⟨rfl, rfl⟩
  have hreach : ∀ c : FeedContext, c.reachEnd.positions = c.positions := fun c => by
    unfold FeedContext.reachEnd
    split <;> rfl
  have h1 : State.Stays feed n p s (s.mapCtx feed FeedContext.remarked) :=
    .mapCtx s feed _ (fun c => (hremark c).1) fun c => (hremark c).2
  have h2 : State.Stays feed n p s ((s.mapCtx feed FeedContext.remarked).mapCtx feed FeedContext.reachEnd) :=
    h1.trans (.mapCtx _ feed _ FeedContext.reachEnd_feed hreach)
  have hctx : ((s.mapCtx feed FeedContext.remarked).mapCtx feed FeedContext.reachEnd).ctx? feed
      = some z.settled :=
    State.ctx?_counted (State.ctx?_counted hz FeedContext.remarked fun c => (hremark c).1) FeedContext.reachEnd
      FeedContext.reachEnd_feed
  have hpos : z.settled.pos? n = some p := by simpa only [FeedContext.pos?, hpositions] using hp
  have h3 := h2.trans (State.stays_refreshWindow hctx (by rw [hpositions]; exact hasc) hpos hk)
  rw [State.afterDone_eq] at hd ⊢
  unfold State.afterMarks at hd ⊢
  simp only at hd ⊢
  refine State.Stays.trans ?_ (State.stays_finalTest hd hne)
  split
  · exact h3.trans (State.stays_recomputeCommit _)
  · exact h3

end

end Sys2Proof.Machine
end

