-- ==== Sys2Proof/Proofs/JobDone.lean ====
section
/-! A job that comes to its end at one position: the position completes, and what follows is said of the context
before it. -/

namespace Sys2Proof.Machine

/-! ### A position that completes (R84) -/

/-- A position as it is left once it was tested for completion. -/
def Position.completed (p : Position) : Position :=
  if p.complete then { p with pinned := false, readySince := none, gapWait := none } else p

section
variable (p : Position)

theorem Position.complete_iff : p.complete = true ↔ p.JobsDone := by
  simp only [Position.complete, Position.landDone, Position.browseDone, Bool.and_eq_true, Bool.or_eq_true,
    Bool.not_eq_true', beq_iff_eq]
  constructor
  · rintro ⟨h1, h2⟩
    exact ⟨fun h => h1.resolve_left (by simp [h]), fun h => h2.resolve_left (by simp [h])⟩
  · rintro ⟨h1, h2⟩
    refine ⟨?_, ?_⟩
    · cases hl : p.wantsLand
      · exact .inl rfl
      · exact .inr (h1 hl)
    · cases hb : p.wantsBrowse
      · exact .inl rfl
      · exact .inr (h2 hb)

/-- A position that completes keeps what it wants and what is done of it. -/
theorem Position.completed_fields : p.completed.seq = p.seq ∧ p.completed.land = p.land
    ∧ p.completed.browse = p.browse ∧ p.completed.wantsLand = p.wantsLand
    ∧ p.completed.wantsBrowse = p.wantsBrowse ∧ p.completed.rewrites = p.rewrites
    ∧ p.completed.dueRewrite = p.dueRewrite ∧ p.completed.place = p.place := by
  unfold Position.completed
  split <;> exact ⟨rfl, rfl, rfl, rfl, rfl, rfl, rfl, rfl⟩

/-- A complete position holds no pin and its ready age is stopped; another holds the pin it held. -/
theorem Position.completed_settled : (p.completed.JobsDone → p.completed.pinned = false
      ∧ p.completed.readySince = none) ∧ (¬p.completed.JobsDone → p.completed.pinned = p.pinned) := by
  have hsame : p.completed.complete = p.complete := by
    unfold Position.completed
    split <;> rfl
  rw [← Position.complete_iff, hsame]
  unfold Position.completed
  split
  · next h => exact ⟨fun _ => ⟨rfl, rfl⟩, fun hno => absurd h hno⟩
  · next h => exact ⟨fun hc => absurd hc h, fun _ => rfl⟩

end

section
variable {s : State} {feed n : Nat} {c : FeedContext} {p : Position}

theorem State.pos?_of_ctx (hc : s.ctx? feed = some c) (hp : c.pos? n = some p) : s.pos? feed n = some p := by
  unfold State.pos?
  rw [hc]
  exact hp

/-- A change of one position, read at that position. -/
theorem FeedContext.pos?_mapPos_self (hp : c.pos? n = some p) (g : Position → Position)
    (hg : ∀ q, (g q).seq = q.seq) : (c.mapPos n g).pos? n = some (g p) := by
  rw [c.pos?_mapPos n n g hg, hp]
  simp

/-- A pin released leaves the position without it. -/
theorem State.releasePin_ctx (hc : s.ctx? feed = some c) (hp : c.pos? n = some p) :
    ∃ d, (s.releasePin feed n).ctx? feed = some d ∧ FeedContext.SameBut n c d
      ∧ d.pos? n = some { p with pinned := false } := by
  simp only [State.releasePin, State.pos?_of_ctx hc hp]
  split
  · exact ⟨c.mapPos n (fun q => { q with pinned := false }),
      State.ctx?_counted hc (·.mapPos n (fun q => { q with pinned := false })) (fun _ => rfl),
      c.sameBut_mapPos n _ fun _ => rfl,
      FeedContext.pos?_mapPos_self hp _ fun _ => rfl⟩
  · next hpin =>
    have hfalse : p.pinned = false := by simpa using hpin
    exact ⟨c, hc, .refl n c, hp.trans (by rw [← hfalse])⟩

/-- The test for completion works on the one position, and on nothing that waits but its ask. -/
theorem State.completePos_ctx (hc : s.ctx? feed = some c) (hp : c.pos? n = some p) :
    ∃ d, (s.completePos feed n).ctx? feed = some d ∧ FeedContext.SameBut n c d
      ∧ d.pos? n = some p.completed := by
  simp only [State.completePos, State.pos?_of_ctx hc hp]
  unfold Position.completed
  split
  · obtain ⟨d, hd, hsame, hpos⟩ := State.releasePin_ctx hc hp
    exact ⟨d.mapPos n (fun q => { q with readySince := none, gapWait := none }),
      State.ctx?_counted hd (·.mapPos n (fun q => { q with readySince := none, gapWait := none })) (fun _ => rfl),
      hsame.trans (d.sameBut_mapPos n _ fun _ => rfl), FeedContext.pos?_mapPos_self hpos _ fun _ => rfl⟩
  · exact ⟨c, hc, .refl n c, hp⟩

theorem State.completePos_waits (s : State) (feed n : Nat) :
    (s.completePos feed n).engine = s.engine
      ∧ (s.completePos feed n).waitRewrites = s.waitRewrites := by
  have hpin : ∀ t : State, (t.releasePin feed n).waitRewrites = t.waitRewrites := fun t => by
    unfold State.releasePin
    repeat' split
    all_goals rfl
  unfold State.completePos
  split
  · exact ⟨rfl, rfl⟩
  · split
    · obtain ⟨hw, hq, hs, hr⟩ := s.releasePin_engine feed n
      exact ⟨by simp only [State.engine, State.withdrawAsk, State.mapPos, State.mapCtx, hw, hq, hs, hr],
        hpin s⟩
    · exact ⟨rfl, rfl⟩

end

/-! ### The marks after one position's work -/

theorem Position.seqs_of_places {l k : List Position} (h : l.map Position.place = k.map Position.place) :
    l.map (·.seq) = k.map (·.seq) := by
  have hseqs := congrArg (List.map (·.seq)) h
  simpa only [List.map_map, Function.comp_def, Position.place] using hseqs

section
variable {c z : FeedContext} {n : Nat} {counts : FeedCounts} {p p' : Position} {g : Position → Position}

theorem FeedContext.Worked.of_sameBut (hz : FeedContext.SameBut n { c with counts := counts } z)
    (hp : c.pos? n = some p) (hp' : z.pos? n = some p') (hg : ∀ q, (g q).seq = q.seq)
    (hwants : p'.wantsLand = p.wantsLand ∧ p'.wantsBrowse = p.wantsBrowse)
    (hdone : p'.landDone = (g p).landDone ∧ p'.browseDone = (g p).browseDone) :
    c.Worked z (fun q => if q.seq == n then g q else q) := by
  have hbare : z.bare = ({ c with counts := counts } : FeedContext).bare := FeedContext.bare_of_outline hz.outline
  have hcounts : z.counts = counts := FeedContext.of_bare hbare (·.counts) fun _ => rfl
  refine ⟨hcounts ▸ hbare, Position.seqs_of_places (congrArg FeedContext.positions hz.outline), fun q => ?_,
    fun m q hq => ?_⟩
  · split
    · exact hg q
    · rfl
  · by_cases hm : m = n
    · subst hm
      obtain rfl := Option.some.inj (hp.symm.trans hq)
      refine ⟨p', hp', hwants.1, hwants.2, ?_⟩
      simpa [FeedContext.pos?_seq hp] using hdone
    · have hqs : q.seq ≠ n := FeedContext.pos?_seq hq ▸ hm
      refine ⟨q, (hz.others m hm).trans hq, rfl, rfl, ?_⟩
      simp [hqs]

end

section
variable {s : State} {feed : Nat} {c z : FeedContext} {f : Position → Position}

/-- What follows work on the jobs of a context, said of the context before the work: the marks and the FINAL
test. -/
theorem State.afterDone_worked (hz : s.ctx? feed = some z) (hw : c.Worked z f) :
    ∃ d, (s.afterDone feed).ctx? feed = some d ∧ d.counts = z.counts
      ∧ (c.working = true → c.MarksFollow d f) ∧ (s.afterDone feed).EndTested c d := by
  obtain ⟨u, x, d, hd, hx, htest, hfin⟩ := State.afterDone_spec hz
  obtain ⟨-, -, -, -, -, -, hcounts, -⟩ := z.settled_fields
  have hmarks : d.counts = x.counts ∧ ∀ k w, d.markOf k w = x.markOf k w := by
    rcases hfin with rfl | hfin
    · exact ⟨rfl, fun _ _ => rfl⟩
    · exact ⟨FeedContext.of_bare hfin.bare (·.counts) fun _ => rfl,
        fun k w => FeedContext.of_bare hfin.bare (·.markOf k w) fun _ => by cases k <;> rfl⟩
  obtain ⟨hdx, hdm⟩ := hmarks
  refine ⟨d, hd, hdx.trans ((FeedContext.of_bare hx.bare (·.counts) fun _ => rfl).trans hcounts),
    fun hwork k w hk => ?_, State.EndTested.of_eq htest ?_ ?_ ?_ ?_ ?_⟩
  · have hmark : d.markOf k w = z.settled.markOf k w :=
      (hdm k w).trans (FeedContext.of_bare hx.bare (·.markOf k w) fun _ => by cases k <;> rfl)
    simp only
    rw [hmark]
    exact hw.marks hwork k w hk
  · exact (hw.field (·.state) (fun _ => rfl) fun _ => rfl).symm
  · exact (hw.field (·.e) (fun _ => rfl) fun _ => rfl).symm
  · exact (hw.field (·.storageEnded) (fun _ => rfl) fun _ => rfl).symm
  · exact (hw.field (·.markReq) (fun _ => rfl) fun _ => rfl).symm
  · exact (hw.field (·.feed) (fun _ => rfl) fun _ => rfl).symm

/-- A position that wants what is called for, through what follows work on the jobs of its context: it is there
where it is called for, and it has stayed where it is there. -/
theorem State.afterDone_position {d : FeedContext} {n : Nat} {p p' : Position} (hz : s.ctx? feed = some z)
    (hw : c.Worked z f) (hasc : (c.positions.map (·.seq)).Pairwise (· < ·)) (hp : c.pos? n = some p)
    (hwants : c.WantsCalled p) (hp' : z.pos? n = some p') (hd : (s.afterDone feed).ctx? feed = some d) :
    (d.CalledFor n → d.pos? n ≠ none)
      ∧ ∀ q, d.pos? n = some q → q = p' ∧ State.Stays feed n p' s (s.afterDone feed) := by
  obtain ⟨u, x, d', hd', hx, -, hfin⟩ := State.afterDone_spec hz
  obtain rfl : d = d' := Option.some.inj (hd.symm.trans hd')
  have hzasc : (z.positions.map (·.seq)).Pairwise (· < ·) := hw.seqs ▸ hasc
  have hzwants : z.WantsCalled p' := by
    obtain ⟨q, hq, hland, hbrowse, -⟩ := hw.pos n p hp
    obtain rfl : p' = q := Option.some.inj (hp'.symm.trans hq)
    have hlk := hw.field (·.landKind) (fun _ => rfl) fun _ => rfl
    have hbk := hw.field (·.browseKind) (fun _ => rfl) fun _ => rfl
    have hlv := hw.field (·.lv) (fun _ => rfl) fun _ => rfl
    have hbv := hw.field (·.bv) (fun _ => rfl) fun _ => rfl
    have hway := hw.field (·.wayOf n) (fun _ => rfl) fun _ => rfl
    unfold FeedContext.WantsCalled at hwants ⊢
    rw [FeedContext.pos?_seq hp] at hwants
    rw [FeedContext.pos?_seq hp', hlk, hbk, hlv, hbv, hway, hland, hbrowse]
    exact hwants
  obtain ⟨hthere, hstay⟩ := hx.stands hfin hzasc hp' hzwants
  refine ⟨hthere, fun q hq => ?_⟩
  have hne : d.pos? n ≠ none := by
    rw [hq]
    exact Option.some_ne_none q
  obtain ⟨hkeep, hk⟩ := hstay hne
  exact ⟨Option.some.inj (hq.symm.trans hkeep), State.afterDone_stays hz hzasc hp' hk hd hne⟩

end

/-! ### A job that comes to its end -/

theorem FeedContext.posSettled_of {c d : FeedContext} {n : Nat} {p p' : Position} (hp : c.pos? n = some p)
    (hthere : d.CalledFor n → d.pos? n ≠ none) (hstay : ∀ q, d.pos? n = some q → q = p'.completed)
    (hpin : p'.pinned = p.pinned) : c.PosSettled d n := by
  refine ⟨hthere, fun q hq => ?_⟩
  obtain ⟨h1, h2⟩ := p'.completed_settled
  rw [hstay q hq]
  refine ⟨h1, fun hno r hr => ?_⟩
  obtain rfl := Option.some.inj (hp.symm.trans hr)
  exact (h2 hno).trans hpin

/-- In `d` the job of the position `n` of `c` has come to its end, as `g` says, and left the position `p'`: the
counts, the marks, the FINAL test, the position, the pins, and the position's jobs that wait. -/
structure State.PositionDone (s u t : State) (c d : FeedContext) (n : Nat) (counts : FeedCounts) (p' : Position)
    (g : Position → Position) : Prop where
  counts : d.counts = counts
  marks : c.working = true → c.MarksFollow d (fun q => if q.seq == n then g q else q)
  test : t.EndTested c d
  settled : c.PosSettled d n
  tracks : s.Tracks c.feed t
  stays : ∀ q, d.pos? n = some q → q = p'.completed
    ∧ ∀ j : Job, j.isFor c.feed n = true → (j ∈ t.waitJobs ↔ j ∈ u.waitJobs)

/-- A job of a position comes to its end: the position is tested for completion, and what follows. -/
theorem State.completePos_afterDone {s u : State} {feed n : Nat} {c y : FeedContext} {counts : FeedCounts}
    {p p' : Position} {g : Position → Position} (hc : s.ctx? feed = some c)
    (hasc : (c.positions.map (·.seq)).Pairwise (· < ·)) (hp : c.pos? n = some p) (hwants : c.WantsCalled p)
    (htrack : s.Tracks feed u) (hy : u.ctx? feed = some y)
    (hsame : FeedContext.SameBut n { c with counts := counts } y) (hp' : y.pos? n = some p')
    (hg : ∀ q, (g q).seq = q.seq) (hpin : p'.pinned = p.pinned)
    (hw : p'.wantsLand = p.wantsLand ∧ p'.wantsBrowse = p.wantsBrowse)
    (hdone : p'.land = (g p).land ∧ p'.browse = (g p).browse) :
    ∃ d, ((u.completePos feed n).afterDone feed).ctx? feed = some d
      ∧ s.PositionDone u ((u.completePos feed n).afterDone feed) c d n counts p' g := by
  obtain ⟨z, hz, hyz, hpz⟩ := State.completePos_ctx hy hp'
  obtain ⟨-, hland, hbrowse, hwl, hwb, -⟩ := p'.completed_fields
  have hwork : c.Worked z (fun q => if q.seq == n then g q else q) := by
    refine .of_sameBut (hsame.trans hyz) hp hpz hg ⟨hwl.trans hw.1, hwb.trans hw.2⟩ ⟨?_, ?_⟩
    · simp only [Position.landDone, hland, hdone.1]
    · simp only [Position.browseDone, hbrowse, hdone.2]
  obtain ⟨d, hd, hcounts, hmarks, htest⟩ := State.afterDone_worked hz hwork
  obtain ⟨hthere, hstay⟩ := State.afterDone_position hz hwork hasc hp hwants hpz hd
  have hzcounts : z.counts = counts :=
    FeedContext.of_bare (FeedContext.bare_of_outline (hsame.trans hyz).outline) (·.counts) fun _ => rfl
  have hjobs : (u.completePos feed n).waitJobs = u.waitJobs :=
    congrArg (·.1.1) (u.completePos_waits feed n).1
  have hfeed : c.feed = feed := State.ctx?_feed hc
  refine ⟨d, hd, hcounts.trans hzcounts, hmarks, htest, FeedContext.posSettled_of hp hthere (fun q hq => (hstay q hq).1)
    hpin, ?_, fun q hq => ?_⟩
  · rw [hfeed]
    exact (htrack.trans (u.tracks_completePos feed n)).trans (State.tracks_afterDone _ feed)
  · obtain ⟨hqp, hkeeps⟩ := hstay q hq
    obtain ⟨-, hsamejobs, -⟩ := hkeeps (State.pos?_of_ctx hz hpz)
    refine ⟨hqp, fun j hj => ?_⟩
    rw [hfeed] at hj
    rw [hsamejobs j hj, hjobs]

/-! ### The end of the lost procedure (R108) -/

section
variable {s : State} {feed n : Nat} {c : FeedContext} {p : Position}

theorem State.contexts_handOverChunkless (s : State) (feed n : Nat) :
    (s.handOverChunkless feed n).contexts = s.contexts := by
  unfold State.handOverChunkless
  split
  · rfl
  · split <;> rfl

/-- A job handed over CHUNKLESS waits, unless the engine keeps one of the position. -/
theorem State.handOverChunkless_jobs (hc : s.ctx? feed = some c) :
    (s.hasJob feed n = false → (s.handOverChunkless feed n).HandedChunkless feed n)
      ∧ (s.hasJob feed n = true → (s.handOverChunkless feed n).waitJobs = s.waitJobs) := by
  have hfeed : c.feed = feed := State.ctx?_feed hc
  simp only [State.handOverChunkless, hc]
  refine ⟨fun h => ?_, fun h => ?_⟩
  · rw [if_neg (by simp [h])]
    refine ⟨c.chunklessJob s.nextUid n, ?_, hfeed, rfl, rfl, rfl, rfl, rfl⟩
    simp
  · rw [if_pos h]

/-- A position whose lost procedure has come to its end. -/
def Position.lostEnded (outcome : LandState) (p : Position) : Position :=
  { p with land := outcome, lost := .idle, req := none }

/-- The lost procedure of a position ends: its landing job comes to its end, and its WAITING browse job is handed
over. -/
theorem State.endLost_spec (hc : s.ctx? feed = some c) (hasc : (c.positions.map (·.seq)).Pairwise (· < ·))
    (hp : c.pos? n = some p) (hwants : c.WantsCalled p) (hwork : c.working = true) (outcome : LandState)
    {count : FeedContext → FeedContext} {counts : FeedCounts} (hcount : count c = { c with counts := counts })
    (hfeed : ∀ x, (count x).feed = x.feed) (hpos : ∀ x, (count x).positions = x.positions) :
    ∃ d, ((s.mapCtx feed count).endLost feed n outcome).ctx? feed = some d ∧ d.counts = counts
      ∧ s.LandDone ((s.mapCtx feed count).endLost feed n outcome) c d n outcome
      ∧ s.LostEnds ((s.mapCtx feed count).endLost feed n outcome) c d n
      ∧ s.SameOutside ((s.mapCtx feed count).endLost feed n outcome) := by
  have hcounted : (s.mapCtx feed count).ctx? feed = some { c with counts := counts } :=
    hcount ▸ State.ctx?_counted hc count hfeed
  have hpcounted : (s.mapCtx feed count).pos? feed n = some p := State.pos?_of_ctx hcounted hp
  generalize hs0 : (s.mapCtx feed count) = s0 at hcounted hpcounted
  have hended : ((s0.mapPos feed n (Position.lostEnded outcome))).ctx? feed
      = some (({ c with counts := counts } : FeedContext).mapPos n (Position.lostEnded outcome)) :=
    State.ctx?_counted hcounted (·.mapPos n (Position.lostEnded outcome)) fun _ => rfl
  generalize hs1 : s0.mapPos feed n (Position.lostEnded outcome) = s1 at hended
  let s2 := if p.browse == some .waiting then s1.handOverChunkless feed n else s1
  have hrun : s0.endLost feed n outcome = (s2.completePos feed n).afterDone feed := by
    simp only [State.endLost, hpcounted, ← hs1, s2]
    rfl
  have htrack : s.Tracks feed s1 := by
    rw [← hs1, ← hs0]
    exact (State.Tracks.mapCtx_beside s feed count fun x => ⟨hfeed x, hpos x⟩).trans
      (State.Tracks.mapPos _ feed n _ fun _ => ⟨rfl, rfl⟩)
  have hframe : s.SameOutside s1 := by
    rw [← hs1, ← hs0]
    exact (s.frame_mapCtx feed count hfeed).trans (State.frame_mapPos _ feed n _)
  have hjobs : s1.waitJobs = s.waitJobs ∧ s1.hasJob feed n = s.hasJob feed n := by
    rw [← hs1, ← hs0]
    exact ⟨rfl, rfl⟩
  have h2 : s.Tracks feed s2 ∧ s.SameOutside s2 ∧ s2.contexts = s1.contexts := by
    simp only [s2]
    split
    · exact ⟨htrack.trans (s1.tracks_handOverChunkless feed n), hframe.trans (s1.frame_handOverChunkless feed n),
        s1.contexts_handOverChunkless feed n⟩
    · exact ⟨htrack, hframe, rfl⟩
  obtain ⟨htrack2, hframe2, hctx2⟩ := h2
  have hended2 : s2.ctx? feed
      = some (({ c with counts := counts } : FeedContext).mapPos n (Position.lostEnded outcome)) := by
    simpa only [State.ctx?, hctx2] using hended
  obtain ⟨d, hd, hdone⟩ := State.completePos_afterDone (g := fun q => { q with land := outcome })
    (p' := p.lostEnded outcome) hc hasc hp hwants htrack2 hended2
    (FeedContext.sameBut_mapPos _ n _ fun _ => rfl) (FeedContext.pos?_mapPos_self hp _ fun _ => rfl) (fun _ => rfl)
    rfl ⟨rfl, rfl⟩ ⟨rfl, rfl⟩
  have hcfeed : c.feed = feed := State.ctx?_feed hc
  rw [hrun]
  refine ⟨d, hd, hdone.counts, ⟨fun q hq => ?_, hdone.marks hwork, hdone.test, hdone.settled, hdone.tracks.pins.follow⟩,
    fun r q hr hq => ?_, (hframe2.trans (s2.frame_completePos feed n)).trans (State.frame_afterDone _ feed)⟩
  · rw [(hdone.stays q hq).1]
    exact (p.lostEnded outcome).completed_fields.2.1
  · obtain rfl := Option.some.inj (hp.symm.trans hr)
    have hkeeps := (hdone.stays q hq).2
    rw [hcfeed] at hkeeps ⊢
    obtain ⟨hhanded, hkept⟩ := State.handOverChunkless_jobs (n := n) hended
    refine ⟨fun hwait hno => ?_, fun hor j hjf hjs => ?_⟩
    · have hs2 : s2 = s1.handOverChunkless feed n := by simp only [s2, hwait, beq_self_eq_true, if_true]
      obtain ⟨j, hj, h1, h2, h3⟩ := hs2 ▸ hhanded (hjobs.2.trans hno)
      exact ⟨j, (hkeeps j (by simp [Job.isFor, h1, h2])).mpr hj, h1, h2, h3⟩
    · have hwait2 : s2.waitJobs = s.waitJobs := by
        simp only [s2]
        split
        · next hwait =>
          have hhas : s.hasJob feed n = true := hor.resolve_left fun hne => hne (by simpa using hwait)
          exact (hkept (hjobs.2.trans hhas)).trans hjobs.1
        · exact hjobs.1
      rw [hkeeps j (by simp [Job.isFor, hjf, hjs]), hwait2]

end

/-! ### A browse job that ends (R156, R157) -/

/-- A position whose browse job has come to its end. -/
def Position.browseEnded (st : BrowseState) (p : Position) : Position := { p with browse := some st }

section
variable {s : State} {c : FeedContext} {j : Job}

theorem State.job?_none_of {t : State} {uid : Nat} (hq : ∀ k ∈ t.queueJobs, k.uid ≠ uid)
    (hs : ∀ k ∈ t.shedJobs, k.uid ≠ uid) : t.job? uid = none := by
  simp only [State.job?, List.find?_eq_none, List.mem_append, beq_iff_eq]
  rintro k (hk | hk)
  · exact hq k hk
  · exact hs k hk

theorem State.jobEnds_spec (hc : s.ctx? j.feed = some c) (hplaced : c.JobPlaced j) (st : BrowseState)
    {count : FeedContext → FeedContext} {counts : FeedCounts}
    (hcount : ∀ l, count { c with positions := l } = { c with positions := l, counts := counts })
    (hfeed : ∀ x, (count x).feed = x.feed) (hpos : ∀ x, (count x).positions = x.positions) :
    s.JobEnded (s.jobEnds j st count) c j st counts ∧ s.SameOutside (s.jobEnds j st count) := by
  obtain ⟨hasc, p, hp, -, hwants⟩ := hplaced
  have hremoved : s.Tracks j.feed (s.removeJob j.uid) :=
    .of_eq rfl rfl (fun _ h => (List.mem_filter.mp h).1) (fun _ h => (List.mem_filter.mp h).1)
      fun _ h => (List.mem_filter.mp h).1
  generalize hs1 : s.removeJob j.uid = s1 at hremoved
  have hctx1 : s1.ctx? j.feed = some c := by
    rw [← hs1]
    exact hc
  have hframe1 : s.SameOutside s1 := by
    rw [← hs1]
    exact State.frame_of_eq rfl rfl rfl
  have hgone : (∀ k ∈ s1.queueJobs, k.uid ≠ j.uid) ∧ (∀ k ∈ s1.shedJobs, k.uid ≠ j.uid) ∧ j.uid ∉ s1.browseReady := by
    rw [← hs1]
    simp only [State.removeJob, List.mem_filter, bne_iff_ne]
    exact ⟨fun _ h => h.2, fun _ h => h.2, fun h => h.2 rfl⟩
  have hctx2 : (s1.mapPos j.feed j.seq (Position.browseEnded st)).ctx? j.feed
      = some (c.mapPos j.seq (Position.browseEnded st)) :=
    State.ctx?_counted hctx1 (·.mapPos j.seq (Position.browseEnded st)) fun _ => rfl
  have hctx3 := State.ctx?_counted hctx2 count hfeed
  generalize hs3 : (s1.mapPos j.feed j.seq (Position.browseEnded st)).mapCtx j.feed count = s3 at hctx3
  have hcount' : count (c.mapPos j.seq (Position.browseEnded st))
      = ({ c with counts := counts } : FeedContext).mapPos j.seq (Position.browseEnded st) := hcount _
  rw [hcount'] at hctx3
  have htrack13 : s1.Tracks j.feed s3 := by
    rw [← hs3]
    exact (State.Tracks.mapPos s1 j.feed j.seq (Position.browseEnded st) fun _ => ⟨rfl, rfl⟩).trans
      (State.Tracks.mapCtx_beside _ j.feed count fun x => ⟨hfeed x, hpos x⟩)
  have hframe3 : s.SameOutside s3 := by
    rw [← hs3]
    exact (hframe1.trans (s1.frame_mapPos j.feed j.seq _)).trans (State.frame_mapCtx _ j.feed count hfeed)
  obtain ⟨d, hd, hdone⟩ := State.completePos_afterDone (g := fun q => { q with browse := some st })
    (p' := p.browseEnded st) hc hasc hp hwants (hremoved.trans htrack13) hctx3
    (FeedContext.sameBut_mapPos _ j.seq _ fun _ => rfl) (FeedContext.pos?_mapPos_self hp _ fun _ => rfl) (fun _ => rfl)
    rfl ⟨rfl, rfl⟩ ⟨rfl, rfl⟩
  have hrun : s.jobEnds j st count = (s3.completePos j.feed j.seq).afterDone j.feed := by
    rw [← hs3, ← hs1]
    rfl
  have hlast : s1.Tracks j.feed ((s3.completePos j.feed j.seq).afterDone j.feed) :=
    (htrack13.trans (s3.tracks_completePos j.feed j.seq)).trans (State.tracks_afterDone _ j.feed)
  have hcfeed : c.feed = j.feed := State.ctx?_feed hc
  rw [hrun]
  refine ⟨⟨State.job?_none_of (fun k hk => hgone.1 k (hlast.queue k hk)) (fun k hk => hgone.2.1 k (hlast.shed k hk)),
    fun h => hgone.2.2 (hlast.ready _ h), d, hd, hdone.counts, fun q hq => ?_, hdone.marks, hdone.test,
    hdone.settled, ?_⟩, (hframe3.trans (s3.frame_completePos j.feed j.seq)).trans (State.frame_afterDone _ j.feed)⟩
  · rw [(hdone.stays q hq).1]
    exact (p.browseEnded st).completed_fields.2.2.1
  · exact hcfeed ▸ hdone.tracks.pins.follow

end

end Sys2Proof.Machine
end

