-- ==== Sys2Proof/Proofs/Written.lean ====
section
/-! WRITE_ANSWER (R122, R106, R156 to R158): what an answer does before its owner is handed the outcome, and what
each owner does with DONE and with FULL. -/

namespace Sys2Proof.Machine

/-! ### A taken answer (R113, R116) -/

section
variable (s : State) (m : List Byte) (a : StorageAnswer)

/-- The state in which the owner of an answer is handed DONE. -/
theorem State.answered_done : { (s.answerTaken m a).answerEffects .done with
    table := s.table, arrived := s.arrived, timeoutRun := s.timeoutRun } = s := rfl

/-- What the state in which the owner of an answer is handed FULL has of the state before. -/
structure State.FullTaken (u : State) : Prop where
  contexts : u.contexts = s.contexts
  ring : u.ring = s.ring
  checks : u.waitChecks = s.waitChecks
  uid : u.nextUid = s.nextUid
  now : u.now = s.now
  run : u.timeoutRun = s.timeoutRun
  ready : u.browseReady = s.browseReady

theorem State.setLocalHold_taken : s.FullTaken s.setLocalHold := by
  unfold State.setLocalHold
  split <;> exact ⟨rfl, rfl, rfl, rfl, rfl, rfl, rfl⟩

theorem State.answered_full : s.FullTaken ((s.answerTaken m a).answerEffects .full) := by
  obtain ⟨h1, h2, h3, h4, h5, h6, h7⟩ := (s.answerTaken m a).countStorageRefusal.setLocalHold_taken
  exact ⟨h1, h2, h3, h4, h5, h6, h7⟩

theorem State.answered_full_effects : ((s.answerTaken m a).answerEffects .full).table = s.table.set a.tag .free
    ∧ ((s.answerTaken m a).answerEffects .full).localHold = true
    ∧ ((s.answerTaken m a).answerEffects .full).counters
        = { s.counters with storageRefusals := s.counters.storageRefusals + 1 }
    ∧ (s.localHold = false → ((s.answerTaken m a).answerEffects .full).probeTimer
        = some (s.now + s.settings.beaconPeriod))
    ∧ (s.localHold = true → ((s.answerTaken m a).answerEffects .full).probeTimer = s.probeTimer) := by
  have hhold : (s.answerTaken m a).countStorageRefusal.localHold = s.localHold := rfl
  simp only [State.answerEffects, State.setLocalHold]
  split
  · next h => exact ⟨rfl, h, rfl, fun hno => absurd (hhold.symm.trans h) (by simp [hno]), fun _ => rfl⟩
  · next h => exact ⟨rfl, rfl, rfl, fun _ => rfl, fun hyes => absurd (hhold.trans hyes) h⟩

end

section
variable {s u t : State} {feed : Nat}

/-- Pins follow alike from a state with the same ring and contexts. -/
theorem State.PinsFollow.of_base (hr : u.ring = s.ring) (hc : u.contexts = s.contexts)
    (h : u.PinsFollow t feed) : s.PinsFollow t feed := by
  simpa only [State.PinsFollow, State.entry?, State.holdsPin, State.pos?, State.ctx?, hr, hc] using h

/-- A request that work of a context owns is owned in an ACTIVE or CLOSING one. -/
theorem State.working_of_owned {r : Request} {c : FeedContext} (ho : s.owned r = true) (hf : r.feed = some feed)
    (hp : r.purpose = .landing ∨ r.purpose = .rewrite ∨ r.purpose = .fill ∨ r.purpose = .landingCheck
      ∨ r.purpose = .trailerCheck) (hc : s.ctx? feed = some c) : c.working = true := by
  unfold State.owned at ho
  rcases hp with hp | hp | hp | hp | hp <;>
  · simp only [hp, hf, hc, Bool.and_eq_true] at ho
    exact ho.1

/-! ### Positions in a request -/

theorem State.pos?_of_inRequest {uid q : Nat} {st : LandState} (hq : q ∈ s.inRequest feed uid st) :
    ∃ p, s.pos? feed q = some p := by
  cases hc : s.ctx? feed with
  | none => simp [State.inRequest, hc] at hq
  | some c =>
    simp only [State.inRequest, hc, List.mem_map, List.mem_filter] at hq
    obtain ⟨p, ⟨hp, -⟩, hs⟩ := hq
    rw [← Option.ne_none_iff_exists']
    simp only [State.pos?, hc, Option.bind_some]
    intro hnone
    exact (FeedContext.pos?_none_iff c q).mp hnone p hp hs

/-- A position after a change of every position of its context. -/
theorem State.pos?_mapPositions (s : State) (feed q : Nat) (g : Position → Position) (hg : ∀ p, (g p).seq = p.seq) :
    (s.mapCtx feed (fun c => { c with positions := c.positions.map g })).pos? feed q = (s.pos? feed q).map g := by
  have hctx := s.ctx?_mapCtx feed feed (fun c => { c with positions := c.positions.map g }) fun _ => rfl
  unfold State.pos?
  rw [hctx]
  cases s.ctx? feed with
  | none => rfl
  | some c =>
    simp only [Option.map_some, beq_self_eq_true, if_true, Option.bind_some]
    exact find?_map_key (p := fun p : Position => p.seq == q) (fun p => by simp only [hg]) c.positions

/-- A position that waits for a CHECK. -/
def Position.checkAwaited (uid : Nat) (trailer : Bool) (p : Position) : Position :=
  { p with land := .checking, req := some uid, lost := if trailer then .trailerCheck else p.lost }

/-- Positions come to wait for a CHECK, which waits. -/
theorem State.awaitCheck_spec (s : State) (feed : Nat) {seqs : List Nat} (hne : seqs ≠ []) (trailer : Bool)
    (issueNo : Nat) :
    { s.awaitCheck feed seqs trailer issueNo with
        contexts := s.contexts, waitChecks := s.waitChecks, nextUid := s.nextUid } = s
      ∧ (s.awaitCheck feed seqs trailer issueNo).waitChecks
          = s.waitChecks ++ [WaitCheck.mk s.nextUid feed seqs trailer issueNo]
      ∧ ∀ q ∈ seqs, ∀ p, s.pos? feed q = some p →
          (s.awaitCheck feed seqs trailer issueNo).pos? feed q = some (p.checkAwaited s.nextUid trailer) := by
  have hempty : seqs.isEmpty = false := by simpa using hne
  unfold State.awaitCheck
  rw [hempty]
  refine ⟨rfl, rfl, fun q hq p hp => ?_⟩
  have hmap := s.pos?_mapPositions feed q (fun p => if seqs.contains p.seq then p.checkAwaited s.nextUid trailer else p)
    fun p => by split <;> rfl
  have hqs : seqs.contains p.seq = true := by
    rw [State.pos?_seq hp]
    simpa using hq
  refine Eq.trans (b := ((s.mapCtx feed (fun c => { c with positions := c.positions.map (fun p =>
    if seqs.contains p.seq then p.checkAwaited s.nextUid trailer else p) })).pos? feed q)) rfl ?_
  rw [hmap, hp, Option.map_some, if_pos hqs]

/-- Positions are READY again, with no rewrite counted. -/
theorem State.backToReady_spec (s : State) (feed : Nat) (seqs : List Nat) :
    { s.backToReady feed seqs with contexts := s.contexts } = s
      ∧ ∀ q ∈ seqs, ∀ p, s.pos? feed q = some p → (s.backToReady feed seqs).pos? feed q
          = some { p with land := .ready, readySince := some s.now, dueRewrite := false, req := none } := by
  refine ⟨rfl, fun q hq p hp => ?_⟩
  have hqs : seqs.contains p.seq = true := by
    rw [State.pos?_seq hp]
    simpa using hq
  refine (s.pos?_mapPositions feed q (fun p => if seqs.contains p.seq then
    { p with land := .ready, readySince := some s.now, dueRewrite := false, req := none } else p)
    fun p => by split <;> rfl).trans ?_
  rw [hp, Option.map_some, if_pos hqs]

end

/-! ### Browse jobs -/

section
variable {s : State} {j k : Job}

theorem State.job?_uid {uid : Nat} (h : s.job? uid = some j) : j.uid = uid := by
  simpa using List.find?_some h

/-- A job after a change of it. -/
theorem State.job?_mapJob (s : State) (uid : Nat) (f : Job → Job) (hf : ∀ k, (f k).uid = k.uid) :
    (s.mapJob uid f).job? uid = (s.job? uid).map f := by
  simp only [State.job?, State.mapJob, ← List.map_append]
  rw [find?_map_key (p := fun k : Job => k.uid == uid) (fun k => by split <;> simp [hf])]
  cases hj : (s.queueJobs ++ s.shedJobs).find? (fun k => k.uid == uid) with
  | none => rfl
  | some j =>
    have hu : j.uid = uid := State.job?_uid hj
    simp [hu]

/-- What is read off a job without its shed age is the same for jobs that differ in it alone. -/
theorem Job.of_ageless (h : k.ageless = j.ageless) {α : Type} (f : Job → α) (hf : ∀ x : Job, f x = f x.ageless) :
    f k = f j := by
  rw [hf k, hf j, h]

/-- A job with its shed age brought up to date is the job, its shed age left out. -/
theorem Job.syncAge_ageless (j : Job) (now : Nat) (held : Bool) : (j.syncAge now held).ageless = j.ageless := by
  unfold Job.syncAge
  repeat' split
  all_goals rfl

/-- The local hold set leaves each job but for its shed age. -/
theorem State.job?_answered_full (s : State) (m : List Byte) (a : StorageAnswer) {uid : Nat}
    (h : s.job? uid = some j) :
    ∃ k, ((s.answerTaken m a).answerEffects .full).job? uid = some k ∧ k.ageless = j.ageless := by
  simp only [State.answerEffects, State.setLocalHold]
  split
  · exact ⟨j, h, rfl⟩
  · simp only [State.job?, State.syncShedAges, List.find?_append] at h ⊢
    rw [find?_map_key (p := fun k : Job => k.uid == uid) (fun k => by
      unfold Job.syncAge
      repeat' split
      all_goals rfl)]
    change ((s.queueJobs.find? (fun k => k.uid == uid)).or _) = some j at h
    change ∃ k, (((s.queueJobs.find? (fun k => k.uid == uid)).map _).or
      (s.shedJobs.find? (fun k => k.uid == uid))) = some k ∧ _
    cases hq : s.queueJobs.find? (fun k => k.uid == uid) with
    | none =>
      rw [hq] at h
      exact ⟨j, h, rfl⟩
    | some i =>
      rw [hq] at h
      obtain rfl : i = j := Option.some.inj h
      exact ⟨_, rfl, i.syncAge_ageless _ _⟩

end

/-! ### The outcome of a browse write (R156 to R158) -/

section
variable {s u t : State} {c : FeedContext} {j k : Job}

theorem State.JobEnded.of_base {st : BrowseState} {counts : FeedCounts} (hr : u.ring = s.ring)
    (hc : u.contexts = s.contexts) (h : u.JobEnded t c j st counts) : s.JobEnded t c j st counts := by
  obtain ⟨h1, h2, d, h3, h4, h5, h6, h7, h8, h9⟩ := h
  exact ⟨h1, h2, d, h3, h4, h5, h6, h7, h8, .of_base hr hc h9⟩

theorem State.jobEnds_failed (hc : s.ctx? j.feed = some c) (hplaced : c.JobPlaced j) :
    s.JobEnded (s.jobEnds j .done FeedContext.countBrowseFailed) c j .done
        { c.counts with browseFailed := c.counts.browseFailed + 1 }
      ∧ s.SameOutside (s.jobEnds j .done FeedContext.countBrowseFailed) :=
  State.jobEnds_spec hc hplaced .done (counts := { c.counts with browseFailed := c.counts.browseFailed + 1 })
    (fun _ => rfl) (fun _ => rfl) fun _ => rfl

theorem State.jobEnds_shed (hc : s.ctx? j.feed = some c) (hplaced : c.JobPlaced j) :
    s.JobEnded (s.jobEnds j .shed FeedContext.countBrowseShed) c j .shed
        { c.counts with browseShed := c.counts.browseShed + 1 }
      ∧ s.SameOutside (s.jobEnds j .shed FeedContext.countBrowseShed) :=
  State.jobEnds_spec hc hplaced .shed (counts := { c.counts with browseShed := c.counts.browseShed + 1 })
    (fun _ => rfl) (fun _ => rfl) fun _ => rfl

/-- A browse write that is DONE ends its job by its content (R156). -/
theorem State.jobWritten_spec (hc : s.ctx? j.feed = some c) (hplaced : c.JobPlaced j) :
    (j.content = .present → s.JobEnded (s.jobWritten j) c j .done
        { c.counts with browseDone := c.counts.browseDone + 1 })
      ∧ (j.content = .missing → s.JobEnded (s.jobWritten j) c j .done c.counts)
      ∧ (j.content = .failed → s.JobEnded (s.jobWritten j) c j .done
        { c.counts with browseFailed := c.counts.browseFailed + 1 })
      ∧ (j.content = .shed → s.JobEnded (s.jobWritten j) c j .shed
        { c.counts with browseShed := c.counts.browseShed + 1 })
      ∧ s.SameOutside (s.jobWritten j) := by
  unfold State.jobWritten
  cases hcontent : j.content with
  | present =>
    obtain ⟨h, hframe⟩ := State.jobEnds_spec hc hplaced .done (count := FeedContext.countBrowseDone)
      (counts := { c.counts with browseDone := c.counts.browseDone + 1 }) (fun _ => rfl) (fun _ => rfl) fun _ => rfl
    exact ⟨fun _ => h, nofun, nofun, nofun, hframe⟩
  | missing =>
    obtain ⟨h, hframe⟩ := State.jobEnds_spec hc hplaced .done (count := id)
      (counts := c.counts) (fun _ => rfl) (fun _ => rfl) fun _ => rfl
    exact ⟨nofun, fun _ => h, nofun, nofun, hframe⟩
  | failed =>
    obtain ⟨h, hframe⟩ := State.jobEnds_failed hc hplaced
    exact ⟨nofun, nofun, fun _ => h, nofun, hframe⟩
  | shed =>
    obtain ⟨h, hframe⟩ := State.jobEnds_shed hc hplaced
    exact ⟨nofun, nofun, nofun, fun _ => h, hframe⟩

/-- A browse write that fails spends its job's retry, or goes on without its pictures, or ends the job (R157,
R158). -/
theorem State.jobFails_spec (hc : s.ctx? j.feed = some c) (hplaced : c.JobPlaced j) (hj : s.job? j.uid = some j) :
    s.WriteFailed (s.jobFails j) c j ∧ s.SameOutside (s.jobFails j) := by
  have hready : ∀ f : Job → Job, (∀ k, (f k).uid = k.uid) →
      ((s.mapJob j.uid f).readyWrite j.uid).browseReady = s.browseReady ++ [j.uid]
        ∧ (∃ k, ((s.mapJob j.uid f).readyWrite j.uid).job? j.uid = some k ∧ k.ageless = (f j).ageless)
        ∧ s.SameOutside ((s.mapJob j.uid f).readyWrite j.uid) := fun f hf => by
    refine ⟨rfl, ⟨f j, ?_, rfl⟩, State.frame_of_eq rfl rfl rfl⟩
    exact (s.job?_mapJob j.uid f hf).trans (by rw [hj]; rfl)
  unfold State.jobFails
  split
  · next hfailed =>
    have hcontent : j.content = .failed := by simpa using hfailed
    obtain ⟨h, hframe⟩ := State.jobEnds_failed hc hplaced
    exact ⟨⟨fun _ => h, fun hno => absurd hcontent hno, fun hno => absurd hcontent hno⟩, hframe⟩
  · next hfailed =>
    have hcontent : j.content ≠ .failed := by simpa using hfailed
    split
    · next hretry =>
      have hspent : j.retrySpent = false := by simpa using hretry
      obtain ⟨h1, h2, hframe⟩ := hready (fun k => { k with retrySpent := true, inFlight := none }) fun _ => rfl
      exact ⟨⟨fun hf => absurd hf hcontent, fun _ _ => ⟨h1, h2⟩, fun _ hs => absurd hspent (by simp [hs])⟩,
        hframe⟩
    · next hretry =>
      have hspent : j.retrySpent = true := by simpa using hretry
      have hno : ∀ {P : Prop}, j.retrySpent = false → P := fun h => absurd hspent (by simp [h])
      cases hkind : j.kind with
      | withChunk =>
        obtain ⟨h1, h2, hframe⟩ := hready (fun k => { k with content := .failed, inFlight := none }) fun _ => rfl
        exact ⟨⟨fun hf => absurd hf hcontent, fun _ => hno, fun _ _ =>
          ⟨fun _ => ⟨h1, h2⟩, by simp [hkind], by simp [hkind]⟩⟩, hframe⟩
      | chunkless =>
        obtain ⟨h, hframe⟩ := State.jobEnds_failed hc hplaced
        exact ⟨⟨fun hf => absurd hf hcontent, fun _ => hno, fun _ _ =>
          ⟨by simp [hkind], fun _ => h, by simp [hkind]⟩⟩, hframe⟩
      | shedRecord =>
        obtain ⟨h, hframe⟩ := State.jobEnds_shed hc hplaced
        exact ⟨⟨fun hf => absurd hf hcontent, fun _ => hno, fun _ _ =>
          ⟨by simp [hkind], by simp [hkind], fun _ => h⟩⟩, hframe⟩

/-- Jobs alike but for their shed ages fail alike. -/
theorem State.WriteFailed.of_ageless (hr : u.ring = s.ring) (hc : u.contexts = s.contexts)
    (hready : u.browseReady = s.browseReady) (hk : k.ageless = j.ageless) (h : u.WriteFailed t c k) :
    s.WriteFailed t c j := by
  have hfield : ∀ {α : Type} (f : Job → α), (∀ x : Job, f x = f x.ageless) → f k = f j := Job.of_ageless hk
  have huid : k.uid = j.uid := hfield (·.uid) fun _ => rfl
  have hcontent : k.content = j.content := hfield (·.content) fun _ => rfl
  have hspent : k.retrySpent = j.retrySpent := hfield (·.retrySpent) fun _ => rfl
  have hkind : k.kind = j.kind := hfield (·.kind) fun _ => rfl
  have hended : ∀ {st counts}, u.JobEnded t c k st counts → s.JobEnded t c j st counts := fun he => by
    have hb := State.JobEnded.of_base hr hc he
    rwa [State.JobEnded, huid, show k.feed = j.feed from hfield (·.feed) fun _ => rfl,
      show k.seq = j.seq from hfield (·.seq) fun _ => rfl] at hb
  have hretry : ({ k with retrySpent := true, inFlight := none } : Job).ageless
      = ({ j with retrySpent := true, inFlight := none } : Job).ageless :=
    hfield (fun x => ({ x with retrySpent := true, inFlight := none } : Job).ageless) fun _ => rfl
  have hfailed : ({ k with content := .failed, inFlight := none } : Job).ageless
      = ({ j with content := .failed, inFlight := none } : Job).ageless :=
    hfield (fun x => ({ x with content := .failed, inFlight := none } : Job).ageless) fun _ => rfl
  obtain ⟨h1, h2, h3⟩ := h
  rw [hretry, hcontent, hspent, huid, hready] at h2
  rw [hfailed, hcontent, hspent, hkind, huid, hready] at h3
  refine ⟨fun hf => hended (h1 (hcontent.trans hf)), h2, fun hf hs => ?_⟩
  obtain ⟨h4, h5, h6⟩ := h3 hf hs
  exact ⟨h4, fun hk' => hended (h5 hk'), fun hk' => hended (h6 hk')⟩

end

/-! ### WRITE_ANSWER -/

section
variable {s : State} {m : List Byte} {a : StorageAnswer} {r : Request}

theorem exec_writeAnswer (hans : s.Answered m a) (hkind : a.kind = .write) (htab : s.table[a.tag] = .issued r)
    (hown : s.owned r = true) (hp : r.purpose.kind = .write) :
    exec .writeAnswer s = .next (((s.answerTaken m a).answerEffects a.outcome).handToOwner r a.entries
      a.outcome.handed) := by
  have h := exec_answer_owned hans htab (hp.trans hkind.symm) (fun hc => absurd (hkind.symm.trans hc) nofun) hown
  rwa [hkind] at h

/-- A landing or rewrite WRITE is answered (R122). -/
theorem landingWritten {feed : Nat} (hans : s.Answered m a) (hkind : a.kind = .write)
    (htab : s.table[a.tag] = .issued r) (hown : s.owned r = true)
    (hp : r.purpose = .landing ∨ r.purpose = .rewrite) (hf : r.feed = some feed) :
    (a.outcome = .done → s.inRequest feed r.uid .landing ≠ [] →
        ∃ t, exec .writeAnswer s = .next t ∧ t.table = s.table.set a.tag .free ∧ t.timeoutRun = 0
          ∧ t.waitChecks = s.waitChecks ++ [WaitCheck.mk s.nextUid feed
              (s.inRequest feed r.uid .landing) false 1]
          ∧ (∀ q ∈ s.inRequest feed r.uid .landing, ∃ p, t.pos? feed q = some p
              ∧ p.land = .checking ∧ p.req = some s.nextUid)
          ∧ { t with contexts := s.contexts, table := s.table, timeoutRun := s.timeoutRun,
                     waitChecks := s.waitChecks, arrived := s.arrived, nextUid := s.nextUid } = s)
      ∧ (a.outcome = .full →
        ∃ t, exec .writeAnswer s = .next t ∧ t.table = s.table.set a.tag .free ∧ t.localHold = true
          ∧ t.timeoutRun = s.timeoutRun ∧ t.waitChecks = s.waitChecks
          ∧ t.counters = { s.counters with storageRefusals := s.counters.storageRefusals + 1 }
          ∧ (s.localHold = false → t.probeTimer = some (s.now + s.settings.beaconPeriod))
          ∧ (s.localHold = true → t.probeTimer = s.probeTimer)
          ∧ (∀ q ∈ s.inRequest feed r.uid .landing, ∃ p o, t.pos? feed q = some p
              ∧ s.pos? feed q = some o ∧ p.land = .ready ∧ p.dueRewrite = false
              ∧ p.readySince = some s.now ∧ p.rewrites = o.rewrites)) := by
  have hexec := exec_writeAnswer hans hkind htab hown (by rcases hp with h | h <;> rw [h] <;> rfl)
  have howner : ∀ (u : State) (o : Handed), u.handToOwner r a.entries o = u.writeOutcome feed r o := fun u o => by
    rcases hp with h | h <;> simp only [State.handToOwner, h, hf]
  refine ⟨fun hdone hne => ?_, fun hfull => ?_⟩
  · rw [hdone, howner] at hexec
    obtain ⟨hrest, hchecks, hpos⟩ := State.awaitCheck_spec ((s.answerTaken m a).answerEffects .done) feed hne false 1
    refine ⟨_, hexec, congrArg State.table hrest, congrArg State.timeoutRun hrest, hchecks, fun q hq => ?_, ?_⟩
    · obtain ⟨p, hp⟩ := State.pos?_of_inRequest hq
      exact ⟨_, hpos q hq p hp, rfl, rfl⟩
    · have hs := s.answered_done m a
      rw [← hrest] at hs
      exact hs
  · rw [hfull, howner] at hexec
    have htaken := s.answered_full m a
    obtain ⟨htable, hhold, hcounters, hprobe, hprobe'⟩ := s.answered_full_effects m a
    generalize (s.answerTaken m a).answerEffects .full = u at *
    have hreq : u.inRequest feed r.uid .landing = s.inRequest feed r.uid .landing := by
      simp only [State.inRequest, State.ctx?, htaken.contexts]
    obtain ⟨-, hpos⟩ := u.backToReady_spec feed (u.inRequest feed r.uid .landing)
    refine ⟨_, hexec, htable, hhold, htaken.run, htaken.checks, hcounters, hprobe, hprobe', fun q hq => ?_⟩
    obtain ⟨o, ho⟩ := State.pos?_of_inRequest hq
    have hou : u.pos? feed q = some o := by
      simpa only [State.pos?, State.ctx?, htaken.contexts] using ho
    exact ⟨_, o, hpos q (hreq ▸ hq) o hou, ho, rfl, rfl, congrArg some htaken.now, rfl⟩

/-- A fill is answered (R106). -/
theorem fillWritten {feed seq : Nat} (hans : s.Answered m a) (hkind : a.kind = .write)
    (htab : s.table[a.tag] = .issued r) (hown : s.owned r = true) (hp : r.purpose = .fill)
    (hf : r.feed = some feed) (hreq : s.inRequest feed r.uid .checking = [seq]) :
    (a.outcome = .done → ∀ c p, s.ctx? feed = some c →
        (c.positions.map (·.seq)).Pairwise (· < ·) → c.pos? seq = some p → p.wantsLand = true →
        c.WantsCalled p →
        ∃ t d, exec .writeAnswer s = .next t ∧ t.table = s.table.set a.tag .free
          ∧ t.timeoutRun = 0 ∧ t.counters = s.counters ∧ t.ctx? feed = some d
          ∧ d.counts = { c.counts with lost := c.counts.lost + 1 }
          ∧ s.LandDone t c d seq .lost ∧ s.LostEnds t c d seq)
      ∧ (a.outcome = .full → ∃ t p, exec .writeAnswer s = .next t
          ∧ t.table = s.table.set a.tag .free ∧ t.localHold = true
          ∧ t.counters = { s.counters with storageRefusals := s.counters.storageRefusals + 1 }
          ∧ t.waitChecks = s.waitChecks ++ [WaitCheck.mk s.nextUid feed [seq] true 1]
          ∧ t.pos? feed seq = some p ∧ p.land = .checking ∧ p.lost = .trailerCheck
          ∧ p.req = some s.nextUid) := by
  have hexec := exec_writeAnswer hans hkind htab hown (by rw [hp]; rfl)
  have howner : ∀ (u : State) (o : Handed), u.handToOwner r a.entries o = u.fillOutcome feed r o := fun u o => by
    simp only [State.handToOwner, hp, hf]
  refine ⟨fun hdone c p hc hasc hpos hwl hwants => ?_, fun hfull => ?_⟩
  · have hworks := State.working_of_owned hown hf (by simp [hp]) hc
    have hrun : ((s.answerTaken m a).answerEffects .done).fillOutcome feed r .done
        = (((s.answerTaken m a).answerEffects .done).mapCtx feed FeedContext.countLost).endLost feed seq .lost := by
      have hreq' : ((s.answerTaken m a).answerEffects .done).inRequest feed r.uid .checking = [seq] := hreq
      simp only [State.fillOutcome, hreq']
    rw [hdone, howner, show AnswerOutcome.done.handed = .done from rfl, hrun] at hexec
    obtain ⟨d, hd, hcounts, hland, hlost, hframe⟩ := State.endLost_spec
      (s := (s.answerTaken m a).answerEffects .done) hc hasc hpos hwants hworks .lost
      (count := FeedContext.countLost) rfl (fun _ => rfl) fun _ => rfl
    exact ⟨_, d, hexec, hframe.observe (·.table) fun _ => rfl, hframe.observe (·.timeoutRun) fun _ => rfl,
      hframe.observe (·.counters) fun _ => rfl, hd, hcounts, hland, hlost⟩
  · rw [hfull, howner] at hexec
    have htaken := s.answered_full m a
    obtain ⟨htable, hhold, hcounters, -, -⟩ := s.answered_full_effects m a
    generalize (s.answerTaken m a).answerEffects .full = u at *
    have hreq' : u.inRequest feed r.uid .checking = [seq] := by
      simpa only [State.inRequest, State.ctx?, htaken.contexts] using hreq
    have hrun : u.fillOutcome feed r .full = u.awaitCheck feed [seq] true 1 := by
      simp only [State.fillOutcome, hreq']
    rw [show AnswerOutcome.full.handed = .full from rfl, hrun] at hexec
    obtain ⟨hrest, hchecks, hpos⟩ := u.awaitCheck_spec feed (List.cons_ne_nil seq []) true 1
    obtain ⟨o, ho⟩ := State.pos?_of_inRequest (hreq'.symm ▸ List.mem_singleton_self seq :
      seq ∈ u.inRequest feed r.uid .checking)
    refine ⟨_, _, hexec, (congrArg State.table hrest).trans htable, (congrArg State.localHold hrest).trans hhold,
      (congrArg State.counters hrest).trans hcounters, ?_, hpos seq (List.mem_singleton_self seq) o ho, rfl, rfl,
      congrArg some htaken.uid⟩
    rw [hchecks, htaken.checks, htaken.uid]

/-- A browse write is answered (R156 to R158). -/
theorem browseWritten {uid : Nat} {j : Job} {c : FeedContext} (hans : s.Answered m a) (hkind : a.kind = .write)
    (htab : s.table[a.tag] = .issued r) (hown : s.owned r = true) (hp : r.purpose = .browse uid)
    (hj : s.job? uid = some j) (hc : s.ctx? j.feed = some c) (hplaced : c.JobPlaced j) :
    (a.outcome = .done → ∃ t, exec .writeAnswer s = .next t
        ∧ t.table = s.table.set a.tag .free ∧ t.timeoutRun = 0 ∧ t.counters = s.counters
        ∧ (j.content = .present → s.JobEnded t c j .done
            { c.counts with browseDone := c.counts.browseDone + 1 })
        ∧ (j.content = .missing → s.JobEnded t c j .done c.counts)
        ∧ (j.content = .failed → s.JobEnded t c j .done
            { c.counts with browseFailed := c.counts.browseFailed + 1 })
        ∧ (j.content = .shed → s.JobEnded t c j .shed
            { c.counts with browseShed := c.counts.browseShed + 1 }))
      ∧ (a.outcome = .full → ∃ t, exec .writeAnswer s = .next t
        ∧ t.table = s.table.set a.tag .free ∧ t.localHold = true
        ∧ t.counters = { s.counters with storageRefusals := s.counters.storageRefusals + 1 }
        ∧ s.WriteFailed t c j) := by
  have hexec := exec_writeAnswer hans hkind htab hown (by rw [hp]; rfl)
  have howner : ∀ (u : State) (o : Handed), u.handToOwner r a.entries o = u.browseOutcome uid o := fun u o => by
    simp only [State.handToOwner, hp]
  refine ⟨fun hdone => ?_, fun hfull => ?_⟩
  · have hrun : ((s.answerTaken m a).answerEffects .done).browseOutcome uid .done
        = ((s.answerTaken m a).answerEffects .done).jobWritten j := by
      have hj' : ((s.answerTaken m a).answerEffects .done).job? uid = some j := hj
      simp only [State.browseOutcome, hj']
    rw [hdone, howner, show AnswerOutcome.done.handed = .done from rfl, hrun] at hexec
    obtain ⟨h1, h2, h3, h4, hframe⟩ := State.jobWritten_spec (s := (s.answerTaken m a).answerEffects .done) hc hplaced
    exact ⟨_, hexec, hframe.observe (·.table) fun _ => rfl, hframe.observe (·.timeoutRun) fun _ => rfl,
      hframe.observe (·.counters) fun _ => rfl, fun h => .of_base rfl rfl (h1 h), fun h => .of_base rfl rfl (h2 h),
      fun h => .of_base rfl rfl (h3 h), fun h => .of_base rfl rfl (h4 h)⟩
  · rw [hfull, howner] at hexec
    have htaken := s.answered_full m a
    obtain ⟨htable, hhold, hcounters, -, -⟩ := s.answered_full_effects m a
    obtain ⟨k, hk, hage⟩ := s.job?_answered_full m a hj
    generalize (s.answerTaken m a).answerEffects .full = u at *
    have hrun : u.browseOutcome uid .full = u.jobFails k := by
      simp only [State.browseOutcome, hk]
    rw [show AnswerOutcome.full.handed = .full from rfl, hrun] at hexec
    have hfeed : k.feed = j.feed := Job.of_ageless hage (·.feed) fun _ => rfl
    have hseq : k.seq = j.seq := Job.of_ageless hage (·.seq) fun _ => rfl
    have huid : k.uid = uid := State.job?_uid hk
    have hcu : u.ctx? k.feed = some c := by
      rw [hfeed]
      simpa only [State.ctx?, htaken.contexts] using hc
    have hplaced' : c.JobPlaced k := by
      unfold FeedContext.JobPlaced
      rw [hseq]
      exact hplaced
    obtain ⟨hfailed, hframe⟩ := State.jobFails_spec hcu hplaced' (huid.symm ▸ hk)
    exact ⟨_, hexec, (hframe.observe (·.table) fun _ => rfl).trans htable,
      (hframe.observe (·.localHold) fun _ => rfl).trans hhold,
      (hframe.observe (·.counters) fun _ => rfl).trans hcounters,
      .of_ageless htaken.ring htaken.contexts htaken.ready hage hfailed⟩

end

/-- Settles O47: each owner of a WRITE is handed its answer's outcome. -/
theorem writeAnswered : Obligations.WriteAnswered := by
  intro s m a r hans hkind htab hown
  exact ⟨fun feed hp hf => landingWritten hans hkind htab hown hp hf,
    fun feed seq hp hf hreq => fillWritten hans hkind htab hown hp hf hreq,
    fun uid j c hp hj hc hplaced => browseWritten hans hkind htab hown hp hj hc hplaced⟩

end Sys2Proof.Machine
end

