-- ==== Sys2Proof/Proofs/Judged.lean ====
section
/-! A landing CHECK that is DONE (R124, R125): each position still CHECKING in it is judged on its own. What the
judgements make of the context is said at once for the whole list of slots. -/

namespace Sys2Proof.Machine

/-! ### One judgement -/

/-- A position once it was judged. -/
def Position.judgedTo (now : Nat) (st : LandState) (p : Position) : Position :=
  match st with
  | .ready => { p with
      land := .ready, rewrites := p.rewrites + 1, dueRewrite := true, readySince := some now, req := none }
  | st => ({ p with land := st, req := none } : Position).completed

/-- The judgement of a list of slots on a sequence number. -/
def FeedContext.judgement (c : FeedContext) (uid : Nat) (l : List (SlotRef × Trailer × CheckWord)) (n : Nat) :
    Option LandState :=
  l.findSome? (fun z => if z.1.seq = n then c.judgedAs uid z else none)

/-- The positions of a context in the landing states that a list of slots gives them. -/
def FeedContext.judgedLand (c : FeedContext) (uid : Nat) (l : List (SlotRef × Trailer × CheckWord))
    (p : Position) : Position :=
  match c.judgement uid l p.seq with
  | some st => { p with land := st }
  | none => p

/-- The feed counts after the judgements of a list of slots. -/
def FeedContext.countsJudged (c : FeedContext) (uid : Nat) (l : List (SlotRef × Trailer × CheckWord)) : FeedCounts :=
  { c.counts with
    landed := c.counts.landed + BitVec.ofNat 32 (l.filter (fun z => c.judgedAs uid z == some .landed)).length,
    truncated := c.counts.truncated + BitVec.ofNat 32 (l.filter (fun z =>
      c.judgedAs uid z == some .landed && z.2.1.state == some .truncated)).length,
    rewrites := c.counts.rewrites + BitVec.ofNat 32 (l.filter (fun z => c.judgedAs uid z == some .ready)).length,
    lost := c.counts.lost + BitVec.ofNat 32 (l.filter (fun z => c.judgedAs uid z == some .lost)).length }

/-- `d` is `c` after the judgements of a list of slots. -/
structure FeedContext.Judged (c d : FeedContext) (now uid : Nat) (l : List (SlotRef × Trailer × CheckWord)) :
    Prop where
  outline : d.outline = ({ c with counts := c.countsJudged uid l } : FeedContext).outline
  pos : ∀ n, d.pos? n = (c.pos? n).map (fun p =>
    ((c.judgement uid l n).map (fun st => p.judgedTo now st)).getD p)

section
variable {c d : FeedContext} {now uid : Nat} {x : SlotRef × Trailer × CheckWord} {p : Position}

theorem Position.judgedTo_fields (now : Nat) (st : LandState) (p : Position) : (p.judgedTo now st).seq = p.seq
    ∧ (p.judgedTo now st).land = st ∧ (p.judgedTo now st).browse = p.browse
    ∧ (p.judgedTo now st).wantsLand = p.wantsLand ∧ (p.judgedTo now st).wantsBrowse = p.wantsBrowse := by
  have hdone : ∀ st', (({ p with land := st', req := none } : Position).completed).seq = p.seq
      ∧ (({ p with land := st', req := none } : Position).completed).land = st'
      ∧ (({ p with land := st', req := none } : Position).completed).browse = p.browse
      ∧ (({ p with land := st', req := none } : Position).completed).wantsLand = p.wantsLand
      ∧ (({ p with land := st', req := none } : Position).completed).wantsBrowse = p.wantsBrowse := fun st' => by
    obtain ⟨h1, h2, h3, h4, h5, -⟩ := ({ p with land := st', req := none } : Position).completed_fields
    exact ⟨h1, h2, h3, h4, h5⟩
  cases st
  case ready => exact ⟨rfl, rfl, rfl, rfl, rfl⟩
  all_goals exact hdone _

/-- A landing position that was judged was tested for completion. -/
theorem Position.judgedTo_completed (st : LandState) (hp : p.wantsLand = true) :
    ∃ p' : Position, p.judgedTo now st = p'.completed ∧ p'.pinned = p.pinned := by
  cases st
  case ready =>
    refine ⟨p.judgedTo now .ready, ?_, rfl⟩
    have hopen : (p.judgedTo now .ready).complete = false := by
      simp [Position.complete, Position.judgedTo, Position.landDone, hp]
    unfold Position.completed
    rw [hopen]
    rfl
  all_goals exact ⟨{ p with land := _, req := none }, rfl, rfl⟩

theorem Position.matches_iff (p : Position) (t : Trailer) (head : CheckWord) : p.matches t head = true
    ↔ t.seq = p.seq ∧ t.state ≠ none ∧ head = t.check ∧ p.wrote = t.state.map (fun st => (st, t.check)) := by
  unfold Position.matches
  cases hw : p.wrote with
  | none => cases ht : t.state <;> simp
  | some y =>
    obtain ⟨st, w⟩ := y
    cases ht : t.state with
    | none => simp
    | some st' =>
      simp only [Bool.and_eq_true, beq_iff_eq, Option.some.injEq, ne_eq, reduceCtorEq, not_false_eq_true, true_and,
        Option.map_some, Prod.mk.injEq]
      constructor
      · rintro ⟨⟨⟨h1, h2⟩, h3⟩, h4⟩
        exact ⟨h1, h4.trans h3.symm, h2.symm, h3.symm⟩
      · rintro ⟨h1, h2, h3, h4⟩
        exact ⟨⟨⟨h1, h3.symm⟩, h4.symm⟩, h2.trans h4.symm⟩

theorem FeedContext.judgedAs_of_none (h : c.pos? x.1.seq = none) : c.judgedAs uid x = none := by
  simp [FeedContext.judgedAs, h]

theorem FeedContext.judgedAs_of_pos (h : c.pos? x.1.seq = some p) : c.judgedAs uid x
    = if p.req = some uid ∧ p.land = .checking then
        some (if p.matches x.2.1 x.2.2 = true then .landed else if p.rewrites < 4 then .ready else .lost)
      else none := by
  simp only [FeedContext.judgedAs, h, Option.bind_some, p.matches_iff]

/-- A judgement names a position that is CHECKING in the request. -/
theorem FeedContext.judgedAs_some {st : LandState} (h : c.judgedAs uid x = some st) :
    ∃ p, c.pos? x.1.seq = some p ∧ p.req = some uid ∧ p.land = .checking := by
  cases hp : c.pos? x.1.seq with
  | none =>
    rw [FeedContext.judgedAs_of_none hp] at h
    cases h
  | some p =>
    rw [FeedContext.judgedAs_of_pos hp] at h
    split at h
    · next hcond => exact ⟨p, rfl, hcond⟩
    · cases h

/-- The judgements read the positions of their sequence numbers. -/
theorem FeedContext.judgedAs_congr (h : d.pos? x.1.seq = c.pos? x.1.seq) : d.judgedAs uid x = c.judgedAs uid x := by
  simp only [FeedContext.judgedAs, h]

/-- Work at the position of one slot is the judgement of that slot alone. -/
theorem FeedContext.Judged.single {k : FeedCounts} (hk : k = c.countsJudged uid [x])
    (hsame : FeedContext.SameBut x.1.seq { c with counts := k } d)
    (hpos : d.pos? x.1.seq = (c.pos? x.1.seq).map (fun p =>
      ((c.judgedAs uid x).map (fun st => p.judgedTo now st)).getD p)) : c.Judged d now uid [x] := by
  subst hk
  refine ⟨hsame.outline, fun n => ?_⟩
  by_cases hn : x.1.seq = n
  · subst hn
    simpa [FeedContext.judgement] using hpos
  · rw [hsame.others n fun h => hn h.symm]
    simp only [FeedContext.judgement, List.findSome?_cons, if_neg hn, List.findSome?_nil, Option.map_none,
      Option.getD_none]
    cases h : c.pos? n with
    | none => exact h
    | some p => exact h

theorem findSome?_congr_on {α β : Type} {f g : α → Option β} :
    ∀ {l : List α}, (∀ a ∈ l, f a = g a) → l.findSome? f = l.findSome? g
  | [], _ => rfl
  | a :: l, h => by
    rw [List.findSome?_cons, List.findSome?_cons, h a List.mem_cons_self,
      findSome?_congr_on fun b hb => h b (List.mem_cons_of_mem a hb)]

/-- A list of slots of different sequence numbers is judged one after the other. -/
theorem FeedContext.Judged.cons {c₁ : FeedContext} {l : List (SlotRef × Trailer × CheckWord)}
    (hx : ∀ z ∈ l, z.1.seq ≠ x.1.seq) (h₁ : c.Judged c₁ now uid [x]) (h₂ : c₁.Judged d now uid l) :
    c.Judged d now uid (x :: l) := by
  have hone : ∀ n, n ≠ x.1.seq → c₁.pos? n = c.pos? n := fun n hn => by
    have hno : c.judgement uid [x] n = none := by simp [FeedContext.judgement, Ne.symm hn]
    rw [h₁.pos n, hno]
    cases c.pos? n <;> rfl
  have hagree : ∀ z ∈ l, c₁.judgedAs uid z = c.judgedAs uid z := fun z hz =>
    FeedContext.judgedAs_congr (hone _ (hx z hz))
  have hfilter : ∀ f : (SlotRef × Trailer × CheckWord) → Option LandState → Bool,
      l.filter (fun z => f z (c₁.judgedAs uid z)) = l.filter (fun z => f z (c.judgedAs uid z)) := fun f =>
    List.filter_congr fun z hz => by rw [hagree z hz]
  have hcounts₁ : c₁.counts = c.countsJudged uid [x] := congrArg FeedContext.counts h₁.outline
  have hadd : ∀ (f : (SlotRef × Trailer × CheckWord) → Option LandState → Bool) (b : BitVec 32),
      b + BitVec.ofNat 32 ([x].filter (fun z => f z (c.judgedAs uid z))).length
        + BitVec.ofNat 32 (l.filter (fun z => f z (c₁.judgedAs uid z))).length
      = b + BitVec.ofNat 32 ((x :: l).filter (fun z => f z (c.judgedAs uid z))).length := fun f b => by
    have hsplit : (x :: l).filter (fun z => f z (c.judgedAs uid z)) = [x].filter (fun z => f z (c.judgedAs uid z))
        ++ l.filter (fun z => f z (c.judgedAs uid z)) := List.filter_append [x] l
    rw [hfilter f, hsplit, List.length_append, BitVec.ofNat_add, BitVec.add_assoc]
  have hcounts : c₁.countsJudged uid l = c.countsJudged uid (x :: l) := by
    unfold FeedContext.countsJudged
    rw [hcounts₁]
    simp only [FeedContext.countsJudged]
    congr 1
    · exact hadd (fun _ o => o == some .landed) _
    · exact hadd (fun _ o => o == some .lost) _
    · exact hadd (fun z o => o == some .landed && z.2.1.state == some .truncated) _
    · exact hadd (fun _ o => o == some .ready) _
  refine ⟨?_, fun n => ?_⟩
  · rw [h₂.outline, hcounts]
    exact congrArg (fun y : FeedContext => { y with counts := c.countsJudged uid (x :: l) }) h₁.outline
  · rw [h₂.pos n]
    by_cases hn : x.1.seq = n
    · subst hn
      have hno : c₁.judgement uid l x.1.seq = none := by
        simp only [FeedContext.judgement, List.findSome?_eq_none_iff]
        intro z hz
        rw [if_neg (hx z hz)]
      have hsome : c.judgement uid (x :: l) x.1.seq = c.judgement uid [x] x.1.seq := by
        have hrest : c.judgement uid l x.1.seq = none := by
          simp only [FeedContext.judgement, List.findSome?_eq_none_iff]
          intro z hz
          rw [if_neg (hx z hz)]
        unfold FeedContext.judgement at hrest ⊢
        rw [List.findSome?_cons, List.findSome?_cons, hrest, List.findSome?_nil]
      rw [hno, hsome, h₁.pos]
      cases c.pos? x.1.seq <;> rfl
    · have hrest : c₁.judgement uid l n = c.judgement uid (x :: l) n := by
        unfold FeedContext.judgement
        rw [List.findSome?_cons, if_neg hn]
        simp only
        refine findSome?_congr_on fun z hz => ?_
        rw [hagree z hz]
      rw [hrest, hone n fun h => hn h.symm]

end

end Sys2Proof.Machine
end

