-- ==== Sys2Proof/Proofs/Checked.lean ====
section
/-! CHECK_ANSWER (R124, R125, R105, R127): the judgements of a landing CHECK and what follows them, the trailer CHECK
of a lost procedure, and FULL. -/

namespace Sys2Proof.Machine

/-! ### What the judgements leave -/

section
variable (s : State) (feed uid : Nat) (x : SlotRef × Trailer × CheckWord)

theorem State.frame_judge : s.SameOutside (s.judge feed uid x) := by
  have hdone : ∀ (g : FeedContext → FeedContext) (n : Nat), (∀ c, (g c).feed = c.feed) →
      s.SameOutside ((s.mapCtx feed g).completePos feed n) := fun g n hg =>
    (s.frame_mapCtx feed g hg).trans (State.frame_completePos _ feed n)
  unfold State.judge
  split
  · exact .refl s
  · split
    · split
      · exact hdone _ _ fun c => by split <;> split <;> rfl
      · unfold State.mismatchedPos
        split
        · exact s.frame_mapCtx feed _ fun _ => rfl
        · exact hdone _ _ fun _ => rfl
    · exact .refl s

theorem State.tracks_judge : s.Tracks feed (s.judge feed uid x) := by
  have hmap : ∀ (g : FeedContext → FeedContext) (n : Nat) (h : Position → Position),
      (∀ p, (h p).seq = p.seq ∧ (h p).pinned = p.pinned) → (∀ c, (g c).feed = c.feed) →
      (∀ c, (g c).positions = (c.mapPos n h).positions) → s.Tracks feed (s.mapCtx feed g) := fun g n h hh hf hg => by
    refine .mapCtx s feed g hf fun c _ m => ?_
    have hpin := c.pinAt_mapPositions (fun p => if p.seq == n then h p else p) (fun p => by
      split
      · exact hh p
      · exact ⟨rfl, rfl⟩) m
    simp only [FeedContext.pinAt, FeedContext.pos?, hg] at hpin ⊢
    exact hpin
  unfold State.judge
  split
  · exact .refl feed s
  · next p _ =>
    split
    · split
      · unfold State.landedPos
        refine State.Tracks.trans (hmap _ p.seq (fun q => { q with land := .landed, req := none }) (fun _ => ⟨rfl, rfl⟩)
          (fun c => by split <;> split <;> rfl) fun c => by split <;> split <;> rfl) (State.tracks_completePos _ feed _)
      · unfold State.mismatchedPos
        split
        · exact hmap _ p.seq (Position.judgedTo s.now .ready) (fun _ => ⟨rfl, rfl⟩) (fun _ => rfl) fun _ => rfl
        · refine State.Tracks.trans (hmap (fun c => (c.mapPos p.seq (fun q =>
            { q with land := .lost, req := none })).countLost) p.seq (fun q => { q with land := .lost, req := none })
            (fun _ => ⟨rfl, rfl⟩) (fun _ => rfl) fun _ => rfl) (State.tracks_completePos _ feed _)
    · exact .refl feed s

end

/-! ### The judgements of a landing CHECK -/

section
variable {s : State} {feed uid : Nat} {c : FeedContext} {p : Position} {x : SlotRef × Trailer × CheckWord}

/-- A stored trailer that matches is TRUNCATED where the position was written so. -/
theorem Position.matches_truncated (h : p.matches x.2.1 x.2.2 = true) :
    (match p.wrote with
      | some (.truncated, _) => true
      | _ => false) = (x.2.1.state == some .truncated) := by
  obtain ⟨-, hstate, -, hwrote⟩ := (p.matches_iff _ _).mp h
  obtain ⟨st, hst⟩ := Option.ne_none_iff_exists'.mp hstate
  rw [hwrote, hst]
  cases st <;> rfl

theorem FeedContext.countsJudged_of_none (h : c.judgedAs uid x = none) : c.countsJudged uid [x] = c.counts := by
  simp [FeedContext.countsJudged, h]

/-- A change of one position and of the counts that is the judgement of a slot. -/
theorem FeedContext.judged_of_mapPos {k : FeedCounts} {st : LandState} {g : Position → Position} {now : Nat}
    {d : FeedContext} (hp : c.pos? x.1.seq = some p) (hj : c.judgedAs uid x = some st)
    (hk : k = c.countsJudged uid [x])
    (hsame : FeedContext.SameBut x.1.seq (({ c with counts := k } : FeedContext).mapPos x.1.seq g) d)
    (hg : ∀ q, (g q).place = q.place) (hpos : d.pos? x.1.seq = some (p.judgedTo now st)) : c.Judged d now uid [x] := by
  refine .single hk ((FeedContext.sameBut_mapPos _ x.1.seq g hg).trans hsame) ?_
  rw [hpos, hp, hj]
  rfl

/-- A position judged to be done is tested for completion. -/
theorem State.completePos_judged {k : FeedCounts} {st : LandState} {g : Position → Position}
    {F : FeedContext → FeedContext} (hc : s.ctx? feed = some c) (hp : c.pos? x.1.seq = some p)
    (hj : c.judgedAs uid x = some st) (hk : k = c.countsJudged uid [x])
    (hF : F c = ({ c with counts := k } : FeedContext).mapPos x.1.seq g) (hfeed : ∀ y, (F y).feed = y.feed)
    (hg : ∀ q, (g q).place = q.place) (hst : p.judgedTo s.now st = (g p).completed) :
    ∃ d, ((s.mapCtx feed F).completePos feed x.1.seq).ctx? feed = some d ∧ c.Judged d s.now uid [x] := by
  have hmap := State.ctx?_counted hc F hfeed
  rw [hF] at hmap
  have hseq : ∀ q, (g q).seq = q.seq := fun q => by
    have := congrArg Position.seq (hg q)
    exact this
  obtain ⟨d, hd, hsame, hpos⟩ := State.completePos_ctx hmap
    (FeedContext.pos?_mapPos_self (c := { c with counts := k }) hp g hseq)
  exact ⟨d, hd, FeedContext.judged_of_mapPos hp hj hk hsame hg (hst ▸ hpos)⟩

theorem State.landedPos_eq (s : State) (feed : Nat) (h : p.matches x.2.1 x.2.2 = true) :
    s.landedPos feed p = (s.mapCtx feed (fun c =>
      if x.2.1.state == some .truncated then
        (c.mapPos p.seq (fun q => { q with land := .landed, req := none })).countLanded.countTruncated
      else (c.mapPos p.seq (fun q => { q with land := .landed, req := none })).countLanded)).completePos
        feed p.seq := by
  rw [← Position.matches_truncated h]
  rfl

/-- A slot that matches makes its position LANDED (R124). -/
theorem State.landedPos_judged (hc : s.ctx? feed = some c) (hp : c.pos? x.1.seq = some p)
    (hj : c.judgedAs uid x = some .landed) (hmatch : p.matches x.2.1 x.2.2 = true) :
    ∃ d, (s.landedPos feed p).ctx? feed = some d ∧ c.Judged d s.now uid [x] := by
  have hseq : p.seq = x.1.seq := FeedContext.pos?_seq hp
  rw [State.landedPos_eq s feed hmatch, hseq]
  refine State.completePos_judged (g := fun q => { q with land := .landed, req := none })
    (k := { c.counts with
      landed := c.counts.landed + 1,
      truncated := if (x.2.1.state == some .truncated) = true then c.counts.truncated + 1 else c.counts.truncated })
    hc hp hj ?_ ?_ (fun y => ?_) (fun _ => rfl) rfl
  · by_cases ht : x.2.1.state = some .truncated <;> simp [FeedContext.countsJudged, hj, ht]
  · split <;> rfl
  · split <;> rfl

/-- A slot that does not match makes its position due for a rewrite, or LOST (R125). -/
theorem State.mismatchedPos_judged (hc : s.ctx? feed = some c) (hp : c.pos? x.1.seq = some p)
    (hj : c.judgedAs uid x = some (if p.rewrites < 4 then .ready else .lost)) :
    ∃ d, (s.mismatchedPos feed p).ctx? feed = some d ∧ c.Judged d s.now uid [x] := by
  have hseq : p.seq = x.1.seq := FeedContext.pos?_seq hp
  simp only [State.mismatchedPos, hseq, Config.maxRewrites]
  by_cases hmax : p.rewrites < 4
  · rw [if_pos hmax] at hj ⊢
    refine ⟨_, State.ctx?_counted hc _ fun _ => rfl, FeedContext.judged_of_mapPos
      (k := { c.counts with rewrites := c.counts.rewrites + 1 }) (g := Position.judgedTo s.now .ready) hp hj ?_
      (.refl _ _) (fun _ => rfl) (FeedContext.pos?_mapPos_self (c := { c with counts := _ }) hp _ fun _ => rfl)⟩
    simp [FeedContext.countsJudged, hj]
  · rw [if_neg hmax] at hj ⊢
    refine State.completePos_judged (g := fun q => { q with land := .lost, req := none })
      (k := { c.counts with lost := c.counts.lost + 1 }) hc hp hj ?_ rfl (fun _ => rfl) (fun _ => rfl) rfl
    simp [FeedContext.countsJudged, hj]

/-- The position of one slot judged. -/
theorem State.judge_judged (hc : s.ctx? feed = some c) :
    ∃ d, (s.judge feed uid x).ctx? feed = some d ∧ c.Judged d s.now uid [x] := by
  have hself : c.judgedAs uid x = none → c.Judged c s.now uid [x] := fun hno => by
    refine .single (c.countsJudged_of_none hno).symm ⟨rfl, rfl, rfl, rfl, fun _ _ => rfl⟩ ?_
    rw [hno]
    cases c.pos? x.1.seq <;> rfl
  cases hp : c.pos? x.1.seq with
  | none =>
    have hpos : s.pos? feed x.1.seq = none := by simp [State.pos?, hc, hp]
    simp only [State.judge, hpos]
    exact ⟨c, hc, hself (FeedContext.judgedAs_of_none hp)⟩
  | some p =>
    have hseq : p.seq = x.1.seq := FeedContext.pos?_seq hp
    have hjudged := FeedContext.judgedAs_of_pos (uid := uid) hp
    simp only [State.judge, State.pos?_of_ctx hc hp]
    by_cases hin : p.req = some uid ∧ p.land = .checking
    · rw [if_pos hin] at hjudged
      rw [if_pos (by simp [hin.1, hin.2])]
      by_cases hmatch : p.matches x.2.1 x.2.2 = true
      · rw [if_pos hmatch] at hjudged ⊢
        exact State.landedPos_judged hc hp hjudged hmatch
      · rw [if_neg hmatch] at hjudged ⊢
        exact State.mismatchedPos_judged hc hp hjudged
    · rw [if_neg hin] at hjudged
      rw [if_neg (by simpa using hin)]
      exact ⟨c, hc, hself hjudged⟩

/-- Every slot of a list judged, each for a position of its own. -/
theorem State.judges_judged {l : List (SlotRef × Trailer × CheckWord)} (hnodup : (l.map (·.1.seq)).Nodup) :
    ∀ {s : State} {c : FeedContext}, s.ctx? feed = some c →
      ∃ d, (l.foldl (fun s x => s.judge feed uid x) s).ctx? feed = some d ∧ c.Judged d s.now uid l := by
  induction l with
  | nil =>
    intro s c hc
    refine ⟨c, hc, ?_, fun n => ?_⟩
    · simp [FeedContext.countsJudged]
    · cases h : c.pos? n <;> rfl
  | cons x l ih =>
    intro s c hc
    obtain ⟨hx, hl⟩ := List.nodup_cons.mp hnodup
    obtain ⟨c₁, hc₁, h₁⟩ := State.judge_judged (uid := uid) (x := x) hc
    obtain ⟨d, hd, h₂⟩ := ih hl hc₁
    have hnow : (s.judge feed uid x).now = s.now := (s.frame_judge feed uid x).observe (·.now) fun _ => rfl
    rw [hnow] at h₂
    exact ⟨d, hd, h₁.cons (fun z hz heq => hx (List.mem_map.mpr ⟨z, hz, heq⟩)) h₂⟩

end

/-! ### The landing CHECK that is DONE (R124) -/

section
variable {c z : FeedContext} {now uid : Nat} {l : List (SlotRef × Trailer × CheckWord)}

/-- Judgements are work on the landing jobs of their positions. -/
theorem FeedContext.Judged.worked (h : c.Judged z now uid l) : c.Worked z (c.judgedLand uid l) := by
  have hbare : z.bare = ({ c with counts := c.countsJudged uid l } : FeedContext).bare :=
    FeedContext.bare_of_outline h.outline
  have hcounts : z.counts = c.countsJudged uid l := FeedContext.of_bare hbare (·.counts) fun _ => rfl
  refine ⟨hcounts ▸ hbare, Position.seqs_of_places (congrArg FeedContext.positions h.outline), fun p => ?_,
    fun n p hp => ⟨_, (h.pos n).trans (by rw [hp]; rfl), ?_⟩⟩
  · unfold FeedContext.judgedLand
    split <;> rfl
  · have hseq : p.seq = n := FeedContext.pos?_seq hp
    unfold FeedContext.judgedLand
    rw [hseq]
    cases hj : c.judgement uid l n with
    | none => exact ⟨rfl, rfl, rfl, rfl⟩
    | some st =>
      obtain ⟨-, h1, h2, h3, h4⟩ := Position.judgedTo_fields now st p
      refine ⟨h3, h4, ?_, ?_⟩
      · simp only [Option.map_some, Option.getD_some, Position.landDone, h1]
      · simp only [Option.map_some, Option.getD_some, Position.browseDone, h2]

/-- The judgement of one of the slots, each for a sequence number of its own. -/
theorem FeedContext.judgement_of_mem (hnodup : (l.map (·.1.seq)).Nodup) {x : SlotRef × Trailer × CheckWord}
    (hx : x ∈ l) {st : LandState} (hj : c.judgedAs uid x = some st) : c.judgement uid l x.1.seq = some st := by
  induction l with
  | nil => cases hx
  | cons y l ih =>
    obtain ⟨hy, hl⟩ := List.nodup_cons.mp hnodup
    unfold FeedContext.judgement
    rw [List.findSome?_cons]
    rcases List.mem_cons.mp hx with rfl | hmem
    · rw [if_pos rfl, hj]
    · have hne : y.1.seq ≠ x.1.seq := fun heq => hy (List.mem_map.mpr ⟨x, hmem, heq.symm⟩)
      rw [if_neg hne]
      exact ih hl hmem

end

section
variable {s : State} {feed : Nat} {r : Request} {c : FeedContext}

/-- A landing CHECK that is DONE: the slots are judged, and what follows. -/
theorem State.landingChecked_spec {entries : List (Trailer × CheckWord)}
    (hc : s.ctx? feed = some c) (hlen : entries.length = r.slots.length) (hnodup : (r.slots.map (·.seq)).Nodup)
    (hwork : c.working = true) (hasc : (c.positions.map (·.seq)).Pairwise (· < ·))
    (hwants : ∀ p ∈ c.positions, p.req = some r.uid → p.land = .checking → p.wantsLand = true ∧ c.WantsCalled p) :
    ∃ d, (s.landingChecked feed r entries).ctx? feed = some d
      ∧ d.counts = c.countsJudged r.uid (r.slots.zip entries)
      ∧ (∀ z ∈ r.slots.zip entries, ∀ st, c.judgedAs r.uid z = some st → ∀ q, d.pos? z.1.seq = some q →
          q.land = st ∧ (st = .ready → q.dueRewrite = true
            ∧ c.pos? z.1.seq ≠ none ∧ (∀ p, c.pos? z.1.seq = some p → q.rewrites = p.rewrites + 1)
            ∧ WaitRewrite.batch feed ∈ (s.landingChecked feed r entries).waitRewrites))
      ∧ c.MarksFollow d (c.judgedLand r.uid (r.slots.zip entries))
      ∧ (s.landingChecked feed r entries).EndTested c d ∧ s.PinsFollow (s.landingChecked feed r entries) feed
      ∧ (∀ z ∈ r.slots.zip entries, c.judgedAs r.uid z ≠ none → c.PosSettled d z.1.seq)
      ∧ s.SameOutside (s.landingChecked feed r entries) := by
  have hzip : (r.slots.zip entries).map (·.1.seq) = r.slots.map (·.seq) := by
    have hfst : (r.slots.zip entries).map Prod.fst = r.slots := List.map_fst_zip hlen.ge
    calc (r.slots.zip entries).map (·.1.seq)
        = ((r.slots.zip entries).map Prod.fst).map (·.seq) := by rw [List.map_map]; rfl
      _ = r.slots.map (·.seq) := by rw [hfst]
  generalize hl : r.slots.zip entries = l at hzip
  have hnodup' : (l.map (·.1.seq)).Nodup := hzip ▸ hnodup
  obtain ⟨z, hz, hjudged⟩ := State.judges_judged (uid := r.uid) hnodup' hc
  have hframe : s.SameOutside (l.foldl (fun s x => s.judge feed r.uid x) s) :=
    State.SameOutside.foldl _ (fun t x => t.frame_judge feed r.uid x) l s
  have htrack : s.Tracks feed (l.foldl (fun s x => s.judge feed r.uid x) s) :=
    .foldl (f := fun s x => s.judge feed r.uid x) (fun t x _ => t.tracks_judge feed r.uid x) s
  have hrun : s.landingChecked feed r entries
      = ((l.foldl (fun s x => s.judge feed r.uid x) s).syncRewrite feed).afterDone feed := by
    rw [← hl]
    rfl
  rw [hrun]
  clear hrun
  generalize l.foldl (fun s x => s.judge feed r.uid x) s = s1 at *
  have hz2 : (s1.syncRewrite feed).ctx? feed = some z := by
    simpa only [State.ctx?, State.syncRewrite_contexts] using hz
  obtain ⟨d, hd, hcounts, hmarks, htest⟩ := State.afterDone_worked hz2 hjudged.worked
  have hzcounts : z.counts = c.countsJudged r.uid l := congrArg FeedContext.counts hjudged.outline
  have hslot : ∀ x ∈ l, ∀ st, c.judgedAs r.uid x = some st → ∃ p, c.pos? x.1.seq = some p ∧ p.wantsLand = true
      ∧ (d.CalledFor x.1.seq → d.pos? x.1.seq ≠ none) ∧ ∀ q, d.pos? x.1.seq = some q → q = p.judgedTo s.now st
        ∧ State.Stays feed x.1.seq (p.judgedTo s.now st) (s1.syncRewrite feed)
          ((s1.syncRewrite feed).afterDone feed)
        ∧ z.pos? x.1.seq = some (p.judgedTo s.now st) := by
    intro x hx st hj
    obtain ⟨p, hp, hreq, hland⟩ := FeedContext.judgedAs_some hj
    obtain ⟨hwl, hwc⟩ := hwants p (FeedContext.pos?_mem hp) hreq hland
    have hpz : z.pos? x.1.seq = some (p.judgedTo s.now st) := by
      rw [hjudged.pos, hp, FeedContext.judgement_of_mem hnodup' hx hj]
      rfl
    obtain ⟨hthere, hstay⟩ := State.afterDone_position hz2 hjudged.worked hasc hp hwc hpz hd
    exact ⟨p, hp, hwl, hthere, fun q hq => ⟨(hstay q hq).1, (hstay q hq).2, hpz⟩⟩
  refine ⟨d, hd, hcounts.trans hzcounts, fun x hx st hj q hq => ?_, hmarks hwork, htest,
    ((htrack.trans (s1.tracks_syncRewrite feed)).trans (State.tracks_afterDone _ feed)).pins.follow,
    fun x hx hne => ?_, (hframe.trans (s1.frame_syncRewrite feed)).trans (State.frame_afterDone _ feed)⟩
  · obtain ⟨p, hp, hwl, -, hstay⟩ := hslot x hx st hj
    obtain ⟨rfl, hstays, hpz⟩ := hstay q hq
    refine ⟨(Position.judgedTo_fields s.now st p).2.1, ?_⟩
    rintro rfl
    refine ⟨rfl, by rw [hp]; exact Option.some_ne_none p, fun p' hp' => ?_, ?_⟩
    · obtain rfl := Option.some.inj (hp.symm.trans hp')
      rfl
    · have hdue : (p.judgedTo s.now .ready).rewriteDue = true := by
        simp [Position.rewriteDue, Position.inReadySet, Position.judgedTo, hwl]
      obtain ⟨-, -, hbatch⟩ := hstays (State.pos?_of_ctx hz2 hpz)
      exact hbatch hdue (State.batch_syncRewrite (State.pos?_of_ctx hz hpz) hdue)
  · obtain ⟨st, hj⟩ := Option.ne_none_iff_exists'.mp hne
    obtain ⟨p, hp, hwl, hthere, hstay⟩ := hslot x hx st hj
    obtain ⟨p', hp', hpin⟩ := Position.judgedTo_completed (now := s.now) st hwl
    exact FeedContext.posSettled_of hp hthere (fun q hq => hp' ▸ (hstay q hq).1) hpin

end

/-! ### CHECK_ANSWER -/

section
variable {s : State} {m : List Byte} {a : StorageAnswer} {r : Request}

theorem exec_checkAnswer (hans : s.Answered m a) (hkind : a.kind = .check) (htab : s.table[a.tag] = .issued r)
    (hown : s.owned r = true) (hp : r.purpose.kind = .check)
    (hlen : a.outcome = .done → a.entries.length = r.slots.length) :
    exec .checkAnswer s = .next (((s.answerTaken m a).answerEffects a.outcome).handToOwner r a.entries
      a.outcome.handed) := by
  have h := exec_answer_owned hans htab (hp.trans hkind.symm) (fun _ => hlen) hown
  rwa [hkind] at h

/-- A request with a position in it is owned where its context works. -/
theorem State.owned_of_inRequest {feed q : Nat} {st : LandState} {c : FeedContext} (hf : r.feed = some feed)
    (hp : r.purpose = .trailerCheck) (hc : s.ctx? feed = some c) (hw : c.working = true)
    (hq : q ∈ s.inRequest feed r.uid st) : s.owned r = true := by
  simp only [State.inRequest, hc, List.mem_map, List.mem_filter, Bool.and_eq_true] at hq
  obtain ⟨p, ⟨hmem, hreq, -⟩, -⟩ := hq
  simp only [State.owned, hp, hf, hc, hw, Bool.true_and, List.any_eq_true]
  exact ⟨p, hmem, hreq⟩

/-- A landing CHECK is DONE. -/
theorem landingCheck_done {feed : Nat} (hans : s.Answered m a) (hkind : a.kind = .check)
    (hdone : a.outcome = .done) (htab : s.table[a.tag] = .issued r) (hp : r.purpose = .landingCheck)
    (hf : r.feed = some feed) (hlen : a.entries.length = r.slots.length) (hown : s.owned r = true) :
    exec .checkAnswer s = .next (((s.answerTaken m a).answerEffects .done).landingChecked feed r a.entries) := by
  have hexec := exec_checkAnswer hans hkind htab hown (by rw [hp]; rfl) fun _ => hlen
  rw [hdone] at hexec
  refine hexec.trans (congrArg Host.Outcome.next ?_)
  simp only [State.handToOwner, hp, hf]
  rfl

theorem State.awaitFill_spec {feed seq : Nat} {c : FeedContext} {p : Position} (hc : s.ctx? feed = some c)
    (hp : c.pos? seq = some p) : ∃ d, (s.awaitFill feed seq).ctx? feed = some d ∧ d.counts = c.counts
      ∧ d.pos? seq = some { p with lost := .fill, req := none }
      ∧ (s.awaitFill feed seq).waitRewrites = s.waitRewrites ++ [.fill feed seq]
      ∧ s.SameOutside (s.awaitFill feed seq) := by
  refine ⟨_, State.ctx?_counted hc (·.mapPos seq (fun p => { p with lost := .fill, req := none })) fun _ => rfl,
    rfl, FeedContext.pos?_mapPos_self hp _ fun _ => rfl, rfl, ?_⟩
  refine (s.frame_mapPos feed seq (fun p => { p with lost := .fill, req := none })).trans ?_
  exact State.frame_of_eq rfl rfl rfl

/-- A trailer CHECK is DONE (R105). -/
theorem trailerChecked {feed seq : Nat} {c : FeedContext} {x : SlotRef} {y : Trailer × CheckWord} {p : Position}
    (hans : s.Answered m a) (hkind : a.kind = .check) (hdone : a.outcome = .done)
    (htab : s.table[a.tag] = .issued r) (hp : r.purpose = .trailerCheck) (hf : r.feed = some feed)
    (hslots : r.slots = [x]) (hentries : a.entries = [y]) (hc : s.ctx? feed = some c) (hw : c.working = true)
    (hasc : (c.positions.map (·.seq)).Pairwise (· < ·)) (hreq : s.inRequest feed r.uid .checking = [seq])
    (hpos : c.pos? seq = some p) (hwants : c.WantsCalled p) :
    let copy := y.1.seq = seq ∧ (y.1.state = some .present ∨ y.1.state = some .truncated)
      ∧ y.2 = y.1.check
    let declared := y.1.seq = seq ∧ y.1.state = some .lost
    ∃ t d, exec .checkAnswer s = .next t ∧ t.ctx? feed = some d
      ∧ t.table = s.table.set a.tag .free ∧ t.timeoutRun = 0 ∧ t.counters = s.counters
      ∧ (copy → d.counts = { c.counts with
            landed := c.counts.landed + 1,
            truncated := c.counts.truncated + (if y.1.state = some .truncated then 1 else 0) }
          ∧ s.LandDone t c d seq .landed ∧ s.LostEnds t c d seq)
      ∧ (declared → d.counts = { c.counts with lost := c.counts.lost + 1 }
          ∧ s.LandDone t c d seq .lost ∧ s.LostEnds t c d seq)
      ∧ (¬copy → ¬declared → t.waitRewrites = s.waitRewrites ++ [.fill feed seq]
          ∧ d.counts = c.counts ∧ ∃ q, d.pos? seq = some q ∧ q.land = .checking ∧ q.lost = .fill) := by
  intro copy declared
  have hown : s.owned r = true := State.owned_of_inRequest hf hp hc hw (hreq ▸ List.mem_singleton_self seq)
  have hexec := exec_checkAnswer hans hkind htab hown (by rw [hp]; rfl) fun _ => by rw [hslots, hentries]; rfl
  have hrun : ((s.answerTaken m a).answerEffects .done).handToOwner r a.entries .done
      = ((s.answerTaken m a).answerEffects .done).trailerRead feed seq y.1 y.2 := by
    have hreq' : ((s.answerTaken m a).answerEffects .done).inRequest feed r.uid .checking = [seq] := hreq
    simp only [State.handToOwner, hp, hf, State.trailerOutcome, hreq', hentries]
  rw [hdone, show AnswerOutcome.done.handed = .done from rfl, hrun] at hexec
  have hcopy : (y.1.seq == seq && (y.1.state == some .present || y.1.state == some .truncated)
      && y.2 == y.1.check) = true ↔ copy := by
    simp only [copy, Bool.and_eq_true, Bool.or_eq_true, beq_iff_eq, and_assoc]
  have hdeclared : (y.1.seq == seq && y.1.state == some .lost) = true ↔ declared := by
    simp only [declared, Bool.and_eq_true, beq_iff_eq]
  by_cases h1 : copy
  · have hno : ¬declared := fun h => by rcases h1.2.1 with h' | h' <;> rw [h.2] at h' <;> cases h'
    simp only [State.trailerRead, hcopy.mpr h1, if_true] at hexec
    obtain ⟨d, hd, hcounts, hland, hlost, hframe⟩ := State.endLost_spec
      (s := (s.answerTaken m a).answerEffects .done) hc hasc hpos hwants hw .landed
      (count := fun c => if y.1.state == some .truncated then c.countLanded.countTruncated else c.countLanded)
      (counts := { c.counts with
        landed := c.counts.landed + 1,
        truncated := c.counts.truncated + (if y.1.state = some .truncated then 1 else 0) })
      (by by_cases ht : y.1.state = some .truncated <;>
            simp [ht, FeedContext.countLanded, FeedContext.countTruncated])
      (fun c => by split <;> rfl) fun c => by split <;> rfl
    exact ⟨_, d, hexec, hd, hframe.observe (·.table) fun _ => rfl, hframe.observe (·.timeoutRun) fun _ => rfl,
      hframe.observe (·.counters) fun _ => rfl, fun _ => ⟨hcounts, hland, hlost⟩, fun h => absurd h hno,
      fun h => absurd h1 h⟩
  · by_cases h2 : declared
    · simp only [State.trailerRead, hdeclared.mpr h2, if_neg (mt hcopy.mp h1), if_true] at hexec
      obtain ⟨d, hd, hcounts, hland, hlost, hframe⟩ := State.endLost_spec
        (s := (s.answerTaken m a).answerEffects .done) hc hasc hpos hwants hw .lost
        (count := FeedContext.countLost) rfl (fun _ => rfl) fun _ => rfl
      exact ⟨_, d, hexec, hd, hframe.observe (·.table) fun _ => rfl, hframe.observe (·.timeoutRun) fun _ => rfl,
        hframe.observe (·.counters) fun _ => rfl, fun h => absurd h h1, fun _ => ⟨hcounts, hland, hlost⟩,
        fun _ h => absurd h2 h⟩
    · have hfill : ((s.answerTaken m a).answerEffects .done).trailerRead feed seq y.1 y.2
          = ((s.answerTaken m a).answerEffects .done).awaitFill feed seq := by
        unfold State.trailerRead
        rw [if_neg (mt hcopy.mp h1), if_neg (mt hdeclared.mp h2)]
      rw [hfill] at hexec
      have hland : p.land = .checking := by
        have hmem : seq ∈ s.inRequest feed r.uid .checking := hreq ▸ List.mem_singleton_self seq
        simp only [State.inRequest, hc, List.mem_map, List.mem_filter, Bool.and_eq_true, beq_iff_eq] at hmem
        obtain ⟨q, ⟨hq, -, hql⟩, hqs⟩ := hmem
        rwa [c.eq_of_pos? hasc hpos hq hqs] at hql
      obtain ⟨d, hd, hcounts, hq, hrewrites, hframe⟩ := State.awaitFill_spec
        (s := (s.answerTaken m a).answerEffects .done) hc hpos
      exact ⟨_, d, hexec, hd, hframe.observe (·.table) fun _ => rfl, hframe.observe (·.timeoutRun) fun _ => rfl,
        hframe.observe (·.counters) fun _ => rfl, fun h => absurd h h1, fun h => absurd h h2,
        fun _ _ => ⟨hrewrites, hcounts, _, hq, hland, rfl⟩⟩

/-- A CHECK that meets FULL waits again (R105, R127). -/
theorem checkFull {feed seq : Nat} {rest : List Nat} (hans : s.Answered m a) (hkind : a.kind = .check)
    (hfull : a.outcome = .full) (htab : s.table[a.tag] = .issued r) (hf : r.feed = some feed)
    (hown : s.owned r = true) (hreq : s.inRequest feed r.uid .checking = seq :: rest)
    (hp : r.purpose = .landingCheck ∨ r.purpose = .trailerCheck) :
    ∃ t, exec .checkAnswer s = .next t ∧ t.table = s.table.set a.tag .free ∧ t.localHold = true
      ∧ t.timeoutRun = s.timeoutRun
      ∧ t.counters = { s.counters with storageRefusals := s.counters.storageRefusals + 1 }
      ∧ (r.purpose = .landingCheck → t.waitChecks = s.waitChecks ++
          [WaitCheck.mk s.nextUid feed (seq :: rest) false r.issueNo])
      ∧ (r.purpose = .trailerCheck → t.waitChecks = s.waitChecks ++
          [WaitCheck.mk s.nextUid feed [seq] true 1]) := by
  have hexec := exec_checkAnswer hans hkind htab hown (by rcases hp with h | h <;> rw [h] <;> rfl)
    fun h => absurd (hfull.symm.trans h) nofun
  rw [hfull] at hexec
  have htaken := s.answered_full m a
  obtain ⟨htable, hhold, hcounters, -, -⟩ := s.answered_full_effects m a
  generalize (s.answerTaken m a).answerEffects .full = u at *
  have hreq' : u.inRequest feed r.uid .checking = seq :: rest := by
    simpa only [State.inRequest, State.ctx?, htaken.contexts] using hreq
  have hwait : ∀ seqs trailer issueNo, seqs ≠ [] → u.handToOwner r a.entries .full
        = u.awaitCheck feed seqs trailer issueNo → ∃ t, exec .checkAnswer s = .next t
      ∧ t.table = s.table.set a.tag .free ∧ t.localHold = true ∧ t.timeoutRun = s.timeoutRun
      ∧ t.counters = { s.counters with storageRefusals := s.counters.storageRefusals + 1 }
      ∧ t.waitChecks = s.waitChecks ++ [WaitCheck.mk s.nextUid feed seqs trailer issueNo] := by
    intro seqs trailer issueNo hne hrun
    rw [show AnswerOutcome.full.handed = .full from rfl, hrun] at hexec
    obtain ⟨hrest, hchecks, -⟩ := u.awaitCheck_spec feed hne trailer issueNo
    exact ⟨_, hexec, (congrArg State.table hrest).trans htable, (congrArg State.localHold hrest).trans hhold,
      (congrArg State.timeoutRun hrest).trans htaken.run, (congrArg State.counters hrest).trans hcounters,
      by rw [hchecks, htaken.checks, htaken.uid]⟩
  rcases hp with hp | hp
  · obtain ⟨t, h1, h2, h3, h4, h5, h6⟩ := hwait (seq :: rest) false r.issueNo (List.cons_ne_nil _ _)
      (by simp only [State.handToOwner, hp, hf, State.checkOutcome, hreq'])
    exact ⟨t, h1, h2, h3, h4, h5, fun _ => h6, fun h => absurd (hp.symm.trans h) nofun⟩
  · obtain ⟨t, h1, h2, h3, h4, h5, h6⟩ := hwait [seq] true 1 (List.cons_ne_nil _ _)
      (by simp only [State.handToOwner, hp, hf, State.trailerOutcome, hreq'])
    exact ⟨t, h1, h2, h3, h4, h5, fun h => absurd (hp.symm.trans h) nofun, fun _ => h6⟩

end

/-- Settles O49: a CHECK's answer judges the positions in it. -/
theorem checkJudgesPosition : Obligations.CheckJudgesPosition := by
  refine ⟨?_, ?_, ?_, ?_⟩
  · intro s m a r feed c _ hans hkind hdone htab hp hf hlen hnodup hc hown hasc hwants
    have hexec := landingCheck_done hans hkind hdone htab hp hf hlen hown
    have hwork := State.working_of_owned hown hf (by simp [hp]) hc
    obtain ⟨d, hd, hcounts, hjudged, hmarks, htest, hpins, hsettled, hframe⟩ := State.landingChecked_spec
      (s := (s.answerTaken m a).answerEffects .done) hc hlen hnodup hwork hasc hwants
    exact ⟨_, d, hexec, hd, hframe.observe (·.table) fun _ => rfl, hframe.observe (·.timeoutRun) fun _ => rfl,
      hframe.observe (·.counters) fun _ => rfl, hcounts, hjudged, hmarks, htest, .of_base rfl rfl hpins, hsettled⟩
  · intro s m a r feed seq c x y p hans hkind hdone htab hp hf hslots hentries hc hstate hasc hreq hpos _ hwants
    exact trailerChecked hans hkind hdone htab hp hf hslots hentries hc (c.working_iff.mpr hstate) hasc hreq hpos
      hwants
  · intro s m a r feed seq rest hans hkind hfull htab hf hown hreq hp
    exact checkFull hans hkind hfull htab hf hown hreq hp
  · intro c k w
    refine ⟨c.computedMark_le_cap k w, fun n h1 h2 h3 => ?_, FeedContext.computedMark_stops⟩
    obtain ⟨-, hbefore, -⟩ := c.firstUndone_spec k w (c.markOf k w)
    exact (c.doneAt_iff k n).mp (hbefore n h1 (h2.trans_le (c.computedMark_le_firstUndone k w)) h3)

end Sys2Proof.Machine
end

