-- ==== Sys2Proof/Proofs/Opened.lean ====
section
/-! The window of a new context (R71, R74, R75, R78, R83): a position for each sequence number called for, with
what the ring makes of it. -/

namespace Sys2Proof.Machine

/-! ### A position as it is created -/

/-- A position after its lookup: no entry, a PARTIAL one, or a WHOLE one. -/
def Position.looked (now : Nat) (found : Option Bool) (p : Position) : Position :=
  match found with
  | none => { p with land := .absent, hasRef := false }
  | some false => { p with land := .gathering, hasRef := true }
  | some true => p.taken now

/-- The position that a context opens at a sequence number. -/
def FeedContext.opened (c : FeedContext) (now due : Nat) (found : Option Bool) (n : Nat) : Position :=
  c.startWait due ((c.newPosition n).looked now found)

/-- A WHOLE entry found for a position that waits for its browse job: a job WITH CHUNK waits, where the engine
kept none. -/
def State.HandsFound (s t : State) (feed n : Nat) (waits : Prop) : Prop :=
  ∀ e, s.entry? feed n = some e → e.whole = true → waits → s.hasJob feed n = false →
    ∃ j ∈ t.waitJobs, j.feed = feed ∧ j.seq = n ∧ j.kind = .withChunk ∧ j.chunk = some e.hdr

section
variable {s : State} {feed n : Nat} {c : FeedContext} {p : Position}

/-- A lookup at a position. -/
theorem State.lookup_spec (hc : s.ctx? feed = some c) (hp : c.pos? n = some p) :
    ∃ d, (s.lookup feed n).ctx? feed = some d ∧ FeedContext.SameBut n c d
      ∧ d.pos? n = some (p.looked s.now ((s.entry? feed n).map (·.whole)))
      ∧ s.HandsFound (s.lookup feed n) feed n (p.browse = some .waiting) := by
  have hfeed : c.feed = feed := State.ctx?_feed hc
  have hat := (s.at_lookup feed n).ctx c hc
  have hmap : ∀ g : Position → Position, (∀ q, (g q).seq = q.seq) →
      ∃ d, (s.mapPos feed n g).ctx? feed = some d ∧ d.pos? n = some (g p) := fun g hg =>
    ⟨_, State.ctx?_counted hc (·.mapPos n g) fun _ => rfl, FeedContext.pos?_mapPos_self hp g hg⟩
  unfold State.HandsFound
  unfold State.lookup at hat ⊢
  cases he : s.entry? feed n with
  | none =>
    rw [he] at hat
    obtain ⟨d, hd, hsame⟩ := hat
    obtain ⟨d', hd', hpos⟩ := hmap (fun q => { q with land := .absent, hasRef := false }) fun _ => rfl
    obtain rfl : d = d' := Option.some.inj (hd.symm.trans hd')
    exact ⟨d, hd, hsame, hpos, nofun⟩
  | some e =>
    rw [he] at hat
    simp only at hat ⊢
    by_cases hw : e.whole = true
    · rw [if_pos hw] at hat ⊢
      obtain ⟨d, hd, hsame⟩ := hat
      obtain ⟨d', hd', htaken⟩ := State.takeChunk_spec hc hp e.hdr
      obtain rfl : d = d' := Option.some.inj (hd.symm.trans hd')
      refine ⟨d, hd, hsame, ?_, fun e' he' _ hwait hno => ?_⟩
      · rw [Option.map_some, hw]
        exact htaken.pos
      · obtain rfl := Option.some.inj he'
        obtain ⟨-, hnew, -⟩ := htaken.job
        obtain ⟨-, j, hj, h1, h2, h3, -, h5, -⟩ := hnew hwait (hfeed ▸ hno)
        exact ⟨j, by rw [hj]; simp, h1.trans hfeed, h2, h3, h5⟩
    · rw [if_neg hw] at hat ⊢
      obtain ⟨d, hd, hsame⟩ := hat
      obtain ⟨d', hd', hpos⟩ := hmap (fun q => { q with land := .gathering, hasRef := true }) fun _ => rfl
      obtain rfl : d = d' := Option.some.inj (hd.symm.trans hd')
      have hfalse : e.whole = false := by simpa using hw
      refine ⟨d, hd, hsame, ?_, fun e' he' hw' => ?_⟩
      · rw [Option.map_some, hfalse]
        exact hpos
      · obtain rfl := Option.some.inj he'
        exact absurd hw' hw

theorem FeedContext.startWait_congr {c d : FeedContext} (h : d.bare = c.bare) (due : Nat) (p : Position) :
    d.startWait due p = c.startWait due p := by
  have hbehind : d.isBehind p.seq = c.isBehind p.seq := FeedContext.of_bare h (·.isBehind p.seq) fun _ => rfl
  simp only [FeedContext.startWait, hbehind]

theorem FeedContext.newPosition_congr {c d : FeedContext} (h : d.bare = c.bare) (n : Nat) :
    d.newPosition n = c.newPosition n :=
  FeedContext.of_bare h (·.newPosition n) fun _ => rfl

theorem State.createPos_eq (hc : s.ctx? feed = some c) (hcall : c.callsFor n = true) (hnone : c.pos? n = none) :
    s.createPos feed n = ((s.mapCtx feed (·.withNew n)).lookup feed n).gapTestAt feed n := by
  simp only [State.createPos, hc, hcall, hnone, Option.isNone_none, Bool.and_self, if_true]
  rfl

/-- A position created where one is called for. -/
theorem State.createPos_opened (hrun : s.windowsRun = true) (hc : s.ctx? feed = some c)
    (hcall : c.callsFor n = true) (hnone : c.pos? n = none) :
    (s.createPos feed n).pos? feed n
        = some (c.opened s.now (s.now + s.settings.gapWait) ((s.entry? feed n).map (·.whole)) n)
      ∧ s.HandsFound (s.createPos feed n) feed n (c.wants .browse n = true) := by
  have hnew : (s.mapCtx feed (·.withNew n)).ctx? feed = some (c.withNew n) :=
    State.ctx?_counted hc (·.withNew n) fun _ => rfl
  have hpnew : (c.withNew n).pos? n = some (c.newPosition n) := by
    rw [FeedContext.pos?_withNew hnone, if_pos rfl]
  obtain ⟨d, hd, hsame, hpos, hjob⟩ := State.lookup_spec hnew hpnew
  have hframe := (State.frame_lookup (s.mapCtx feed (·.withNew n)) feed n)
  have hrun' : ((s.mapCtx feed (·.withNew n)).lookup feed n).windowsRun = true :=
    (hframe.observe (·.windowsRun) fun _ => rfl).trans hrun
  have hnow : ((s.mapCtx feed (·.withNew n)).lookup feed n).now = s.now := hframe.observe (·.now) fun _ => rfl
  have hset : ((s.mapCtx feed (·.withNew n)).lookup feed n).settings = s.settings :=
    hframe.observe (·.settings) fun _ => rfl
  have hbare : d.bare = c.bare := (FeedContext.bare_of_outline hsame.outline).trans rfl
  rw [State.createPos_eq hc hcall hnone]
  generalize (s.mapCtx feed (·.withNew n)).lookup feed n = u at *
  simp only [State.gapTestAt, hrun', if_true]
  refine ⟨?_, fun e he hw hwant hno => ?_⟩
  · have hmap : (u.mapCtx feed (fun x => x.mapPos n (x.startWait (u.now + u.settings.gapWait)))).ctx? feed
        = some (d.mapPos n (d.startWait (u.now + u.settings.gapWait))) :=
      State.ctx?_counted hd (fun x => x.mapPos n (x.startWait (u.now + u.settings.gapWait))) fun _ => rfl
    refine (State.pos?_of_ctx hmap (FeedContext.pos?_mapPos_self hpos _ fun q => ?_)).trans ?_
    · exact (d.startWait_seq_pinned _ q).1
    · rw [FeedContext.startWait_congr hbare, hnow, hset]
      rfl
  · exact hjob e he hw (if_pos hwant) hno

end

/-! ### Creations one after the other -/

/-- From `s` to `t` the sequence number `n` of the feed is left: no position comes to stand there, and no waiting
job of it comes or goes. -/
structure State.Leaves (feed n : Nat) (s t : State) : Prop where
  pos : s.pos? feed n = none → t.pos? feed n = none
  jobs : ∀ j : Job, j.isFor feed n = true → (j ∈ t.waitJobs ↔ j ∈ s.waitJobs)

theorem State.Leaves.refl (feed n : Nat) (s : State) : s.Leaves feed n s := ⟨id, fun _ _ => Iff.rfl⟩

theorem State.Leaves.trans {feed n : Nat} {s t u : State} (h : s.Leaves feed n t) (k : t.Leaves feed n u) :
    s.Leaves feed n u :=
  ⟨fun hs => k.pos (h.pos hs), fun j hj => (k.jobs j hj).trans (h.jobs j hj)⟩

theorem Job.isFor_other {j : Job} {feed n m : Nat} (h : j.isFor feed n = true) (hm : m ≠ n) :
    j.isFor feed m = false := by
  simp only [Job.isFor, Bool.and_eq_true, beq_iff_eq] at h
  simp only [Job.isFor, h.2, Bool.and_eq_false_iff, beq_eq_false_iff_ne]
  exact .inr hm.symm

/-- A context changed as creations change it: the flags but BROWSE OVERRUN are kept, and the order of its
positions. -/
structure FeedContext.Opening (c d : FeedContext) : Prop where
  flags : { d.flags with browseOverrun := false } = { c.flags with browseOverrun := false }
  ordered : (c.positions.map (·.seq)).Pairwise (· < ·) → (d.positions.map (·.seq)).Pairwise (· < ·)

/-- The context of the feed is changed as creations change it. -/
def State.Opens (feed : Nat) (s t : State) : Prop :=
  ∀ c, s.ctx? feed = some c → ∃ d, t.ctx? feed = some d ∧ c.Opening d

section
variable {feed : Nat}

theorem State.Opens.trans {s t u : State} (h : s.Opens feed t) (k : t.Opens feed u) : s.Opens feed u :=
  fun c hc => by
    obtain ⟨d, hd, h1, h2⟩ := h c hc
    obtain ⟨e, he, h3, h4⟩ := k d hd
    exact ⟨e, he, h3.trans h1, h4 ∘ h2⟩

theorem State.Opens.of_eq {s t : State} (h : t.contexts = s.contexts) : s.Opens feed t :=
  fun c hc => ⟨c, by simpa only [State.ctx?, h] using hc, rfl, id⟩

theorem State.Opens.refl (s : State) : s.Opens feed s := .of_eq rfl

theorem State.Opens.mapCtx (s : State) (f : FeedContext → FeedContext) (hfeed : ∀ c, (f c).feed = c.feed)
    (hf : ∀ c : FeedContext, c.Opening (f c)) : s.Opens feed (s.mapCtx feed f) :=
  fun c hc => ⟨f c, State.ctx?_counted hc f hfeed, hf c⟩

theorem FeedContext.opening_mapPos (c : FeedContext) (n : Nat) (g : Position → Position)
    (hg : ∀ p, (g p).seq = p.seq) : c.Opening (c.mapPos n g) := by
  have hseqs : (c.mapPos n g).positions.map (·.seq) = c.positions.map (·.seq) := by
    simp only [FeedContext.mapPos, List.map_map]
    refine List.map_congr_left fun p _ => ?_
    simp only [Function.comp]
    split
    · exact hg p
    · rfl
  exact ⟨rfl, fun h => hseqs ▸ h⟩

theorem State.Opens.mapPos (s : State) (n : Nat) (g : Position → Position) (hg : ∀ p, (g p).seq = p.seq) :
    s.Opens feed (s.mapPos feed n g) :=
  .mapCtx s _ (fun _ => rfl) fun c => c.opening_mapPos n g hg

theorem State.opens_handOverChunk (s : State) (n : Nat) (h : ChunkHeader) :
    s.Opens feed (s.handOverChunk feed n h) := by
  have hlatch : ∀ t : State, t.Opens feed (t.latchOverrun feed h) := fun t =>
    .mapCtx t _ (fun c => by split <;> rfl) fun c => by split <;> exact ⟨rfl, id⟩
  unfold State.handOverChunk
  split
  · exact .refl s
  · simp only
    split
    · exact .refl s
    · split
      · exact (State.Opens.of_eq rfl).trans (hlatch _)
      · exact (State.Opens.of_eq rfl).trans (hlatch _)

theorem State.opens_lookup (s : State) (n : Nat) : s.Opens feed (s.lookup feed n) := by
  unfold State.lookup
  split
  · exact .mapPos s n _ fun _ => rfl
  · split
    · unfold State.takeChunk
      split
      · exact .refl s
      · simp only
        split
        · refine State.Opens.trans (t := ((s.mapPos feed n (Position.taken s.now)).pin feed n).withdrawAsk feed n
            |>.withdrawWaiting feed n) ?_ (State.opens_handOverChunk _ n _)
          exact (State.Opens.mapPos s n (Position.taken s.now) fun _ => rfl).trans (.of_eq rfl)
        · exact (State.Opens.mapPos s n (Position.taken s.now) fun _ => rfl).trans (.of_eq rfl)
    · exact .mapPos s n _ fun _ => rfl

theorem State.opens_createPos (s : State) (n : Nat) : s.Opens feed (s.createPos feed n) := by
  by_cases h : ∀ c, s.ctx? feed = some c → c.callsFor n = true → c.pos? n ≠ none
  · rw [State.createPos_of_not h]
    exact .refl s
  · push Not at h
    obtain ⟨c, hc, hcall, hnone⟩ := h
    rw [State.createPos_eq hc hcall hnone]
    have hnew : s.Opens feed (s.mapCtx feed (·.withNew n)) := fun c' hc' => by
      obtain rfl := Option.some.inj (hc.symm.trans hc')
      exact ⟨c.withNew n, State.ctx?_counted hc (·.withNew n) fun _ => rfl, rfl,
        fun hord => pairwise_insertPos hord ((c.pos?_none_iff n).mp hnone)⟩
    refine (hnew.trans (State.opens_lookup _ n)).trans ?_
    unfold State.gapTestAt
    split
    · exact .mapCtx _ _ (fun _ => rfl) fun c => c.opening_mapPos n _ fun p => (c.startWait_seq_pinned _ p).1
    · exact .refl _

theorem State.createPos_leaves (s : State) {n m : Nat} (hm : m ≠ n) : s.Leaves feed n (s.createPos feed m) := by
  by_cases h : ∀ c, s.ctx? feed = some c → c.callsFor m = true → c.pos? m ≠ none
  · rw [State.createPos_of_not h]
    exact .refl feed n s
  · push Not at h
    obtain ⟨c, hc, hcall, hnone⟩ := h
    rw [State.createPos_eq hc hcall hnone]
    have hat := ((s.mapCtx feed (·.withNew m)).at_lookup feed m).trans (State.at_gapTestAt _ feed m)
    have hnew : (s.mapCtx feed (·.withNew m)).ctx? feed = some (c.withNew m) :=
      State.ctx?_counted hc (·.withNew m) fun _ => rfl
    obtain ⟨d, hd, hsame⟩ := hat.ctx _ hnew
    refine ⟨fun hpos => ?_, fun j hj => hat.jobs j (Job.isFor_other hj hm)⟩
    simp only [State.pos?, hc, hd, Option.bind_some] at hpos ⊢
    rw [hsame.others n hm.symm, FeedContext.pos?_withNew hnone, if_neg hm.symm]
    exact hpos

end

/-! ### The window filled -/

section
variable {s : State} {feed : Nat} {c : FeedContext}

theorem FeedContext.mem_span_of_callsFor {n : Nat} (h : c.callsFor n = true) :
    ∃ b, c.base = some b ∧ n ∈ (List.range' b Config.span).filter c.callsFor := by
  have hspan : c.inSpan n = true := by
    simp only [FeedContext.callsFor, Bool.and_eq_true] at h
    exact h.1
  unfold FeedContext.inSpan at hspan
  split at hspan
  · cases hspan
  · next b hb =>
    simp only [Bool.and_eq_true, decide_eq_true_eq] at hspan
    exact ⟨b, hb, List.mem_filter.mpr ⟨List.mem_range'_1.mpr ⟨hspan.1.1, hspan.1.2.1⟩, h⟩⟩

/-- The fold that fills the window of an empty context, at one of its sequence numbers. -/
theorem State.createPositions_opened {l : List Nat} {n : Nat} (hnodup : l.Nodup) (hn : n ∈ l)
    (hrun : s.windowsRun = true) (hc : s.ctx? feed = some c) (hcall : c.callsFor n = true)
    (hnone : c.pos? n = none) :
    (l.foldl (fun s q => s.createPos feed q) s).pos? feed n
        = some (c.opened s.now (s.now + s.settings.gapWait) ((s.entry? feed n).map (·.whole)) n)
      ∧ s.HandsFound (l.foldl (fun s q => s.createPos feed q) s) feed n (c.wants .browse n = true) := by
  obtain ⟨l₁, l₂, rfl⟩ := List.append_of_mem hn
  rw [List.foldl_append, List.foldl_cons]
  have hbefore : ∀ m ∈ l₁, m ≠ n := fun m hm heq =>
    (List.nodup_append.mp hnodup).2.2 m hm n List.mem_cons_self heq
  have hleaves : s.Leaves feed n (l₁.foldl (fun s q => s.createPos feed q) s) :=
    foldl_keeps (I := fun t : State => s.Leaves feed n t)
      (fun t m hm ht => ht.trans (t.createPos_leaves (hbefore m hm))) (.refl feed n s)
  have hfill : ∃ d, (l₁.foldl (fun s q => s.createPos feed q) s).ctx? feed = some d ∧ c.Filled d :=
    foldl_keeps (I := fun t : State => ∃ d, t.ctx? feed = some d ∧ c.Filled d)
      (fun t q _ ⟨d, hd, hf⟩ => by
        obtain ⟨e, he, hf'⟩ := State.createPos_filled hd q
        exact ⟨e, he, hf.trans hf'⟩) ⟨c, hc, .refl c⟩
  have hframe : s.SameOutside (l₁.foldl (fun s q => s.createPos feed q) s) :=
    State.SameOutside.foldl _ (fun t q => t.frame_createPos feed q) l₁ s
  have htrack : s.Tracks feed (l₁.foldl (fun s q => s.createPos feed q) s) :=
    .foldl (f := fun s q => s.createPos feed q) (fun t q _ => t.tracks_createPos feed q) s
  generalize l₁.foldl (fun s q => s.createPos feed q) s = u at *
  obtain ⟨y, hy, hfilled⟩ := hfill
  have hynone : y.pos? n = none := by
    have h := hleaves.pos (by simp [State.pos?, hc, hnone])
    simpa [State.pos?, hy] using h
  have hycall : y.callsFor n = true := (FeedContext.callsFor_of_bare hfilled.bare n).trans hcall
  obtain ⟨hpos, hhands⟩ := State.createPos_opened ((hframe.observe (·.windowsRun) fun _ => rfl).trans hrun) hy hycall
    hynone
  have hstays : ∀ p, (u.createPos feed n).pos? feed n = some p →
      State.Stays feed n p (u.createPos feed n) (l₂.foldl (fun s q => s.createPos feed q) (u.createPos feed n)) :=
    fun p _ => .foldl (f := fun s q => s.createPos feed q) (fun t m _ => t.stays_createPos m) _
  obtain ⟨hkept, hjobs, -⟩ := hstays _ hpos hpos
  have hfound : (u.entry? feed n).map (·.whole) = (s.entry? feed n).map (·.whole) := by
    cases he : s.entry? feed n with
    | none =>
      cases hu : u.entry? feed n with
      | none => rfl
      | some e =>
        obtain ⟨k, hk⟩ := State.entry?_of_chunks hframe.2.2.symm hu
        rw [he] at hk
        cases hk
    | some e =>
      obtain ⟨k, hk⟩ := State.entry?_of_chunks hframe.2.2 he
      rw [hk]
      rfl
  refine ⟨hkept.trans ?_, fun e he hw hwant hno => ?_⟩
  · have hnow : u.now = s.now := hframe.observe (·.now) fun _ => rfl
    have hset : u.settings = s.settings := hframe.observe (·.settings) fun _ => rfl
    rw [hfound, hnow, hset]
    unfold FeedContext.opened
    rw [FeedContext.newPosition_congr hfilled.bare, FeedContext.startWait_congr hfilled.bare]
  · obtain ⟨k, hk⟩ := State.entry?_of_chunks hframe.2.2 he
    have hwant' : y.wants .browse n = true :=
      (FeedContext.of_bare hfilled.bare (·.wants .browse n) fun _ => rfl).trans hwant
    have hnojob : u.hasJob feed n = false := by
      simp only [State.hasJob, Bool.or_eq_false_iff, List.any_eq_false] at hno ⊢
      obtain ⟨⟨h1, h2⟩, h3⟩ := hno
      exact ⟨⟨fun j hj hfor => h1 j ((hleaves.jobs j hfor).mp hj) hfor, fun j hj => h2 j (htrack.queue j hj)⟩,
        fun j hj => h3 j (htrack.shed j hj)⟩
    obtain ⟨j, hj, h1, h2, h3, h4⟩ := hhands _ hk hw hwant' hnojob
    exact ⟨j, (hjobs j (by simp [Job.isFor, h1, h2])).mpr hj, h1, h2, h3, h4⟩

/-- The window of an empty context filled: exactly what is called for, each as it is opened. -/
theorem State.fillSpan_opened (hc : s.ctx? feed = some c) (hempty : c.positions = []) (hrun : s.windowsRun = true)
    (hwork : c.working = true) (hbuilt : c.windowBuilt = true) :
    ∃ y, (s.fillSpan feed).ctx? feed = some y ∧ c.Filled y ∧ c.Opening y
      ∧ (∀ n, y.pos? n ≠ none ↔ c.callsFor n = true)
      ∧ (∀ n p, y.pos? n = some p →
          p = c.opened s.now (s.now + s.settings.gapWait) ((s.entry? feed n).map (·.whole)) n
          ∧ s.HandsFound (s.fillSpan feed) feed n (c.wants .browse n = true)) := by
  have hnone : ∀ n, c.pos? n = none := fun n => by simp [FeedContext.pos?, hempty]
  obtain ⟨y, hy, hfilled⟩ := State.fillSpan_filled hc
  have hopened : ∀ n, c.callsFor n = true → (s.fillSpan feed).pos? feed n
        = some (c.opened s.now (s.now + s.settings.gapWait) ((s.entry? feed n).map (·.whole)) n)
      ∧ s.HandsFound (s.fillSpan feed) feed n (c.wants .browse n = true) := fun n hcall => by
    obtain ⟨b, hb, hmem⟩ := FeedContext.mem_span_of_callsFor hcall
    simp only [State.fillSpan, hc, hrun, hwork, hbuilt, Bool.and_self, if_true, hb]
    exact State.createPositions_opened ((List.nodup_range' ..).filter _) hmem hrun hc hcall (hnone n)
  have hpos : ∀ n, (s.fillSpan feed).pos? feed n = y.pos? n := fun n => by simp [State.pos?, hy]
  have hopens : s.Opens feed (s.fillSpan feed) := by
    unfold State.fillSpan
    split
    · exact .refl s
    · split
      · split
        · exact .refl s
        · exact foldl_keeps (I := fun t : State => s.Opens feed t) (fun t m _ ht => ht.trans (t.opens_createPos m))
            (.refl s)
      · exact .refl s
  obtain ⟨y', hy', hopening⟩ := hopens c hc
  obtain rfl : y = y' := Option.some.inj (hy.symm.trans hy')
  refine ⟨y, hy, hfilled, hopening, fun n => ⟨hfilled.created n (hnone n), fun hcall => ?_⟩, fun n p hp => ?_⟩
  · rw [← hpos, (hopened n hcall).1]
    exact Option.some_ne_none _
  · obtain ⟨h1, h2⟩ := hopened n (hfilled.created n (hnone n) (by rw [hp]; exact Option.some_ne_none p))
    rw [hpos, hp] at h1
    exact ⟨Option.some.inj h1, h2⟩

end

end Sys2Proof.Machine
end

