-- ==== Sys2Proof/Proofs/Creation.lean ====
section
/-! A context created (R12, R71): what it is once its window, its commit and the FINAL test have followed. -/

namespace Sys2Proof.Machine

/-! ### After the window of a new context -/

section
variable {s : State} {feed : Nat} {c : FeedContext}

theorem State.stays_paceTest (s : State) (feed n : Nat) (p : Position) :
    State.Stays feed n p s (s.paceTest feed) := by
  unfold State.paceTest
  split
  · exact .refl s
  · split
    · exact s.stays_markFallsDue
    · exact .refl s

/-- The commit, the FINAL test and the pace of the first MARK leave the context as it is but for its published commit
and its MARKs, or it is FINAL and has no position. -/
theorem State.closed_spec (hc : s.ctx? feed = some c) :
    ∃ d, (((s.recomputeCommit feed).finalTest feed).paceTest feed).ctx? feed = some d ∧ d.flags = c.flags
      ∧ ((d.bare = c.bare ∧ d.positions = c.positions)
        ∨ (d.bare = ({ c with state := .final } : FeedContext).bare ∧ d.positions = [])) := by
  obtain ⟨m, b, hx, -, -⟩ := State.ctx?_recomputeCommit hc
  obtain ⟨y, hy, -, hfin⟩ := State.finalTest_spec hx
  obtain ⟨b', hd⟩ := State.ctx?_paceTest hy
  refine ⟨_, hd, ?_, ?_⟩
  · rcases hfin with ⟨rfl, -⟩ | hfin
    · rfl
    · exact hfin.flags
  · rcases hfin with ⟨rfl, -⟩ | hfin
    · exact .inl ⟨rfl, rfl⟩
    · exact .inr ⟨hfin.bare, hfin.positions⟩

theorem State.closed_stays {n : Nat} {p : Position} {d : FeedContext}
    (hd : (((s.recomputeCommit feed).finalTest feed).paceTest feed).ctx? feed = some d) (hne : d.pos? n ≠ none) :
    State.Stays feed n p s (((s.recomputeCommit feed).finalTest feed).paceTest feed) := by
  have hfinal : ∃ x, ((s.recomputeCommit feed).finalTest feed).ctx? feed = some x ∧ x.pos? n ≠ none := by
    cases hx : ((s.recomputeCommit feed).finalTest feed).ctx? feed with
    | none =>
      have hno : (((s.recomputeCommit feed).finalTest feed).paceTest feed)
          = (s.recomputeCommit feed).finalTest feed := by
        simp only [State.paceTest, hx]
      rw [hno, hx] at hd
      cases hd
    | some x =>
      obtain ⟨b, hb⟩ := State.ctx?_paceTest hx
      obtain rfl := Option.some.inj (hb.symm.trans hd)
      exact ⟨x, rfl, hne⟩
  obtain ⟨x, hx, hxne⟩ := hfinal
  exact (s.stays_recomputeCommit.trans (State.stays_finalTest hx hxne)).trans (State.stays_paceTest _ feed n p)

/-- The window of a context without positions is built: exactly what is called for, each as it is opened. -/
theorem State.buildWindow_opened (hc : s.ctx? feed = some c) (hempty : c.positions = []) (hrun : s.windowsRun = true)
    (hwork : c.working = true) :
    ∃ y, (s.buildWindow feed).ctx? feed = some y ∧ y.bare = c.bare ∧ c.Opening y
      ∧ (∀ n, y.pos? n ≠ none ↔ c.callsFor n = true)
      ∧ (∀ n p, y.pos? n = some p →
          p = c.opened s.now (s.now + s.settings.gapWait) ((s.entry? feed n).map (·.whole)) n
          ∧ s.HandsFound (s.buildWindow feed) feed n (c.wants .browse n = true)) := by
  have hbuilt : (s.mapCtx feed (fun c => if c.working then { c with windowBuilt := true } else c)).ctx? feed
      = some { c with windowBuilt := true } := by
    refine (State.ctx?_counted hc _ fun c => by split <;> rfl).trans ?_
    rw [if_pos hwork]
  have htrim : (s.mapCtx feed (fun c => if c.working then { c with windowBuilt := true } else c)).trim feed
      = s.mapCtx feed (fun c => if c.working then { c with windowBuilt := true } else c) := by
    simp only [State.trim, hbuilt, hempty]
    rfl
  unfold State.buildWindow State.refreshWindow
  rw [htrim]
  obtain ⟨y, hy, hfilled, hopening, hcalls, hpos⟩ := State.fillSpan_opened hbuilt hempty hrun hwork rfl
  exact ⟨y, hy, hfilled.bare, ⟨hopening.flags, hopening.ordered⟩, hcalls, hpos⟩

theorem State.tracks_buildWindow (s : State) (feed : Nat) : s.Tracks feed (s.buildWindow feed) :=
  (State.Tracks.mapCtx_beside s feed _ fun c => by split <;> exact ⟨rfl, rfl⟩).trans
    (State.tracks_refreshWindow _ feed)

end

/-! ### The context created -/

/-- A new context `c`, once what follows its creation is done, is `d`, from `s` to `t`: FINAL, or with its window
where windows run. -/
structure State.Settled (s t : State) (feed : Nat) (c d : FeedContext) : Prop where
  flags : { d.flags with browseOverrun := false } = { c.flags with browseOverrun := false }
  bare : d.bare = c.bare ∨ d.bare = ({ c with state := .final } : FeedContext).bare
  idle : s.windowsRun = false ∨ d.state = .final → d.positions = []
  ordered : (d.positions.map (·.seq)).Pairwise (· < ·)
  calls : s.windowsRun = true → d.state ≠ .final → ∀ n, d.pos? n ≠ none ↔ c.callsFor n = true
  opened : ∀ n p, d.pos? n = some p →
    p = c.opened s.now (s.now + s.settings.gapWait) ((s.entry? feed n).map (·.whole)) n
      ∧ s.HandsFound t feed n (c.wants .browse n = true)
  pins : s.PinsFollow t feed

/-- What follows the place of a new context, with its window or without. -/
theorem State.settled_of_window {s v : State} {feed : Nat} {c y : FeedContext} (hv : v.ctx? feed = some y)
    (htrack : s.Tracks feed v) (hopening : c.Opening y) (hbare : y.bare = c.bare) (hnew : c.state ≠ .final)
    (hempty : c.positions = []) (hidle : s.windowsRun = false → y.positions = [])
    (hcalls : s.windowsRun = true → ∀ n, y.pos? n ≠ none ↔ c.callsFor n = true)
    (hopened : ∀ n p, y.pos? n = some p →
      p = c.opened s.now (s.now + s.settings.gapWait) ((s.entry? feed n).map (·.whole)) n
        ∧ s.HandsFound v feed n (c.wants .browse n = true)) :
    ∃ d, (((v.recomputeCommit feed).finalTest feed).paceTest feed).ctx? feed = some d
      ∧ s.Settled (((v.recomputeCommit feed).finalTest feed).paceTest feed) feed c d := by
  obtain ⟨d, hd, hflags, hshape⟩ := State.closed_spec hv
  have hordered : (y.positions.map (·.seq)).Pairwise (· < ·) := hopening.ordered (by simp [hempty])
  have htracks : s.Tracks feed (((v.recomputeCommit feed).finalTest feed).paceTest feed) :=
    ((htrack.trans (v.tracks_recomputeCommit feed)).trans (State.tracks_finalTest _ feed)).trans
      (State.tracks_paceTest _ feed)
  have hnone : d.positions = [] → ∀ n, d.pos? n = none := fun h n => by simp [FeedContext.pos?, h]
  refine ⟨d, hd, by rw [hflags]; exact hopening.flags, ?_, ?_, ?_, fun hrun hlive => ?_, fun n p hp => ?_,
    htracks.pins.follow⟩
  · refine hshape.imp (fun h => h.1.trans hbare) fun h => h.1.trans ?_
    exact congrArg (fun x : FeedContext => ({ x with state := .final } : FeedContext)) hbare
  · rintro (hno | hfinal)
    · rcases hshape with ⟨-, h⟩ | ⟨-, h⟩
      · exact h.trans (hidle hno)
      · exact h
    · rcases hshape with ⟨h, -⟩ | ⟨-, h⟩
      · have hst : d.state = c.state := FeedContext.of_bare (h.trans hbare) (·.state) fun _ => rfl
        exact absurd (hst.symm.trans hfinal) hnew
      · exact h
  · rcases hshape with ⟨-, h⟩ | ⟨-, h⟩
    · rw [h]
      exact hordered
    · simp [h]
  · rcases hshape with ⟨-, h⟩ | ⟨h, -⟩
    · intro n
      rw [← hcalls hrun n]
      simp only [FeedContext.pos?, h]
    · exact absurd (FeedContext.of_bare h (·.state) fun _ => rfl) hlive
  · rcases hshape with ⟨-, h⟩ | ⟨-, h⟩
    · have hpy : y.pos? n = some p := by simpa only [FeedContext.pos?, h] using hp
      obtain ⟨h1, h2⟩ := hopened n p hpy
      obtain ⟨-, hjobs, -⟩ := State.closed_stays (n := n) (p := p) hd (by rw [hp]; exact Option.some_ne_none p)
        (State.pos?_of_ctx hv hpy)
      refine ⟨h1, fun e he hw hwant hno => ?_⟩
      obtain ⟨j, hj, h3, h4, h5⟩ := h2 e he hw hwant hno
      exact ⟨j, (hjobs j (by simp [Job.isFor, h3, h4])).mpr hj, h3, h4, h5⟩
    · rw [hnone h] at hp
      cases hp

section
variable (s : State) (feed : Nat) (r : Range) (p : OpenParams) (origin : Origin) (start recordH recordE : Mark)

/-- A created context is a fresh one with its allotment set, but for its E and its state. -/
theorem State.created_eq : ∃ e st, s.created feed r p origin start recordH recordE
      = { ((FeedContext.fresh feed r p origin start
          (Mark.higher (s.ringHigh feed p.slotCount) recordH)).assessAllotment s.settings.margin) with
        e := e, state := st } := by
  have hoffer : ∀ (c : FeedContext) (m : Mark), ∃ e st, c.offerEnd? m = { c with e := e, state := st } := fun c m => by
    cases m with
    | none => exact ⟨c.e, c.state, rfl⟩
    | some x =>
      simp only [FeedContext.offerEnd?, FeedContext.offerEnd]
      by_cases h : c.takesEnd x = true
      · exact ⟨_, _, if_pos h⟩
      · exact ⟨c.e, c.state, if_neg h⟩
  unfold State.created
  obtain ⟨e, st, h⟩ := hoffer ((FeedContext.fresh feed r p origin start
    (Mark.higher (s.ringHigh feed p.slotCount) recordH)).assessAllotment s.settings.margin) recordE
  rw [h]
  obtain ⟨e', st', h'⟩ := hoffer { ((FeedContext.fresh feed r p origin start
    (Mark.higher (s.ringHigh feed p.slotCount) recordH)).assessAllotment s.settings.margin) with
      e := e, state := st } (s.ringLast feed)
  exact ⟨e', st', h'⟩

theorem State.created_working : (s.created feed r p origin start recordH recordE).working = true := by
  have hoffered := s.created_offered feed r p origin start recordH recordE
  cases hl : lowerOf recordE (s.ringLast feed) with
  | none => simp [FeedContext.working, (hoffered.unknown hl).2]
  | some z => simp [FeedContext.working, (hoffered.known z hl).2]

/-- A context is created where its feed has none: what it is, with its window where windows run. -/
theorem State.createContext_settled (hc : s.ctx? feed = none) :
    ∃ d, (s.createContext feed r p origin start recordH recordE).ctx? feed = some d
      ∧ s.Settled (s.createContext feed r p origin start recordH recordE) feed
        (s.created feed r p origin start recordH recordE).reachEnd d := by
  have hfeed := (s.created_carries feed r p origin start recordH recordE).1
  have hwork := s.created_working feed r p origin start recordH recordE
  have hpositions := s.created_positions feed r p origin start recordH recordE
  have hrunEq : s.createContext feed r p origin start recordH recordE
      = ((((if (s.addCtx (s.created feed r p origin start recordH recordE)).windowsRun then
            ((s.addCtx (s.created feed r p origin start recordH recordE)).mapCtx feed FeedContext.reachEnd).buildWindow
              feed
          else (s.addCtx (s.created feed r p origin start recordH recordE)).mapCtx feed
            FeedContext.reachEnd).recomputeCommit feed).finalTest feed).paceTest feed) := rfl
  rw [hrunEq]
  generalize s.created feed r p origin start recordH recordE = c at *
  have hadd : (s.addCtx c).ctx? feed = some c := by
    rw [s.ctx?_addCtx c (hfeed.symm ▸ hc), if_pos hfeed.symm]
  have hctx : ((s.addCtx c).mapCtx feed FeedContext.reachEnd).ctx? feed = some c.reachEnd :=
    State.ctx?_counted hadd _ FeedContext.reachEnd_feed
  have hempty : c.reachEnd.positions = [] := by
    unfold FeedContext.reachEnd
    split <;> exact hpositions
  have hworking : c.reachEnd.working = true := by
    unfold FeedContext.reachEnd
    split <;> exact hwork
  have hnew : c.reachEnd.state ≠ .final := by
    intro h
    simp [FeedContext.working, h] at hworking
  have htrack : s.Tracks feed ((s.addCtx c).mapCtx feed FeedContext.reachEnd) := by
    refine .of_pins rfl (fun n => ?_) (fun _ => id) (fun _ => id) fun _ => id
    rw [State.holdsPin_of_ctx hctx, State.holdsPin_of_none hc]
    simp [FeedContext.pinAt, FeedContext.pos?, hempty]
  have hrun : ((s.addCtx c).mapCtx feed FeedContext.reachEnd).windowsRun = s.windowsRun := rfl
  have hstart : (s.addCtx c).windowsRun = s.windowsRun := rfl
  have hsame : (∀ n, ((s.addCtx c).mapCtx feed FeedContext.reachEnd).entry? feed n = s.entry? feed n)
      ∧ (∀ n, ((s.addCtx c).mapCtx feed FeedContext.reachEnd).hasJob feed n = s.hasJob feed n)
      ∧ ((s.addCtx c).mapCtx feed FeedContext.reachEnd).now = s.now
      ∧ ((s.addCtx c).mapCtx feed FeedContext.reachEnd).settings = s.settings :=
    ⟨fun _ => rfl, fun _ => rfl, rfl, rfl⟩
  generalize (s.addCtx c).mapCtx feed FeedContext.reachEnd = u at *
  obtain ⟨hentry, hjob, hnow, hset⟩ := hsame
  by_cases hw : s.windowsRun = true
  · obtain ⟨y, hy, hbare, hopening, hcalls, hopened⟩ := State.buildWindow_opened hctx hempty (hrun.trans hw) hworking
    rw [hstart, if_pos hw]
    refine State.settled_of_window hy (htrack.trans (u.tracks_buildWindow feed)) hopening hbare hnew hempty
      (fun hno => absurd hw (by simp [hno])) (fun _ => hcalls) fun n q hq => ?_
    obtain ⟨h1, h2⟩ := hopened n q hq
    rw [hnow, hset, hentry] at h1
    refine ⟨h1, fun e he => ?_⟩
    have h3 := h2 e ((hentry n).trans he)
    rwa [hjob] at h3
  · rw [hstart, if_neg hw]
    refine State.settled_of_window hctx htrack ⟨rfl, id⟩ rfl hnew hempty (fun _ => hempty)
      (fun hyes => absurd hyes hw) fun n q hq => ?_
    simp [FeedContext.pos?, hempty] at hq

end

end Sys2Proof.Machine
end

