-- ==== Sys2Proof/Proofs/OpenCreates.lean ====
section
/-! OPEN creates a context (R10, R12): its effective parameters, its held ways, H and ALLOT LOW, E, and its window. -/

namespace Sys2Proof.Machine

/-! ### What a new context is (R12, R20, R27) -/

/-- H from the ring: the highest sequence number below C (R20). -/
theorem State.ringHigh_spec (s : State) (feed count : Nat) :
    (∀ e ∈ s.ring, e.feed = feed → e.seq < count → e.seq + 1 ≤ Mark.ord (s.ringHigh feed count))
      ∧ (s.ringHigh feed count = none
        ∨ ∃ e ∈ s.ring, e.feed = feed ∧ e.seq < count ∧ s.ringHigh feed count = some e.seq) := by
  refine ⟨fun e he hf hs => ?_, ?_⟩
  · refine Mark.le_highest (m := some e.seq) (List.mem_map.mpr ⟨e, List.mem_filter.mpr ⟨he, ?_⟩, rfl⟩)
    simp [hf, hs]
  · rcases Mark.highest_mem ((s.ring.filter (fun e => e.feed == feed && decide (e.seq < count))).map
      (fun e => some e.seq)) with h | h
    · exact .inl h
    · obtain ⟨e, he, heq⟩ := List.mem_map.mp h
      obtain ⟨hmem, hcond⟩ := List.mem_filter.mp he
      simp only [Bool.and_eq_true, beq_iff_eq, decide_eq_true_eq] at hcond
      exact .inr ⟨e, hmem, hcond.1, hcond.2, heq.symm⟩

/-- The effective factor is the given one, or the next of 4 and 8 at which the record fits (R12). -/
theorem OpenParams.effFactor_spec {p : OpenParams} (h8 : p.fitsAt 8 = true) (hf : p.factor ∈ [2, 4, 8]) :
    p.fitsAt p.effFactor = true ∧ p.factor ≤ p.effFactor
      ∧ (p.fitsAt p.factor = true → p.effFactor = p.factor)
      ∧ (p.fitsAt p.factor = false → (p.factor = 2 → p.fitsAt 4 = true → p.effFactor = 4)
        ∧ (p.factor = 4 ∨ p.fitsAt 4 = false → p.effFactor = 8)) := by
  have hmem : p.factor = 2 ∨ p.factor = 4 ∨ p.factor = 8 := by simpa using hf
  unfold OpenParams.effFactor
  by_cases h1 : p.fitsAt p.factor = true
  · rw [if_pos h1]
    exact ⟨h1, Nat.le_refl _, fun _ => rfl, fun h => absurd h1 (by simp [h])⟩
  · rw [if_neg h1]
    by_cases h2 : p.factor < 4 ∧ p.fitsAt 4 = true
    · rw [if_pos h2]
      obtain ⟨hlt, h4⟩ := h2
      exact ⟨h4, hlt.le, fun h => absurd h h1, fun _ => ⟨fun _ _ => rfl, fun h => by
        rcases h with h | h
        · omega
        · exact absurd h4 (by simp [h])⟩⟩
    · rw [if_neg h2]
      refine ⟨h8, by omega, fun h => absurd h h1, fun _ => ⟨fun h h4 => absurd ⟨by omega, h4⟩ h2, fun _ => rfl⟩⟩

section
variable (s : State) (feed : Nat) (r : Range) (p : OpenParams) (origin : Origin) (start recordH recordE : Mark)

/-- The context that a creation starts from is a fresh one but for ALLOT LOW, E, its state and its marks. -/
theorem State.created_reachEnd : ∃ e st lv bv,
    (s.created feed r p origin start recordH recordE).reachEnd
      = { FeedContext.fresh feed r p origin start (Mark.higher (s.ringHigh feed p.slotCount) recordH) with
          flags := { Flags.clear with
            allotLow := decide (p.slotCount
              ≤ Mark.ord (Mark.higher (s.ringHigh feed p.slotCount) recordH) + s.settings.margin),
            rateClamped := p.rateExceeds, factorRaised := !p.fitsAt p.factor },
          e := e, state := st, lv := lv, bv := bv } := by
  have hreach : ∀ c : FeedContext, ∃ lv bv, c.reachEnd = { c with lv := lv, bv := bv } := fun c => by
    by_cases hw : c.working = true
    · exact ⟨_, _, if_pos hw⟩
    · exact ⟨c.lv, c.bv, if_neg hw⟩
  have hassess : ∀ h m, (FeedContext.fresh feed r p origin start h).assessAllotment m
      = { FeedContext.fresh feed r p origin start h with flags := { Flags.clear with
          allotLow := decide (p.slotCount ≤ Mark.ord h + m), rateClamped := p.rateExceeds,
          factorRaised := !p.fitsAt p.factor } } := fun h m => by
    unfold FeedContext.assessAllotment
    have hcond : ((FeedContext.fresh feed r p origin start h).params.slotCount
        ≤ Mark.ord (FeedContext.fresh feed r p origin start h).h + m) = (p.slotCount ≤ Mark.ord h + m) := rfl
    simp only [hcond]
    by_cases hle : p.slotCount ≤ Mark.ord h + m
    · rw [if_pos hle, decide_eq_true hle]
      rfl
    · rw [if_neg hle, decide_eq_false hle]
      rfl
  obtain ⟨e, st, hcreated⟩ := s.created_eq feed r p origin start recordH recordE
  obtain ⟨lv, bv, hr⟩ := hreach (s.created feed r p origin start recordH recordE)
  rw [hassess] at hcreated
  rw [hcreated] at hr ⊢
  exact ⟨e, st, lv, bv, hr⟩

end

/-! ### The positions of a new window (R75, R78, R83) -/

theorem FeedContext.isBehind_iff (c : FeedContext) (n : Nat) : c.isBehind n = true ↔ c.Behind n := by
  unfold FeedContext.isBehind FeedContext.Behind
  generalize Mark.ord c.h = h
  cases c.e <;> simp [Mark.ord]

section
variable (c : FeedContext) (now due : Nat) (found : Option Bool) (n : Nat)

/-- A position as it is opened: its place, the jobs it wants, and no work spent on it. -/
theorem FeedContext.opened_fields : (c.opened now due found n).seq = n ∧ (c.opened now due found n).way = c.wayOf n
    ∧ (c.opened now due found n).wantsLand = c.wants .landing n
    ∧ (c.opened now due found n).wantsBrowse = c.wants .browse n
    ∧ (c.opened now due found n).attempts = 0 ∧ (c.opened now due found n).restarts = 0
    ∧ (c.opened now due found n).rewrites = 0 := by
  unfold FeedContext.opened
  rw [FeedContext.startWait_eq]
  cases found with
  | none => exact ⟨rfl, rfl, rfl, rfl, rfl, rfl, rfl⟩
  | some w => cases w <;> exact ⟨rfl, rfl, rfl, rfl, rfl, rfl, rfl⟩

/-- Its gap wait runs exactly where it waits for its chunk and is behind. -/
theorem FeedContext.opened_gapWait : (c.opened now due found n).gapWait
    = if (c.opened now due found n).Awaits ∧ c.Behind n then some due else none := by
  have hlooked : ((c.newPosition n).looked now found).gapWait = none
      ∧ ((c.newPosition n).looked now found).seq = n := by
    cases found with
    | none => exact ⟨rfl, rfl⟩
    | some w => cases w <;> exact ⟨rfl, rfl⟩
  have hawaits : (c.opened now due found n).Awaits ↔ ((c.newPosition n).looked now found).Awaits := by
    unfold FeedContext.opened
    rw [FeedContext.startWait_eq]
  unfold FeedContext.opened at hawaits ⊢
  rw [FeedContext.startWait_gapWait, hlooked.1, hlooked.2]
  simp only [true_and, hawaits, c.isBehind_iff]

/-- What the lookup makes of it (R78). -/
theorem State.opened_looked (s : State) (feed : Nat) :
    s.LookedUp feed (c.opened s.now due ((s.entry? feed n).map (·.whole)) n)
      ∧ ((∃ e, s.entry? feed n = some e ∧ e.whole = true) →
        (c.opened s.now due ((s.entry? feed n).map (·.whole)) n).pinned = true) := by
  have hseq := (c.opened_fields s.now due ((s.entry? feed n).map (·.whole)) n).1
  have hwait := c.opened_gapWait s.now due ((s.entry? feed n).map (·.whole)) n
  unfold State.LookedUp
  rw [hseq]
  unfold FeedContext.opened at hwait ⊢
  rw [FeedContext.startWait_eq] at hwait ⊢
  cases he : s.entry? feed n with
  | none => exact ⟨⟨fun _ => ⟨rfl, rfl⟩, nofun⟩, fun ⟨e, h, _⟩ => absurd h nofun⟩
  | some e =>
    rw [he] at hwait
    cases hw : e.whole with
    | false =>
      refine ⟨⟨nofun, fun e' he' => ?_⟩, fun ⟨e', he', hw'⟩ => ?_⟩
      · obtain rfl := Option.some.inj he'
        exact ⟨fun _ => by rw [Option.map_some, hw]; exact ⟨rfl, rfl⟩, fun h => absurd (hw.symm.trans h) nofun⟩
      · obtain rfl := Option.some.inj he'
        exact absurd (hw.symm.trans hw') nofun
    | true =>
      rw [Option.map_some, hw] at hwait ⊢
      refine ⟨⟨nofun, fun e' he' => ?_⟩, fun _ => rfl⟩
      obtain rfl := Option.some.inj he'
      refine ⟨fun h => absurd (hw.symm.trans h) nofun, fun _ => ⟨rfl, rfl, rfl, ?_, fun hwl => ?_⟩⟩
      · refine hwait.trans (if_neg fun h => ?_)
        rcases h.1.1 with h' | h' <;> cases h'
      · have hland : c.wants .landing n = true := hwl
        simp [Position.looked, Position.taken, FeedContext.newPosition, hland]

end

/-! ### OPEN -/

theorem FeedContext.pos?_of_mem {c : FeedContext} (hord : (c.positions.map (·.seq)).Pairwise (· < ·)) {q : Position}
    (hq : q ∈ c.positions) : c.pos? q.seq = some q := by
  cases hp : c.pos? q.seq with
  | none => exact absurd rfl ((c.pos?_none_iff q.seq).mp hp q hq)
  | some p => rw [c.eq_of_pos? hord hp hq rfl]

/-- A position of the window of a new context that is not FINAL. -/
theorem State.Settled.position {s t : State} {feed : Nat} {c d : FeedContext} (h : s.Settled t feed c d)
    (hc : s.ctx? feed = none) (hd : t.ctx? feed = some d) (hbare : d.bare = c.bare) {q : Position}
    (hq : q ∈ d.positions) :
    q.way = d.wayOf q.seq
      ∧ (q.wantsLand = true ↔ d.landKind.get q.way ≠ .unheld ∧ Mark.ord (d.lv.get q.way) ≤ q.seq)
      ∧ (q.wantsBrowse = true ↔ d.browseKind.get q.way ≠ .unheld ∧ Mark.ord (d.bv.get q.way) ≤ q.seq)
      ∧ q.attempts = 0 ∧ q.restarts = 0 ∧ q.rewrites = 0 ∧ s.LookedUp feed q
      ∧ (q.Awaits ∧ d.Behind q.seq → q.gapWait = some (s.now + s.settings.gapWait))
      ∧ (¬(q.Awaits ∧ d.Behind q.seq) → q.gapWait = none)
      ∧ ∀ e, s.entry? feed q.seq = some e → e.whole = true →
          (t.entry? feed q.seq).map (·.pins) = some (e.pins + 1)
          ∧ (q.wantsBrowse = true → s.hasJob feed q.seq = false → ∃ j ∈ t.waitJobs,
              j.feed = feed ∧ j.seq = q.seq ∧ j.kind = .withChunk ∧ j.chunk = some e.hdr) := by
  have hpos : d.pos? q.seq = some q := FeedContext.pos?_of_mem h.ordered hq
  obtain ⟨hopened, hhands⟩ := h.opened q.seq q hpos
  generalize hn : q.seq = n at *
  obtain ⟨-, hway, hland, hbrowse, hatt, hres, hrew⟩ := c.opened_fields s.now (s.now + s.settings.gapWait)
    ((s.entry? feed n).map (·.whole)) n
  have hwait := c.opened_gapWait s.now (s.now + s.settings.gapWait) ((s.entry? feed n).map (·.whole)) n
  obtain ⟨hlooked, hpinned⟩ := State.opened_looked c (s.now + s.settings.gapWait) n s feed
  rw [← hopened] at hway hland hbrowse hatt hres hrew hwait hlooked hpinned
  have hdway : d.wayOf n = c.wayOf n := FeedContext.of_bare hbare (·.wayOf n) fun _ => rfl
  have hdbehind : d.Behind n = c.Behind n := FeedContext.of_bare hbare (·.Behind n) fun _ => rfl
  have hdland : d.wants .landing n = c.wants .landing n := FeedContext.of_bare hbare (·.wants .landing n) fun _ => rfl
  have hdbrowse : d.wants .browse n = c.wants .browse n := FeedContext.of_bare hbare (·.wants .browse n) fun _ => rfl
  refine ⟨hway.trans hdway.symm, ?_, ?_, hatt, hres, hrew, hlooked, fun hcond => ?_, fun hcond => ?_,
    fun e he hw => ⟨?_, fun hwants hno => hhands e he hw (hbrowse.symm.trans hwants) hno⟩⟩
  · rw [hland, ← hdland, FeedContext.wants_iff, hway, ← hdway]
    simp only [FeedContext.holds, FeedContext.kindOf, FeedContext.markOf, bne_iff_ne]
  · rw [hbrowse, ← hdbrowse, FeedContext.wants_iff, hway, ← hdway]
    simp only [FeedContext.holds, FeedContext.kindOf, FeedContext.markOf, bne_iff_ne]
  · rw [hdbehind] at hcond
    rw [hwait, if_pos hcond]
  · rw [hdbehind] at hcond
    rw [hwait, if_neg hcond]
  · have hholds : t.holdsPin feed n = true := by
      rw [State.holdsPin_of_ctx hd, FeedContext.pinAt, hpos]
      exact hpinned ⟨e, he, hw⟩
    have hpins := (h.pins.2 n).2.1 (State.holdsPin_of_none hc n) hholds
    rw [hpins, he]
    rfl

/-- Settles O34: what OPEN creates. -/
theorem openCreatesContext : Obligations.OpenCreatesContext := by
  intro s f feed p r hear hr hc hcheck hroom last
  have hexec : exec (.openFeed f) s = .next (s.createContext feed r p .directed none none none) := by
    rw [exec_directive hear (by simp [receiveCommands])]
    simp only [State.applyDirective, State.openContext_creates hr hc hcheck hroom]
  obtain ⟨-, -, hgeometry, hfits8⟩ := p.check_eq_none_iff.mp hcheck
  obtain ⟨d, hd, hsettled⟩ := s.createContext_settled feed r p .directed none none none hc
  obtain ⟨d', hd', -, hnolast, hlast⟩ := s.createContext_end feed r p .directed none none none hc
  obtain rfl : d = d' := Option.some.inj (hd.symm.trans hd')
  obtain ⟨-, hothers⟩ := s.createContext_spec feed r p .directed none none none hc
  obtain ⟨e, st, lv, bv, hstart⟩ := s.created_reachEnd feed r p .directed none none none
  rw [Mark.higher_none] at hstart
  have hcand : ∀ z, s.EndCandidate feed none z ↔ last z := fun z => or_iff_right nofun
  have hreceives : s.station = .listening ∨ s.station = .live := by simpa [State.receives] using hear.1.1
  have hquiet : s.station ≠ .live → s.windowsRun = false := fun hno => by
    simp [State.windowsRun, hreceives.resolve_right hno]
  have hfield : ∀ {α : Type} (g : FeedContext → α), (∀ x : FeedContext, g x = g x.bare) →
      (∀ x : FeedContext, g { x with state := .final } = g x) →
      g d = g (s.created feed r p .directed none none none).reachEnd := fun g hg hs => by
    rcases hsettled.bare with h | h
    · exact FeedContext.of_bare h g hg
    · exact (FeedContext.of_bare h g hg).trans (hs _)
  have hflag : ∀ {α : Type} (g : Flags → α), (∀ x : Flags, g { x with browseOverrun := false } = g x) →
      g d.flags = g (s.created feed r p .directed none none none).reachEnd.flags := fun g hg => by
    rw [← hg, hsettled.flags, hg]
  rw [hstart] at hfield hflag
  have hrate : d.effRate = p.effRate := hfield (·.effRate) (fun _ => rfl) fun _ => rfl
  have hfactor : d.effFactor = p.effFactor := hfield (·.effFactor) (fun _ => rfl) fun _ => rfl
  have hh : d.h = s.ringHigh feed p.slotCount := hfield (·.h) (fun _ => rfl) fun _ => rfl
  have hlk : d.landKind = configuredKinds r.land p.wayFn := hfield (·.landKind) (fun _ => rfl) fun _ => rfl
  have hbk : d.browseKind = configuredKinds r.browse p.wayFn := hfield (·.browseKind) (fun _ => rfl) fun _ => rfl
  have hclamped : d.flags.rateClamped = p.rateExceeds := hflag (·.rateClamped) fun _ => rfl
  have hraised : d.flags.factorRaised = !p.fitsAt p.factor := hflag (·.factorRaised) fun _ => rfl
  have hlow : d.flags.allotLow = decide (p.slotCount ≤ Mark.ord (s.ringHigh feed p.slotCount) + s.settings.margin) :=
    hflag (·.allotLow) fun _ => rfl
  obtain ⟨hfits, hle, hgiven, hnext⟩ := OpenParams.effFactor_spec hfits8 (p.geometryOk_iff.mp hgeometry).1
  obtain ⟨hhigh, hhighest⟩ := s.ringHigh_spec feed p.slotCount
  refine ⟨_, d, hexec, hd, hothers, fun hx => ⟨?_, hclamped.trans hx⟩, fun hx => ⟨?_, hclamped.trans hx⟩,
    hfactor ▸ hfits, hfactor ▸ hle, fun hx => ⟨hfactor.trans (hgiven hx), ?_⟩, fun hx => ⟨?_, ?_⟩,
    fun w => ⟨?_, ?_⟩, hh ▸ hhigh, hh ▸ hhighest, ?_, fun hno => hnolast fun z hz => hno z ((hcand z).mp hz),
    fun z hz hleast => ?_, hfield (·.landHold) (fun _ => rfl) fun _ => rfl,
    hfield (·.browseHold) (fun _ => rfl) fun _ => rfl, hfield (·.counts) (fun _ => rfl) fun _ => rfl,
    hfield (·.linger) (fun _ => rfl) fun _ => rfl, hfield (·.markWrites) (fun _ => rfl) fun _ => rfl,
    hfield (·.carried) (fun _ => rfl) fun _ => rfl, fun hor => hsettled.idle (hor.imp hquiet id),
    fun hlive hstate => ?_⟩
  · rw [hrate, OpenParams.effRate, if_pos hx]
  · rw [hrate, OpenParams.effRate, hx]
    rfl
  · rw [hraised, hx]
    rfl
  · rw [hraised, hx]
    rfl
  · obtain ⟨h4, h8⟩ := hnext hx
    exact ⟨fun h h' => hfactor.trans (h4 h h'), fun h => hfactor.trans (h8 h)⟩
  · rw [hlk, configuredKinds, PerWay.get_ofFn]
  · rw [hbk, configuredKinds, PerWay.get_ofFn]
  · rw [hlow, hh, decide_eq_true_eq]
  · obtain ⟨he, hst⟩ := hlast z ((hcand z).mpr hz) fun y hy => hleast y ((hcand y).mp hy)
    refine ⟨?_, hst⟩
    cases hde : d.e with
    | none =>
      rw [hde] at he
      simp [Mark.ord] at he
    | some x =>
      rw [hde] at he
      simp only [Mark.ord, Nat.max_zero, Nat.add_right_cancel_iff] at he
      rw [he]
  · have hrun : s.windowsRun = true := by simp [State.windowsRun, hlive]
    have hbare : d.bare = (s.created feed r p .directed none none none).reachEnd.bare := by
      refine hsettled.bare.resolve_right fun h => hstate ?_
      exact FeedContext.of_bare h (·.state) fun _ => rfl
    refine ⟨fun n => ?_, fun q hq => hsettled.position hc hd hbare hq⟩
    rw [hsettled.calls hrun hstate n, ← d.callsFor_iff_calledFor, FeedContext.callsFor_of_bare hbare]

end Sys2Proof.Machine
end

