-- ==== Sys2Proof/Proofs/Peers.lean ====
section
/-! The Peer Table and the silent station (R33, R34, R132, R165, R177, R179): what each command leaves of the
station state, the settings and the Peer Table, and that a station that is LOADING or in SETUP FAULT stays at
its POWER values. -/

namespace Sys2Proof.Machine

/-! ### The station, its settings and its peers -/

/-- What the Peer Table is judged by: the station state, the settings and the peers. -/
def State.base (s : State) : StationState × Settings × List PeerEntry := (s.station, s.settings, s.peers)

theorem State.SameOuter.base {s t : State} (h : s.SameOuter t) : t.base = s.base :=
  h.observe State.base fun _ => rfl

theorem State.SameOutside.base {s t : State} (h : s.SameOutside t) : t.base = s.base := h.outer.base

theorem State.base_foldl {α : Type} {f : State → α → State} (h : ∀ (s : State) (a : α), (f s a).base = s.base)
    (l : List α) (s : State) : (l.foldl f s).base = s.base :=
  foldl_keeps (I := fun t : State => t.base = s.base) (fun t a _ ht => (h t a).trans ht) rfl

/-! ### The Mend Unit and the capture port -/

theorem State.base_handOverChunkless (s : State) (feed seq : Nat) : (s.handOverChunkless feed seq).base = s.base :=
  (s.frame_handOverChunkless feed seq).base

theorem State.base_gapExpires (s : State) (feed seq : Nat) : (s.gapExpires feed seq).base = s.base := by
  have hlost : ∀ p, (s.beginLost feed p).base = s.base := fun p => by
    unfold State.beginLost
    split
    · rfl
    · exact (State.base_handOverChunkless ..).trans rfl
  unfold State.gapExpires
  repeat' split
  all_goals first
    | rfl
    | exact hlost _

theorem State.base_receiveAsk (s : State) (body : List Byte) : (s.receiveAsk body).base = s.base := by
  have hsuppress : ∀ a : ReceivedAsk, (s.suppress a.feed a.seq).base = s.base := fun a => by
    unfold State.suppress
    repeat' split
    all_goals rfl
  have hanswer : ∀ (t : State) (a : ReceivedAsk), (t.answerAsk a).base = t.base := fun t a => by
    unfold State.answerAsk
    repeat' (first | split | simp only)
    all_goals rfl
  unfold State.receiveAsk State.takeAsk
  repeat' split
  · rfl
  · rfl
  · exact (hanswer _ _).trans (hsuppress _)

theorem State.base_transmit (s : State) : s.transmit.base = s.base := by
  unfold State.transmit
  repeat' split
  all_goals rfl

theorem State.base_answerDue (s : State) (feed seq : Nat) : (s.answerDue feed seq).base = s.base := by
  unfold State.answerDue
  repeat' split
  all_goals rfl

/-! ### Cells -/

theorem State.base_removeEntry (s : State) (feed seq : Nat) : (s.removeEntry feed seq).base = s.base :=
  ((s.dropEntry feed seq).frame_reportRemoved feed seq).base

theorem State.base_makeRoom (s : State) (feed seq : Nat) (new : Bool) : (s.makeRoom feed seq new).base = s.base := by
  have hevict : ∀ (fuel : Nat) (t : State), (State.evict feed seq new fuel t).base = t.base := fun fuel => by
    induction fuel with
    | zero => exact fun _ => rfl
    | succ fuel ih =>
      intro t
      unfold State.evict
      split
      · rfl
      · split
        · rfl
        · exact (ih _).trans (State.base_removeEntry ..)
  exact hevict _ s

theorem State.base_checkChunk (s : State) (feed seq : Nat) : (s.checkChunk feed seq).base = s.base := by
  unfold State.checkChunk
  repeat' split
  · rfl
  · exact (State.frame_reportLast ..).base.trans (State.frame_reportWhole ..).base
  · exact s.base_removeEntry ..
  · rfl

theorem State.base_placeCell (s : State) (c : Cell) : (s.placeCell c).base = s.base := by
  have hcreate : (s.createEntry c).base = s.base := by
    unfold State.createEntry
    simp only
    split
    · exact ((State.base_checkChunk ..).trans (State.frame_reportCreated ..).base).trans (s.base_makeRoom ..)
    · exact s.base_makeRoom ..
  have hstore : (s.storeCell c).base = s.base := by
    unfold State.storeCell
    simp only
    split
    · exact (State.base_checkChunk ..).trans (s.base_makeRoom ..)
    · exact s.base_makeRoom ..
  unfold State.placeCell
  repeat' split
  all_goals first
    | exact hcreate
    | exact hstore
    | rfl

theorem State.base_intakeCell (s : State) (mend : Bool) (body : List Byte) :
    (s.intakeCell mend body).base = s.base := by
  have htake : ∀ (t : State) (c : Cell), (t.takeCell c).base = t.base := fun t c => by
    unfold State.takeCell
    repeat' split
    · rfl
    · exact (State.base_placeCell ..).trans (t.frame_sight ..).base
    · exact t.base_placeCell c
  unfold State.intakeCell
  repeat' split
  · rfl
  · exact htake _ _
  · exact htake s _
  · rfl

/-! ### Directives -/

theorem State.base_createContext (s : State) (feed : Nat) (r : Range) (p : OpenParams) (origin : Origin)
    (start recordH recordE : Mark) :
    (s.createContext feed r p origin start recordH recordE).base = s.base :=
  (s.frame_createContext feed r p origin start recordH recordE).base

theorem State.base_openContext (s : State) (feed : Nat) (p : OpenParams) : (s.openContext feed p).base = s.base := by
  unfold State.openContext
  repeat' split
  all_goals first
    | exact s.base_createContext ..
    | rfl

theorem State.base_applyRelease (s : State) (feed : Nat) (land browse : Bool) :
    (s.applyRelease feed land browse).base = s.base := by
  have hland : ∀ (t : State) (was : Bool), (t.landLifted feed was).base = t.base := fun t was => by
    unfold State.landLifted
    split <;> rfl
  have hbrowse : ∀ (t : State) (was : Bool), (t.browseLifted was).base = t.base := fun t was => by
    unfold State.browseLifted
    split <;> rfl
  unfold State.applyRelease
  split
  · rfl
  · exact (hbrowse _ _).trans (hland _ _)

theorem State.base_applyHold (s : State) (feed : Nat) (land browse : Bool) :
    (s.applyHold feed land browse).base = s.base := by
  unfold State.applyHold
  repeat' (first | split | simp only)
  all_goals rfl

/-! ### The owners of storage requests -/

theorem State.base_endLost (s : State) (feed seq : Nat) (o : LandState) : (s.endLost feed seq o).base = s.base := by
  unfold State.endLost
  split
  · rfl
  · simp only
    refine (State.frame_afterDone ..).base.trans ((State.frame_completePos ..).base.trans ?_)
    split
    · exact State.base_handOverChunkless ..
    · rfl

theorem State.base_landingChecked (s : State) (feed : Nat) (r : Request) (entries : List (Trailer × CheckWord)) :
    (s.landingChecked feed r entries).base = s.base := by
  have hjudge : ∀ (t : State) (x : SlotRef × Trailer × CheckWord), (t.judge feed r.uid x).base = t.base :=
    fun t x => by
    unfold State.judge State.mismatchedPos
    repeat' split
    · rfl
    · exact (State.frame_completePos ..).base
    · rfl
    · exact (State.frame_completePos ..).base
    · rfl
  exact ((State.frame_afterDone ..).base.trans (State.frame_syncRewrite ..).base).trans
    (State.base_foldl hjudge _ s)

theorem State.base_trailerRead (s : State) (feed seq : Nat) (t : Trailer) (head : CheckWord) :
    (s.trailerRead feed seq t head).base = s.base := by
  unfold State.trailerRead
  split
  · exact State.base_endLost ..
  · split
    · exact State.base_endLost ..
    · rfl

theorem State.base_awaitCheck (s : State) (feed : Nat) (seqs : List Nat) (trailer : Bool) (n : Nat) :
    (s.awaitCheck feed seqs trailer n).base = s.base := by
  unfold State.awaitCheck
  split <;> rfl

theorem State.base_jobEnds (s : State) (j : Job) (st : BrowseState) (count : FeedContext → FeedContext) :
    (s.jobEnds j st count).base = s.base :=
  (State.frame_afterDone ..).base.trans (State.frame_completePos ..).base

theorem State.base_markOver (s : State) (feed : Nat) (again : Bool) : (s.markOver feed again).base = s.base := by
  unfold State.markOver
  simp only
  split
  · exact (State.frame_markFallsDue ..).base
  · rfl

theorem State.base_markOutcome (s : State) (feed : Nat) (m : MarkState) (o : Handed) :
    (s.markOutcome feed m o).base = s.base := by
  unfold State.markOutcome State.markDone State.markDenied
  repeat' (first | split | simp only)
  all_goals first
    | rfl
    | exact s.base_markOver ..
    | exact (s.frame_enterFaulted feed).base

theorem State.base_browseOutcome (s : State) (u : Nat) (o : Handed) : (s.browseOutcome u o).base = s.base := by
  have hwritten : ∀ j, (s.jobWritten j).base = s.base := fun j => by
    unfold State.jobWritten
    split <;> exact s.base_jobEnds ..
  have hfails : ∀ j, (s.jobFails j).base = s.base := fun j => by
    unfold State.jobFails
    repeat' split
    all_goals first
      | exact s.base_jobEnds ..
      | rfl
  unfold State.browseOutcome
  split
  · rfl
  · split
    · exact hwritten _
    · exact hfails _
    · exact hfails _
    · exact (s.frame_enterFaulted _).base

/-- An outcome handed to its owner leaves the station, its settings and its peers. -/
theorem State.base_handToOwner (s : State) (r : Request) (entries : List (Trailer × CheckWord)) (o : Handed) :
    (s.handToOwner r entries o).base = s.base := by
  have hfault : ∀ f, (s.enterFaulted f).base = s.base := fun f => (s.frame_enterFaulted f).base
  unfold State.handToOwner
  split
  · unfold State.writeOutcome
    split <;> first | rfl | exact s.base_awaitCheck .. | exact hfault _
  · unfold State.writeOutcome
    split <;> first | rfl | exact s.base_awaitCheck .. | exact hfault _
  · unfold State.fillOutcome
    split <;> first | rfl | exact State.base_endLost .. | exact s.base_awaitCheck .. | exact hfault _
  · unfold State.checkOutcome
    repeat' split
    all_goals first | rfl | exact s.base_landingChecked .. | exact s.base_awaitCheck .. | exact hfault _
  · unfold State.trailerOutcome
    repeat' split
    all_goals first | rfl | exact s.base_trailerRead .. | exact s.base_awaitCheck .. | exact hfault _
  · exact s.base_markOutcome ..
  · exact s.base_browseOutcome ..
  · unfold State.probeOutcome
    split
    · exact State.base_foldl (f := fun t f => t.noteDelay f) (fun _ _ => rfl) _ _
    all_goals rfl
  · rfl

/-! ### Answers, timeouts and the service order -/

theorem State.base_setLocalHold (s : State) : s.setLocalHold.base = s.base := by
  unfold State.setLocalHold
  split <;> rfl

theorem State.base_takeAnswerOf (s : State) (k : ReqKind) : (s.takeAnswerOf k).base = s.base := by
  have heffects : ∀ (t : State) (o : AnswerOutcome), (t.answerEffects o).base = t.base := fun t o => by
    cases o with
    | full => exact State.base_setLocalHold _
    | done => rfl
    | denied => rfl
    | range => rfl
  have htake : ∀ (t : State) (a : StorageAnswer), (t.takeAnswer a).base = t.base := fun t a => by
    unfold State.takeAnswer
    repeat' (first | split | simp only)
    all_goals first
      | rfl
      | exact (State.base_handToOwner ..).trans (heffects _ _)
  unfold State.takeAnswerOf
  split
  · rfl
  · simp only
    split
    · rfl
    · exact htake _ _

theorem State.base_timesOut (s : State) (tag : Fin 16) : (s.timesOut tag).base = s.base := by
  have hcount : s.countTimeout.base = s.base := by
    unfold State.countTimeout
    simp only
    split
    · exact State.base_setLocalHold _
    · rfl
  unfold State.timesOut
  repeat' (first | split | simp only)
  all_goals first
    | rfl
    | exact hcount
    | exact (State.base_handToOwner ..).trans hcount

theorem State.base_issueBatch (s : State) (tag : Fin 16) (c : FeedContext) (purpose : Purpose) :
    (s.issueBatch tag c purpose).base = s.base :=
  (State.frame_syncRewrite ..).base

/-- What a turn issues leaves the station, its settings and its peers. -/
theorem State.base_turns (s : State) (tag : Fin 16) :
    ∀ u ∈ (s.turnProbe tag <|> s.turnCheck tag <|> s.turnRewrite tag <|> s.turnMark tag
      <|> s.turnLanding tag <|> s.turnBrowse tag), u.base = s.base := by
  refine forall_mem_orElse ?_ (forall_mem_orElse ?_ (forall_mem_orElse ?_ (forall_mem_orElse ?_
    (forall_mem_orElse ?_ ?_))))
  all_goals intro u hu
  · unfold State.turnProbe at hu
    split at hu <;> cases hu
    rfl
  · unfold State.turnCheck at hu
    split at hu
    · cases hu
    · split at hu <;> cases hu
      rfl
  · unfold State.turnRewrite at hu
    repeat' (first | split at hu | simp only at hu)
    all_goals cases hu
    · exact State.base_issueBatch ..
    · rfl
  · unfold State.turnMark at hu
    repeat' split at hu
    all_goals cases hu
    rfl
  · unfold State.turnLanding at hu
    repeat' split at hu
    all_goals cases hu
    exact State.base_issueBatch ..
  · unfold State.turnBrowse at hu
    repeat' split at hu
    all_goals cases hu
    rfl

theorem State.base_serve (s : State) : s.serve.base = s.base := by
  unfold State.serve
  split
  · rfl
  · next tag _ =>
    split
    · have key := s.base_turns tag
      revert key
      cases s.turnProbe tag <|> s.turnCheck tag <|> s.turnRewrite tag <|> s.turnMark tag
          <|> s.turnLanding tag <|> s.turnBrowse tag with
      | none => exact fun _ => rfl
      | some u => exact fun key => key u rfl
    · rfl

/-! ### The Browse Engine, the fragments and the maintenance line -/

theorem State.base_enterQueue (s : State) : s.enterQueue.base = s.base := by
  unfold State.enterQueue
  repeat' (first | split | simp only)
  all_goals rfl

theorem State.base_decodeEnds (s : State) (ps : Option (List Picture)) : (s.decodeEnds ps).base = s.base := by
  have hfail : ∀ j, (s.decodeFailed j).base = s.base := fun j => by
    unfold State.decodeFailed
    split <;> rfl
  unfold State.decodeEnds
  repeat' split
  all_goals first
    | exact hfail _
    | rfl

theorem State.base_takeFragment (s : State) (f : Frame) : (s.takeFragment f).base = s.base := by
  have hgather : ∀ g, (s.gather g).base = s.base := fun g => by
    unfold State.gather
    simp only
    split <;> rfl
  unfold State.takeFragment
  repeat' (first | split | simp only)
  all_goals first
    | exact hgather _
    | rfl

theorem State.base_writeCutOff (s : State) : s.writeCutOff.base = s.base := by
  unfold State.writeCutOff
  split <;> rfl

theorem State.base_lingerExpires (s : State) (feed : Nat) : (s.lingerExpires feed).base = s.base := by
  unfold State.lingerExpires
  repeat' split
  · rfl
  · exact (s.removeContext_outer feed).base
  · rfl

end Sys2Proof.Machine
end

