-- ==== Sys2Proof/Proofs/PeerSteps.lean ====
section
/-! Every step keeps the Peer Table in order and a silent station silent (R33, R34, R132, R165, R177, R179). -/

namespace Sys2Proof.Machine

/-! ### Beacons and peers -/

/-- The station number of a beacon that is taken (R32). -/
theorem parseBeacon_number {b : List Byte} {p : PeerBeacon} (h : parseBeacon b = some p) :
    1 ≤ p.number ∧ p.number ≤ 8 := by
  unfold parseBeacon at h
  simp only at h
  split at h
  · cases h
  split at h
  · cases h
  next hn =>
  iterate 4 (split at h; · cases h)
  split at h
  · cases h
  · split at h
    · cases h
    split at h
    · cases h
    · cases h
      simp only
      omega

theorem mem_insertPeer {p q : PeerEntry} {l : List PeerEntry} (h : q ∈ insertPeer p l) : q = p ∨ q ∈ l := by
  induction l with
  | nil => exact .inl (List.mem_singleton.mp h)
  | cons a l ih =>
    unfold insertPeer at h
    split at h
    · exact List.mem_cons.mp h
    · split at h
      · exact (List.mem_cons.mp h).imp_right (List.mem_cons_of_mem a)
      · rcases List.mem_cons.mp h with h | h
        · exact .inr (h ▸ List.mem_cons_self)
        · exact (ih h).imp_right (List.mem_cons_of_mem a)

/-- A peer entry put in its place keeps the ascending order. -/
theorem pairwise_insertPeer {p : PeerEntry} {l : List PeerEntry} (hl : (l.map (·.number)).Pairwise (· < ·)) :
    ((insertPeer p l).map (·.number)).Pairwise (· < ·) := by
  induction l with
  | nil => exact List.pairwise_singleton ..
  | cons a l ih =>
    simp only [List.map_cons, List.pairwise_cons, List.forall_mem_map] at hl
    obtain ⟨hhead, htail⟩ := hl
    unfold insertPeer
    split
    · next hlt =>
      simp only [List.map_cons, List.pairwise_cons, List.mem_cons, List.forall_mem_map, forall_eq_or_imp]
      exact ⟨⟨hlt, fun q hq => hlt.trans (hhead q hq)⟩, hhead, htail⟩
    · next hnlt =>
      split
      · next heq =>
        simp only [beq_iff_eq] at heq
        simp only [List.map_cons, List.pairwise_cons, List.forall_mem_map]
        exact ⟨fun q hq => heq ▸ hhead q hq, htail⟩
      · next hne =>
        simp only [beq_iff_eq] at hne
        simp only [List.map_cons, List.pairwise_cons, List.forall_mem_map]
        refine ⟨fun q hq => ?_, ih htail⟩
        rcases mem_insertPeer hq with rfl | hq
        · omega
        · exact hhead q hq

/-- The Peer Table is judged by the peers and the settings. -/
theorem State.PeersOk.of_base {s t : State} (h : t.base = s.base) (hs : s.PeersOk) : t.PeersOk := by
  obtain ⟨-, hset, hpeers⟩ : t.station = s.station ∧ t.settings = s.settings ∧ t.peers = s.peers := by
    simpa [State.base] using h
  unfold State.PeersOk at hs ⊢
  rwa [hset, hpeers]

/-- An empty Peer Table is in order. -/
theorem State.peersOk_of_nil {s : State} (h : s.peers = []) : s.PeersOk := by
  unfold State.PeersOk
  simp [h]

theorem State.operating_of_base {s t : State} (h : t.base = s.base) : t.operating = s.operating := by
  have hstation : t.station = s.station := congrArg Prod.fst h
  simp only [State.operating, hstation]

/-- A peer's entry made by a beacon of another station keeps the table in order (R32, R33, R34). -/
theorem State.PeersOk.updatePeer {s : State} {body : List Byte} {b : PeerBeacon} (hs : s.PeersOk)
    (hb : parseBeacon body = some b) (hother : b.number ≠ s.settings.station) : (s.updatePeer b).PeersOk := by
  refine ⟨pairwise_insertPeer hs.1, fun p hp => ?_⟩
  rcases mem_insertPeer hp with rfl | hp
  · refine ⟨(parseBeacon_number hb).1, (parseBeacon_number hb).2, hother, fun h => ?_⟩
    simp only [PeerBeacon.entry] at h ⊢
    cases hl : b.live <;> simp_all
  · exact hs.2 p hp

theorem State.base_learn (s : State) (b : PeerBeacon) : (s.learn b).base = s.base := by
  have hrecord : ∀ (t : State) (q : FeedRecord), (t.learnRecord q).base = t.base := fun t q => by
    unfold State.learnRecord State.learnOpen
    repeat' split
    all_goals first
      | rfl
      | exact t.base_createContext ..
      | exact (t.frame_takeEnd? ..).base
      | exact (t.frame_abortContext ..).base
  unfold State.learn
  split
  · exact State.base_foldl hrecord _ s
  · rfl

theorem State.base_afterPeerChange (s : State) : s.afterPeerChange.base = s.base := by
  unfold State.afterPeerChange
  split
  · exact s.beaconRest_outer.base
  · exact s.frame_recomputeCommits.base

/-- What taking a beacon leaves beside the context work: the entry of its station. -/
theorem State.base_takeBeacon (s : State) (b : PeerBeacon) : (s.takeBeacon b).base = (s.updatePeer b).base := by
  unfold State.takeBeacon
  simp only
  split
  · exact (State.beaconRest_outer _).base.trans ((s.updatePeer b).base_learn b)
  · exact (State.frame_recomputeCommits _).base

/-! ### What a command does to the station and its peers -/

/-- What a command does to a station past LOADING: it leaves the station, its settings and its peers; or the
station is past LOADING still, with a Peer Table in order if it was; or nothing is left, as at POWER. -/
def State.PeerStep (s t : State) : Prop :=
  t.base = s.base ∨ (t.operating = true ∧ (s.PeersOk → t.PeersOk)) ∨ (t.peers = [] ∧ t.SilentOk)

theorem State.peerStep_sortFrame {s : State} (hop : s.operating = true) (f : Frame) :
    s.PeerStep (s.sortFrame f) := by
  unfold State.sortFrame
  split
  · exact .inl rfl
  split
  · exact .inl (s.base_intakeCell ..)
  split
  · exact .inl (s.base_intakeCell ..)
  split
  · unfold State.receiveBeacon
    split
    · exact .inl rfl
    · next b hb =>
      split
      · exact .inl rfl
      · next hne =>
        have hbase := s.base_takeBeacon b
        refine .inr (.inl ⟨?_, fun hs => ?_⟩)
        · exact (State.operating_of_base hbase).trans hop
        · exact (hs.updatePeer hb (by simpa using hne)).of_base hbase
  split
  · exact .inl (s.base_receiveAsk ..)
  split
  · unfold State.receiveDirective
    split
    · exact .inl rfl
    · next d _ =>
      cases d with
      | openFeed feed p => exact .inl (s.base_openContext ..)
      | closeFeed feed e => exact .inl (s.frame_closeContext ..).base
      | abortFeed feed => exact .inl (s.frame_abortContext ..).base
      | hold feed land browse => exact .inl (s.base_applyHold ..)
      | release feed land browse => exact .inl (s.base_applyRelease ..)
      | stationReset n =>
        simp only [State.applyDirective]
        split
        · exact .inr (.inl ⟨rfl, fun _ => State.peersOk_of_nil rfl⟩)
        · exact .inl rfl
  · exact .inl rfl

theorem State.peerStep_receiveFrame {s : State} (hop : s.operating = true) (f : Frame) :
    s.PeerStep (s.receiveFrame f) := by
  unfold State.receiveFrame
  repeat' split
  · exact .inl rfl
  · exact .inl rfl
  · exact .inl rfl
  · exact State.peerStep_sortFrame hop f

/-- The move to LIVE changes window work and the adopted set beside the station state (R183). -/
theorem State.goLive_outer (s : State) :
    State.SameOuter { s with station := .live, listenUntil := none } s.goLive := by
  refine State.SameOuter.trans ?_ (State.frame_recomputeCommits _).outer
  refine State.SameOuter.trans ?_ (State.endsKept_searchOrphans _).2
  exact (State.SameOutside.foldl _ (fun t f => t.frame_updateWindow f) _ _).outer

/-- A station with other peers, in order where they were, and with what follows such a change (R47). -/
theorem State.peerStep_afterPeerChange {s : State} (hop : s.operating = true) {l : List PeerEntry}
    (hl : s.PeersOk → ({ s with peers := l } : State).PeersOk) :
    s.PeerStep ({ s with peers := l } : State).afterPeerChange := by
  have hbase := State.base_afterPeerChange { s with peers := l }
  exact .inr (.inl ⟨(State.operating_of_base hbase).trans hop, fun hs => (hl hs).of_base hbase⟩)

/-- An entry that falls silent keeps its number and its content (R35). -/
theorem State.PeersOk.silenced {s : State} (hs : s.PeersOk) (n : Nat) :
    ({ s with peers := s.peers.map (fun q =>
      if q.number == n then { q with state := .silent } else q) } : State).PeersOk := by
  have hnumber : ∀ q : PeerEntry, (if q.number == n then { q with state := .silent } else q : PeerEntry).number
      = q.number := fun q => by split <;> rfl
  refine ⟨?_, fun p hp => ?_⟩
  · simp only [List.map_map, Function.comp_def, hnumber]
    exact hs.1
  · obtain ⟨q, hq, rfl⟩ := List.mem_map.mp hp
    obtain ⟨h1, h8, hne, hrec⟩ := hs.2 q hq
    rw [hnumber]
    refine ⟨h1, h8, hne, ?_⟩
    split
    · exact fun h => nomatch h
    · exact hrec

/-- A removed entry leaves the others in order (R36). -/
theorem State.PeersOk.removed {s : State} (hs : s.PeersOk) (n : Nat) :
    ({ s with peers := s.peers.filter (fun q => q.number != n) } : State).PeersOk :=
  ⟨hs.1.sublist (List.filter_sublist.map _), fun p hp => hs.2 p (List.mem_filter.mp hp).1⟩

/-- Every command of a station past LOADING answers a next state, and steps as `State.PeerStep` says. -/
theorem exec_peerStep (i : Instr) {s : State} (hop : s.operating = true) :
    ∃ t, exec i s = .next t ∧ s.PeerStep t := by
  cases i with
  | powerReset => exact ⟨_, rfl, .inr (.inr ⟨rfl, fun _ => ⟨rfl, rfl, rfl, rfl, rfl, rfl, rfl, rfl, rfl, rfl⟩⟩)⟩
  | loadingComplete b =>
    refine ⟨_, rfl, .inl ?_⟩
    have hst : (s.station != .loading) = true := by
      cases h : s.station <;> simp_all [State.operating]
    unfold State.loadingCompletes
    rw [if_pos hst]
  | storageQuietTimeEnd =>
    refine ⟨_, rfl, .inl ?_⟩
    unfold State.quietEnds
    split <;> rfl
  | captureLinkLost =>
    refine ⟨_, rfl, ?_⟩
    unfold State.linkLost
    simp only
    split
    · exact .inr (.inl ⟨rfl, id⟩)
    · exact .inl rfl
  | captureLinkReturn =>
    refine ⟨_, rfl, ?_⟩
    by_cases hst : s.station = .detached
    · rw [State.linkReturns_of_detached hst]
      have hpeers : s.rejoinKept.peers = [] := s.rejoinKept_outer.observe State.peers fun _ => rfl
      exact .inr (.inl ⟨rfl, fun _ => State.peersOk_of_nil hpeers⟩)
    · refine .inl ?_
      unfold State.linkReturns
      simp [hst, State.base]
  | listeningPeriodEnd =>
    refine ⟨_, rfl, ?_⟩
    unfold State.listeningEnds
    split
    · split
      · exact .inl rfl
      · have hbase := s.goLive_outer.base
        exact .inr (.inl ⟨State.operating_of_base hbase, fun hs =>
          State.PeersOk.of_base (s := { s with station := .live, listenUntil := none }) hbase hs⟩)
    · exact .inl rfl
  | beaconTimerExpiry =>
    refine ⟨_, rfl, .inl ?_⟩
    unfold State.beaconDue
    repeat' split
    all_goals rfl
  | portTransmit => exact ⟨_, rfl, .inl s.base_transmit⟩
  | peerSilent n =>
    refine ⟨_, rfl, ?_⟩
    unfold State.peerFallsSilent
    repeat' split
    · exact .inl rfl
    · exact State.peerStep_afterPeerChange hop (·.silenced n)
    · exact .inl rfl
  | peerRemoved n =>
    refine ⟨_, rfl, ?_⟩
    unfold State.peerRemoved
    repeat' split
    · exact .inl rfl
    · exact State.peerStep_afterPeerChange hop (·.removed n)
    · exact .inl rfl
  | answerBackoffExpiry feed seq => exact ⟨_, rfl, .inl (s.base_answerDue ..)⟩
  | gapWaitExpiry feed seq => exact ⟨_, rfl, .inl (s.base_gapExpires ..)⟩
  | storageIssue => exact ⟨_, rfl, .inl s.base_serve⟩
  | writeAnswer => exact ⟨_, rfl, .inl (s.base_takeAnswerOf _)⟩
  | checkAnswer => exact ⟨_, rfl, .inl (s.base_takeAnswerOf _)⟩
  | markAnswer => exact ⟨_, rfl, .inl (s.base_takeAnswerOf _)⟩
  | probeAnswer => exact ⟨_, rfl, .inl (s.base_takeAnswerOf _)⟩
  | storageTimeout tag => exact ⟨_, rfl, .inl (s.base_timesOut tag)⟩
  | stalePeriodEnd tag =>
    refine ⟨_, rfl, .inl ?_⟩
    unfold State.staleEnds
    repeat' split
    all_goals rfl
  | probeTimerExpiry =>
    refine ⟨_, rfl, .inl ?_⟩
    unfold State.probeTimerExpires
    repeat' split
    all_goals rfl
  | lingerExpiry feed => exact ⟨_, rfl, .inl (s.base_lingerExpires feed)⟩
  | pacingTimerExpiry feed => exact ⟨_, rfl, .inl (s.frame_pacingExpires feed).base⟩
  | landingDelayReached feed => exact ⟨_, rfl, .inl rfl⟩
  | browseQueueEntry => exact ⟨_, rfl, .inl s.base_enterQueue⟩
  | reducerTakesJob =>
    refine ⟨_, rfl, .inl ?_⟩
    unfold State.reducerTakes
    split <;> rfl
  | decodeComplete ps => exact ⟨_, rfl, .inl (s.base_decodeEnds ps)⟩
  | shedAgeExpiry feed seq =>
    refine ⟨_, rfl, .inl ?_⟩
    unfold State.shed
    split <;> rfl
  | readStatus =>
    refine ⟨_, rfl, .inl ?_⟩
    unfold State.readStatus
    split <;> rfl
  | readRecord b =>
    refine ⟨_, rfl, .inl ?_⟩
    unfold State.readRecord
    repeat' split
    all_goals rfl
  | writeRecord r =>
    refine ⟨_, rfl, .inl ?_⟩
    unfold State.writeRecord
    repeat' split
    all_goals rfl
  | recordWriteComplete b =>
    refine ⟨_, rfl, .inl ?_⟩
    unfold State.recordWritten
    repeat' split
    · rfl
    · rfl
    · exact s.base_writeCutOff
  | storageFragmentReceived f => exact ⟨_, rfl, .inl (s.base_takeFragment f)⟩
  | maintenanceAnswerSent =>
    refine ⟨_, rfl, .inl ?_⟩
    unfold State.answerSent
    split <;> rfl
  | _ f => exact ⟨_, rfl, State.peerStep_receiveFrame hop f⟩

/-! ### A silent station -/

/-- A station that is LOADING or in SETUP FAULT, with every block at its POWER value (R132, R165, R177, R179). -/
def State.Silent (s : State) : Prop := (s.station = .loading ∨ s.station = .setupFault) ∧ s.SilentOk

/-- What a silent station is judged by. -/
def State.vault (s : State) : State :=
  { State.reset with
    station := s.station, contexts := s.contexts, settings := { Settings.unloaded with ranges := s.settings.ranges },
    ring := s.ring, peers := s.peers, adopted := s.adopted, table := s.table, localHold := s.localHold,
    waitJobs := s.waitJobs, queueJobs := s.queueJobs, shedJobs := s.shedJobs }

theorem State.SilentOk.of_vault {s t : State} (h : t.vault = s.vault) (hs : s.SilentOk) : t.SilentOk := by
  have hv : s.vault.SilentOk := hs
  rw [← h] at hv
  exact hv

section
variable {s : State} (hs : s.Silent)
include hs

theorem State.Silent.contexts_nil : s.contexts = [] := (hs.2 hs.1).1

theorem State.Silent.peers_nil : s.peers = [] := (hs.2 hs.1).2.2.2.1

theorem State.Silent.ctx?_none (feed : Nat) : s.ctx? feed = none := by
  simp [State.ctx?, hs.contexts_nil]

theorem State.Silent.pos?_none (feed seq : Nat) : s.pos? feed seq = none := by
  simp [State.pos?, hs.ctx?_none]

theorem State.Silent.table_free (tag : Fin 16) : s.table[tag] = .free := by
  obtain ⟨-, -, -, -, -, htable, -⟩ := hs.2 hs.1
  simp [htable]

theorem State.Silent.jobs_nil : s.waitJobs = [] ∧ s.queueJobs = [] ∧ s.shedJobs = [] := by
  obtain ⟨-, -, -, -, -, -, -, hjobs⟩ := hs.2 hs.1
  exact hjobs

/-- Neither frames nor storage work reach a silent station (R118, R132, R179). -/
theorem State.Silent.closed : s.receives = false ∧ s.operating = false ∧ (s.station == .detached) = false
    ∧ (s.station == .listening) = false := by
  rcases hs.1 with h | h <;> simp [State.receives, State.operating, h]

theorem State.Silent.receiveFrame_eq (f : Frame) : s.receiveFrame f = s :=
  State.receiveFrame_of_not_taken (.inl hs.closed.1)

theorem State.Silent.vault_takeAnswerOf (k : ReqKind) : (s.takeAnswerOf k).vault = s.vault := by
  unfold State.takeAnswerOf
  split
  · rfl
  · simp only
    split
    · rfl
    · next a _ =>
      unfold State.takeAnswer
      simp only [hs.table_free a.tag]
      rfl

/-- The end of LOADING: a fault leaves the station silent, and a good record lets it run (R177, R179). -/
theorem State.Silent.loadingCompletes (b : Bool) :
    (s.loadingCompletes b).peers = [] ∧ (s.loadingCompletes b).SilentOk := by
  have hfault : ∀ r, (s.setupFault r).peers = [] ∧ (s.setupFault r).SilentOk := fun r =>
    ⟨hs.peers_nil, fun _ => hs.2 hs.1⟩
  have hwell : s.loadedWell.peers = [] ∧ s.loadedWell.SilentOk := by
    unfold State.loadedWell
    simp only
    split
    · exact ⟨hs.peers_nil, fun h => by rcases h with h | h <;> cases h⟩
    · exact ⟨hs.peers_nil, fun h => by rcases h with h | h <;> cases h⟩
  unfold State.loadingCompletes
  repeat' split
  · exact ⟨hs.peers_nil, hs.2⟩
  · exact hfault _
  · exact hfault _
  · exact hwell

end

/-- A command leaves a silent station silent, or ends its LOADING (R132, R165, R177, R179). -/
theorem exec_silent (i : Instr) {s : State} (hs : s.Silent) :
    ∃ t, exec i s = .next t ∧ t.peers = [] ∧ t.SilentOk := by
  have same : ∀ t : State, t.vault = s.vault → t.peers = [] ∧ t.SilentOk := fun t h =>
    ⟨(show t.vault.peers = s.peers from h ▸ rfl).trans hs.peers_nil, hs.2.of_vault h⟩
  have hctx := hs.ctx?_none
  obtain ⟨hwait, hqueue, -⟩ := hs.jobs_nil
  obtain ⟨hreceives, hoperating, hdetached, hlistening⟩ := hs.closed
  cases i with
  | powerReset => exact ⟨_, rfl, rfl, fun _ => ⟨rfl, rfl, rfl, rfl, rfl, rfl, rfl, rfl, rfl, rfl⟩⟩
  | loadingComplete b => exact ⟨_, rfl, hs.loadingCompletes b⟩
  | storageQuietTimeEnd =>
    refine ⟨_, rfl, same _ ?_⟩
    unfold State.quietEnds
    split <;> rfl
  | captureLinkLost =>
    refine ⟨_, rfl, same _ ?_⟩
    simp only [State.linkLost, hreceives]
    rfl
  | captureLinkReturn =>
    refine ⟨_, rfl, same _ ?_⟩
    simp only [State.linkReturns, hdetached]
    rfl
  | listeningPeriodEnd =>
    refine ⟨_, rfl, same _ ?_⟩
    simp only [State.listeningEnds, hlistening, Bool.false_and]
    rfl
  | beaconTimerExpiry =>
    refine ⟨_, rfl, same _ ?_⟩
    unfold State.beaconDue
    repeat' split
    all_goals rfl
  | portTransmit =>
    refine ⟨_, rfl, same _ ?_⟩
    simp only [State.transmit, hreceives]
    rfl
  | peerSilent n =>
    refine ⟨_, rfl, same _ ?_⟩
    simp only [State.peerFallsSilent, State.peer?, hs.peers_nil, List.find?_nil]
  | peerRemoved n =>
    refine ⟨_, rfl, same _ ?_⟩
    simp only [State.peerRemoved, State.peer?, hs.peers_nil, List.find?_nil]
  | answerBackoffExpiry feed seq =>
    refine ⟨_, rfl, same _ ?_⟩
    unfold State.answerDue
    repeat' split
    all_goals rfl
  | gapWaitExpiry feed seq =>
    refine ⟨_, rfl, same _ ?_⟩
    simp only [State.gapExpires, hs.pos?_none]
  | storageIssue =>
    refine ⟨_, rfl, same _ ?_⟩
    unfold State.serve
    simp only [State.issuingAllowed, hoperating]
    split <;> rfl
  | writeAnswer => exact ⟨_, rfl, same _ (hs.vault_takeAnswerOf _)⟩
  | checkAnswer => exact ⟨_, rfl, same _ (hs.vault_takeAnswerOf _)⟩
  | markAnswer => exact ⟨_, rfl, same _ (hs.vault_takeAnswerOf _)⟩
  | probeAnswer => exact ⟨_, rfl, same _ (hs.vault_takeAnswerOf _)⟩
  | storageTimeout tag =>
    refine ⟨_, rfl, same _ ?_⟩
    simp only [State.timesOut, hs.table_free]
  | stalePeriodEnd tag =>
    refine ⟨_, rfl, same _ ?_⟩
    simp only [State.staleEnds, hs.table_free]
  | probeTimerExpiry =>
    refine ⟨_, rfl, same _ ?_⟩
    unfold State.probeTimerExpires
    repeat' split
    all_goals rfl
  | lingerExpiry feed =>
    refine ⟨_, rfl, same _ ?_⟩
    simp only [State.lingerExpires, hctx]
  | pacingTimerExpiry feed =>
    refine ⟨_, rfl, same _ ?_⟩
    simp only [State.pacingExpires, hctx]
  | landingDelayReached feed =>
    refine ⟨_, rfl, same _ ?_⟩
    simp [State.noteDelay, State.mapCtx, State.vault, hs.contexts_nil]
  | browseQueueEntry =>
    refine ⟨_, rfl, same _ ?_⟩
    simp [State.enterQueue, State.movableJob, hwait]
  | reducerTakesJob =>
    refine ⟨_, rfl, same _ ?_⟩
    simp [State.reducerTakes, State.reducible?, hqueue]
  | decodeComplete ps =>
    refine ⟨_, rfl, same _ ?_⟩
    simp [State.decodeEnds, State.decoding?, hqueue]
  | shedAgeExpiry feed seq =>
    refine ⟨_, rfl, same _ ?_⟩
    simp [State.shed, State.sheddable?, hwait, hqueue]
  | readStatus =>
    refine ⟨_, rfl, same _ ?_⟩
    unfold State.readStatus
    split <;> rfl
  | readRecord b =>
    refine ⟨_, rfl, same _ ?_⟩
    unfold State.readRecord
    repeat' split
    all_goals rfl
  | writeRecord r =>
    refine ⟨_, rfl, same _ ?_⟩
    unfold State.writeRecord
    repeat' split
    all_goals rfl
  | recordWriteComplete b =>
    refine ⟨_, rfl, same _ ?_⟩
    unfold State.recordWritten State.writeCutOff
    repeat' split
    all_goals rfl
  | storageFragmentReceived f =>
    refine ⟨_, rfl, same _ ?_⟩
    simp [State.takeFragment, hoperating]
  | maintenanceAnswerSent =>
    refine ⟨_, rfl, same _ ?_⟩
    unfold State.answerSent
    split <;> rfl
  | _ f => exact ⟨_, rfl, same _ (congrArg State.vault (hs.receiveFrame_eq f))⟩

/-! ### The step -/

/-- A state past LOADING says nothing of silence. -/
theorem State.silentOk_of_operating {s : State} (h : s.operating = true) : s.SilentOk := fun hst => by
  rcases hst with hst | hst <;> simp [State.operating, hst] at h

/-- Every command keeps the Peer Table in order and a silent station silent. -/
theorem exec_keeps_peers (i : Instr) {s : State} (hpeers : s.PeersOk) (hsilent : s.SilentOk) :
    ∃ t, exec i s = .next t ∧ t.PeersOk ∧ t.SilentOk := by
  by_cases hop : s.operating = true
  · obtain ⟨t, ht, hbase | ⟨hrun, hkeeps⟩ | ⟨hnil, hquiet⟩⟩ := exec_peerStep i hop
    · exact ⟨t, ht, hpeers.of_base hbase,
        State.silentOk_of_operating ((State.operating_of_base hbase).trans hop)⟩
    · exact ⟨t, ht, hkeeps hpeers, State.silentOk_of_operating hrun⟩
    · exact ⟨t, ht, State.peersOk_of_nil hnil, hquiet⟩
  · have hst : s.station = .loading ∨ s.station = .setupFault := by
      cases h : s.station <;> simp [State.operating, h] at hop <;> simp
    obtain ⟨t, ht, hnil, hquiet⟩ := exec_silent i ⟨hst, hsilent⟩
    exact ⟨t, ht, State.peersOk_of_nil hnil, hquiet⟩

/-- Settles O59: a station past LOADING changes its Peer Table by beacons, silences and removals alone, and a
silent one takes no command but the end of LOADING and POWER. -/
theorem stepKeepsPeers : Obligations.StepKeepsPeers := by
  intro s t hpeers hsilent hstep
  unfold step at hstep
  split at hstep
  · cases hstep
    exact ⟨hpeers, hsilent⟩
  · next i rest _ =>
    obtain ⟨u, hu, hkeep⟩ := exec_keeps_peers i (s := { s with pending := rest }) hpeers hsilent
    rw [hu] at hstep
    cases hstep
    exact hkeep

end Sys2Proof.Machine
end

