-- ==== Sys2Proof/Proofs/Timers.lean ====
section
/-! The end of loading, the timers and the transmit queue (R28, R92, R95, R100, R114, R117, R118, R177 to
R180). -/

namespace Sys2Proof.Machine

/-! ### The end of loading -/

/-- What a record's check finds wrong first (R177). -/
theorem recordFault_of_badCheck {b : List Byte} (h : recordCheckOk b = false) :
    recordFault b = some .recordCheck := by
  simp [recordFault, h]

theorem recordFault_of_badNumber {b : List Byte} (hcheck : recordCheckOk b = true)
    (h : field b 0 1 < 1 ∨ 8 < field b 0 1) : recordFault b = some .badStationNumber := by
  simp only [recordFault, hcheck, Bool.not_true, Bool.false_eq_true, if_false, if_pos h]

/-- Of a record with its check word and a station number the ranges are judged (R177). -/
theorem recordFault_of_number {b : List Byte} (hcheck : recordCheckOk b = true) (hlow : 1 ≤ field b 0 1)
    (hhigh : field b 0 1 ≤ 8) :
    recordFault b
      = if 6 < field b 1 1 ∨ rangesOk 0 (recordRanges b) = false then some .badRanges else none := by
  have hnumber : ¬(field b 0 1 < 1 ∨ 8 < field b 0 1) := by omega
  simp only [recordFault, hcheck, Bool.not_true, Bool.false_eq_true, if_false, if_neg hnumber]
  by_cases hcount : 6 < field b 1 1
  · simp [hcount]
  · simp [hcount]

/-- LOADING_COMPLETE in LOADING with a memory that answers goes by what the record's check finds (R177). -/
theorem State.loadingCompletes_fault {s : State} (h : s.station = .loading) {r : FaultReason}
    (hr : recordFault s.confMem = some r) : s.loadingCompletes true = s.setupFault r := by
  simp [State.loadingCompletes, h, hr]

theorem State.loadingCompletes_well {s : State} (h : s.station = .loading) (hr : recordFault s.confMem = none) :
    s.loadingCompletes true = s.loadedWell := by
  simp [State.loadingCompletes, h, hr]

theorem State.loadingCompletes_noAnswer {s : State} (h : s.station = .loading) :
    s.loadingCompletes false = s.setupFault .recordCheck := by
  simp [State.loadingCompletes, h]

/-- Settles O5: each finding is met by the first test of `recordFault` that it fails. -/
theorem loadingCompletes : Obligations.LoadingCompletes := by
  intro s answers
  have hexec : exec (.loadingComplete answers) s = .next (s.loadingCompletes answers) := rfl
  rw [hexec]
  refine ⟨fun h => ?_, fun hst => ⟨fun h => ?_, fun hans hcheck => ?_⟩⟩
  · rw [State.loadingCompletes, if_pos (by simpa using h)]
  · cases answers with
    | false =>
      rw [State.loadingCompletes_noAnswer hst]
      rfl
    | true =>
      rw [State.loadingCompletes_fault hst (recordFault_of_badCheck (h.resolve_left (by simp)))]
      rfl
  subst hans
  refine ⟨fun h => ?_, fun hlow hhigh => ⟨fun h => ?_, fun hcount hranges => ?_⟩⟩
  · rw [State.loadingCompletes_fault hst (recordFault_of_badNumber hcheck h)]
    rfl
  · rw [State.loadingCompletes_fault hst ((recordFault_of_number hcheck hlow hhigh).trans (if_pos h))]
    rfl
  · have hgood : ¬(6 < field s.confMem 1 1 ∨ rangesOk 0 (recordRanges s.confMem) = false) := by
      simp [hranges, hcount]
    rw [State.loadingCompletes_well hst ((recordFault_of_number hcheck hlow hhigh).trans (if_neg hgood))]
    refine ⟨fun hlink => ?_, fun hlink => ?_⟩
    · simp only [State.loadedWell, hlink, if_true]
      rfl
    · simp only [State.loadedWell, hlink, Bool.false_eq_true, if_false]
      rfl

/-! ### The timers -/

theorem State.probeIssued_iff (s : State) :
    s.probeIssued = true ↔ ∃ (tag : Fin 16) (r : Request), s.table[tag] = .issued r ∧ r.purpose = .probe := by
  have hmatch : ∀ x : TableEntry, (match x with
      | .issued r => r.purpose == .probe
      | _ => false) = true ↔ ∃ r, x = .issued r ∧ r.purpose = .probe := fun x => by
    cases x <;> simp
  simp only [State.probeIssued, List.any_eq_true]
  constructor
  · rintro ⟨x, hx, hm⟩
    obtain ⟨r, rfl, hr⟩ := (hmatch x).mp hm
    obtain ⟨i, hi, hget⟩ := List.mem_iff_getElem.mp hx
    exact ⟨⟨i, by simpa using hi⟩, r, by simpa using hget, hr⟩
  · rintro ⟨tag, r, hget, hr⟩
    refine ⟨.issued r, ?_, (hmatch _).mpr ⟨r, rfl, hr⟩⟩
    exact hget ▸ Vector.mem_toList_iff.mpr (Vector.getElem_mem tag.isLt)

/-- The probe timer at its time: a PROBE waits, unless one is ISSUED (R117). -/
theorem State.probeTimerExpires_due {s : State} {t : Nat} (ht : s.probeTimer = some t) (hdue : t ≤ s.now) :
    s.probeTimerExpires = { s with probeTimer := some (t + s.settings.beaconPeriod),
                                   probeWaiting := s.probeWaiting || !s.probeIssued } := by
  simp only [State.probeTimerExpires, ht, if_pos hdue]

/-- Settles O12: each timer is stopped, at its time or before it. -/
theorem timersRunOut : Obligations.TimersRunOut := by
  intro s
  have hbeacon : exec .beaconTimerExpiry s = .next s.beaconDue := rfl
  have hprobe : exec .probeTimerExpiry s = .next s.probeTimerExpires := rfl
  have hquiet : exec .storageQuietTimeEnd s = .next s.quietEnds := rfl
  have hstale : ∀ tag, exec (.stalePeriodEnd tag) s = .next (s.staleEnds tag) := fun _ => rfl
  rw [hbeacon, hprobe, hquiet]
  refine ⟨fun h => ?_, fun t h => ⟨fun hdue => ?_, fun hearly => ?_⟩, fun h => ?_, fun t h =>
    ⟨fun hdue => ⟨fun hissued => ?_, fun hnone => ?_⟩, fun hearly => ?_⟩, fun h => ?_, fun t h =>
    ⟨fun hdue => ?_, fun hearly => ?_⟩, fun tag => ⟨fun h => ?_, fun r u h => ⟨fun hdue => ?_, fun hearly => ?_⟩⟩⟩
  · simp only [State.beaconDue, h]
  · simp only [State.beaconDue, h, if_pos hdue]
  · simp only [State.beaconDue, h, if_neg (Nat.not_le.mpr hearly)]
  · simp only [State.probeTimerExpires, h]
  · rw [State.probeTimerExpires_due h hdue, s.probeIssued_iff.mpr hissued, Bool.not_true, Bool.or_false]
  · have hfree : s.probeIssued = false := Bool.eq_false_iff.mpr fun hissued => by
      obtain ⟨tag, r, hget, hr⟩ := s.probeIssued_iff.mp hissued
      exact hnone tag r hget hr
    rw [State.probeTimerExpires_due h hdue, hfree, Bool.not_false, Bool.or_true]
  · simp only [State.probeTimerExpires, h, if_neg (Nat.not_le.mpr hearly)]
  · simp [State.quietEnds, State.reached, h]
  · simp [State.quietEnds, State.reached, h, hdue]
  · simp [State.quietEnds, State.reached, h, Nat.not_le.mpr hearly]
  · rw [hstale]
    unfold State.staleEnds
    split
    · next r u hr => exact absurd hr (h r u)
    · rfl
    · rfl
  · rw [hstale]
    simp only [State.staleEnds, h, if_pos hdue]
    rfl
  · rw [hstale]
    simp only [State.staleEnds, h, if_neg (Nat.not_le.mpr hearly)]

/-! ### The transmit queue -/

/-- A frame in the queue of a port that has no beacon to send (R92). -/
theorem State.transmit_ask {s : State} (hr : s.receives = true) (hb : s.beaconWaiting = false) {a : Ask}
    {rest : List Ask} (ha : s.askQueue = a :: rest) : s.transmit = s.sendAsk a rest := by
  simp [State.transmit, hr, hb, ha]

theorem State.transmit_mendCell {s : State} (hr : s.receives = true) (hb : s.beaconWaiting = false)
    {m : MendCell} {rest : List MendCell} (ha : s.askQueue = []) (hm : s.mendQueue = m :: rest) :
    s.transmit = s.sendMendCell m rest := by
  simp [State.transmit, hr, hb, ha, hm]

/-- Settles O13: the beacon, else the oldest ask, else the oldest mend cell. -/
theorem portTransmitsInOrder : Obligations.PortTransmitsInOrder := by
  intro s
  have hexec : exec .portTransmit s = .next s.transmit := rfl
  simp only [hexec]
  refine ⟨fun hr => ?_, fun hr hb => ?_, fun hr hb => ?_⟩
  · simp [State.transmit, hr]
  · simp only [State.transmit, hr, hb, Bool.not_true, Bool.false_eq_true, if_false, if_true]
    rfl
  refine ⟨fun a rest hask => ?_, fun m rest hask hmend => ?_, fun hask hmend => ?_⟩
  · rw [State.transmit_ask hr hb hask]
    rfl
  · rw [State.transmit_mendCell hr hb hask hmend]
    rfl
  · simp [State.transmit, hr, hb, hask, hmend]

end Sys2Proof.Machine
end

