-- ==== Sys2Proof/Proofs/ReadBack.lean ====
section
/-! A beacon reads back as what it was formed from (R29 to R32, R186, R188): each field stands where it is read,
each record reads back, and the whole passes the checks of R32. -/

namespace Sys2Proof.Machine

/-! ### Fields and bytes of what was written -/

/-- A field that begins past the first of two parts is read in the second. -/
theorem field_append_right {a b : List Byte} {off n : Nat} (h : a.length ≤ off) :
    field (a ++ b) off n = field b (off - a.length) n := by
  simp only [field, List.drop_append, List.drop_eq_nil_of_le h, List.nil_append]

theorem field_whole {a : List Byte} {n : Nat} (h : a.length = n) : field a 0 n = beNat a := by
  simp [field, ← h]

theorem byteAt_append_left {a b : List Byte} {off : Nat} (h : off < a.length) :
    byteAt (a ++ b) off = byteAt a off := by
  simp [byteAt, List.getElem?_append_left h]

theorem byteAt_append_right {a b : List Byte} {off : Nat} (h : a.length ≤ off) :
    byteAt (a ++ b) off = byteAt b (off - a.length) := by
  simp [byteAt, List.getElem?_append_right h]

/-- A field of pieces of one length. -/
theorem field_flatMap {α : Type} (f : α → List Byte) {k : Nat} (hf : ∀ x, (f x).length = k) (post : List Byte) :
    ∀ (l : List α) (i : Nat) (hi : i < l.length), field (l.flatMap f ++ post) (k * i) k = beNat (f l[i])
  | x :: l, 0, _ => by
    rw [List.flatMap_cons, List.append_assoc, Nat.mul_zero, field_append_left (by rw [hf]; omega)]
    exact field_whole (hf x)
  | x :: l, i + 1, hi => by
    have hpast : (f x).length ≤ k * (i + 1) := by rw [hf, Nat.mul_succ]; omega
    rw [List.flatMap_cons, List.append_assoc, field_append_right hpast, hf,
      show k * (i + 1) - k = k * i by rw [Nat.mul_succ]; omega]
    exact field_flatMap f hf post l i (Nat.lt_of_succ_lt_succ hi)


/-! ### The open parameter block -/

theorem field_beBytes_mod (n v : Nat) : field (beBytes n v) 0 n = v % 256 ^ n := by
  rw [field_whole (length_beBytes n v), beNat_beBytes]

theorem field_markBytes {m : Mark} (h : ∀ n, m = some n → n < 2 ^ 32 - 1) :
    markField (field (markBytes m) 0 4) = m := by
  rw [field_whole (length_markBytes m), markField_markBytes m h]

/-- The fields of an open parameter block fit their bytes (R188). -/
structure OpenParams.Fits (p : OpenParams) : Prop where
  landingBase : p.landingBase < 2 ^ 64
  browseBase : p.browseBase < 2 ^ 64
  landingSlot : p.landingSlot < 2 ^ 32
  slotCount : p.slotCount < 2 ^ 32
  browseSlot : p.browseSlot < 2 ^ 32
  browseSlots : p.browseSlots < 2 ^ 32
  width : p.width < 2 ^ 16
  height : p.height < 2 ^ 16
  sourceRate : p.sourceRate < 256
  browseRate : p.browseRate < 256
  factor : p.factor < 256
  wayFn : p.wayFn < 256
  depth : p.depth < 256
  cueCount : p.cueCount ≤ 8
  cues : p.cues.length = p.cueCount
  cueNumbers : ∀ x ∈ p.cues, x < 2 ^ 32

theorem field_cons_zero (x : Byte) (l : List Byte) : field (x :: l) 0 1 = x.toNat := by
  simp [field, beNat]

theorem field_cons_succ (x : Byte) (l : List Byte) (off n : Nat) : field (x :: l) (off + 1) n = field l off n := by
  simp [field]

/-- The cue numbers of an open parameter block stand from offset 52 on. -/
theorem field_cue {p : OpenParams} (h : p.Fits) {i : Nat} (hi : i < p.cues.length) :
    field (encodeParams p) (52 + 4 * i) 4 = p.cues[i] := by
  have hcount := h.cueCount
  have hcues := h.cues
  have hlt : p.cues[i] < 256 ^ 4 := h.cueNumbers _ (List.getElem_mem hi)
  have htake : p.cues.take 8 = p.cues := List.take_of_length_le (by omega)
  unfold encodeParams
  rw [List.append_assoc, field_append_right (by simp), htake]
  simp only [List.length_append, length_beBytes, length_reserved, List.length_cons, List.length_nil]
  rw [show 52 + 4 * i - _ = 4 * i by omega, field_flatMap (beBytes 4) (length_beBytes 4) _ _ _ hi, beNat_beBytes,
    Nat.mod_eq_of_lt hlt]

theorem parseParams_encodeParams {p : OpenParams} (h : p.Fits) : parseParams (encodeParams p) = p := by
  have hcues : (List.range (min p.cueCount 8)).map (fun i => field (encodeParams p) (52 + 4 * i) 4) = p.cues := by
    rw [Nat.min_eq_left h.cueCount, ← h.cues]
    refine List.ext_getElem (by simp) fun i _ hi => ?_
    rw [List.getElem_map, List.getElem_range, field_cue h hi]
  obtain ⟨h1, h2, h3, h4, h5, h6, h7, h8, h9, h10, h11, h12, h13, h14, -, -⟩ := h
  have hn : field (encodeParams p) 49 1 = p.cueCount := by
    simp (disch := simp) [encodeParams, field_append_right, field_cons_succ, field_cons_zero]
    omega
  simp only [parseParams, hn, hcues]
  simp (disch := simp) only [encodeParams, List.append_assoc, field_append_left, field_append_right, field_cons_succ,
    field_cons_zero, length_beBytes, Nat.reduceSub, field_beBytes_mod, BitVec.toNat_ofNat]
  simp (disch := omega) only [Nat.reducePow, Nat.mod_eq_of_lt]
  simp

/-! ### Codes and flags -/

theorem holdKindOf_code (k : HoldKind) : holdKindOf k.code.toNat = some k := by cases k <;> rfl

theorem ctxStateOf_code (c : CtxState) : ctxStateOf c.code.toNat = some c := by cases c <;> rfl

theorem originOf_code (o : Origin) : originOf o.code.toNat = some o := by cases o <;> rfl

theorem parseFlags_bits (f : Flags) : parseFlags (BitVec.ofNat 16 (field (beBytes 2 f.bits) 0 2)) = f := by
  rcases f with ⟨a, b, c, d, e, f, g⟩
  revert a b c d e f g
  decide

/-- What a record reports fits its bytes (R31, R188). -/
structure FeedRecord.Fits (r : FeedRecord) : Prop where
  feed : r.feed < 256
  params : r.params.Fits
  marks : ∀ m ∈ r.e :: r.h :: r.published :: (r.lv.toList ++ r.bv.toList), ∀ n, m = some n → n < 2 ^ 32 - 1
  counts : r.counts.length = 8

/-! ### Kinds, marks and counts past what stands before them -/

theorem parseKinds_append_right {a b : List Byte} {off : Nat} (h : a.length ≤ off) :
    parseKinds (a ++ b) off = parseKinds b (off - a.length) := by
  have hpast (k : Nat) : field (a ++ b) (off + k) 1 = field b (off - a.length + k) 1 := by
    rw [field_append_right (by omega), Nat.sub_add_comm h]
  simp only [parseKinds, hpast, field_append_right h]

theorem parseKinds_codes (k : PerWay HoldKind) (rest : List Byte) :
    parseKinds (k.toList.map HoldKind.code ++ rest) 0 = some k := by
  simp [parseKinds, PerWay.toList, field_cons_zero, field_cons_succ, holdKindOf_code]

theorem parseMarks_append_right {a b : List Byte} {off : Nat} (h : a.length ≤ off) :
    parseMarks (a ++ b) off = parseMarks b (off - a.length) := by
  have hpast (k : Nat) : field (a ++ b) (off + k) 4 = field b (off - a.length + k) 4 := by
    rw [field_append_right (by omega), Nat.sub_add_comm h]
  simp only [parseMarks, hpast, field_append_right h]

@[simp] theorem PerWay.length_toList {α : Type} (x : PerWay α) : x.toList.length = 4 := rfl

@[simp] theorem length_marks (m : PerWay Mark) : (m.toList.flatMap markBytes).length = 16 := by
  simp [PerWay.toList]

theorem parseMarks_marks {m : PerWay Mark} (h : ∀ x ∈ m.toList, ∀ n, x = some n → n < 2 ^ 32 - 1) (rest : List Byte) :
    parseMarks (m.toList.flatMap markBytes ++ rest) 0 = m := by
  simp only [PerWay.toList, List.mem_cons, List.not_mem_nil, or_false, forall_eq_or_imp, forall_eq] at h
  obtain ⟨h0, h1, h2, h3⟩ := h
  simp (disch := simp) only [parseMarks, PerWay.toList, List.flatMap_cons, List.flatMap_nil, List.append_assoc,
    field_append_left, field_append_right, length_markBytes, Nat.reduceSub, Nat.reduceAdd]
  rw [field_markBytes h0, field_markBytes h1, field_markBytes h2, field_markBytes h3]

/-- Counts of four bytes each, read from where they begin. -/
theorem fields_counts {a : List Byte} {off : Nat} (h : a.length = off) {n : Nat} {counts : List (BitVec 32)}
    (hn : counts.length = n) (rest : List Byte) :
    (List.range n).map (fun i => BitVec.ofNat 32
      (field (a ++ (counts.flatMap (fun c => beBytes 4 c.toNat) ++ rest)) (off + 4 * i) 4)) = counts := by
  refine List.ext_getElem (by simp [hn]) fun i _ hi => ?_
  rw [List.getElem_map, List.getElem_range, field_append_right (by omega), h, Nat.add_sub_cancel_left,
    field_flatMap _ (fun c => length_beBytes 4 c.toNat) _ _ _ hi, beNat_beBytes]
  have hfits := counts[i].isLt
  exact BitVec.eq_of_toNat_eq (by simp; omega)

theorem holdBits (a b : Bool) :
    (BitVec.ofNat 8 (bitAt a 0 + bitAt b 1)).getLsbD 0 = a ∧ (BitVec.ofNat 8 (bitAt a 0 + bitAt b 1)).getLsbD 1 = b := by
  revert a b
  decide

/-! ### The feed record -/

theorem slice_append_right {a b : List Byte} {off n : Nat} (h : a.length ≤ off) :
    ((a ++ b).drop off).take n = (b.drop (off - a.length)).take n := by
  simp only [List.drop_append, List.drop_eq_nil_of_le h, List.nil_append]

theorem parseFeedRecord_encodeFeedRecord {r : FeedRecord} (h : r.Fits) :
    parseFeedRecord (encodeFeedRecord r) = some r := by
  have hlen : (encodeParams r.params).length = 84 := length_encodeParams (h.params.cues ▸ h.params.cueCount)
  have hslice (rest : List Byte) : ((encodeParams r.params ++ rest).drop 0).take 84 = encodeParams r.params := by
    simp [← hlen]
  obtain ⟨he, hh, hpublished, hways⟩ : (∀ n, r.e = some n → n < 2 ^ 32 - 1) ∧ (∀ n, r.h = some n → n < 2 ^ 32 - 1)
      ∧ (∀ n, r.published = some n → n < 2 ^ 32 - 1)
      ∧ ∀ m ∈ r.lv.toList ++ r.bv.toList, ∀ n, m = some n → n < 2 ^ 32 - 1 := by
    simpa only [List.mem_cons, forall_eq_or_imp] using h.marks
  have hstate : field (encodeFeedRecord r) 1 1 = r.state.code.toNat := by
    simp [encodeFeedRecord, field_cons_zero, field_cons_succ]
  have horigin : field (encodeFeedRecord r) 2 1 = r.origin.code.toNat := by
    simp [encodeFeedRecord, field_cons_zero, field_cons_succ]
  have hfeed : field (encodeFeedRecord r) 0 1 = r.feed := by
    have hfits := h.feed
    simp [encodeFeedRecord, field_cons_zero]
    omega
  have hhold : byteAt (encodeFeedRecord r) 3 = BitVec.ofNat 8 (bitAt r.landHold 0 + bitAt r.browseHold 1) := by
    simp [encodeFeedRecord, byteAt]
  have hcounts : (List.range 8).map (fun i => BitVec.ofNat 32 (field (encodeFeedRecord r) (144 + 4 * i) 4))
      = r.counts := by
    unfold encodeFeedRecord
    rw [← List.append_nil (r.counts.flatMap _)]
    exact fields_counts (by simp [hlen, PerWay.toList]) h.counts []
  have hat : parseFlags (BitVec.ofNat 16 (field (encodeFeedRecord r) 4 2)) = r.flags
      ∧ parseParams (((encodeFeedRecord r).drop 8).take 84) = r.params
      ∧ markField (field (encodeFeedRecord r) 92 4) = r.e ∧ markField (field (encodeFeedRecord r) 96 4) = r.h
      ∧ markField (field (encodeFeedRecord r) 100 4) = r.published
      ∧ parseKinds (encodeFeedRecord r) 104 = some r.landKind ∧ parseKinds (encodeFeedRecord r) 108 = some r.browseKind
      ∧ parseMarks (encodeFeedRecord r) 112 = r.lv ∧ parseMarks (encodeFeedRecord r) 128 = r.bv := by
    simp (disch := simp [hlen]) only [encodeFeedRecord, List.append_assoc, field_append_right,
      field_append_left, slice_append_right, parseKinds_append_right, parseMarks_append_right, hlen, length_marks,
      length_beBytes, length_markBytes, length_reserved, List.length_map, PerWay.length_toList,
      List.length_cons, List.length_nil, Nat.reduceSub, Nat.reduceAdd, hslice, parseKinds_codes]
    exact ⟨parseFlags_bits r.flags, parseParams_encodeParams h.params, field_markBytes he, field_markBytes hh,
      field_markBytes hpublished, trivial, trivial,
      parseMarks_marks (fun m hm => hways m (List.mem_append_left _ hm)) _,
      parseMarks_marks (fun m hm => hways m (List.mem_append_right _ hm)) _⟩
  obtain ⟨hflags, hparams, heAt, hhAt, hpublishedAt, hland, hbrowse, hlv, hbv⟩ := hat
  simp only [parseFeedRecord, hstate, horigin, ctxStateOf_code, originOf_code, hland, hbrowse, hfeed, hhold, hflags,
    hparams, heAt, hhAt, hpublishedAt, hlv, hbv, hcounts, (holdBits _ _).1, (holdBits _ _).2, Option.bind_eq_bind,
    Option.bind_some, Option.pure_def]

theorem length_encodeFeedRecord {r : FeedRecord} (h : r.Fits) : (encodeFeedRecord r).length = 176 := by
  have hparams : (encodeParams r.params).length = 84 := length_encodeParams (h.params.cues ▸ h.params.cueCount)
  have hcounts : (r.counts.flatMap fun c => beBytes 4 c.toNat).length = 4 * r.counts.length := by
    simp [List.length_flatMap, Nat.mul_comm]
  simp [encodeFeedRecord, hparams, hcounts, h.counts]

/-- The records of a beacon read back one after the other. -/
theorem parseRecords_encode : ∀ {l : List FeedRecord}, (∀ r ∈ l, r.Fits) →
    parseRecords l.length (l.flatMap encodeFeedRecord) = some l
  | [], _ => rfl
  | r :: l, h => by
    have hr : r.Fits := h r List.mem_cons_self
    have hrest := parseRecords_encode fun q hq => h q (List.mem_cons_of_mem _ hq)
    have hlen := length_encodeFeedRecord hr
    simp only [List.length_cons, parseRecords, List.flatMap_cons, List.take_left' hlen, List.drop_left' hlen,
      parseFeedRecord_encodeFeedRecord hr, hrest, Option.bind_eq_bind, Option.bind_some, Option.pure_def]

theorem ascendingFeeds_of_pairwise : ∀ {l : List FeedRecord}, l.Pairwise (fun a b => a.feed < b.feed) →
    ascendingFeeds l = true
  | [], _ => rfl
  | [_], _ => rfl
  | r :: q :: l, h => by
    simp only [ascendingFeeds, List.rel_of_pairwise_cons h List.mem_cons_self, decide_true,
      ascendingFeeds_of_pairwise h.of_cons, Bool.and_self]

/-! ### The station part -/

theorem State.length_refusalBytes (s : State) : s.refusalBytes.length = 4 := by
  unfold State.refusalBytes
  split <;> rfl

theorem headFlags (a b c : Bool) :
    (BitVec.ofNat 8 (bitAt a 0 + bitAt b 1 + bitAt c 2)).getLsbD 0 = a
      ∧ (BitVec.ofNat 8 (bitAt a 0 + bitAt b 1 + bitAt c 2)).getLsbD 1 = b
      ∧ (BitVec.ofNat 8 (bitAt a 0 + bitAt b 1 + bitAt c 2)).getLsbD 2 = c := by
  revert a b c
  decide

theorem State.beaconBody_flags (s : State) : byteAt s.beaconBody 6
    = BitVec.ofNat 8 (bitAt s.settings.adoptEligible 0 + bitAt s.dupNumber 1 + bitAt s.localHold 2) := by
  simp [State.beaconBody, State.beaconHead, byteAt, beBytes]

/-- The counters stand in a beacon from offset 8 on, the refusal bytes behind them. -/
theorem State.beaconBody_parts (s : State) : ∃ start rest : List Byte, start.length = 8
    ∧ s.beaconBody = start ++ (s.counters.reported.flatMap (fun c => beBytes 4 c.toNat) ++ (s.refusalBytes ++ rest)) := by
  refine ⟨[0x03#8, 1#8, BitVec.ofNat 8 s.settings.station, s.stateByte] ++ (beBytes 2 s.settings.beaconPeriod
    ++ [BitVec.ofNat 8 (bitAt s.settings.adoptEligible 0 + bitAt s.dupNumber 1 + bitAt s.localHold 2),
      BitVec.ofNat 8 s.adoptRoom]), [BitVec.ofNat 8 s.contexts.length] ++ (reserved 3
    ++ s.contexts.flatMap (fun c => encodeFeedRecord c.record)), by simp, ?_⟩
  simp only [State.beaconBody, State.beaconHead, List.append_assoc]

theorem State.beaconBody_counters (s : State) :
    (List.range 8).map (fun i => BitVec.ofNat 32 (field s.beaconBody (8 + 4 * i) 4)) = s.counters.reported := by
  obtain ⟨start, rest, hstart, hbody⟩ := s.beaconBody_parts
  rw [hbody]
  exact fields_counts hstart rfl _

theorem State.beaconBody_refusal (s : State) {i : Nat} (h : i < 4) :
    byteAt s.beaconBody (40 + i) = byteAt s.refusalBytes i := by
  obtain ⟨start, rest, hstart, hbody⟩ := s.beaconBody_parts
  have hlen := s.length_refusalBytes
  have hcounters : (s.counters.reported.flatMap fun c => beBytes 4 c.toNat).length = 32 := rfl
  rw [hbody, byteAt_append_right (by omega), byteAt_append_right (by omega), byteAt_append_left (by omega), hstart,
    hcounters]
  congr 1
  omega

/-- A station whose number, period and table are in range. -/
structure State.BeaconFits (s : State) : Prop where
  station : 1 ≤ s.settings.station ∧ s.settings.station ≤ 8
  period : 20 ≤ s.settings.beaconPeriod ∧ s.settings.beaconPeriod ≤ 1000
  table : s.TableOk

theorem State.beaconBody_head {s : State} (h : s.BeaconFits) :
    field s.beaconBody 2 1 = s.settings.station
      ∧ field s.beaconBody 3 1 = (if s.station == .live then 1 else 0)
      ∧ field s.beaconBody 4 2 = s.settings.beaconPeriod
      ∧ field s.beaconBody 7 1 = 16 - s.adopted.length
      ∧ field s.beaconBody 44 1 = s.contexts.length := by
  have ⟨_, hstation⟩ := h.station
  have ⟨_, hperiod⟩ := h.period
  obtain ⟨-, htable, -⟩ := h.table
  dsimp only [Config.maxContexts] at htable
  have hlen := s.length_refusalBytes
  have hcounters : (s.counters.reported.flatMap fun c => beBytes 4 c.toNat).length = 32 := rfl
  have hstate : s.stateByte.toNat = if s.station == .live then 1 else 0 := by
    unfold State.stateByte
    split <;> rfl
  have hroom : s.adoptRoom ≤ 16 := Nat.sub_le _ _
  simp (disch := simp [hlen, hcounters]) only [State.beaconBody, State.beaconHead, List.append_assoc,
    field_append_right, field_append_left, field_cons_zero, field_cons_succ, hlen, hcounters, length_beBytes,
    List.length_cons, List.length_nil, Nat.reduceSub, Nat.reduceAdd, hstate, field_beBytes_mod, BitVec.toNat_ofNat]
  simp (disch := omega) only [Nat.reducePow, Nat.mod_eq_of_lt]
  exact ⟨trivial, trivial, trivial, rfl, trivial⟩

/-! ### The whole beacon -/

theorem State.beaconBody_records (s : State) :
    s.beaconBody.drop 48 = (s.contexts.map FeedContext.record).flatMap encodeFeedRecord := by
  rw [State.beaconBody, List.drop_left' (length_beaconHead s), List.flatMap_map]

/-- The mark of a way not held is reported as none, every other one as it stands (R31). -/
theorem FeedContext.reportedMarks_eq (c : FeedContext) (k : WorkKind) :
    c.reportedMarks k = PerWay.ofFn (fun w => if c.kindOf k w = .unheld then none else c.markOf k w) := by
  unfold FeedContext.reportedMarks FeedContext.holds
  congr 1
  funext w
  cases c.kindOf k w <;> rfl

/-- A mark is reported as none or as it stands. -/
theorem FeedContext.mem_reportedMarks {c : FeedContext} {k : WorkKind} {m : Mark}
    (h : m ∈ (c.reportedMarks k).toList) : m = none ∨ ∃ w, m = c.markOf k w := by
  have hway (w : Way) : (if c.holds k w then c.markOf k w else none) = none
      ∨ ∃ v, (if c.holds k w then c.markOf k w else none) = c.markOf k v := by
    split
    · exact .inr ⟨w, rfl⟩
    · exact .inl rfl
  simp only [FeedContext.reportedMarks, PerWay.ofFn, PerWay.toList, List.mem_cons, List.not_mem_nil, or_false] at h
  obtain rfl | rfl | rfl | rfl := h
  · exact hway 0
  · exact hway 1
  · exact hway 2
  · exact hway 3

theorem PerWay.get_mem_toList {α : Type} (x : PerWay α) : ∀ w, x.get w ∈ x.toList
  | 0 | 1 | 2 | 3 => by simp [PerWay.get, PerWay.toList]

/-- The fields of a context fit the bytes of its record. -/
structure FeedContext.Fits (c : FeedContext) : Prop where
  feed : c.feed < 256
  params : c.params.Fits
  marks : ∀ m ∈ c.e :: c.h :: c.published :: (c.lv.toList ++ c.bv.toList), ∀ n, m = some n → n < 2 ^ 32 - 1

theorem FeedContext.Fits.reported {c : FeedContext} (h : c.Fits) {k : WorkKind} :
    ∀ m ∈ (c.reportedMarks k).toList, ∀ n, m = some n → n < 2 ^ 32 - 1 := by
  intro m hm n hn
  obtain rfl | ⟨w, rfl⟩ := FeedContext.mem_reportedMarks hm
  · exact absurd hn nofun
  · refine h.marks _ ?_ n hn
    cases k with
    | landing => simp [FeedContext.markOf, PerWay.get_mem_toList]
    | browse => simp [FeedContext.markOf, PerWay.get_mem_toList]

theorem FeedContext.Fits.record {c : FeedContext} (h : c.Fits) : c.record.Fits where
  feed := h.feed
  params := h.params
  counts := rfl
  marks := by
    obtain ⟨he, hh, hpublished, -⟩ : (∀ n, c.e = some n → n < 2 ^ 32 - 1) ∧ (∀ n, c.h = some n → n < 2 ^ 32 - 1)
        ∧ (∀ n, c.published = some n → n < 2 ^ 32 - 1)
        ∧ ∀ m ∈ c.lv.toList ++ c.bv.toList, ∀ n, m = some n → n < 2 ^ 32 - 1 := by
      simpa only [List.mem_cons, forall_eq_or_imp] using h.marks
    simp only [FeedContext.record, List.mem_cons, List.mem_append, forall_eq_or_imp]
    exact ⟨he, hh, hpublished, fun m hm => hm.elim (h.reported m) (h.reported m)⟩

theorem State.parseBeacon_beaconBody {s : State} (h : s.BeaconFits) (hfits : ∀ c ∈ s.contexts, c.Fits) :
    parseBeacon s.beaconBody = some
      { number := s.settings.station, live := s.station == .live, period := s.settings.beaconPeriod,
        adoptEligible := s.settings.adoptEligible, adoptRoom := 16 - s.adopted.length,
        records := s.contexts.map FeedContext.record } := by
  obtain ⟨hnumber, hstate, hperiod, hroom, hn⟩ := State.beaconBody_head h
  obtain ⟨hascending, htable, hfeeds⟩ := h.table
  dsimp only [Config.maxContexts] at htable
  have hrecords : ∀ r ∈ s.contexts.map FeedContext.record, r.Fits := by
    intro r hr
    obtain ⟨c, hc, rfl⟩ := List.mem_map.mp hr
    exact (hfits c hc).record
  have hlen : s.beaconBody.length = 48 + 176 * s.contexts.length := by
    rw [State.beaconBody, List.length_append, length_beaconHead, List.length_flatMap,
      List.map_congr_left fun c hc => length_encodeFeedRecord (hfits c hc).record]
    simp [Nat.mul_comm]
  have hread : parseRecords s.contexts.length (s.beaconBody.drop 48) = some (s.contexts.map FeedContext.record) := by
    rw [s.beaconBody_records, ← parseRecords_encode hrecords, List.length_map]
  have hbelow : (s.contexts.map FeedContext.record).any (fun r => decide (Config.feeds ≤ r.feed)) = false := by
    simp only [List.any_map, List.any_eq_false, Function.comp_apply, decide_eq_true_eq, Nat.not_le]
    exact fun c hc => hfeeds c.feed (List.mem_map_of_mem hc)
  have hascends : ascendingFeeds (s.contexts.map FeedContext.record) = true :=
    ascendingFeeds_of_pairwise (List.pairwise_map.mpr (List.pairwise_map.mp hascending))
  have hlive : ((if s.station == .live then 1 else 0) == 1) = (s.station == .live) := by
    cases s.station == .live <;> rfl
  unfold parseBeacon
  rw [if_neg (by omega)]
  simp only [hnumber, hstate, hperiod, hn, hread, hbelow, hascends, hroom, hlen, s.beaconBody_flags,
    (headFlags _ _ _).1, hlive]
  rw [if_neg (by have := h.station; omega), if_neg (by split <;> omega), if_neg (by have := h.period; omega),
    if_neg (by omega), if_neg (by omega),
    if_neg Bool.false_ne_true]
  rfl


/-- Settles O14: each field is read where it was written (`beaconBody_head`, `beaconBody_parts`), each record
reads back (`parseFeedRecord_encodeFeedRecord`), and the table's order passes the checks of R32. -/
theorem beaconReadsBack : Obligations.BeaconReadsBack := by
  intro s _ hlow hhigh hplow hphigh htable hfields
  have hfits : ∀ c ∈ s.contexts, c.Fits := by
    intro c hc
    obtain ⟨h1, h2, h3, h4, h5, h6, h7, h8, h9, h10, h11, h12, h13, h14, h15, h16, hmarks⟩ := hfields c hc
    have hfeed : c.feed < 64 := htable.2.2 c.feed (List.mem_map_of_mem hc)
    exact ⟨by omega, ⟨h1, h2, h3, h4, h5, h6, h7, h8, h9, h10, h11, h12, h13, h14, h15, h16⟩, hmarks⟩
  have hread := State.parseBeacon_beaconBody ⟨⟨hlow, hhigh⟩, ⟨hplow, hphigh⟩, htable⟩ hfits
  refine ⟨?_, rfl, s.beaconBody_counters, ?_, ?_, ?_, ?_⟩
  · simp only [hread, Option.some.injEq, PeerBeacon.mk.injEq, true_and]
    refine List.map_congr_left fun c _ => ?_
    rw [FeedContext.record, FeedContext.reportedMarks_eq, FeedContext.reportedMarks_eq]
    rfl
  · rw [s.beaconBody_flags, (headFlags _ _ _).2.1]
  · rw [s.beaconBody_flags, (headFlags _ _ _).2.2]
  · intro hnone
    have hbytes : s.refusalBytes = 0#8 :: (List.range 3).map Config.absentRefusal := by
      simp only [State.refusalBytes, hnone]
    exact (s.beaconBody_refusal (by decide : 0 < 4)).trans (hbytes ▸ rfl)
  · intro r hr
    have hbytes : s.refusalBytes = [1#8, BitVec.ofNat 8 r.feed, r.kind.code, r.reason.code] := by
      simp only [State.refusalBytes, hr]
    have hat (i : Nat) (hi : i < 4) : byteAt s.beaconBody (40 + i)
        = byteAt [1#8, BitVec.ofNat 8 r.feed, r.kind.code, r.reason.code] i := by
      rw [s.beaconBody_refusal hi, hbytes]
    exact ⟨hat 0 (by decide), hat 1 (by decide), hat 2 (by decide), hat 3 (by decide)⟩

end Sys2Proof.Machine
end

