-- ==== Sys2Proof/Proofs/Refresh.lean ====
section
/-! The window recomputed (R73, R74, R78): which positions stay, and that every other one is as it is opened. -/

namespace Sys2Proof.Machine

/-- The position that opens at a sequence number of a feed (R78). -/
def State.openedAt (s : State) (feed : Nat) (c : FeedContext) (n : Nat) : Position :=
  c.opened s.now (s.now + s.settings.gapWait) ((s.entry? feed n).map (·.whole)) n

/-- The ring's chunks say whether an entry is WHOLE. -/
theorem State.found_of_chunks {s t : State} (h : t.chunks = s.chunks) (feed n : Nat) :
    (t.entry? feed n).map (·.whole) = (s.entry? feed n).map (·.whole) := by
  cases he : s.entry? feed n with
  | none =>
    cases ht : t.entry? feed n with
    | none => rfl
    | some e =>
      obtain ⟨k, hk⟩ := State.entry?_of_chunks h.symm ht
      rw [he] at hk
      cases hk
  | some e =>
    obtain ⟨k, hk⟩ := State.entry?_of_chunks h he
    rw [hk]
    rfl

theorem State.openedAt_congr {s t : State} (h : s.SameOuter t) {c d : FeedContext} (hb : d.bare = c.bare)
    (feed n : Nat) : t.openedAt feed d n = s.openedAt feed c n := by
  have hnow : t.now = s.now := h.observe (·.now) fun _ => rfl
  have hset : t.settings = s.settings := h.observe (·.settings) fun _ => rfl
  unfold State.openedAt FeedContext.opened
  rw [State.found_of_chunks h.2, hnow, hset, FeedContext.newPosition_congr hb, FeedContext.startWait_congr hb]

/-- In `s` the window of `c` was recomputed to that of `y`: what is kept stands as it was, every other position is
one that is called for, as it is opened, and where windows run nothing is missing. -/
structure State.Rewindowed (s : State) (feed : Nat) (c y : FeedContext) : Prop where
  bare : y.bare = c.bare
  built : y.windowBuilt = c.windowBuilt
  ordered : (c.positions.map (·.seq)).Pairwise (· < ·) → (y.positions.map (·.seq)).Pairwise (· < ·)
  kept : ∀ n p, (c.without c.overdue).pos? n = some p → y.pos? n = some p
  opened : ∀ n p, (c.without c.overdue).pos? n = none → y.pos? n = some p →
    c.callsFor n = true ∧ p = s.openedAt feed c n
  complete : s.windowsRun = true → c.working = true → c.windowBuilt = true → ∀ n, c.callsFor n = true → y.pos? n ≠ none

/-- Every position of a window recomputed is called for. -/
theorem State.Rewindowed.calls {s : State} {feed : Nat} {c y : FeedContext} (h : s.Rewindowed feed c y) {n : Nat}
    (hn : y.pos? n ≠ none) : c.callsFor n = true := by
  obtain ⟨p, hp⟩ := Option.ne_none_iff_exists'.mp hn
  cases hkept : (c.without c.overdue).pos? n with
  | none => exact (h.opened n p hkept hp).1
  | some q =>
    have hkeeps := (FeedContext.keeps_of_mem_trimmed (FeedContext.pos?_mem hkept)).2
    rw [← FeedContext.pos?_seq hkept]
    exact FeedContext.callsFor_of_keeps hkeeps

section
variable {s : State} {feed : Nat} {c : FeedContext}

theorem State.opens_fillSpan (s : State) (feed : Nat) : s.Opens feed (s.fillSpan feed) := by
  unfold State.fillSpan
  split
  · exact .refl s
  · split
    · split
      · exact .refl s
      · exact foldl_keeps (I := fun t : State => s.Opens feed t) (fun t m _ ht => ht.trans (t.opens_createPos m)) (.refl s)
    · exact .refl s

/-- The fill of a window at a sequence number that is called for and has no position yet. -/
theorem State.fillSpan_opens (hc : s.ctx? feed = some c) (hrun : s.windowsRun = true) (hwork : c.working = true)
    (hbuilt : c.windowBuilt = true) {n : Nat} (hcall : c.callsFor n = true) (hnone : c.pos? n = none) :
    (s.fillSpan feed).pos? feed n = some (s.openedAt feed c n) := by
  obtain ⟨b, hb, hmem⟩ := FeedContext.mem_span_of_callsFor hcall
  simp only [State.fillSpan, hc, hrun, hwork, hbuilt, Bool.and_self, if_true, hb]
  exact (State.createPositions_opened ((List.nodup_range' ..).filter _) hmem hrun hc hcall hnone).1

theorem State.fillSpan_idle (hc : s.ctx? feed = some c)
    (h : ¬(s.windowsRun = true ∧ c.working = true ∧ c.windowBuilt = true)) : s.fillSpan feed = s := by
  simp only [State.fillSpan, hc]
  rw [if_neg (by simpa [and_assoc] using h)]

theorem State.ctx?_refreshWindow (hc : s.ctx? feed = some c) :
    ∃ y, (s.refreshWindow feed).ctx? feed = some y ∧ s.Rewindowed feed c y := by
  have htrim := State.ctx?_trim hc
  have houter : s.SameOuter (s.trim feed) := (s.frame_trim feed).outer
  have hbare : (c.without c.overdue).bare = c.bare := rfl
  obtain ⟨y, hy, hfilled⟩ := State.fillSpan_filled htrim
  obtain ⟨y', hy', hopening⟩ := State.opens_fillSpan (s.trim feed) feed _ htrim
  obtain rfl : y = y' := Option.some.inj (hy.symm.trans hy')
  have hpos (n : Nat) : ((s.trim feed).fillSpan feed).pos? feed n = y.pos? n := by simp [State.pos?, hy]
  have hcalls (n : Nat) : (c.without c.overdue).callsFor n = c.callsFor n := FeedContext.callsFor_of_bare hbare n
  have hrun : (s.trim feed).windowsRun = s.windowsRun := houter.observe (·.windowsRun) fun _ => rfl
  refine ⟨y, hy, hfilled.bare.trans hbare, hfilled.windowBuilt, fun h => hopening.ordered ?_, hfilled.kept,
    fun n p hnone hp => ?_, fun hw hwork hbuilt n hcall => ?_⟩
  · exact h.sublist (List.Sublist.map _ List.filter_sublist)
  · have hcall := hfilled.created n hnone (by rw [hp]; exact Option.some_ne_none p)
    refine ⟨(hcalls n).symm.trans hcall, ?_⟩
    by_cases h : (s.trim feed).windowsRun = true ∧ c.working = true ∧ c.windowBuilt = true
    · have hopens := State.fillSpan_opens htrim h.1 h.2.1 h.2.2 hcall hnone
      rw [hpos, hp] at hopens
      exact (Option.some.inj hopens).trans (State.openedAt_congr houter hbare feed n)
    · rw [State.fillSpan_idle htrim h, htrim] at hy
      obtain rfl := Option.some.inj hy
      rw [hnone] at hp
      cases hp
  · cases hn : (c.without c.overdue).pos? n with
    | none =>
      rw [← hpos, State.fillSpan_opens htrim (hrun.trans hw) hwork hbuilt ((hcalls n).trans hcall) hn]
      exact Option.some_ne_none _
    | some p =>
      rw [hfilled.kept n p hn]
      exact Option.some_ne_none p

/-- After the marks changed: the window is recomputed under the marks brought to E, and the context stands or is
FINAL, with no position left. -/
theorem State.ctx?_afterMarks (hc : s.ctx? feed = some c) (commit : Bool) :
    ∃ x d, (s.afterMarks feed commit).ctx? feed = some d ∧ s.Rewindowed feed c.reachEnd x
      ∧ ((d.bare = x.bare ∧ d.positions = x.positions ∧ d.windowBuilt = x.windowBuilt)
        ∨ (d.bare = ({ x with state := .final } : FeedContext).bare ∧ d.positions = [] ∧ x.state = .closing)) := by
  have hreach : (s.mapCtx feed FeedContext.reachEnd).ctx? feed = some c.reachEnd :=
    State.ctx?_counted hc FeedContext.reachEnd FeedContext.reachEnd_feed
  obtain ⟨x, hx, hwindow⟩ := State.ctx?_refreshWindow hreach
  have hsame : s.SameOuter (s.mapCtx feed FeedContext.reachEnd) := (s.frame_mapCtx feed _ FeedContext.reachEnd_feed).outer
  have hhere : s.Rewindowed feed c.reachEnd x :=
    { hwindow with
      opened := fun n p hnone hp => (hwindow.opened n p hnone hp).imp_right
        fun h => h.trans (State.openedAt_congr hsame rfl feed n) }
  have hend {t : State} {y : FeedContext} (hy : t.ctx? feed = some y) (hb : y.bare = x.bare)
      (hp : y.positions = x.positions) (hw : y.windowBuilt = x.windowBuilt) :
      ∃ d, (t.finalTest feed).ctx? feed = some d
        ∧ ((d.bare = x.bare ∧ d.positions = x.positions ∧ d.windowBuilt = x.windowBuilt)
        ∨ (d.bare = ({ x with state := .final } : FeedContext).bare ∧ d.positions = [] ∧ x.state = .closing)) := by
    obtain ⟨d, hd, -, ⟨rfl, -⟩ | hfin⟩ := State.finalTest_spec hy
    · exact ⟨d, hd, .inl ⟨hb, hp, hw⟩⟩
    · have hstate : y.state = x.state := FeedContext.of_bare hb (·.state) fun _ => rfl
      refine ⟨d, hd, .inr ⟨hfin.bare.trans ?_, hfin.positions, hstate.symm.trans hfin.was.1⟩⟩
      exact congrArg (fun z : FeedContext => { z with state := .final }) hb
  unfold State.afterMarks
  simp only
  split
  · obtain ⟨m, b, hy, -⟩ := State.ctx?_recomputeCommit hx
    obtain ⟨d, hd, h⟩ := hend hy rfl rfl rfl
    exact ⟨x, d, hd, hhere, h⟩
  · obtain ⟨d, hd, h⟩ := hend hx rfl rfl rfl
    exact ⟨x, d, hd, hhere, h⟩

end

end Sys2Proof.Machine
end

