-- ==== Sys2Proof/Proofs/Released.lean ====
section
/-! The release of an adopted triple (R44 to R46). -/

namespace Sys2Proof.Machine

/-! ### When a triple is released (R45, R46) -/

theorem State.mem_viewRecords {s : State} {c : FeedContext} {p : PeerEntry} {r : FeedRecord} :
    (p, r) ∈ s.viewRecords c ↔ s.Views c p r := by
  simp only [State.viewRecords, List.mem_filterMap, List.mem_filter, Option.map_eq_some_iff, Prod.mk.injEq,
    PeerEntry.inView, PeerEntry.recordFor, State.Views, Bool.or_eq_true, beq_iff_eq]
  constructor
  · rintro ⟨p, ⟨hp, hst⟩, r, hr, rfl, rfl⟩
    exact ⟨hp, hst, hr⟩
  · rintro ⟨hp, hst, hr⟩
    exact ⟨p, ⟨hp, hst⟩, r, hr, rfl, rfl⟩

theorem isLiveHolder_iff {p : PeerEntry} {r : FeedRecord} {k : WorkKind} {w : Way} :
    isLiveHolder (p, r) k w = true ↔ LiveHolder p r k w := by
  simp [isLiveHolder, LiveHolder, FeedRecord.holds, and_assoc, or_assoc]

theorem State.releasable_iff {s : State} {x : Triple} {c : FeedContext} (hc : s.ctx? x.feed = some c) :
    s.releasable x = true ↔ s.Releases c x := by
  simp only [State.releasable, hc, State.Releases, Bool.and_eq_true, beq_iff_eq, List.any_eq_true, Prod.exists,
    State.mem_viewRecords, isLiveHolder_iff, Bool.or_eq_true, decide_eq_true_eq, and_assoc]

theorem State.releaseTests_one {s : State} {x : Triple} (h : s.adopted = [x]) :
    s.releaseTests = if s.releasable x then s.releaseTriple x else s := by
  simp [State.releaseTests, h]

/-! ### The jobs a released way loses (R44) -/

/-- The position wants a job of the kind. -/
def Position.wantsOf (k : WorkKind) (p : Position) : Bool :=
  match k with
  | .landing => p.wantsLand
  | .browse => p.wantsBrowse

/-- From `c` to `d` the positions of `l` lost their job of a kind, or are removed; the others stand. -/
structure FeedContext.Lost (k : WorkKind) (l : List Nat) (c d : FeedContext) : Prop where
  bare : d.bare = c.bare
  ordered : (c.positions.map (·.seq)).Pairwise (· < ·) → (d.positions.map (·.seq)).Pairwise (· < ·)
  others : ∀ m, m ∉ l → d.pos? m = c.pos? m
  lost : ∀ m ∈ l, ∀ p, d.pos? m = some p → p.wantsOf k = false

theorem FeedContext.Lost.refl (k : WorkKind) (c : FeedContext) : FeedContext.Lost k [] c c :=
  ⟨rfl, id, fun _ _ => rfl, fun _ h => absurd h List.not_mem_nil⟩

theorem FeedContext.Lost.trans {k : WorkKind} {n : Nat} {l : List Nat} {c d e : FeedContext}
    (h : FeedContext.Lost k [n] c d) (i : FeedContext.Lost k l d e) : FeedContext.Lost k (n :: l) c e := by
  refine ⟨i.bare.trans h.bare, i.ordered ∘ h.ordered, fun m hm => ?_, fun m hm p hp => ?_⟩
  · obtain ⟨hn, hl⟩ := not_or.mp (mt List.mem_cons.mpr hm)
    exact (i.others m hl).trans (h.others m (by simpa using hn))
  · by_cases hl : m ∈ l
    · exact i.lost m hl p hp
    · obtain rfl : m = n := (List.mem_cons.mp hm).resolve_right hl
      exact h.lost m List.mem_cons_self p ((i.others m hl).symm.trans hp)

theorem FeedContext.seqs_of_outline {c d : FeedContext} (h : d.outline = c.outline) :
    d.positions.map (·.seq) = c.positions.map (·.seq) := by
  have hplaces : d.positions.map Position.place = c.positions.map Position.place :=
    congrArg FeedContext.positions h
  have hmap := congrArg (List.map Position.seq) hplaces
  simpa only [List.map_map, Function.comp_def, Position.place] using hmap

/-- Work on one position that takes a job from it. -/
theorem FeedContext.SameBut.lost {k : WorkKind} {n : Nat} {c d : FeedContext} (h : FeedContext.SameBut n c d)
    {p : Position} (hp : d.pos? n = some p) (hlost : p.wantsOf k = false) : FeedContext.Lost k [n] c d := by
  refine ⟨FeedContext.bare_of_outline h.outline, fun hc => FeedContext.seqs_of_outline h.outline ▸ hc,
    fun m hm => h.others m (by simpa using hm), fun m hm q hq => ?_⟩
  obtain rfl := List.mem_singleton.mp hm
  rwa [← Option.some.inj (hp.symm.trans hq)]

section
variable {s : State} {feed n : Nat} {c : FeedContext} {p : Position}

theorem State.ctx?_of_contexts {s t : State} (h : t.contexts = s.contexts) (g : Nat) : t.ctx? g = s.ctx? g := by
  simp only [State.ctx?, h]

theorem State.handOverChunkless_contexts (s : State) (feed n : Nat) :
    (s.handOverChunkless feed n).contexts = s.contexts := by
  unfold State.handOverChunkless
  repeat' split
  all_goals rfl

theorem State.loseLanding_ctx (hc : s.ctx? feed = some c) (hp : c.pos? n = some p) :
    ∃ d q, (s.loseLanding feed n p).ctx? feed = some d ∧ FeedContext.SameBut n c d ∧ d.pos? n = some q
      ∧ q.wantsLand = false := by
  have hmap {t : State} {g : Position → Position} (ht : t.contexts = ((s.withdrawWaiting feed n).mapPos feed n g).contexts)
      (hplace : ∀ q, (g q).place = q.place) (hseq : ∀ q, (g q).seq = q.seq) (hno : ∀ q, (g q).wantsLand = false) :
      ∃ d q, t.ctx? feed = some d ∧ FeedContext.SameBut n c d ∧ d.pos? n = some q ∧ q.wantsLand = false :=
    ⟨c.mapPos n g, g p, (State.ctx?_of_contexts ht feed).trans (State.ctx?_counted hc (·.mapPos n g) fun _ => rfl),
      c.sameBut_mapPos n g hplace, FeedContext.pos?_mapPos_self hp g hseq, hno p⟩
  unfold State.loseLanding
  simp only
  split
  · exact hmap ((State.handOverChunkless_contexts ..).trans (State.syncRewrite_contexts ..)) (fun _ => rfl)
      (fun _ => rfl) (fun _ => rfl)
  · exact hmap (State.syncRewrite_contexts ..) (fun _ => rfl) (fun _ => rfl) (fun _ => rfl)

theorem Position.completed_wantsOf (p : Position) (k : WorkKind) : p.completed.wantsOf k = p.wantsOf k := by
  unfold Position.completed
  split
  · cases k <;> rfl
  · rfl

theorem State.dropPos_lost (hc : s.ctx? feed = some c) (k : WorkKind) :
    ∃ d, (s.dropPos feed n).ctx? feed = some d ∧ FeedContext.Lost k [n] c d := by
  refine ⟨c.without [n], ?_, rfl, fun h => h.sublist (List.Sublist.map _ List.filter_sublist), fun m hm => ?_,
    fun m hm q hq => ?_⟩
  · simp [s.ctx?_dropPos, hc]
  · rw [FeedContext.pos?_without, if_neg hm]
  · rw [FeedContext.pos?_without, if_pos hm] at hq
    cases hq

/-- What the completion test leaves of a position that lost its job. -/
theorem State.completePos_lost {k : WorkKind} {d : FeedContext} (hd : s.ctx? feed = some d)
    (hsame : FeedContext.SameBut n c d) (hp : d.pos? n = some p) (hno : p.wantsOf k = false) :
    ∃ e, (s.completePos feed n).ctx? feed = some e ∧ FeedContext.Lost k [n] c e := by
  obtain ⟨e, he, hsame', hp'⟩ := State.completePos_ctx hd hp
  exact ⟨e, he, (hsame.trans hsame').lost hp' ((p.completed_wantsOf k).trans hno)⟩

/-- A position loses its job of a kind (R44). -/
theorem State.loseJob_lost (hc : s.ctx? feed = some c) (k : WorkKind) (n : Nat) :
    ∃ d, (s.loseJob feed k n).ctx? feed = some d ∧ FeedContext.Lost k [n] c d := by
  cases hp : c.pos? n with
  | none =>
    have hnone : s.pos? feed n = none := by simp [State.pos?, hc, hp]
    simp only [State.loseJob, hnone]
    exact ⟨c, hc, rfl, id, fun _ _ => rfl, fun m hm q hq => absurd hq (by simp [List.mem_singleton.mp hm, hp])⟩
  | some p =>
    have hself (hno : p.wantsOf k = false) : ∃ d, s.ctx? feed = some d ∧ FeedContext.Lost k [n] c d :=
      ⟨c, hc, (FeedContext.SameBut.refl n c).lost hp hno⟩
    simp only [State.loseJob, State.pos?_of_ctx hc hp]
    cases k with
    | landing =>
      simp only
      split
      · next h => exact hself (Bool.not_eq_true' _ ▸ h)
      · split
        · exact State.dropPos_lost hc _
        · obtain ⟨d, q, hd, hsame, hq, hno⟩ := State.loseLanding_ctx hc hp
          exact State.completePos_lost hd hsame hq hno
    | browse =>
      simp only
      split
      · next h => exact hself (Bool.not_eq_true' _ ▸ h)
      · split
        · exact State.dropPos_lost hc _
        · have hd : (s.loseBrowse feed n).ctx? feed
              = some (c.mapPos n (fun q => { q with wantsBrowse := false, browse := none })) :=
            State.ctx?_counted hc (·.mapPos n (fun q => { q with wantsBrowse := false, browse := none })) fun _ => rfl
          exact State.completePos_lost hd (c.sameBut_mapPos n _ fun _ => rfl)
            (FeedContext.pos?_mapPos_self hp _ fun _ => rfl) rfl

theorem State.loseJobs_lost (hc : s.ctx? feed = some c) (k : WorkKind) (l : List Nat) :
    ∃ d, (l.foldl (fun s q => s.loseJob feed k q) s).ctx? feed = some d ∧ FeedContext.Lost k l c d := by
  induction l generalizing s c with
  | nil => exact ⟨c, hc, .refl k c⟩
  | cons n l ih =>
    obtain ⟨d, hd, hlost⟩ := State.loseJob_lost hc k n
    obtain ⟨e, he, hrest⟩ := ih hd
    exact ⟨e, he, hlost.trans hrest⟩

end

theorem State.openedAt_wantsOf (s : State) (feed : Nat) (c : FeedContext) (n : Nat) (k : WorkKind) :
    (s.openedAt feed c n).way = c.wayOf n ∧ (s.openedAt feed c n).wantsOf k = c.wants k n := by
  obtain ⟨-, hway, hland, hbrowse, -⟩ := c.opened_fields s.now (s.now + s.settings.gapWait)
    ((s.entry? feed n).map (·.whole)) n
  cases k
  · exact ⟨hway, hland⟩
  · exact ⟨hway, hbrowse⟩

/-! ### The released way -/

section
variable (c : FeedContext) (k : WorkKind) (w : Way)

theorem FeedContext.markOf_released : (c.released k w).markOf k w = none := by
  cases k <;> simp [FeedContext.released, FeedContext.setMark, FeedContext.markOf, PerWay.get_set]

theorem FeedContext.retainedOf_released (l : WorkKind) (v : Way) :
    (c.released k w).retainedOf l v = if l = k ∧ v = w then c.markOf k w else c.retainedOf l v := by
  cases k <;> cases l <;> simp [FeedContext.released, FeedContext.setMark, FeedContext.setKind,
    FeedContext.setRetained, FeedContext.retainedOf, PerWay.get_set]

theorem FeedContext.retainedOf_reachEnd : c.reachEnd.retainedOf k w = c.retainedOf k w := by
  unfold FeedContext.reachEnd
  split <;> rfl

theorem FeedContext.positions_reachEnd : c.reachEnd.positions = c.positions := by
  unfold FeedContext.reachEnd
  split <;> rfl

theorem FeedContext.markOf_reachEnd_cases : c.reachEnd.markOf k w = c.markOf k w
    ∨ c.reachEnd.markOf k w = c.endMark k w := by
  unfold FeedContext.reachEnd
  split
  · cases k
    · exact .inr (PerWay.get_ofFn ..)
    · exact .inr (PerWay.get_ofFn ..)
  · exact .inl rfl

/-- The mark of a way that is not held is not brought to E. -/
theorem FeedContext.markOf_reachEnd_unheld (h : c.kindOf k w = .unheld) :
    c.reachEnd.markOf k w = c.markOf k w := by
  have hend : c.endMark k w = c.markOf k w := by
    simp [FeedContext.endMark, FeedContext.holds, h]
  exact (c.markOf_reachEnd_cases k w).elim id (·.trans hend)

end

/-- The release of a triple (R44): the way is held no more, its mark is retained, and no position of it wants the
job. -/
theorem State.releaseTriple_ctx {s : State} {x : Triple} {c : FeedContext} (hwindows : s.WindowsOk)
    (hc : s.ctx? x.feed = some c) :
    ∃ d, (s.releaseTriple x).ctx? x.feed = some d ∧ (∀ l v, d.kindOf l v = (c.released x.kind x.way).kindOf l v)
      ∧ d.markOf x.kind x.way = none ∧ (∀ l v, d.retainedOf l v = (c.released x.kind x.way).retainedOf l v)
      ∧ ∀ p ∈ d.positions, p.way = x.way → p.wantsOf x.kind = false := by
  rw [State.releaseTriple_eq hc]
  have hgo : (s.letGo x).ctx? x.feed = some (c.released x.kind x.way) := by
    rw [s.ctx?_letGo, hc]
    simp
  obtain ⟨e, he, hlost⟩ := State.loseJobs_lost hgo x.kind ((c.positions.filter (fun p => p.way == x.way)).map (·.seq))
  obtain ⟨y, d, hd, hwindow, hend⟩ := State.ctx?_afterMarks he true
  have hkind (l : WorkKind) (v : Way) : e.reachEnd.kindOf l v = (c.released x.kind x.way).kindOf l v :=
    (e.kindOf_reachEnd l v).trans (FeedContext.of_bare hlost.bare (·.kindOf l v) fun _ => by cases l <;> rfl)
  have hunheld : e.kindOf x.kind x.way = .unheld := by
    rw [← e.kindOf_reachEnd, hkind, c.kindOf_released, if_pos ⟨rfl, rfl⟩]
  have hmark : e.reachEnd.markOf x.kind x.way = none := by
    rw [e.markOf_reachEnd_unheld _ _ hunheld, ← c.markOf_released x.kind x.way]
    exact FeedContext.of_bare hlost.bare (·.markOf x.kind x.way) fun _ => by cases x.kind <;> rfl
  have hretained (l : WorkKind) (v : Way) : e.reachEnd.retainedOf l v = (c.released x.kind x.way).retainedOf l v :=
    (e.retainedOf_reachEnd l v).trans (FeedContext.of_bare hlost.bare (·.retainedOf l v) fun _ => by cases l <;> rfl)
  have hread {α : Type} (f : FeedContext → α) (hf : ∀ z : FeedContext, f z = f z.bare)
      (hstate : ∀ z : FeedContext, f { z with state := .final } = f z) : f d = f e.reachEnd := by
    rw [← FeedContext.of_bare hwindow.bare f hf]
    obtain ⟨hb, -⟩ | ⟨hb, -⟩ := hend
    · exact FeedContext.of_bare hb f hf
    · exact (FeedContext.of_bare hb f hf).trans (hstate y)
  refine ⟨d, hd, fun l v => ?_, ?_, fun l v => ?_, fun p hp hway => ?_⟩
  · exact (hread (·.kindOf l v) (fun _ => by cases l <;> rfl) fun _ => by cases l <;> rfl).trans (hkind l v)
  · exact (hread (·.markOf x.kind x.way) (fun _ => by cases x.kind <;> rfl) fun _ => by cases x.kind <;> rfl).trans hmark
  · exact (hread (·.retainedOf l v) (fun _ => by cases l <;> rfl) fun _ => by cases l <;> rfl).trans (hretained l v)
  · obtain ⟨-, hpositions, -⟩ | ⟨-, hnil, -⟩ := hend
    · have hordered : (c.positions.map (·.seq)).Pairwise (· < ·) :=
        (hwindows c (List.mem_of_find?_eq_some hc)).1
      have hreleased : (c.released x.kind x.way).positions = c.positions := by cases x.kind <;> rfl
      have hlostOrdered := e.positions_reachEnd ▸ hlost.ordered (hreleased ▸ hordered)
      have hpos : y.pos? p.seq = some p :=
        FeedContext.pos?_of_mem (hwindow.ordered hlostOrdered) (hpositions ▸ hp)
      cases hkept : (e.reachEnd.without e.reachEnd.overdue).pos? p.seq with
      | none =>
        obtain ⟨-, hopened⟩ := hwindow.opened _ p hkept hpos
        obtain ⟨hwayOf, hwants⟩ := State.openedAt_wantsOf _ x.feed e.reachEnd p.seq x.kind
        rw [← hopened] at hwayOf hwants
        have hheld : e.reachEnd.holds x.kind (e.reachEnd.wayOf p.seq) = false := by
          simp [FeedContext.holds, ← hwayOf, hway, e.kindOf_reachEnd, hunheld]
        rw [hwants, FeedContext.wants, hheld, Bool.false_and]
      | some q =>
        obtain rfl : q = p := Option.some.inj ((hwindow.kept _ q hkept).symm.trans hpos)
        have hq : e.pos? q.seq = some q := by
          rw [FeedContext.pos?_without] at hkept
          split at hkept
          · cases hkept
          · simpa only [FeedContext.pos?, e.positions_reachEnd] using hkept
        by_cases hmem : q.seq ∈ (c.positions.filter (fun p => p.way == x.way)).map (·.seq)
        · exact hlost.lost _ hmem q hq
        · rw [hlost.others _ hmem] at hq
          have hqc : q ∈ c.positions := hreleased ▸ FeedContext.pos?_mem hq
          exact absurd (List.mem_map_of_mem (List.mem_filter.mpr ⟨hqc, by simpa using hway⟩)) hmem
    · rw [hnil] at hp
      cases hp

end Sys2Proof.Machine
end

