-- ==== Sys2Proof/Proofs/Taken.lean ====
section
/-! BEACON (R32 to R37, R44 to R47, R133 to R136): what becomes of a received beacon, the commits computed
again, and the release of an adopted triple. -/

namespace Sys2Proof.Machine

/-! ### The entry of a beacon in the Peer Table (R33) -/

/-- In a table of ascending numbers the entry put in is found under its number, and every other as before. -/
theorem find?_insertPeer (p : PeerEntry) (n : Nat) : ∀ {l : List PeerEntry},
    (l.map (·.number)).Pairwise (· < ·) →
    (insertPeer p l).find? (fun q => q.number == n) = if n = p.number then some p else l.find? (fun q => q.number == n)
  | [], _ => by
    simp only [insertPeer, List.find?_cons, List.find?_nil]
    by_cases h : n = p.number
    · simp [h]
    · simp only [beq_false_of_ne (Ne.symm h), if_neg h]
  | q :: l, hl => by
    obtain ⟨hq, hl⟩ := List.pairwise_cons.mp hl
    have ih := find?_insertPeer p n hl
    unfold insertPeer
    split
    · next hlt =>
      by_cases h : n = p.number
      · simp [h]
      · simp [h, Ne.symm h]
    · split
      · next hne heq =>
        have heq : q.number = p.number := by simpa using heq
        by_cases h : n = p.number
        · simp [h]
        · simp [h, Ne.symm h, heq]
      · next hle hne =>
        have hne : q.number ≠ p.number := by simpa using hne
        by_cases h : n = p.number
        · subst h
          simpa [hne] using ih
        · simp only [List.find?_cons, ih, if_neg h]

theorem State.peer?_takeBeacon {s : State} (hs : s.PeersOk) (b : PeerBeacon) (n : Nat) :
    (s.takeBeacon b).peer? n = if n = b.number then some (b.entry s.now) else s.peer? n := by
  have hpeers : (s.takeBeacon b).peers = insertPeer (b.entry s.now) s.peers :=
    congrArg (·.2.2) (s.base_takeBeacon b)
  unfold State.peer?
  rw [hpeers]
  exact find?_insertPeer _ n hs.1

theorem State.learnRecord_outer (s : State) (q : FeedRecord) : s.SameOuter (s.learnRecord q) := by
  unfold State.learnRecord State.learnOpen
  repeat' split
  all_goals first
    | exact .refl s
    | exact State.SameOuter.trans (t := s.addCtx _) ⟨rfl, rfl⟩ (s.frame_createContext ..).outer
    | exact (s.frame_mapCtx ..).outer
    | exact (s.frame_takeEnd? ..).outer
    | exact (s.frame_abortContext ..).outer

theorem State.learn_outer (s : State) (b : PeerBeacon) : s.SameOuter (s.learn b) := by
  unfold State.learn
  split
  · exact .foldl (fun t q => t.learnRecord_outer q) s
  · exact .refl s

theorem State.takeBeacon_outer (s : State) (b : PeerBeacon) : (s.updatePeer b).SameOuter (s.takeBeacon b) := by
  unfold State.takeBeacon
  simp only
  split
  · exact ((s.updatePeer b).learn_outer b).trans (State.beaconRest_outer _)
  · exact (State.frame_recomputeCommits _).outer

theorem State.takeBeacon_listening {s : State} (h : s.station = .listening) (b : PeerBeacon) :
    s.takeBeacon b = (s.updatePeer b).recomputeCommits := by
  have hst : (s.updatePeer b).station = .listening := h
  simp [State.takeBeacon, hst]

theorem State.takeBeacon_live {s : State} (h : s.station = .live) (b : PeerBeacon) :
    s.takeBeacon b = ((s.updatePeer b).learn b).beaconRest := by
  have hst : (s.updatePeer b).station = .live := h
  simp [State.takeBeacon, hst, State.beaconRest]

/-! ### The commits recomputed (R135, R136) -/

theorem State.peers_recomputeCommit (s : State) (feed : Nat) : (s.recomputeCommit feed).peers = s.peers :=
  congrArg (·.2.2) (s.frame_recomputeCommit feed).base

/-- The commits of other feeds recomputed leave a context. -/
theorem State.ctx?_commits_of_notMem {feed : Nat} {l : List Nat} (h : feed ∉ l) (s : State) :
    (l.foldl (fun s f => s.recomputeCommit f) s).ctx? feed = s.ctx? feed :=
  foldl_keeps (I := fun t : State => t.ctx? feed = s.ctx? feed)
    (fun t f hf ht => ((t.touch_recomputeCommit f).1 feed (ne_of_mem_of_not_mem hf h).symm).trans ht) rfl

/-- Each context's commit is recomputed once. -/
theorem State.commitTaken_foldl {feed : Nat} {c : FeedContext} {l : List Nat} {s : State} (hl : l.Nodup)
    (hmem : feed ∈ l) (hc : s.ctx? feed = some c) :
    ∃ d, (l.foldl (fun s f => s.recomputeCommit f) s).ctx? feed = some d ∧ s.CommitTaken c d := by
  induction l generalizing s with
  | nil => cases hmem
  | cons g l ih =>
    obtain ⟨hg, hl⟩ := List.nodup_cons.mp hl
    rw [List.foldl_cons]
    by_cases h : feed = g
    · subst h
      obtain ⟨m, b, hd, hraised, hkept⟩ := State.ctx?_recomputeCommit hc
      refine ⟨_, (State.ctx?_commits_of_notMem hg _).trans hd, ?_⟩
      exact ⟨hraised, hkept⟩
    · have hc' : (s.recomputeCommit g).ctx? feed = some c := ((s.touch_recomputeCommit g).1 feed h).trans hc
      obtain ⟨d, hd, hraised, hkept⟩ := ih hl ((List.mem_cons.mp hmem).resolve_left h) hc'
      have hsame : (s.recomputeCommit g).computedCommit c = s.computedCommit c :=
        State.computedCommit_congr (s.peers_recomputeCommit g) rfl rfl rfl rfl rfl
      exact ⟨d, hd, fun hcomp => hsame ▸ hraised hcomp, hkept⟩

theorem State.ctx?_recomputeCommits {s : State} {feed : Nat} {c : FeedContext} (htable : s.TableOk)
    (hc : s.ctx? feed = some c) : ∃ d, s.recomputeCommits.ctx? feed = some d ∧ s.CommitTaken c d := by
  have hmem : feed ∈ s.feeds := List.mem_map.mpr ⟨c, List.mem_of_find?_eq_some hc, s.ctx?_feed hc⟩
  exact State.commitTaken_foldl (htable.1.imp fun h => Nat.ne_of_lt h) hmem hc

/-! ### A beacon received -/

theorem State.receiveBeacon_own {s : State} {body : List Byte} {b : PeerBeacon} (hb : parseBeacon body = some b)
    (h : b.number = s.settings.station) : s.receiveBeacon body = { s with dupNumber := true } := by
  simp [State.receiveBeacon, hb, h]

theorem State.receiveBeacon_other {s : State} {body : List Byte} {b : PeerBeacon} (hb : parseBeacon body = some b)
    (h : b.number ≠ s.settings.station) : s.receiveBeacon body = s.takeBeacon b := by
  simp [State.receiveBeacon, hb, h]

/-- Settles O25: the beacon by what its parse gives, the commits context by context, and the release of the one
triple by `State.releaseTriple_ctx`. -/
theorem beaconTaken : Obligations.BeaconTaken := by
  refine ⟨fun s f hpeers hh => ?_, State.computedCommit_rule, fun s feed c htable hc =>
    State.ctx?_recomputeCommits htable hc, fun s x c _ hwindows hadopted hc => ⟨fun hno => ?_, fun hrel => ?_⟩⟩
  · have hexec : exec (.beacon f) s = .next (s.receiveBeacon f.body) := by
      rw [exec_receive (f := f) (by simp [receiveCommands]), State.receiveFrame_beacon hh]
    rw [hexec]
    refine ⟨fun hnone => by simp only [State.receiveBeacon, hnone], fun b hb => ⟨fun hown => ?_, fun hother => ?_⟩⟩
    · rw [State.receiveBeacon_own hb hown]
    · rw [State.receiveBeacon_other hb hother]
      have houter := s.takeBeacon_outer b
      refine ⟨_, rfl, ?_, fun n hn => ?_, houter.observe (·.dupNumber) fun _ => rfl,
        houter.observe (·.counters) fun _ => rfl, fun hlistening => ?_, fun hlive => ?_⟩
      · rw [State.peer?_takeBeacon hpeers, if_pos rfl]
        rfl
      · rw [State.peer?_takeBeacon hpeers, if_neg hn]
      · have heq := State.takeBeacon_listening hlistening b
        have hframe := State.frame_recomputeCommits (s.updatePeer b)
        rw [heq]
        exact ⟨hframe.2.1, hframe.adopted, rfl⟩
      · exact State.takeBeacon_live hlive b
  · rw [State.releaseTests_one hadopted, if_neg (mt (State.releasable_iff hc).mp hno)]
  · rw [State.releaseTests_one hadopted, if_pos ((State.releasable_iff hc).mpr hrel)]
    obtain ⟨d, hd, hkind, hmark, hretained, hjobs⟩ := State.releaseTriple_ctx hwindows hc
    refine ⟨by simp [(s.releaseTriple_frame x).2.2, hadopted], d, hd, ?_, hmark, ?_, fun k w hother => ⟨?_, ?_⟩,
      fun p hp hway => ⟨fun hk => ?_, fun hk => ?_⟩⟩
    · rw [hkind, c.kindOf_released, if_pos ⟨rfl, rfl⟩]
    · rw [hretained, c.retainedOf_released, if_pos ⟨rfl, rfl⟩]
    · rw [hkind, c.kindOf_released, if_neg hother]
    · rw [hretained, c.retainedOf_released, if_neg hother]
    · simpa only [hk, Position.wantsOf] using hjobs p hp hway
    · simpa only [hk, Position.wantsOf] using hjobs p hp hway

end Sys2Proof.Machine
end

