-- ==== Sys2Proof/Proofs/Shapes.lean ====
section
/-! Which windows are built (R71, R183): work on positions, the commit and the search for orphans leave every
window built that is, but for a context that is FINAL then. -/

namespace Sys2Proof.Machine

/-- A context's feed, its state, and whether its window is built. -/
def FeedContext.shape (c : FeedContext) : Nat × CtxState × Bool := (c.feed, c.state, c.windowBuilt)

/-- The shapes of the Feed Context Table. -/
def State.shapes (s : State) : List (Nat × CtxState × Bool) := s.contexts.map FeedContext.shape

/-- Nothing of the shapes changed. -/
def State.Shaped (s t : State) : Prop := t.shapes = s.shapes

theorem State.Shaped.refl (s : State) : s.Shaped s := rfl

theorem State.Shaped.trans {s t u : State} (h : s.Shaped t) (k : t.Shaped u) : s.Shaped u := Eq.trans k h

theorem State.Shaped.of_eq {s t : State} (h : t.contexts = s.contexts) : s.Shaped t := by
  simp only [State.Shaped, State.shapes, h]

theorem State.Shaped.foldl {α : Type} {f : State → α → State} (h : ∀ (s : State) (a : α), s.Shaped (f s a))
    (l : List α) (s : State) : s.Shaped (l.foldl f s) :=
  foldl_keeps (I := fun t => s.Shaped t) (fun t a _ ht => ht.trans (h t a)) (.refl s)

theorem State.Shaped.mapCtx (s : State) (feed : Nat) {f : FeedContext → FeedContext}
    (hf : ∀ c, (f c).shape = c.shape) : s.Shaped (s.mapCtx feed f) := by
  simp only [State.Shaped, State.shapes, State.mapCtx, List.map_map]
  refine List.map_congr_left fun c _ => ?_
  simp only [Function.comp]
  split
  · exact hf c
  · rfl

theorem State.Shaped.mapPos (s : State) (feed n : Nat) (g : Position → Position) : s.Shaped (s.mapPos feed n g) :=
  .mapCtx s feed fun _ => rfl

section
variable (s : State) (feed n : Nat)

theorem State.shaped_handOverChunk (h : ChunkHeader) : s.Shaped (s.handOverChunk feed n h) := by
  have hlatch (t : State) : t.Shaped (t.latchOverrun feed h) :=
    .mapCtx t feed fun c => by split <;> rfl
  unfold State.handOverChunk
  split
  · exact .refl s
  · simp only
    split
    · exact .refl s
    · split
      · exact (State.Shaped.of_eq rfl).trans (hlatch _)
      · exact (State.Shaped.of_eq rfl).trans (hlatch _)

theorem State.shaped_takeChunk (h : ChunkHeader) : s.Shaped (s.takeChunk feed n h) := by
  have hpinned : s.Shaped (s.chunkPinned feed n) :=
    (State.Shaped.mapPos s feed n (Position.taken s.now)).trans (.of_eq rfl)
  unfold State.takeChunk
  split
  · exact .refl s
  · simp only
    split
    · exact hpinned.trans (State.shaped_handOverChunk _ feed n h)
    · exact hpinned

theorem State.shaped_lookup : s.Shaped (s.lookup feed n) := by
  unfold State.lookup
  split
  · exact .mapPos s feed n _
  · split
    · exact s.shaped_takeChunk feed n _
    · exact .mapPos s feed n _

theorem State.shaped_gapTestAt : s.Shaped (s.gapTestAt feed n) := by
  unfold State.gapTestAt
  split
  · exact .mapCtx s feed fun _ => rfl
  · exact .refl s

theorem State.shaped_createPos : s.Shaped (s.createPos feed n) := by
  unfold State.createPos
  split
  · exact .refl s
  · split
    · refine State.Shaped.trans ?_ (State.shaped_gapTestAt _ feed n)
      refine State.Shaped.trans ?_ (State.shaped_lookup _ feed n)
      exact .mapCtx s feed fun _ => rfl
    · exact .refl s

theorem State.shaped_fillSpan : s.Shaped (s.fillSpan feed) := by
  unfold State.fillSpan
  split
  · exact .refl s
  · split
    · split
      · exact .refl s
      · exact .foldl (fun t m => t.shaped_createPos feed m) _ s
    · exact .refl s

theorem State.shaped_dropPositions (l : List Nat) : s.Shaped (s.dropPositions feed l) :=
  .foldl (fun t m => (State.Shaped.mapCtx t feed (f := (·.without [m])) fun _ => rfl).trans
    (.of_eq (t.dropPos_contexts feed m))) l s

theorem State.shaped_refreshWindow : s.Shaped (s.refreshWindow feed) := by
  have htrim : s.Shaped (s.trim feed) := by
    unfold State.trim
    split
    · exact .refl s
    · exact s.shaped_dropPositions feed _
  exact htrim.trans (State.shaped_fillSpan _ feed)

theorem State.shaped_markFallsDue : s.Shaped (s.markFallsDue feed) := by
  unfold State.markFallsDue
  repeat' split
  all_goals first
    | exact .refl s
    | exact .mapCtx s feed fun _ => rfl

theorem State.shaped_recomputeCommit : s.Shaped (s.recomputeCommit feed) := by
  have hpace (t : State) : t.Shaped (t.paceTest feed) := by
    unfold State.paceTest
    split
    · exact .refl t
    · split
      · exact t.shaped_markFallsDue feed
      · exact .refl t
  unfold State.recomputeCommit
  split
  · exact .refl s
  · simp only
    split
    · refine State.Shaped.trans ?_ (hpace _)
      exact .mapCtx s feed fun _ => rfl
    · exact .refl s

theorem State.shaped_recomputeCommits : s.Shaped s.recomputeCommits :=
  .foldl (fun t f => t.shaped_recomputeCommit f) _ s

theorem State.shaped_handOverChunkless : s.Shaped (s.handOverChunkless feed n) := .of_eq (by
  unfold State.handOverChunkless
  repeat' split
  all_goals rfl)

theorem State.shaped_gainJob (k : WorkKind) : s.Shaped (s.gainJob feed k n) := by
  have hland (p : Position) : s.Shaped (s.gainLanding feed n p) := by
    unfold State.gainLanding
    split
    · exact .mapPos s feed n _
    · exact ((State.Shaped.mapPos s feed n _).trans (State.shaped_lookup _ feed n)).trans
        (State.shaped_gapTestAt _ feed n)
  have hbrowse (p : Position) : s.Shaped (s.gainBrowse feed n p) := by
    have hwaits := State.Shaped.mapPos s feed n (fun p => { p with wantsBrowse := true, browse := some .waiting })
    have hpin (t : State) : t.Shaped (t.pin feed n) := .of_eq rfl
    unfold State.gainBrowse
    repeat' (first | split | simp only)
    all_goals first
      | exact hwaits
      | exact hwaits.trans (State.shaped_handOverChunk _ feed n _)
      | exact hwaits.trans (State.shaped_handOverChunkless _ feed n)
      | exact ((hwaits.trans (.mapPos _ feed n _)).trans (hpin _)).trans (State.shaped_handOverChunk _ feed n _)
  unfold State.gainJob
  repeat' split
  all_goals first
    | exact .refl s
    | exact hland _
    | exact hbrowse _

theorem State.shaped_gainJobs (k : WorkKind) (w : Way) : s.Shaped (s.gainJobs feed k w) := by
  unfold State.gainJobs
  split
  · exact .refl s
  · exact .foldl (fun t q => t.shaped_gainJob feed q k) _ s

end

theorem State.Shaped.of_mem {s t : State} (h : s.Shaped t) {d : FeedContext} (hd : d ∈ t.contexts) :
    ∃ c ∈ s.contexts, d.feed = c.feed ∧ d.working = c.working ∧ d.windowBuilt = c.windowBuilt := by
  have hmem : d.shape ∈ s.shapes := h ▸ List.mem_map_of_mem hd
  obtain ⟨c, hc, hshape⟩ := List.mem_map.mp hmem
  simp only [FeedContext.shape, Prod.mk.injEq] at hshape
  obtain ⟨hfeed, hstate, hbuilt⟩ := hshape
  exact ⟨c, hc, hfeed.symm, by simp only [FeedContext.working, hstate], hbuilt.symm⟩

/-! ### Every window built -/

/-- The same feeds have contexts, and every window of a context ACTIVE or CLOSING is built, if it was. -/
structure State.BuiltStill (s t : State) : Prop where
  feeds : t.feeds = s.feeds
  built : (∀ c ∈ s.contexts, c.working = true → c.windowBuilt = true) →
    ∀ c ∈ t.contexts, c.working = true → c.windowBuilt = true

theorem State.BuiltStill.trans {s t u : State} (h : s.BuiltStill t) (k : t.BuiltStill u) : s.BuiltStill u :=
  ⟨k.feeds.trans h.feeds, k.built ∘ h.built⟩

theorem State.Shaped.builtStill {s t : State} (h : s.Shaped t) : s.BuiltStill t := by
  have hfeeds (u : State) : u.feeds = u.shapes.map (·.1) := by
    simp [State.feeds, State.shapes, FeedContext.shape]
  refine ⟨by rw [hfeeds, hfeeds, h], fun hs d hd hw => ?_⟩
  obtain ⟨c, hc, -, hwork, hbuilt⟩ := h.of_mem hd
  rw [hbuilt]
  exact hs c hc (hwork.symm.trans hw)

theorem State.BuiltStill.foldl {α : Type} {f : State → α → State} (h : ∀ (s : State) (a : α), s.BuiltStill (f s a))
    (l : List α) (s : State) : s.BuiltStill (l.foldl f s) :=
  foldl_keeps (I := fun t => s.BuiltStill t) (fun t a _ ht => ht.trans (h t a)) (State.Shaped.refl s).builtStill

section
variable (s : State) (feed : Nat)

/-- Where every context of a feed is FINAL, its windows may be dropped. -/
theorem State.builtStill_dropWindow (h : ∀ c ∈ s.contexts, c.feed = feed → c.working = false) :
    s.BuiltStill (s.dropWindow feed) := by
  unfold State.dropWindow
  split
  · exact (State.Shaped.refl s).builtStill
  · next c _ =>
    have hdrop : s.Shaped ((s.dropPositions feed (c.positions.map (·.seq))).withdrawJobs feed) :=
      (s.shaped_dropPositions feed _).trans (.of_eq rfl)
    generalize (s.dropPositions feed (c.positions.map (·.seq))).withdrawJobs feed = t at hdrop ⊢
    have hstill := hdrop.builtStill
    refine ⟨(State.frame_mapCtx t feed _ fun _ => by rfl).2.1.trans hstill.feeds, fun hs d hd hw => ?_⟩
    obtain ⟨x, hx, rfl⟩ := List.mem_map.mp hd
    by_cases hfeed : x.feed = feed
    · rw [if_pos (by simpa using hfeed)] at hw
      obtain ⟨y, hy, hyfeed, hwork, -⟩ := hdrop.of_mem hx
      exact absurd ((hwork.trans (h y hy (hyfeed.symm.trans hfeed))).symm.trans hw) nofun
    · rw [if_neg (by simpa using hfeed)] at hw ⊢
      exact hstill.built hs x hx hw

/-- The contexts of a feed that is FINAL need no window, and the others keep theirs. -/
theorem State.builtStill_enterFinal : s.BuiltStill (s.enterFinal feed) := by
  have hfinal : s.BuiltStill (s.mapCtx feed (fun c => { c with state := .final })) := by
    refine ⟨(s.frame_mapCtx feed _ fun _ => by rfl).2.1, fun hs d hd hw => ?_⟩
    obtain ⟨c, hc, rfl⟩ := List.mem_map.mp hd
    split at hw
    · cases hw
    · next hne =>
      rw [if_neg hne]
      exact hs c hc hw
  have hover : ∀ c ∈ (s.mapCtx feed (fun c => { c with state := .final })).contexts, c.feed = feed →
      c.working = false := fun d hd hfeed => by
    obtain ⟨c, hc, rfl⟩ := List.mem_map.mp hd
    split
    · rfl
    · next hne =>
      rw [if_neg hne] at hfeed
      exact absurd (by simpa using hfeed) hne
  exact ((hfinal.trans (State.builtStill_dropWindow _ feed hover)).trans
    (State.shaped_recomputeCommit _ feed).builtStill).trans (State.shaped_markFallsDue _ feed).builtStill

theorem State.builtStill_afterMarks (commit : Bool) : s.BuiltStill (s.afterMarks feed commit) := by
  have hreach : s.Shaped (s.mapCtx feed FeedContext.reachEnd) :=
    .mapCtx s feed fun c => by unfold FeedContext.reachEnd; split <;> rfl
  have hfinal (t : State) : t.BuiltStill (t.finalTest feed) := by
    unfold State.finalTest
    split
    · exact (State.Shaped.refl t).builtStill
    · split
      · exact t.builtStill_enterFinal feed
      · exact (State.Shaped.refl t).builtStill
  have hwindow := hreach.trans (State.shaped_refreshWindow _ feed)
  unfold State.afterMarks
  simp only
  split
  · exact (hwindow.trans (State.shaped_recomputeCommit _ feed)).builtStill.trans (hfinal _)
  · exact hwindow.builtStill.trans (hfinal _)

theorem State.builtStill_searchTriple (k : WorkKind) (w : Way) : s.BuiltStill (s.searchTriple feed k w) := by
  unfold State.searchTriple
  split
  · exact (State.Shaped.refl s).builtStill
  · next c hc =>
    split
    · rw [State.adopt_eq hc]
      have hup : s.Shaped (s.takeUp feed k w (s.startMark c k w)) :=
        (State.Shaped.of_eq (t := { s with adopted := s.adopted ++ [Triple.mk feed w k] }) rfl).trans
          (.mapCtx _ feed fun c => by cases k <;> rfl)
      have htrim (t : State) : t.Shaped (t.trim feed) := by
        unfold State.trim
        split
        · exact .refl t
        · exact t.shaped_dropPositions feed _
      exact ((hup.trans (htrim _)).trans (State.shaped_gainJobs _ feed k w)).builtStill.trans
        (State.builtStill_afterMarks _ feed _)
    · exact (State.Shaped.refl s).builtStill

theorem State.builtStill_searchOrphans : s.BuiltStill s.searchOrphans :=
  .foldl (fun t f => .foldl (f := fun (u : State) (wk : Way × WorkKind) => u.searchTriple f wk.2 wk.1)
    (fun u wk => u.builtStill_searchTriple f wk.2 wk.1) waysAndKinds t) s.feeds s

end

/-! ### The windows of some feeds built -/

/-- The windows of the contexts ACTIVE or CLOSING of some feeds are built. -/
def State.BuiltFor (s : State) (fs : Nat → Prop) : Prop :=
  ∀ c ∈ s.contexts, c.working = true → fs c.feed → c.windowBuilt = true

theorem State.BuiltFor.shaped {s t : State} {fs : Nat → Prop} (hs : s.BuiltFor fs) (h : s.Shaped t) : t.BuiltFor fs :=
  fun d hd hw hf => by
    obtain ⟨c, hc, hfeed, hwork, hbuilt⟩ := h.of_mem hd
    rw [hbuilt]
    exact hs c hc (hwork.symm.trans hw) (hfeed ▸ hf)

theorem State.BuiltFor.updateWindow {s : State} {fs : Nat → Prop} (hs : s.BuiltFor fs) (feed : Nat) :
    (s.updateWindow feed).BuiltFor (fun g => g = feed ∨ fs g) := by
  have hlook : s.Shaped (s.lookAgain feed) := by
    unfold State.lookAgain
    split
    · exact .refl s
    · exact .foldl (fun t q => t.shaped_lookup feed q) _ s
  have hgap (t : State) : t.Shaped (t.gapTest feed) := by
    unfold State.gapTest
    split
    · exact .mapCtx t feed fun _ => rfl
    · exact .refl t
  have hbuild : ((s.lookAgain feed).mapCtx feed
      (fun c => if c.working then { c with windowBuilt := true } else c)).BuiltFor (fun g => g = feed ∨ fs g) := by
    intro d hd hw hf
    obtain ⟨c, hc, rfl⟩ := List.mem_map.mp hd
    by_cases hfeed : c.feed = feed
    · rw [if_pos (by simpa using hfeed)] at hw ⊢
      dsimp only at hw ⊢
      split at hw
      · next h => rw [if_pos h]
      · next h => exact absurd hw h
    · rw [if_neg (by simpa using hfeed)] at hw hf ⊢
      exact hs.shaped hlook c hc hw (hf.resolve_left hfeed)
  exact (hbuild.shaped (State.shaped_refreshWindow _ feed)).shaped (hgap _)

theorem State.builtFor_updateWindows (l : List Nat) {s : State} {fs : Nat → Prop} (hs : s.BuiltFor fs) :
    (l.foldl (fun s f => s.updateWindow f) s).BuiltFor (fun g => g ∈ l ∨ fs g) := by
  induction l generalizing s fs with
  | nil => exact fun c hc hw hf => hs c hc hw (hf.resolve_left List.not_mem_nil)
  | cons f l ih =>
    refine fun c hc hw hf => ih (hs.updateWindow f) c hc hw ?_
    rcases hf with hf | hf
    · rcases List.mem_cons.mp hf with hf | hf
      · exact .inr (.inl hf)
      · exact .inl hf
    · exact .inr (.inr hf)

end Sys2Proof.Machine
end

