-- ==== Sys2Proof/Proofs/GoLive.lean ====
section
/-! The move to LIVE (R91, R183): each window brought up to date. -/

namespace Sys2Proof.Machine

/-! ### What a lookup makes of a window -/

section
variable {s : State} {feed n : Nat} {c : FeedContext}

/-- Of a context a hand-over changes the flags alone. -/
theorem State.ctx?_handOverChunk (hc : s.ctx? feed = some c) (n : Nat) (h : ChunkHeader) :
    ∃ f, (s.handOverChunk feed n h).ctx? feed = some { c with flags := f } := by
  have hlatch {t : State} (ht : t.contexts = s.contexts) :
      ∃ f, (t.latchOverrun feed h).ctx? feed = some { c with flags := f } := by
    have hmap := State.ctx?_counted ((State.ctx?_of_contexts ht feed).trans hc)
      (fun c => if c.overruns h then c.latchBrowseOverrun else c) fun c => by split <;> rfl
    by_cases ho : c.overruns h = true
    · exact ⟨_, hmap.trans (by rw [if_pos ho]; rfl)⟩
    · exact ⟨c.flags, hmap.trans (by rw [if_neg ho])⟩
  simp only [State.handOverChunk, hc]
  split
  · exact ⟨c.flags, hc⟩
  · split
    · exact hlatch rfl
    · exact hlatch rfl

theorem FeedContext.mapPos_of_none (h : c.pos? n = none) (g : Position → Position) : c.mapPos n g = c := by
  have hsame : c.positions.map (fun p => if p.seq == n then g p else p) = c.positions := by
    refine (List.map_congr_left fun p hp => ?_).trans (List.map_id _)
    rw [if_neg (by simpa using (c.pos?_none_iff n).mp h p hp)]
    rfl
  simp only [FeedContext.mapPos, hsame]

/-- A lookup, position by position. -/
theorem State.ctx?_lookup (hc : s.ctx? feed = some c) (n : Nat) :
    ∃ f, (s.lookup feed n).ctx? feed
      = some { c.mapPos n (Position.looked s.now ((s.entry? feed n).map (·.whole))) with flags := f } := by
  unfold State.lookup
  cases he : s.entry? feed n with
  | none => exact ⟨c.flags, State.ctx?_counted hc (·.mapPos n _) fun _ => rfl⟩
  | some e =>
    cases hw : e.whole with
    | false =>
      simp only [Option.map_some, hw, Bool.false_eq_true, if_false]
      exact ⟨c.flags, State.ctx?_counted hc (·.mapPos n _) fun _ => rfl⟩
    | true =>
      simp only [Option.map_some, hw, if_true]
      cases hp : c.pos? n with
      | none =>
        have hnone : s.pos? feed n = none := by simp [State.pos?, hc, hp]
        simp only [State.takeChunk, hnone, FeedContext.mapPos_of_none hp]
        exact ⟨c.flags, hc⟩
      | some p =>
        have htaken : (s.chunkPinned feed n).ctx? feed = some (c.mapPos n (Position.taken s.now)) :=
          State.ctx?_counted hc (·.mapPos n (Position.taken s.now)) fun _ => rfl
        simp only [State.takeChunk, State.pos?_of_ctx hc hp]
        split
        · exact State.ctx?_handOverChunk htaken n e.hdr
        · exact ⟨_, htaken⟩

end

/-- A position as a list of lookups leaves it. -/
def Position.lookedIn (now : Nat) (found : Nat → Option Bool) (l : List Nat) (p : Position) : Position :=
  l.foldl (fun p q => if p.seq == q then p.looked now (found q) else p) p

section
variable (now : Nat) (found : Nat → Option Bool) (p : Position)

theorem Position.looked_seq (b : Option Bool) : (p.looked now b).seq = p.seq := by
  rcases b with _ | _ | _ <;> rfl

theorem Position.looked_gapWait (b : Option Bool) (h : p.gapWait = none) : (p.looked now b).gapWait = none := by
  rcases b with _ | _ | _
  · exact h
  · exact h
  · rfl

theorem Position.lookedIn_cons (q : Nat) (l : List Nat) : p.lookedIn now found (q :: l)
    = (if p.seq == q then p.looked now (found q) else p).lookedIn now found l := rfl

theorem Position.lookedIn_seq (l : List Nat) : (p.lookedIn now found l).seq = p.seq :=
  foldl_keeps (I := fun x : Position => x.seq = p.seq)
    (fun x q _ hx => by split; exacts [(x.looked_seq now _).trans hx, hx]) rfl

theorem Position.lookedIn_gapWait (l : List Nat) (h : p.gapWait = none) : (p.lookedIn now found l).gapWait = none :=
  foldl_keeps (I := fun x : Position => x.gapWait = none)
    (fun x q _ hx => by split; exacts [x.looked_gapWait now _ hx, hx]) h

theorem Position.lookedIn_of_notMem {l : List Nat} (h : p.seq ∉ l) : p.lookedIn now found l = p :=
  foldl_keeps (I := fun x : Position => x = p)
    (fun x q hq hx => by
      subst hx
      rw [if_neg]
      rintro heq
      exact h (beq_iff_eq.mp heq ▸ hq)) rfl

/-- The last lookup at its sequence number makes of a position what it is. -/
theorem Position.lookedIn_of_mem {l : List Nat} (h : p.seq ∈ l) :
    ∃ o : Position, o.seq = p.seq ∧ p.lookedIn now found l = o.looked now (found p.seq) := by
  induction l generalizing p with
  | nil => cases h
  | cons q l ih =>
    rw [Position.lookedIn_cons]
    have hseq : (if p.seq == q then p.looked now (found q) else p).seq = p.seq := by
      split
      · exact p.looked_seq now _
      · rfl
    by_cases hl : p.seq ∈ l
    · obtain ⟨o, ho, heq⟩ := ih _ (hseq.symm ▸ hl)
      exact ⟨o, ho.trans hseq, heq.trans (by rw [hseq])⟩
    · obtain rfl := (List.mem_cons.mp h).resolve_right hl
      refine ⟨p, rfl, ?_⟩
      rw [Position.lookedIn_of_notMem _ _ _ (hseq.symm ▸ hl), if_pos (beq_self_eq_true _)]

end

section
variable {s : State} {feed : Nat} {c : FeedContext}

/-- Whether the ring has an entry of a chunk of a feed, and a WHOLE one. -/
def State.found (s : State) (feed n : Nat) : Option Bool := (s.entry? feed n).map (·.whole)

theorem State.found_lookup (s : State) (feed q : Nat) : (s.lookup feed q).found feed = s.found feed :=
  funext fun n => State.found_of_chunks (s.frame_lookup feed q).2.2 feed n

theorem State.ctx?_lookups (hc : s.ctx? feed = some c) (l : List Nat) :
    ∃ f, (l.foldl (fun s q => s.lookup feed q) s).ctx? feed
      = some { c with positions := c.positions.map (Position.lookedIn s.now (s.found feed) l), flags := f } := by
  induction l generalizing s c with
  | nil =>
    refine ⟨c.flags, hc.trans ?_⟩
    have hid : c.positions.map (Position.lookedIn s.now (s.found feed) []) = c.positions := List.map_id _
    rw [hid]
  | cons q l ih =>
    obtain ⟨f, hd⟩ := State.ctx?_lookup hc q
    obtain ⟨f', he⟩ := ih hd
    have hnow : (s.lookup feed q).now = s.now := (s.frame_lookup feed q).observe (·.now) fun _ => rfl
    refine ⟨f', he.trans ?_⟩
    simp only [hnow, s.found_lookup, FeedContext.mapPos, List.map_map]
    rfl

/-- The sequence numbers whose positions look up the ring again. -/
def FeedContext.empties (c : FeedContext) : List Nat := (c.positions.filter Position.empty).map (·.seq)

theorem State.ctx?_lookAgain (hc : s.ctx? feed = some c) :
    ∃ f, (s.lookAgain feed).ctx? feed
      = some { c with
          positions := c.positions.map (Position.lookedIn s.now (s.found feed) c.empties), flags := f } := by
  simp only [State.lookAgain, hc]
  exact State.ctx?_lookups hc _

/-- What a lookup makes of a position (R78). -/
theorem State.lookedUp_looked (s : State) (feed : Nat) (o : Position) :
    s.LookedUp feed (o.looked s.now (s.found feed o.seq)) := by
  unfold State.LookedUp State.found
  rw [o.looked_seq]
  cases he : s.entry? feed o.seq with
  | none => exact ⟨fun _ => ⟨rfl, rfl⟩, nofun⟩
  | some e =>
    refine ⟨nofun, fun e' he' => ?_⟩
    obtain rfl := Option.some.inj he'
    cases hw : e.whole with
    | false =>
      rw [Option.map_some, hw]
      exact ⟨fun _ => ⟨rfl, rfl⟩, nofun⟩
    | true =>
      rw [Option.map_some, hw]
      refine ⟨nofun, fun _ => ⟨rfl, rfl, rfl, rfl, fun hwants => ?_⟩⟩
      have hland : o.wantsLand = true := hwants
      simp only [Position.looked, Position.taken, hland, Bool.true_or, if_true]

/-! ### The positions of a window recomputed -/

/-- A creation leaves the other positions. -/
theorem State.ctx?_createPos (hrun : s.windowsRun = true) (hc : s.ctx? feed = some c) (n : Nat) :
    ∃ ps f, (s.createPos feed n).ctx? feed = some { c with positions := ps, flags := f }
      ∧ ∀ p ∈ ps, p ∈ c.positions ∨ (c.callsFor n = true ∧ c.pos? n = none ∧ p = s.openedAt feed c n) := by
  by_cases h : c.callsFor n = true ∧ c.pos? n = none
  · obtain ⟨hcall, hnone⟩ := h
    have hnew : (s.mapCtx feed (·.withNew n)).ctx? feed = some (c.withNew n) :=
      State.ctx?_counted hc (·.withNew n) fun _ => rfl
    obtain ⟨f, hlooked⟩ := State.ctx?_lookup hnew n
    rw [State.createPos_eq hc hcall hnone]
    have hframe := State.frame_lookup (s.mapCtx feed (·.withNew n)) feed n
    have hrun' : ((s.mapCtx feed (·.withNew n)).lookup feed n).windowsRun = true :=
      (hframe.observe (·.windowsRun) fun _ => rfl).trans hrun
    have hnow : ((s.mapCtx feed (·.withNew n)).lookup feed n).now = s.now := hframe.observe (·.now) fun _ => rfl
    have hset : ((s.mapCtx feed (·.withNew n)).lookup feed n).settings = s.settings :=
      hframe.observe (·.settings) fun _ => rfl
    generalize (s.mapCtx feed (·.withNew n)).lookup feed n = u at *
    simp only [State.gapTestAt, hrun', if_true, hnow, hset]
    refine ⟨_, f, State.ctx?_counted hlooked (fun x => x.mapPos n (x.startWait (s.now + s.settings.gapWait)))
      fun _ => rfl, fun p hp => ?_⟩
    simp only [FeedContext.mapPos, List.map_map] at hp
    obtain ⟨q, hq, rfl⟩ := List.mem_map.mp hp
    rcases mem_insertPos.mp hq with rfl | hq
    · refine .inr ⟨hcall, hnone, ?_⟩
      have hseq : (c.newPosition n).seq = n := rfl
      simp only [Function.comp, hseq, beq_self_eq_true, if_true, Position.looked_seq]
      exact FeedContext.startWait_congr rfl _ _
    · have hne : q.seq ≠ n := (c.pos?_none_iff n).mp hnone q hq
      left
      simpa [Function.comp, hne] using hq
  · refine ⟨c.positions, c.flags, ?_, fun p hp => .inl hp⟩
    rw [State.createPos_of_not]
    · exact hc
    · intro d hd hcall hnone
      obtain rfl := Option.some.inj (hc.symm.trans hd)
      exact h ⟨hcall, hnone⟩

/-- From `s`, where the window of the feed is that of `c`, to `t` positions are created. -/
structure State.Creates (feed : Nat) (c : FeedContext) (s t : State) : Prop where
  outer : s.SameOuter t
  ctx : ∃ ps f, t.ctx? feed = some { c with positions := ps, flags := f }
    ∧ c.Filled { c with positions := ps, flags := f }
    ∧ ∀ p ∈ ps, p ∈ c.positions ∨ ∃ n, c.callsFor n = true ∧ c.pos? n = none ∧ p = s.openedAt feed c n

theorem State.Creates.refl (hc : s.ctx? feed = some c) : State.Creates feed c s s :=
  ⟨.refl s, c.positions, c.flags, hc, .refl c, fun _ hp => .inl hp⟩

theorem State.Creates.createPos {t : State} (hrun : s.windowsRun = true) (h : State.Creates feed c s t) (n : Nat) :
    State.Creates feed c s (t.createPos feed n) := by
  obtain ⟨houter, ps, f, hd, hfill, hmem⟩ := h
  have hrun' : t.windowsRun = true := (houter.observe (·.windowsRun) fun _ => rfl).trans hrun
  obtain ⟨qs, g, he, hnew⟩ := State.ctx?_createPos hrun' hd n
  obtain ⟨e, he', hfill'⟩ := State.createPos_filled hd n
  obtain rfl := Option.some.inj (he'.symm.trans he)
  refine ⟨houter.trans (t.frame_createPos feed n).outer, qs, g, he, hfill.trans hfill', fun p hp => ?_⟩
  rcases hnew p hp with hp | ⟨hcall, hnone, rfl⟩
  · exact hmem p hp
  · refine .inr ⟨n, (FeedContext.callsFor_of_bare hfill.bare n).symm.trans hcall, ?_,
      State.openedAt_congr houter hfill.bare feed n⟩
    cases hcn : c.pos? n with
    | none => rfl
    | some q => exact absurd ((hfill.kept n q hcn).symm.trans hnone) nofun

theorem State.creates_fillSpan (hc : s.ctx? feed = some c) : State.Creates feed c s (s.fillSpan feed) := by
  simp only [State.fillSpan, hc]
  split
  · next hcond =>
    simp only [Bool.and_eq_true] at hcond
    split
    · exact .refl hc
    · exact foldl_keeps (I := fun t => State.Creates feed c s t) (fun t n _ ht => ht.createPos hcond.1.1 n) (.refl hc)
  · exact .refl hc

theorem State.ctx?_refresh (hc : s.ctx? feed = some c) :
    ∃ ps f, (s.refreshWindow feed).ctx? feed = some { c with positions := ps, flags := f }
      ∧ ∀ p ∈ ps, p ∈ (c.without c.overdue).positions
        ∨ ∃ n, c.callsFor n = true ∧ (c.without c.overdue).pos? n = none ∧ p = s.openedAt feed c n := by
  obtain ⟨-, ps, f, hd, -, hmem⟩ := State.creates_fillSpan (State.ctx?_trim hc)
  refine ⟨ps, f, hd, fun p hp => (hmem p hp).imp_right fun ⟨n, hcall, hnone, hp⟩ => ⟨n, ?_, hnone, ?_⟩⟩
  · exact (FeedContext.callsFor_of_bare (c := c) (d := c.without c.overdue) rfl n).symm.trans hcall
  · exact hp.trans (State.openedAt_congr (s.frame_trim feed).outer rfl feed n)

/-! ### A window brought up to date (R91) -/

/-- The window of `c` brought up to date is that of `d`: the ring was looked up again at the empty positions, what is
called for was created, and the gap waits were started. -/
structure State.Updated (s : State) (feed : Nat) (c d : FeedContext) : Prop where
  rest : d = { c with windowBuilt := true, positions := d.positions, flags := d.flags }
  calls : ∀ n, d.pos? n ≠ none ↔ c.callsFor n = true
  mem : ∀ p ∈ d.positions, ∃ q, p = c.startWait (s.now + s.settings.gapWait) q
    ∧ ((∃ o ∈ c.positions, q = o.lookedIn s.now (s.found feed) c.empties)
      ∨ ∃ n, q = s.openedAt feed c n)
  kept : (c.positions.map (·.seq)).Pairwise (· < ·) → ∀ o ∈ c.positions, o.empty = false → c.keeps o = true →
    d.pos? o.seq = some o

/-- A context with the ring looked up again at its empty positions, its window built. -/
def State.lookedAt (s : State) (feed : Nat) (c : FeedContext) (f : Flags) : FeedContext :=
  { c with
    windowBuilt := true, flags := f,
    positions := c.positions.map (Position.lookedIn s.now (s.found feed) c.empties) }

theorem State.ctx?_built (hc : s.ctx? feed = some c) (hwork : c.working = true) :
    ∃ f, ((s.lookAgain feed).mapCtx feed
        (fun c => if c.working then { c with windowBuilt := true } else c)).ctx? feed = some (s.lookedAt feed c f) := by
  obtain ⟨f, hx⟩ := State.ctx?_lookAgain hc
  refine ⟨f, (State.ctx?_counted hx (fun c => if c.working then { c with windowBuilt := true } else c)
    fun c => by split <;> rfl).trans ?_⟩
  exact congrArg some (if_pos hwork)

/-- In a window in order a position that is not empty is not looked up again, and is found. -/
theorem State.pos?_lookedAt (hord : (c.positions.map (·.seq)).Pairwise (· < ·)) {o : Position} (ho : o ∈ c.positions)
    (hempty : o.empty = false) (hkeeps : c.keeps o = true) (f : Flags) :
    ((s.lookedAt feed c f).without (s.lookedAt feed c f).overdue).pos? o.seq = some o := by
  have hseqs : (s.lookedAt feed c f).positions.map (·.seq) = c.positions.map (·.seq) := by
    simp only [State.lookedAt, List.map_map, Function.comp_def, Position.lookedIn_seq]
  have hnot : o.seq ∉ c.empties := fun h => by
    obtain ⟨q, hq, hseq⟩ := List.mem_map.mp h
    obtain ⟨hq, hqempty⟩ := List.mem_filter.mp hq
    have h1 := FeedContext.pos?_of_mem hord hq
    rw [hseq, FeedContext.pos?_of_mem hord ho] at h1
    obtain rfl := Option.some.inj h1
    exact absurd (hempty.symm.trans hqempty) nofun
  have hmem : o ∈ (s.lookedAt feed c f).positions :=
    List.mem_map.mpr ⟨o, ho, o.lookedIn_of_notMem _ _ hnot⟩
  have hfound := FeedContext.pos?_of_mem (hseqs ▸ hord) hmem
  rw [FeedContext.pos?_without, if_neg, hfound]
  intro h
  obtain ⟨q, hq, hseq⟩ := List.mem_map.mp h
  obtain ⟨hq, hnokeep⟩ := List.mem_filter.mp hq
  have h1 := FeedContext.pos?_of_mem (hseqs ▸ hord) hq
  rw [hseq, hfound] at h1
  obtain rfl := Option.some.inj h1
  have hsame : (s.lookedAt feed c f).keeps o = c.keeps o := rfl
  rw [hsame, hkeeps] at hnokeep
  cases hnokeep

theorem FeedContext.startWait_of_full {o : Position} (h : o.empty = false) (due : Nat) : c.startWait due o = o := by
  unfold FeedContext.startWait
  rw [if_neg (by simp [h])]

theorem State.updateWindow_updated (hrun : s.windowsRun = true) (hc : s.ctx? feed = some c) (hwork : c.working = true) :
    ∃ d, (s.updateWindow feed).ctx? feed = some d ∧ s.Updated feed c d := by
  obtain ⟨f, hb⟩ := State.ctx?_built hc hwork
  have houter : s.SameOuter ((s.lookAgain feed).mapCtx feed
      (fun c => if c.working then { c with windowBuilt := true } else c)) :=
    ((s.frame_lookAgain feed).trans (State.frame_mapCtx _ feed _ fun c => by split <;> rfl)).outer
  have hbare : (s.lookedAt feed c f).bare = c.bare := rfl
  obtain ⟨y, hy, hwindow⟩ := State.ctx?_refreshWindow hb
  obtain ⟨ps, g, hy', hmem⟩ := State.ctx?_refresh hb
  obtain rfl := Option.some.inj (hy'.symm.trans hy)
  have hwindowed : s.SameOuter ((s.lookAgain feed).buildWindow feed) :=
    houter.trans (State.frame_refreshWindow _ feed).outer
  have hnow : ((s.lookAgain feed).buildWindow feed).now = s.now := hwindowed.observe (·.now) fun _ => rfl
  have hset : ((s.lookAgain feed).buildWindow feed).settings = s.settings := hwindowed.observe (·.settings) fun _ => rfl
  have hrun' : ((s.lookAgain feed).buildWindow feed).windowsRun = true :=
    (hwindowed.observe (·.windowsRun) fun _ => rfl).trans hrun
  refine ⟨_, (State.ctx?_gapTest (show ((s.lookAgain feed).buildWindow feed).ctx? feed = some _ from hy)).trans
    (by rw [if_pos hrun', hnow, hset]), rfl, fun n => ?_, fun p hp => ?_, fun hord o ho hempty hkeeps => ?_⟩
  · rw [FeedContext.pos?_waitsStarted, Ne, Option.map_eq_none_iff]
    constructor
    · intro hn
      exact hwindow.calls hn
    · intro hcall
      exact hwindow.complete ((houter.observe (·.windowsRun) fun _ => rfl).trans hrun) hwork rfl n hcall
  · obtain ⟨q, hq, rfl⟩ := List.mem_map.mp hp
    refine ⟨q, FeedContext.startWait_congr rfl _ q, (hmem q hq).imp (fun hq => ?_) fun ⟨n, _, _, hqn⟩ => ⟨n, ?_⟩⟩
    · obtain ⟨hq, -⟩ := FeedContext.keeps_of_mem_trimmed hq
      obtain ⟨o, ho, rfl⟩ := List.mem_map.mp hq
      exact ⟨o, ho, rfl⟩
    · exact hqn.trans (State.openedAt_congr houter hbare feed n)
  · rw [FeedContext.pos?_waitsStarted, hwindow.kept _ o (State.pos?_lookedAt hord ho hempty hkeeps f)]
    exact congrArg some (FeedContext.startWait_of_full hempty _)

end

theorem State.Updated.of_outer {s v : State} {feed : Nat} {c d : FeedContext} (h : s.SameOuter v)
    (hd : v.Updated feed c d) : s.Updated feed c d := by
  have hnow : v.now = s.now := h.observe (·.now) fun _ => rfl
  have hset : v.settings = s.settings := h.observe (·.settings) fun _ => rfl
  have hfound : v.found feed = s.found feed := funext fun n => State.found_of_chunks h.2 feed n
  refine { hd with mem := fun p hp => ?_ }
  obtain ⟨q, hpq, hq⟩ := hd.mem p hp
  rw [hnow, hset] at hpq
  rw [hnow, hfound] at hq
  exact ⟨q, hpq, hq.imp_right fun ⟨n, hn⟩ => ⟨n, hn.trans (State.openedAt_congr h rfl feed n)⟩⟩

/-- The window of a feed is brought up to date once, among those of the others. -/
theorem State.ctx?_updateWindows {feed : Nat} {l : List Nat} (hl : l.Nodup) (hmem : feed ∈ l) (s : State) :
    ∃ v : State, s.SameOutside v ∧ v.ctx? feed = s.ctx? feed
      ∧ (l.foldl (fun s f => s.updateWindow f) s).ctx? feed = (v.updateWindow feed).ctx? feed := by
  obtain ⟨l₁, l₂, rfl⟩ := List.append_of_mem hmem
  have hothers (m : List Nat) (hm : feed ∉ m) (u : State) :
      (m.foldl (fun s f => s.updateWindow f) u).ctx? feed = u.ctx? feed :=
    foldl_keeps (I := fun t : State => t.ctx? feed = u.ctx? feed)
      (fun t f hf ht => ((t.touch_updateWindow f).1 feed (ne_of_mem_of_not_mem hf hm).symm).trans ht) rfl
  obtain ⟨-, hlast, hfirst⟩ := List.nodup_append.mp hl
  refine ⟨l₁.foldl (fun s f => s.updateWindow f) s, .foldl _ (fun t f => t.frame_updateWindow f) l₁ s,
    hothers l₁ (fun h => hfirst feed h feed List.mem_cons_self rfl) s, ?_⟩
  rw [List.foldl_append, List.foldl_cons]
  exact hothers l₂ (List.nodup_cons.mp hlast).1 _

/-! ### What the windows hold then -/

section
variable {s : State} {feed : Nat} {c d : FeedContext}

theorem Position.looked_of_startWait {q : Position} (due : Nat) (h : s.LookedUp feed q) :
    s.LookedUp feed (c.startWait due q) := by
  obtain ⟨hnone, hentry⟩ := h
  have hgap (hready : q.land = .ready) : (c.startWait due q).gapWait = q.gapWait := by
    rw [FeedContext.startWait_of_full]
    simp [Position.empty, hready]
  rw [FeedContext.startWait_eq]
  refine ⟨hnone, fun e he => ⟨(hentry e he).1, fun hw => ?_⟩⟩
  obtain ⟨hland, href, hpin, hwait, hready⟩ := (hentry e he).2 hw
  exact ⟨hland, href, hpin, (hgap hland).trans hwait, hready⟩

theorem State.Updated.lookedUp (h : s.Updated feed c d) {p : Position} (hp : p ∈ d.positions)
    (hempty : ∀ o, c.pos? p.seq = some o → o.land = .absent ∨ o.land = .gathering) : s.LookedUp feed p := by
  obtain ⟨q, rfl, hq⟩ := h.mem p hp
  refine Position.looked_of_startWait _ ?_
  rcases hq with ⟨o, ho, rfl⟩ | ⟨n, rfl⟩
  · have hseq : (c.startWait (s.now + s.settings.gapWait)
        (o.lookedIn s.now (s.found feed) c.empties)).seq = o.seq :=
      (c.startWait_seq_pinned _ _).1.trans (o.lookedIn_seq ..)
    obtain ⟨x, hx⟩ : ∃ x, c.pos? o.seq = some x := by
      refine Option.ne_none_iff_exists'.mp fun hnone => ?_
      exact (c.pos?_none_iff o.seq).mp hnone o ho rfl
    have hxempty : x.empty = true := by
      simpa [Position.empty] using hempty x (by rw [hseq, hx])
    have hmem : o.seq ∈ c.empties :=
      List.mem_map.mpr ⟨x, List.mem_filter.mpr ⟨FeedContext.pos?_mem hx, hxempty⟩, FeedContext.pos?_seq hx⟩
    obtain ⟨y, hy, heq⟩ := o.lookedIn_of_mem s.now (s.found feed) hmem
    rw [heq, ← hy]
    exact s.lookedUp_looked feed y
  · exact (State.opened_looked c _ n s feed).1

/-- Where no gap wait ran, one runs on exactly the positions that wait for their chunk and are behind. -/
theorem State.Updated.gapWait (h : s.Updated feed c d) (hidle : ∀ o ∈ c.positions, o.gapWait = none) {p : Position}
    (hp : p ∈ d.positions) :
    p.gapWait = if p.Awaits ∧ c.Behind p.seq then some (s.now + s.settings.gapWait) else none := by
  obtain ⟨q, rfl, hq⟩ := h.mem p hp
  have hawaits : (c.startWait (s.now + s.settings.gapWait) q).Awaits ↔ q.Awaits := by
    rw [FeedContext.startWait_eq]
  rw [c.startWait_gapWait, (c.startWait_seq_pinned _ q).1]
  simp only [hawaits, c.isBehind_iff]
  rcases hq with ⟨o, ho, rfl⟩ | ⟨n, rfl⟩
  · have hnone := o.lookedIn_gapWait s.now (s.found feed) c.empties (hidle o ho)
    simp only [hnone, true_and]
  · have hseq : (s.openedAt feed c n).seq = n := (c.opened_fields ..).1
    have hopened : (s.openedAt feed c n).gapWait
        = if (s.openedAt feed c n).Awaits ∧ c.Behind n then some (s.now + s.settings.gapWait) else none :=
      c.opened_gapWait ..
    rw [hseq]
    by_cases hcond : (s.openedAt feed c n).Awaits ∧ c.Behind n
    · rw [if_pos hcond] at hopened ⊢
      rw [hopened, if_neg (by simp)]
    · rw [if_neg hcond] at hopened ⊢
      rw [if_neg (fun h => hcond h.2), hopened]

theorem FeedContext.keeps_of_calledFor {o : Position} (hcall : c.CalledFor o.seq) (hwants : c.WantsCalled o) :
    c.keeps o = true := by
  obtain ⟨hspan, hjob⟩ := hcall
  have hin : c.inSpan o.seq = true := (c.inSpan_iff _).mpr hspan
  have hmarked (k : WorkKind) (hk : c.kindOf k (c.wayOf o.seq) ≠ .unheld)
      (hm : Mark.ord (c.markOf k (c.wayOf o.seq)) ≤ o.seq) : c.wants k o.seq = true :=
    (c.wants_iff k o.seq).mpr ⟨by simpa [FeedContext.holds] using hk, hm⟩
  simp only [FeedContext.keeps, hin, Bool.true_and, Bool.or_eq_true, Bool.and_eq_true]
  rcases hjob with ⟨hk, hm⟩ | ⟨hk, hm⟩
  · exact .inl ⟨hwants.1 hk hm, hmarked .landing hk hm⟩
  · exact .inr ⟨hwants.2 hk hm, hmarked .browse hk hm⟩

end

/-! ### The move -/

/-- The windows brought up to date, before the search for orphans. -/
def State.windowsUpdated (s : State) : State :=
  s.feeds.foldl (fun s f => s.updateWindow f) { s with station := .live, listenUntil := none }

theorem State.goLive_eq (s : State) : s.goLive = s.windowsUpdated.searchOrphans.recomputeCommits := rfl

theorem State.frame_windowsUpdated (s : State) :
    State.SameOutside { s with station := .live, listenUntil := none } s.windowsUpdated :=
  .foldl _ (fun t f => t.frame_updateWindow f) _ _

theorem State.windowsUpdated_updated {s : State} {feed : Nat} {c : FeedContext} (htable : s.TableOk)
    (hc : s.ctx? feed = some c) (hwork : c.working = true) :
    ∃ d, s.windowsUpdated.ctx? feed = some d ∧ s.Updated feed c d := by
  have hmem : feed ∈ s.feeds := List.mem_map.mpr ⟨c, List.mem_of_find?_eq_some hc, s.ctx?_feed hc⟩
  obtain ⟨v, hframe, hv, hctx⟩ := State.ctx?_updateWindows (htable.1.imp fun h => Nat.ne_of_lt h) hmem
    { s with station := .live, listenUntil := none }
  have hrun : v.windowsRun = true := hframe.observe (·.windowsRun) fun _ => rfl
  obtain ⟨d, hd, hupdated⟩ := State.updateWindow_updated hrun (hv.trans hc) hwork
  exact ⟨d, hctx.trans hd, { hupdated.of_outer hframe.outer with }⟩

/-- Every window is built then. -/
theorem State.windowsUpdated_built (s : State) :
    ∀ c ∈ s.windowsUpdated.contexts, c.working = true → c.windowBuilt = true := by
  intro c hc hw
  have hnone : State.BuiltFor { s with station := .live, listenUntil := none } (fun _ => False) :=
    fun _ _ _ h => h.elim
  have hfeeds : s.windowsUpdated.feeds = s.feeds := s.frame_windowsUpdated.2.1
  exact State.builtFor_updateWindows s.feeds hnone c hc hw (.inl (hfeeds ▸ List.mem_map_of_mem hc))

theorem State.builtStill_goLive (s : State) : s.windowsUpdated.BuiltStill s.goLive :=
  (State.builtStill_searchOrphans _).trans (State.shaped_recomputeCommits _).builtStill

/-- Settles O9: the windows one by one (`State.updateWindow_updated`), then what the search for orphans and the
commits leave of them (`State.goLive_outer`, `State.builtStill_goLive`). -/
theorem listeningEndGoesLive : Obligations.ListeningEndGoesLive := by
  intro s hlistening
  have hexec : exec .listeningPeriodEnd s = .next s.listeningEnds := rfl
  rw [hexec]
  refine ⟨fun hearly => ?_, fun hdue hdup => ?_, fun hdue hdup => ⟨s.goLive, ?_, ?_⟩⟩
  · simp [State.listeningEnds, hearly]
  · simp [State.listeningEnds, hlistening, hdue, hdup]
  · simp [State.listeningEnds, hlistening, hdue, hdup]
  · have houter := s.goLive_outer
    refine ⟨houter.observe (·.station) fun _ => rfl, houter.observe (·.listenUntil) fun _ => rfl,
      s.builtStill_goLive.feeds.trans s.frame_windowsUpdated.2.1,
      s.builtStill_goLive.built s.windowsUpdated_built, houter.2, houter.observe (·.beaconTimer) fun _ => rfl,
      houter.observe (·.beaconWaiting) fun _ => rfl, houter.observe (·.table) fun _ => rfl,
      houter.observe (·.peers) fun _ => rfl, houter.observe (·.counters) fun _ => rfl,
      houter.observe (·.settings) fun _ => rfl, houter.observe (·.captureTx) fun _ => rfl,
      houter.observe (·.storageTx) fun _ => rfl, fun htable => ⟨s.windowsUpdated, s.goLive_eq,
        s.frame_windowsUpdated.observe (·.station) fun _ => rfl, s.frame_windowsUpdated.adopted,
        fun feed c hc hwork => ?_⟩⟩
    obtain ⟨d, hd, hupdated⟩ := State.windowsUpdated_updated htable hc hwork
    refine ⟨d, hd, hupdated.rest, fun n => (hupdated.calls n).trans (c.callsFor_iff_calledFor n),
      fun p hp => hupdated.lookedUp hp, fun hord o ho habsent hgathering hcall hwants => ?_,
      fun hidle p hp => ⟨fun hcond => ?_, fun hcond => ?_⟩⟩
    · exact hupdated.kept hord o ho (by simp [Position.empty, habsent, hgathering])
        (FeedContext.keeps_of_calledFor hcall hwants)
    · rw [hupdated.gapWait hidle hp, if_pos hcond]
    · rw [hupdated.gapWait hidle hp, if_neg hcond]

end Sys2Proof.Machine
end

