-- ==== Sys2Proof/Proofs/PeersAged.lean ====
section
/-! The adoption of a triple over a window in which a sequence number has two positions: the position that gains
the job is removed with the other one. -/

namespace Sys2Proof.Machine

/-- Open parameters of a file of 4 chunks, one way. -/
def twinParams : OpenParams :=
  { fileId := 7#64, landingBase := 4096, browseBase := 8192, landingSlot := 65536, slotCount := 4,
    browseSlot := 16384, browseSlots := 100, width := 64, height := 32, sourceRate := 8,
    browseRate := 3, factor := 2, wayFn := 0, depth := 1, cueCount := 0, cues := [] }

/-- A context that holds way 0 for browse alone, without positions. -/
def twinBase : FeedContext :=
  FeedContext.fresh 5 ⟨64, PerWay.same false, PerWay.same true⟩ twinParams .directed none none

/-- The position of sequence number 2 as it is created: it wants the browse job. -/
def twinPosition : Position := twinBase.newPosition 2

/-- The context with two positions of sequence number 2, of which the second wants no job. -/
def twinCtx : FeedContext :=
  { twinBase with positions := [twinPosition, { twinPosition with wantsBrowse := false, browse := none }] }

/-- The record of a configured holder of way 0 for landing, its mark none. -/
def twinRecord : FeedRecord :=
  { twinBase.record with landKind := PerWay.same .configured }

/-- The SILENT station that reports it. -/
def twinPeer : PeerEntry :=
  { number := 8, state := .silent, period := 20, adoptEligible := true, adoptRoom := 16, records := [twinRecord],
    arrived := 0 }

/-- A LIVE, adopt-eligible station with that context and that peer. -/
def twins : State :=
  { State.reset with
    station := .live, settings := { Settings.unloaded with station := 3, adoptEligible := true },
    contexts := [twinCtx], peers := [twinPeer] }

theorem twins_ctx : twins.ctx? 5 = some twinCtx := by decide +kernel

theorem twins_views {p : PeerEntry} {r : FeedRecord} (h : twins.Views twinCtx p r) : p = twinPeer ∧ r = twinRecord := by
  obtain ⟨hp, -, hr⟩ := h
  obtain rfl := List.mem_singleton.mp hp
  have hfind : twinPeer.records.find? (fun q => q.feed == twinCtx.feed && q.params.fileId == twinCtx.params.fileId)
      = some twinRecord := by decide +kernel
  exact ⟨rfl, Option.some.inj (hr.symm.trans hfind)⟩

theorem twins_view : twins.Views twinCtx twinPeer twinRecord := by decide +kernel

theorem twins_orphaned : twins.Orphaned twinCtx .landing 0 := by
  refine ⟨rfl, rfl, by decide, .inr ⟨twinPeer, twinRecord, twins_view, rfl⟩, by decide +kernel, fun p r hv hl => ?_⟩
  obtain ⟨rfl, rfl⟩ := twins_views hv
  exact absurd hl.1 nofun

theorem twins_adopter : twins.Adopter twinCtx := by
  refine ⟨rfl, by decide, fun p r hv hlive => ?_⟩
  obtain ⟨rfl, rfl⟩ := twins_views hv
  exact absurd hlive nofun

/-- The start mark of the way is the mark of its SILENT holder, none. -/
theorem twins_startMark {m : Mark} (h : twins.StartMark twinCtx .landing 0 m) : m = none := by
  obtain ⟨b, -, hsilent, hunknown, -⟩ := h
  obtain ⟨⟨p, r, hv, -, -, rfl⟩, -⟩ := hsilent ⟨twinPeer, twinRecord, twins_view, rfl, by decide +kernel⟩
  obtain ⟨rfl, rfl⟩ := twins_views hv
  exact Mark.ord_injective ((hunknown rfl).trans (by decide +kernel))

/-- The position meets every premise of a position that gains the landing job. -/
theorem twins_called : twinCtx.pos? 2 = some twinPosition ∧ twinPosition.way = 0 ∧ twinCtx.wayOf 2 = 0
    ∧ twinCtx.params.geometryOk = true
    ∧ ((twinCtx.setKind .landing 0 .adopted).setMark .landing 0 none).SpanHas 2
    ∧ twinCtx.CalledFor 2 ∧ twinCtx.WantsCalled twinPosition := by
  and_intros <;> decide +kernel

/-- The adoption leaves no position: the trim drops the second one by its sequence number, the first with it. -/
theorem twins_adopted : ((twins.searchTriple 5 .landing 0).ctx? 5).map (·.positions) = some [] := by decide +kernel

/-- Refutes O27: its last clause says of an existing position that it gains the job, over any window, one with two
positions of one sequence number among them; there the second, which wants no job, is not kept (R73), and with it
goes every position of its sequence number. -/
theorem not_peersAge : ¬ Obligations.PeersAge := by
  intro h
  obtain ⟨-, -, hadopts⟩ := h
  obtain ⟨-, hadopt⟩ := hadopts twins 5 .landing 0 twinCtx (by decide +kernel) twins_ctx
  obtain ⟨-, d, m, hd, hm, -, -, -, -, -, -, hgains⟩ := hadopt twins_orphaned twins_adopter
  obtain rfl := twins_startMark hm
  obtain ⟨hpos, hway, hwayOf, hgeometry, hspan, hcalled, hwants⟩ := twins_called
  obtain ⟨q, hq, -⟩ := hgains 2 twinPosition hpos hway hwayOf hgeometry hspan (Nat.zero_le _) hcalled hwants
  have hnone : d.positions = [] := by simpa [hd] using twins_adopted
  simp [FeedContext.pos?, hnone] at hq

end Sys2Proof.Machine
end

