-- ==== Sys2Proof/Proofs/Orderly.lean ====
section
/-! What every step keeps of the ring, the queues and the answers (R54, R61 to R63, R92, R103, R152, R181).
`State.Orderly` is the invariant; here each operation that the window, the marks, the commit and the life of
a context are built from keeps it. -/

namespace Sys2Proof.Machine

/-! ### The invariant -/

/-- The ring, the queues and the answers as the spec bounds them: the invariant of the step lemma. -/
def State.Orderly (s : State) : Prop := s.RingOk ∧ s.QueuesOk ∧ s.TransmitOk

/-- What the invariant is judged by, the browse queue aside. -/
def State.traffic (s : State) : List RingEntry × List PendingAnswer × List MendCell × List Ask × StationState
    × Option Nat × Bool :=
  (s.ring, s.answers, s.mendQueue, s.askQueue, s.station, s.beaconTimer, s.beaconWaiting)

/-- Work beside the ring, the answers and the transmit queue, that puts no job into the browse queue. -/
theorem State.Orderly.of_traffic_le {s t : State} (h : s.Orderly) (ht : t.traffic = s.traffic)
    (hq : t.queueJobs.length ≤ s.queueJobs.length) : t.Orderly := by
  obtain ⟨hring, hans, hmend, hask, hst, htimer, hwait⟩ : t.ring = s.ring ∧ t.answers = s.answers
      ∧ t.mendQueue = s.mendQueue ∧ t.askQueue = s.askQueue ∧ t.station = s.station
      ∧ t.beaconTimer = s.beaconTimer ∧ t.beaconWaiting = s.beaconWaiting := by
    simpa [State.traffic] using ht
  obtain ⟨h1, ⟨h2, h3⟩, h4⟩ := h
  refine ⟨?_, ⟨hans ▸ h2, Nat.le_trans hq h3⟩, ?_⟩
  · simpa only [State.RingOk, State.buffersUsed, hring] using h1
  · simpa only [State.TransmitOk, State.receives, hst, htimer, hwait, hmend, hans, hask] using h4

/-- Work beside all the invariant is judged by. -/
theorem State.Orderly.of_traffic {s t : State} (h : s.Orderly)
    (ht : (t.traffic, t.queueJobs) = (s.traffic, s.queueJobs)) : t.Orderly := by
  obtain ⟨ht, hq⟩ := Prod.mk.inj ht
  exact h.of_traffic_le ht (Nat.le_of_eq (congrArg List.length hq))

theorem State.Orderly.foldl {α : Type} {f : State → α → State}
    (hf : ∀ (t : State) (a : α), t.Orderly → (f t a).Orderly) {s : State} (h : s.Orderly) (l : List α) :
    (l.foldl f s).Orderly :=
  foldl_keeps (I := State.Orderly) (fun t a _ ht => hf t a ht) h

/-- Other answers, mend cells and asks: no more answers than allowed, none of them where there were none, and
asks in LIVE alone. -/
theorem State.Orderly.of_ring {s t : State} (h : s.Orderly) (hring : t.ring = s.ring)
    (hq : t.queueJobs.length ≤ s.queueJobs.length) (ha : t.answers.length ≤ Config.maxAnswers)
    (ht : t.TransmitOk) : t.Orderly :=
  ⟨by simpa only [State.RingOk, State.buffersUsed, hring] using h.1, ⟨ha, Nat.le_trans hq h.2.1.2⟩, ht⟩

/-! ### The ring -/

/-- What the ring's invariant says of one entry: ascending indexes below its cell count, all of them where it
is WHOLE, and no pin where it is not. -/
def RingEntry.Fits (e : RingEntry) : Prop :=
  (e.cells.map (·.1)).Pairwise (· < ·) ∧ (∀ i ∈ e.cells.map (·.1), i < e.hdr.cells)
    ∧ (e.whole = true → e.cells.length = e.hdr.cells) ∧ (0 < e.pins → e.whole = true)

/-- At most one entry of a chunk (R54). -/
theorem State.RingOk.entry?_eq {s : State} (h : s.RingOk) {feed seq : Nat} {e : RingEntry} (he : e ∈ s.ring)
    (hf : e.feed = feed) (hs : e.seq = seq) : s.entry? feed seq = some e := by
  subst hf hs
  have hkeys := h.1
  simp only [State.entry?]
  generalize s.ring = l at he hkeys
  induction l with
  | nil => cases he
  | cons x l ih =>
    simp only [List.map_cons, List.nodup_cons] at hkeys
    obtain ⟨hnot, htail⟩ := hkeys
    rcases List.mem_cons.mp he with rfl | he
    · simp
    · have hne : (x.feed == e.feed && x.seq == e.seq) = false := by
        rw [← Bool.not_eq_true]
        simp only [Bool.and_eq_true, beq_iff_eq]
        exact fun hx => hnot (List.mem_map.mpr ⟨e, he, by simp [RingEntry.key, hx.1, hx.2]⟩)
      rw [List.find?_cons, hne]
      exact ih he htail

/-- A change of the entry of one chunk that takes at most the buffers there are. -/
theorem State.RingOk.mapEntry {s : State} (h : s.RingOk) {feed seq : Nat} {g : RingEntry → RingEntry}
    (hkey : ∀ e, (g e).key = e.key) (hbuf : (s.mapEntry feed seq g).buffersUsed ≤ Config.poolBuffers)
    (hfits : ∀ e, s.entry? feed seq = some e → e.Fits → (g e).Fits) : (s.mapEntry feed seq g).RingOk := by
  have hfind : ∀ e ∈ s.ring, e.feed = feed → e.seq = seq → s.entry? feed seq = some e := fun e he => h.entry?_eq he
  obtain ⟨hkeys, hlen, -, hall⟩ := h
  refine ⟨?_, ?_, hbuf, fun e he => ?_⟩
  · simp only [State.mapEntry, List.map_map]
    rw [List.map_congr_left (g := RingEntry.key) fun e _ => by simp only [Function.comp]; split <;> simp [hkey]]
    exact hkeys
  · simpa only [State.mapEntry, List.length_map] using hlen
  · obtain ⟨x, hx, rfl⟩ := List.mem_map.mp he
    split
    · next hk =>
      simp only [Bool.and_eq_true, beq_iff_eq] at hk
      exact hfits x (hfind x hx hk.1 hk.2) (hall x hx)
    · exact hall x hx

/-- A ring that lost entries. -/
theorem State.RingOk.of_sublist {s t : State} (h : s.RingOk) (ht : t.ring.Sublist s.ring) : t.RingOk := by
  obtain ⟨hkeys, hlen, hbuf, hall⟩ := h
  exact ⟨hkeys.sublist (ht.map _), Nat.le_trans ht.length_le hlen,
    Nat.le_trans ((ht.map _).sum_le_sum fun _ _ => Nat.zero_le _) hbuf, fun e he => hall e (ht.subset he)⟩

/-- The buffers in use after a change that keeps every entry's cells. -/
theorem State.buffersUsed_mapEntry (s : State) (feed seq : Nat) {g : RingEntry → RingEntry}
    (hg : ∀ e, (g e).cells = e.cells) : (s.mapEntry feed seq g).buffersUsed = s.buffersUsed := by
  simp only [State.buffersUsed, State.mapEntry, List.map_map]
  exact congrArg List.sum (List.map_congr_left fun e _ => by simp only [Function.comp]; split <;> simp [hg])

/-- The ring changed, and nothing else the invariant is judged by. -/
theorem State.Orderly.of_ringOk {s t : State} (h : s.Orderly) (hr : t.RingOk)
    (ht : (({ t with ring := s.ring } : State).traffic, t.queueJobs) = (s.traffic, s.queueJobs)) : t.Orderly := by
  obtain ⟨-, h2, h3⟩ := h.of_traffic (t := { t with ring := s.ring }) ht
  exact ⟨hr, h2, h3⟩

section
variable {s : State} (h : s.Orderly)
include h

/-- A pin placed on a WHOLE entry (R63). -/
theorem State.Orderly.pin {feed seq : Nat} (hw : ∀ e, s.entry? feed seq = some e → e.whole = true) :
    (s.pin feed seq).Orderly :=
  h.of_ringOk (h.1.mapEntry (fun _ => rfl)
    (Nat.le_trans (Nat.le_of_eq (s.buffersUsed_mapEntry feed seq fun _ => by rfl)) h.1.2.2.1)
    fun e he ⟨h1, h2, h3, _⟩ => ⟨h1, h2, h3, fun _ => hw e he⟩) rfl

theorem State.Orderly.unpin (feed seq : Nat) : (s.unpin feed seq).Orderly :=
  h.of_ringOk (h.1.mapEntry (fun _ => rfl)
    (Nat.le_trans (Nat.le_of_eq (s.buffersUsed_mapEntry feed seq fun _ => by rfl)) h.1.2.2.1)
    fun e _ ⟨h1, h2, h3, h4⟩ => ⟨h1, h2, h3, fun hp => h4 (Nat.lt_of_lt_of_le hp (Nat.sub_le ..))⟩) rfl

theorem State.Orderly.dropEntry (feed seq : Nat) : (s.dropEntry feed seq).Orderly :=
  h.of_ringOk (h.1.of_sublist List.filter_sublist) rfl

/-! ### Asks and jobs that leave -/

theorem State.Orderly.withdrawAsk (feed seq : Nat) : (s.withdrawAsk feed seq).Orderly := by
  refine h.of_ring rfl (Nat.le_refl _) h.2.1.1 ⟨h.2.2.1, fun hst => ?_⟩
  simp only [State.withdrawAsk, h.2.2.2 hst, List.filter_nil]

theorem State.Orderly.withdrawJob (feed seq : Nat) : (s.withdrawJob feed seq).Orderly :=
  h.of_traffic_le rfl (List.length_filter_le ..)

theorem State.Orderly.withdrawJobs (feed : Nat) : (s.withdrawJobs feed).Orderly :=
  h.of_traffic_le rfl (List.length_filter_le ..)

theorem State.Orderly.removeJob (uid : Nat) : (s.removeJob uid).Orderly :=
  h.of_traffic_le rfl (List.length_filter_le ..)

theorem State.Orderly.mapJob (uid : Nat) (f : Job → Job) : (s.mapJob uid f).Orderly :=
  h.of_traffic_le rfl (Nat.le_of_eq (List.length_map ..))

theorem State.Orderly.syncShedAges : s.syncShedAges.Orderly :=
  h.of_traffic_le rfl (Nat.le_of_eq (List.length_map ..))

theorem State.Orderly.wakeChunkless : s.wakeChunkless.Orderly :=
  h.of_traffic_le rfl (Nat.le_of_eq (List.length_map ..))

/-! ### Positions -/

theorem State.Orderly.mapCtx (feed : Nat) (g : FeedContext → FeedContext) : (s.mapCtx feed g).Orderly :=
  h.of_traffic rfl

theorem State.Orderly.mapPos (feed seq : Nat) (g : Position → Position) : (s.mapPos feed seq g).Orderly :=
  h.of_traffic rfl

/-- Waiting storage work withdrawn (R130). -/
theorem State.Orderly.withdrawWaiting (feed seq : Nat) : (s.withdrawWaiting feed seq).Orderly := h.of_traffic rfl

theorem State.Orderly.releasePin (feed seq : Nat) : (s.releasePin feed seq).Orderly := by
  unfold State.releasePin
  split
  · split
    · exact (h.mapPos ..).unpin ..
    · exact h
  · exact h

theorem State.Orderly.syncRewrite (feed : Nat) : (s.syncRewrite feed).Orderly := by
  unfold State.syncRewrite
  split
  · split
    · exact h
    · exact h.of_traffic rfl
  · exact h.of_traffic rfl

theorem State.Orderly.handOverChunk (feed seq : Nat) (hd : ChunkHeader) : (s.handOverChunk feed seq hd).Orderly := by
  unfold State.handOverChunk
  split
  · exact h
  · simp only
    split
    · exact h
    · split
      · exact h.of_traffic rfl
      · exact h.of_traffic rfl

theorem State.Orderly.handOverChunkless (feed seq : Nat) : (s.handOverChunkless feed seq).Orderly := by
  unfold State.handOverChunkless
  split
  · exact h
  · split
    · exact h
    · exact h.of_traffic rfl

theorem State.Orderly.gapTest (feed : Nat) : (s.gapTest feed).Orderly := by
  unfold State.gapTest
  split
  · exact h.mapCtx ..
  · exact h

theorem State.Orderly.gapTestAt (feed seq : Nat) : (s.gapTestAt feed seq).Orderly := by
  unfold State.gapTestAt
  split
  · exact h.mapCtx ..
  · exact h

theorem State.Orderly.noteDelay (feed : Nat) : (s.noteDelay feed).Orderly := h.mapCtx ..

theorem State.Orderly.dropPos (feed seq : Nat) : (s.dropPos feed seq).Orderly :=
  ((((((h.releasePin feed seq).withdrawAsk feed seq).withdrawJob feed seq).withdrawWaiting feed seq).mapCtx
    feed _).syncRewrite feed)

theorem State.Orderly.dropPositions (feed : Nat) (seqs : List Nat) : (s.dropPositions feed seqs).Orderly :=
  .foldl (fun _ q ht => ht.dropPos feed q) h seqs

theorem State.Orderly.dropWindow (feed : Nat) : (s.dropWindow feed).Orderly := by
  unfold State.dropWindow
  split
  · exact h
  · exact ((h.dropPositions ..).withdrawJobs feed).mapCtx ..

theorem State.Orderly.trim (feed : Nat) : (s.trim feed).Orderly := by
  unfold State.trim
  split
  · exact h
  · exact h.dropPositions ..

theorem State.Orderly.completePos (feed seq : Nat) : (s.completePos feed seq).Orderly := by
  unfold State.completePos
  split
  · exact h
  · split
    · exact ((h.releasePin feed seq).mapPos feed seq _).withdrawAsk feed seq
    · exact h

/-! ### Chunks taken from the ring -/

/-- A position takes a WHOLE entry (R78, R80). -/
theorem State.Orderly.takeChunk {feed seq : Nat} (hw : ∀ e, s.entry? feed seq = some e → e.whole = true)
    (hd : ChunkHeader) : (s.takeChunk feed seq hd).Orderly := by
  unfold State.takeChunk
  split
  · exact h
  · simp only
    split
    · exact ((((h.mapPos feed seq _).pin hw).withdrawAsk feed seq).withdrawWaiting feed seq).handOverChunk ..
    · exact (((h.mapPos feed seq _).pin hw).withdrawAsk feed seq).withdrawWaiting feed seq

theorem State.Orderly.lookup (feed seq : Nat) : (s.lookup feed seq).Orderly := by
  unfold State.lookup
  split
  · exact h.mapPos ..
  · next e he =>
    split
    · next hw => exact h.takeChunk (fun x hx => Option.some.inj (he.symm.trans hx) ▸ hw) _
    · exact h.mapPos ..

theorem State.Orderly.createPos (feed seq : Nat) : (s.createPos feed seq).Orderly := by
  unfold State.createPos
  split
  · exact h
  · split
    · exact ((h.mapCtx ..).lookup feed seq).gapTestAt feed seq
    · exact h

theorem State.Orderly.fillSpan (feed : Nat) : (s.fillSpan feed).Orderly := by
  unfold State.fillSpan
  split
  · exact h
  · split
    · split
      · exact h
      · exact .foldl (fun _ q ht => ht.createPos feed q) h _
    · exact h

theorem State.Orderly.refreshWindow (feed : Nat) : (s.refreshWindow feed).Orderly := (h.trim feed).fillSpan feed

theorem State.Orderly.gainLanding (feed seq : Nat) (p : Position) : (s.gainLanding feed seq p).Orderly := by
  unfold State.gainLanding
  split
  · exact h.mapPos ..
  · exact ((h.mapPos ..).lookup feed seq).gapTestAt feed seq

theorem State.Orderly.gainBrowse (feed seq : Nat) (p : Position) : (s.gainBrowse feed seq p).Orderly := by
  have h1 := h.mapPos feed seq (fun p => { p with wantsBrowse := true, browse := some .waiting })
  unfold State.gainBrowse
  simp only
  split
  · next e he =>
    split
    · exact h1.handOverChunk ..
    · split
      · split
        · next hw =>
          exact ((h1.mapPos ..).pin fun x hx => Option.some.inj (he.symm.trans hx) ▸ hw).handOverChunk ..
        · exact h1.handOverChunkless ..
      · exact h1
  · split
    · exact h1.handOverChunkless ..
    · exact h1

theorem State.Orderly.gainJob (feed : Nat) (k : WorkKind) (seq : Nat) : (s.gainJob feed k seq).Orderly := by
  unfold State.gainJob
  repeat' split
  · exact h
  · exact h
  · exact h
  · exact h.gainLanding ..
  · exact h
  · exact h.gainBrowse ..
  · exact h

theorem State.Orderly.gainJobs (feed : Nat) (k : WorkKind) (w : Way) : (s.gainJobs feed k w).Orderly := by
  unfold State.gainJobs
  split
  · exact h
  · exact .foldl (fun _ q ht => ht.gainJob feed k q) h _

theorem State.Orderly.loseLanding (feed seq : Nat) (p : Position) : (s.loseLanding feed seq p).Orderly := by
  have h1 : (s.withdrawWaiting feed seq).Orderly := h.of_traffic rfl
  unfold State.loseLanding
  simp only
  split
  · exact ((h1.mapPos ..).syncRewrite feed).handOverChunkless ..
  · exact (h1.mapPos ..).syncRewrite feed

theorem State.Orderly.loseJob (feed : Nat) (k : WorkKind) (seq : Nat) : (s.loseJob feed k seq).Orderly := by
  unfold State.loseJob
  repeat' split
  · exact h
  · exact h
  · exact h.dropPos ..
  · exact (h.loseLanding ..).completePos ..
  · exact h
  · exact h.dropPos ..
  · exact State.Orderly.completePos ((h.withdrawJob feed seq).mapPos feed seq _) ..

theorem State.Orderly.lookAgain (feed : Nat) : (s.lookAgain feed).Orderly := by
  unfold State.lookAgain
  split
  · exact h
  · exact .foldl (fun _ q ht => ht.lookup feed q) h _

/-! ### Ring reports -/

theorem State.Orderly.reportCreated (feed seq : Nat) : (s.reportCreated feed seq).Orderly := by
  unfold State.reportCreated
  repeat' split
  all_goals exact h.of_traffic rfl

theorem State.Orderly.reportRemoved (feed seq : Nat) : (s.reportRemoved feed seq).Orderly := by
  unfold State.reportRemoved
  repeat' split
  · exact h
  · exact (h.mapPos ..).gapTestAt ..
  · exact h
  · exact h

/-- The report that an entry is WHOLE pins no other (R80). -/
theorem State.Orderly.reportWhole {feed seq : Nat} (hw : ∀ e, s.entry? feed seq = some e → e.whole = true)
    (hd : ChunkHeader) : (s.reportWhole feed seq hd).Orderly := by
  unfold State.reportWhole
  repeat' split
  · exact h
  · exact h
  · exact h
  · exact h
  · exact h
  · exact h
  · exact h
  · exact h
  · exact h
  · exact h.takeChunk hw hd
  · exact h

/-! ### The commit and the life of a context -/

theorem State.Orderly.markFallsDue (feed : Nat) : (s.markFallsDue feed).Orderly := by
  unfold State.markFallsDue
  repeat' split
  all_goals exact h.of_traffic rfl

theorem State.Orderly.paceTest (feed : Nat) : (s.paceTest feed).Orderly := by
  unfold State.paceTest
  split
  · exact h
  · split
    · exact h.markFallsDue feed
    · exact h

theorem State.Orderly.recomputeCommit (feed : Nat) : (s.recomputeCommit feed).Orderly := by
  unfold State.recomputeCommit
  split
  · exact h
  · simp only
    split
    · exact (h.mapCtx ..).paceTest feed
    · exact h

theorem State.Orderly.recomputeCommits : s.recomputeCommits.Orderly :=
  .foldl (fun _ f ht => ht.recomputeCommit f) h _

theorem State.Orderly.finalTest (feed : Nat) : (s.finalTest feed).Orderly := by
  unfold State.finalTest
  split
  · exact h
  · split
    · exact (((h.mapCtx feed _).dropWindow feed).recomputeCommit feed).markFallsDue feed
    · exact h

theorem State.Orderly.afterMarks (feed : Nat) (commit : Bool) : (s.afterMarks feed commit).Orderly := by
  have h1 := (h.mapCtx feed FeedContext.reachEnd).refreshWindow feed
  unfold State.afterMarks
  simp only
  split
  · exact (h1.recomputeCommit feed).finalTest feed
  · exact h1.finalTest feed

theorem State.Orderly.afterDone (feed : Nat) : (s.afterDone feed).Orderly := (h.mapCtx feed _).afterMarks feed _

theorem State.Orderly.takeEnd (feed e : Nat) : (s.takeEnd feed e).Orderly := by
  unfold State.takeEnd
  split
  · exact h
  · split
    · exact ((h.mapCtx ..).afterMarks feed true).gapTest feed
    · exact h

theorem State.Orderly.takeEnd? (feed : Nat) (e : Mark) : (s.takeEnd? feed e).Orderly := by
  cases e with
  | none => exact h
  | some e => exact h.takeEnd feed e

/-- Waiting landing work discarded (R129, R130). -/
theorem State.Orderly.discardWork (feed : Nat) : (s.discardWork feed).Orderly := h.of_traffic rfl

/-- A context's place, its triples and its waiting MARK given up (R6, R24). -/
theorem State.Orderly.released (feed : Nat) (l : List Triple) (m : List Nat) :
    ({ s.removeCtx feed with adopted := l, waitMarks := m } : State).Orderly := h.of_traffic rfl

/-- A waiting MARK given up (R143). -/
theorem State.Orderly.waitMarks (m : List Nat) : ({ s with waitMarks := m } : State).Orderly := h.of_traffic rfl

theorem State.Orderly.removeContext (feed : Nat) : (s.removeContext feed).Orderly :=
  ((h.dropWindow feed).discardWork feed).released feed _ _

theorem State.Orderly.enterAborted (feed : Nat) : (s.enterAborted feed).Orderly :=
  (((h.dropWindow feed).discardWork feed).mapCtx feed _).markFallsDue feed

theorem State.Orderly.enterFaulted (feed : Nat) : (s.enterFaulted feed).Orderly :=
  (((h.dropWindow feed).discardWork feed).mapCtx feed _).waitMarks _

theorem State.Orderly.abortContext (feed : Nat) : (s.abortContext feed).Orderly := by
  unfold State.abortContext
  repeat' split
  · exact h
  · exact h.enterAborted feed
  · exact h.enterAborted feed
  · exact h
  · exact h
  · exact h

theorem State.Orderly.closeContext (feed : Nat) (e : Mark) : (s.closeContext feed e).Orderly := by
  unfold State.closeContext
  repeat' split
  · exact h
  · exact h.takeEnd ..
  · exact h.takeEnd ..
  · exact h
  · exact h
  · exact h
  · exact h
  · exact h

theorem State.Orderly.buildWindow (feed : Nat) : (s.buildWindow feed).Orderly := (h.mapCtx ..).refreshWindow feed

theorem State.Orderly.createContext (feed : Nat) (r : Range) (p : OpenParams) (origin : Origin)
    (start recordH recordE : Mark) : (s.createContext feed r p origin start recordH recordE).Orderly := by
  have h1 : ∀ c, ((s.addCtx c).mapCtx feed FeedContext.reachEnd).Orderly := fun c => h.of_traffic rfl
  unfold State.createContext
  simp only
  split
  · exact ((((h1 _).buildWindow feed).recomputeCommit feed).finalTest feed).paceTest feed
  · exact (((h1 _).recomputeCommit feed).finalTest feed).paceTest feed

theorem State.Orderly.updateWindow (feed : Nat) : (s.updateWindow feed).Orderly :=
  ((h.lookAgain feed).buildWindow feed).gapTest feed

theorem State.Orderly.sight (feed seq : Nat) : (s.sight feed seq).Orderly := by
  unfold State.sight
  split
  · exact h
  · split
    · exact (h.mapCtx ..).gapTest feed
    · exact h

/-! ### Adoption and release -/

theorem State.Orderly.adoptedSet (l : List Triple) : ({ s with adopted := l } : State).Orderly := h.of_traffic rfl

theorem State.Orderly.searchOrphans : s.searchOrphans.Orderly := by
  have hadopt : ∀ (t : State) (f : Nat) (k : WorkKind) (w : Way), t.Orderly → (t.searchTriple f k w).Orderly :=
    fun t f k w ht => by
    unfold State.searchTriple State.adopt
    repeat' (first | split | simp only)
    · exact ht
    · exact ht
    · exact ((((ht.adoptedSet _).mapCtx f _).trim f).gainJobs f k w).afterMarks f _
    · exact ht
  exact .foldl (fun _ f ht => .foldl (fun u wk hu => hadopt u f wk.2 wk.1 hu) ht _) h _

theorem State.Orderly.releaseTriple (t : Triple) : (s.releaseTriple t).Orderly := by
  have h1 := h.adoptedSet (s.adopted.filter (· != t))
  unfold State.releaseTriple
  simp only
  split
  · exact h1
  · exact (State.Orderly.foldl (fun _ q hu => hu.loseJob t.feed t.kind q) (h1.mapCtx ..) _).afterMarks t.feed true

theorem State.Orderly.releaseTests : s.releaseTests.Orderly :=
  .foldl (fun _ t hu => by split; exacts [hu.releaseTriple t, hu]) h _

theorem State.Orderly.afterPeerChange : s.afterPeerChange.Orderly := by
  unfold State.afterPeerChange
  split
  · exact h.releaseTests.searchOrphans.recomputeCommits
  · exact h.recomputeCommits

end

end Sys2Proof.Machine
end

