-- ==== Sys2Proof/Proofs/OrderlySteps.lean ====
section
/-! Every command keeps the ring, the queues and the answers in order: the invariant `State.Orderly` for each
block's commands, and the step lemma over them. -/

namespace Sys2Proof.Machine

/-! ### Cells in the ring -/

theorem insertCell_indexes (i : Nat) (b : List Byte) (l : List (Nat × List Byte)) (n : Nat) :
    n ∈ (insertCell i b l).map (·.1) ↔ n = i ∨ n ∈ l.map (·.1) := by
  induction l with
  | nil => simp [insertCell]
  | cons x l ih =>
    unfold insertCell
    split
    · simp
    · rw [List.map_cons, List.mem_cons, ih, List.map_cons, List.mem_cons]
      tauto

theorem pairwise_insertCell {i : Nat} {b : List Byte} {l : List (Nat × List Byte)}
    (hl : (l.map (·.1)).Pairwise (· < ·)) (hi : i ∉ l.map (·.1)) :
    ((insertCell i b l).map (·.1)).Pairwise (· < ·) := by
  induction l with
  | nil => simp [insertCell]
  | cons x l ih =>
    rw [List.map_cons, List.pairwise_cons] at hl
    obtain ⟨hhead, htail⟩ := hl
    rw [List.map_cons, List.mem_cons, not_or] at hi
    obtain ⟨hne, hnot⟩ := hi
    unfold insertCell
    split
    · next hlt =>
      simp only [List.map_cons, List.pairwise_cons, List.mem_cons, forall_eq_or_imp]
      exact ⟨⟨hlt, fun n hn => Nat.lt_trans hlt (hhead n hn)⟩, hhead, htail⟩
    · rw [List.map_cons, List.pairwise_cons]
      refine ⟨fun n hn => ?_, ih htail hnot⟩
      rcases (insertCell_indexes i b l n).mp hn with rfl | hn
      · omega
      · exact hhead n hn

/-- A cell of a PARTIAL entry that brings it a new index (R57). -/
theorem RingEntry.Fits.insertCell {e : RingEntry} (h : e.Fits) (hw : e.whole = false) {i : Nat}
    (hi : i ∉ e.cells.map (·.1)) (hlt : i < e.hdr.cells) (b : List Byte) :
    ({ e with cells := Machine.insertCell i b e.cells } : RingEntry).Fits := by
  obtain ⟨hord, hall, -, hpins⟩ := h
  refine ⟨pairwise_insertCell hord hi, fun n hn => ?_, fun h => absurd (hw.symm.trans h) Bool.false_ne_true, hpins⟩
  rcases (insertCell_indexes i b e.cells n).mp hn with rfl | hn
  · exact hlt
  · exact hall n hn

/-- In a ring with one entry for a chunk, one more cell of it takes one more buffer. -/
theorem State.buffersUsed_insert {s : State} (hkeys : (s.ring.map RingEntry.key).Nodup) (feed seq i : Nat)
    (b : List Byte) :
    (s.mapEntry feed seq (fun e => { e with cells := insertCell i b e.cells })).buffersUsed
      ≤ s.buffersUsed + 1 := by
  simp only [State.buffersUsed, State.mapEntry]
  generalize s.ring = l at hkeys
  induction l with
  | nil => simp
  | cons x l ih =>
    rw [List.map_cons, List.nodup_cons] at hkeys
    obtain ⟨hnot, htail⟩ := hkeys
    simp only [List.map_cons, List.sum_cons]
    split
    · next hx =>
      simp only [Bool.and_eq_true, beq_iff_eq] at hx
      have hrest : l.map (fun e : RingEntry => if e.feed == feed && e.seq == seq then
          { e with cells := insertCell i b e.cells } else e) = l := by
        refine (List.map_congr_left fun e he => if_neg fun hk => ?_).trans (List.map_id l)
        simp only [Bool.and_eq_true, beq_iff_eq] at hk
        exact hnot (List.mem_map.mpr ⟨e, he, by simp [RingEntry.key, hk, hx]⟩)
      rw [hrest, insertCell_length]
      omega
    · have := ih htail
      omega


/-! ### The answering side and the transmit queue -/

section
variable {s : State} (h : s.Orderly)
include h

/-- Other answers and queued mend cells: within the table's size, and none where frames are not received. -/
theorem State.Orderly.answering {l : List PendingAnswer} {m : List MendCell} (hl : l.length ≤ Config.maxAnswers)
    (hquiet : s.receives = false → l = [] ∧ m = []) : ({ s with answers := l, mendQueue := m } : State).Orderly := by
  obtain ⟨hring, ⟨-, hqueue⟩, hsend, hask⟩ := h
  refine ⟨hring, ⟨hl, hqueue⟩, fun hr => ?_, hask⟩
  obtain ⟨h1, h2, -⟩ := hsend hr
  obtain ⟨h3, h4⟩ := hquiet hr
  exact ⟨h1, h2, h4, h3⟩

/-- Fewer answers and fewer queued mend cells. -/
theorem State.Orderly.fewerAnswers {l : List PendingAnswer} {m : List MendCell}
    (hl : l.length ≤ s.answers.length) (hm : m.length ≤ s.mendQueue.length) :
    ({ s with answers := l, mendQueue := m } : State).Orderly := by
  refine h.answering (Nat.le_trans hl h.2.1.1) fun hr => ?_
  obtain ⟨-, -, hmend, hans⟩ := h.2.2.1 hr
  rw [hans] at hl
  rw [hmend] at hm
  exact ⟨List.length_eq_zero_iff.mp (Nat.le_zero.mp hl), List.length_eq_zero_iff.mp (Nat.le_zero.mp hm)⟩

theorem State.Orderly.cancelAnswers (feed seq : Nat) : (s.cancelAnswers feed seq).Orderly :=
  h.fewerAnswers (List.length_filter_le ..) (List.length_filter_le ..)

theorem State.Orderly.seeMendCell (feed seq index : Nat) : (s.seeMendCell feed seq index).Orderly :=
  h.fewerAnswers (Nat.le_trans (List.length_filter_le ..) (Nat.le_of_eq (List.length_map ..)))
    (List.length_filter_le ..)

theorem State.Orderly.mendCellLeft (m : MendCell) : (s.mendCellLeft m).Orderly :=
  h.fewerAnswers (m := s.mendQueue)
    (Nat.le_trans (List.length_filter_le ..) (Nat.le_of_eq (List.length_map ..))) (Nat.le_refl _)

theorem State.Orderly.restartWait (feed seq : Nat) : (s.restartWait feed seq).Orderly := h.mapPos ..

theorem State.Orderly.suppress (feed seq : Nat) : (s.suppress feed seq).Orderly := by
  unfold State.suppress
  split
  · exact h
  · split
    · exact ((h.restartWait feed seq).mapPos feed seq _).withdrawAsk feed seq
    · exact h

theorem State.Orderly.bumpUid : s.bumpUid.Orderly := h.of_traffic rfl

/-- An ask is answered where frames are received, and while the table has room (R99, R103). -/
theorem State.Orderly.answerAsk (hr : s.receives = true) (a : ReceivedAsk) : (s.answerAsk a).Orderly := by
  have hloud : ∀ l m, s.receives = false → l = ([] : List PendingAnswer) ∧ m = ([] : List MendCell) :=
    fun _ _ hq => absurd (hr.symm.trans hq) Bool.true_eq_false_eq_False
  unfold State.answerAsk
  split
  · exact h
  · simp only
    split
    · exact h
    · split
      · exact h.answering (m := s.mendQueue) (Nat.le_trans (Nat.le_of_eq (List.length_map ..)) h.2.1.1) (hloud _ _)
      · split
        · next hlen =>
          have hadd : ∀ x, ({ s with answers := s.answers ++ [x] } : State).Orderly := fun x =>
            h.answering (m := s.mendQueue) (by rw [List.length_append]; exact hlen) (hloud _ _)
          exact (hadd _).bumpUid
        · exact h

theorem State.Orderly.receiveAsk (hr : s.receives = true) (body : List Byte) : (s.receiveAsk body).Orderly := by
  unfold State.receiveAsk State.takeAsk
  split
  · exact h
  · next a _ =>
    split
    · exact h
    · refine (h.suppress a.feed a.seq).answerAsk ?_ a
      unfold State.suppress
      repeat' split
      all_goals exact hr

theorem State.Orderly.answerDue (feed seq : Nat) : (s.answerDue feed seq).Orderly := by
  unfold State.answerDue
  split
  · next x e hx _ =>
    split
    · refine h.answering (Nat.le_trans (Nat.le_of_eq (List.length_map ..)) h.2.1.1) fun hr => ?_
      obtain ⟨-, -, -, hans⟩ := h.2.2.1 hr
      simp [hans] at hx
    · exact h
  · exact h

/-- The lost procedure begins, or an ask joins the queue, in LIVE alone (R93). -/
theorem State.Orderly.gapExpires (feed seq : Nat) : (s.gapExpires feed seq).Orderly := by
  have hask : ∀ p, s.station = .live → ({ s with askQueue := s.askQueue ++ [s.formAsk feed p] } : State).Orderly :=
    fun p hlive => h.of_ring rfl (Nat.le_refl _) h.2.1.1 ⟨h.2.2.1, fun hne => absurd hlive hne⟩
  unfold State.gapExpires
  split
  · exact h
  · next p _ =>
    split
    · split
      · exact h.restartWait feed seq
      · split
        · next hlive =>
          split
          · exact h.restartWait feed seq
          · split
            · exact (hask p (by simpa using hlive)).restartWait feed seq
            · unfold State.beginLost
              split
              · exact h.of_traffic rfl
              · exact (h.mapPos ..).handOverChunkless ..
        · exact h
    · exact h

theorem State.Orderly.beaconDue : s.beaconDue.Orderly := by
  unfold State.beaconDue
  split
  · exact h
  · next t ht =>
    split
    · refine h.of_ring rfl (Nat.le_refl _) h.2.1.1 ⟨fun hr => ?_, h.2.2.2⟩
      obtain ⟨hnone, -⟩ := h.2.2.1 hr
      rw [ht] at hnone
      cases hnone
    · exact h

/-- Asks wait in LIVE alone, so that one leaves the port there (R93, R95). -/
theorem State.Orderly.sendAsk {a : Ask} {rest : List Ask} (hr : s.receives = true)
    (hq : s.askQueue = a :: rest) : (s.sendAsk a rest).Orderly := by
  have hrest : ({ s with askQueue := rest } : State).Orderly := by
    refine h.of_ring rfl (Nat.le_refl _) h.2.1.1
      ⟨fun hn => absurd (hr.symm.trans hn) Bool.true_eq_false_eq_False, fun hne => ?_⟩
    have hnil := h.2.2.2 hne
    rw [hq] at hnil
    cases hnil
  exact State.Orderly.mapPos (hrest.of_traffic rfl) a.feed a.seq (fun p => { p with attempts := p.attempts + 1 })

theorem State.Orderly.sendMendCell {m : MendCell} {rest : List MendCell} (hq : s.mendQueue = m :: rest) :
    (s.sendMendCell m rest).Orderly := by
  have hrest : ({ s with mendQueue := rest } : State).Orderly :=
    h.fewerAnswers (l := s.answers) (Nat.le_refl _) (by rw [hq]; exact Nat.le_succ _)
  exact State.Orderly.mendCellLeft (hrest.of_traffic rfl) m

/-- A frame leaves the port where frames are received (R92). -/
theorem State.Orderly.transmit : s.transmit.Orderly := by
  unfold State.transmit
  split
  · exact h
  next hquiet =>
  have hr : s.receives = true := by simpa using hquiet
  split
  · exact h.of_ring rfl (Nat.le_refl _) h.2.1.1
      ⟨fun hn => absurd (hr.symm.trans hn) Bool.true_eq_false_eq_False, h.2.2.2⟩
  split
  · next hq => exact h.sendAsk hr hq
  · next hq => exact h.sendMendCell hq
  · exact h

/-! ### A cell in the ring -/

theorem State.Orderly.removeEntry (feed seq : Nat) : (s.removeEntry feed seq).Orderly :=
  ((h.dropEntry feed seq).reportRemoved feed seq).cancelAnswers feed seq

theorem State.Orderly.makeRoom (feed seq : Nat) (new : Bool) : (s.makeRoom feed seq new).Orderly := by
  have hevict : ∀ (fuel : Nat) (t : State), t.Orderly → (State.evict feed seq new fuel t).Orderly := fun fuel => by
    induction fuel with
    | zero => exact fun _ ht => ht
    | succ fuel ih =>
      intro t ht
      unfold State.evict
      split
      · exact ht
      · split
        · exact ht
        · exact ih _ (ht.removeEntry ..)
  exact hevict _ s h

/-- A full entry is WHOLE or leaves the ring (R58). -/
theorem State.Orderly.checkChunk (feed seq : Nat) : (s.checkChunk feed seq).Orderly := by
  unfold State.checkChunk
  split
  · exact h
  next e he =>
  split
  · next hfull =>
    split
    · have hwhole : (s.mapEntry feed seq (fun e => { e with whole := true })).Orderly := by
        refine h.of_ringOk (h.1.mapEntry (fun _ => rfl)
          (Nat.le_trans (Nat.le_of_eq (s.buffersUsed_mapEntry feed seq fun _ => by rfl)) h.1.2.2.1) ?_) rfl
        rintro x hx ⟨h1, h2, -, -⟩
        obtain rfl : e = x := Option.some.inj (he.symm.trans hx)
        simp only [RingEntry.full, Bool.and_eq_true, beq_iff_eq] at hfull
        exact ⟨h1, h2, fun _ => hfull.1, fun _ => rfl⟩
      have hrep := hwhole.reportWhole (feed := feed) (seq := seq) (fun x hx => by
        rw [s.entry?_mapEntry feed seq feed seq (fun e => { e with whole := true }) fun _ => ⟨rfl, rfl⟩, he] at hx
        cases hx
        simp) e.hdr
      unfold State.reportLast
      split
      · exact hrep.takeEnd ..
      · exact hrep
    · exact h.removeEntry ..
  · exact h

theorem State.Orderly.countAccepted : s.countAccepted.Orderly := h.of_traffic rfl

theorem State.Orderly.dropCell (feed : Nat) : (s.dropCell feed).Orderly := h.of_traffic rfl

/-- A place in the ring and a buffer for a new entry (R55, R61, R62). -/
theorem State.Orderly.append {e : RingEntry} (hnew : s.entry? e.feed e.seq = none) (hroom : s.hasRoom true = true)
    (he : e.Fits) (hone : e.cells.length = 1) : ({ s with ring := s.ring ++ [e] } : State).Orderly := by
  simp only [State.hasRoom, Bool.not_true, Bool.false_or, Bool.and_eq_true, decide_eq_true_eq] at hroom
  obtain ⟨hbuf, hlen⟩ := hroom
  refine h.of_ringOk ?_ rfl
  obtain ⟨⟨hkeys, -, -, hall⟩, -⟩ := h
  refine ⟨?_, by simpa using hlen, ?_, fun x hx => ?_⟩
  · rw [List.map_append, List.map_singleton, List.nodup_append]
    refine ⟨hkeys, List.nodup_singleton _, fun k hk x hx hkx => ?_⟩
    obtain rfl := List.mem_singleton.mp hx
    obtain ⟨y, hy, rfl⟩ := List.mem_map.mp hk
    have hnone := List.find?_eq_none.mp hnew y hy
    simp only [RingEntry.key, Prod.mk.injEq] at hkx
    simp [hkx] at hnone
  · simp only [State.buffersUsed, List.map_append, List.map_singleton, List.sum_append, List.sum_singleton, hone]
    exact hbuf
  · rcases List.mem_append.mp hx with hx | hx
    · exact hall x hx
    · exact List.mem_singleton.mp hx ▸ he

/-- A cell placed in the ring (R55 to R57). -/
theorem State.Orderly.placeCell {c : Cell} (hc : c.index < c.hdr.cells) : (s.placeCell c).Orderly := by
  unfold State.placeCell
  split
  · next hnone =>
    have hroom := h.makeRoom c.feed c.seq true
    have hnew := (s.entry?_makeRoom c.feed c.seq true).trans hnone
    unfold State.createEntry
    simp only
    split
    · next hfree =>
      have happ := hroom.append (e := RingEntry.mk c.feed c.seq false c.hdr [(c.index, c.payload)] 0) hnew hfree
        ⟨List.pairwise_singleton .., by simpa using hc, nofun, nofun⟩ rfl
      exact (happ.countAccepted.reportCreated ..).checkChunk ..
    · exact hroom.dropCell _
  · next e he =>
    split
    · exact h.of_traffic rfl
    · next hhdr =>
      split
      · exact h
      · next hold =>
        have hroom := h.makeRoom c.feed c.seq false
        have hfind := (s.entry?_makeRoom c.feed c.seq false).trans he
        unfold State.storeCell
        simp only
        split
        · next hfree =>
          simp only [State.hasRoom, Bool.not_false, Bool.true_or, Bool.and_true, decide_eq_true_eq] at hfree
          simp only [Bool.or_eq_true, not_or, Bool.not_eq_true, List.contains_iff_mem] at hold
          have hstore := hroom.of_ringOk (hroom.1.mapEntry (feed := c.feed) (seq := c.seq)
            (g := fun e => { e with cells := insertCell c.index c.payload e.cells }) (fun _ => rfl)
            (Nat.le_trans (State.buffersUsed_insert hroom.1.1 ..) hfree) fun x hx hfit => by
              obtain rfl : e = x := Option.some.inj (hfind.symm.trans hx)
              have heq : e.hdr = c.hdr := by simpa using hhdr
              exact hfit.insertCell hold.1 hold.2 (heq ▸ hc) c.payload) rfl
          exact hstore.countAccepted.checkChunk ..
        · exact hroom.dropCell _

theorem State.Orderly.takeCell {c : Cell} (hc : c.index < c.hdr.cells) : (s.takeCell c).Orderly := by
  unfold State.takeCell
  split
  · split
    · exact h.mapCtx ..
    · exact (h.sight c.feed c.seq).placeCell hc
  · exact h.placeCell hc

theorem State.Orderly.intakeCell (mend : Bool) (body : List Byte) : (s.intakeCell mend body).Orderly := by
  unfold State.intakeCell
  split
  · exact h.of_traffic rfl
  · next c _ =>
    split
    · next hok =>
      have hc : c.index < c.hdr.cells := by
        simp only [Bool.and_eq_true, Cell.contentOk, decide_eq_true_eq] at hok
        obtain ⟨-, -, -, -, hlt, -⟩ := hok
        exact hlt
      split
      · exact (h.seeMendCell ..).takeCell hc
      · exact h.takeCell hc
    · exact h.of_traffic rfl

/-! ### Beacons and directives -/

theorem State.Orderly.learnRecord (q : FeedRecord) : (s.learnRecord q).Orderly := by
  unfold State.learnRecord State.learnOpen
  repeat' split
  · exact h
  · exact h.createContext ..
  · exact h
  · exact h
  · exact h.takeEnd? ..
  · exact h.abortContext ..
  · exact h

theorem State.Orderly.receiveBeacon (body : List Byte) : (s.receiveBeacon body).Orderly := by
  unfold State.receiveBeacon
  split
  · exact h
  next b _ =>
  split
  · exact h.of_traffic rfl
  have hup : (s.updatePeer b).Orderly := h.of_traffic rfl
  unfold State.takeBeacon State.learn
  simp only
  split
  · split
    · exact (State.Orderly.foldl (fun _ q ht => ht.learnRecord q) hup _).releaseTests.searchOrphans.recomputeCommits
    · exact hup.releaseTests.searchOrphans.recomputeCommits
  · exact hup.recomputeCommits

theorem State.Orderly.openContext (feed : Nat) (p : OpenParams) : (s.openContext feed p).Orderly := by
  unfold State.openContext
  repeat' split
  · exact h.of_traffic rfl
  · exact h.of_traffic rfl
  · exact h.of_traffic rfl
  · exact h.of_traffic rfl
  · exact h.of_traffic rfl
  · exact h.createContext ..

theorem State.Orderly.applyHold (feed : Nat) (land browse : Bool) : (s.applyHold feed land browse).Orderly := by
  unfold State.applyHold
  split
  · exact h
  · simp only
    split
    · exact (h.mapCtx ..).syncShedAges
    · exact h.mapCtx ..

theorem State.Orderly.applyRelease (feed : Nat) (land browse : Bool) :
    (s.applyRelease feed land browse).Orderly := by
  have hland : ∀ (t : State) (was : Bool), t.Orderly → (t.landLifted feed was).Orderly := fun t was ht => by
    unfold State.landLifted
    split
    · exact ht.noteDelay feed
    · exact ht
  have hbrowse : ∀ (t : State) (was : Bool), t.Orderly → (t.browseLifted was).Orderly := fun t was ht => by
    unfold State.browseLifted
    split
    · exact ht.syncShedAges.wakeChunkless
    · exact ht
  unfold State.applyRelease
  split
  · exact h
  · exact hbrowse _ _ (hland _ _ (h.mapCtx ..))

/-! ### The owners of storage requests -/

theorem State.Orderly.endLost (feed seq : Nat) (o : LandState) : (s.endLost feed seq o).Orderly := by
  unfold State.endLost
  split
  · exact h
  · simp only
    split
    · exact ((State.Orderly.handOverChunkless (h.mapPos ..) ..).completePos ..).afterDone ..
    · exact (State.Orderly.completePos (h.mapPos ..) ..).afterDone ..

theorem State.Orderly.judge (feed uid : Nat) (x : SlotRef × Trailer × CheckWord) : (s.judge feed uid x).Orderly := by
  unfold State.judge State.mismatchedPos
  repeat' split
  · exact h
  · exact State.Orderly.completePos (h.mapCtx ..) ..
  · exact h.mapCtx ..
  · exact State.Orderly.completePos (h.mapCtx ..) ..
  · exact h

theorem State.Orderly.landingChecked (feed : Nat) (r : Request) (entries : List (Trailer × CheckWord)) :
    (s.landingChecked feed r entries).Orderly :=
  ((State.Orderly.foldl (fun _ x ht => ht.judge feed r.uid x) h _).syncRewrite feed).afterDone feed

theorem State.Orderly.trailerRead (feed seq : Nat) (t : Trailer) (head : CheckWord) :
    (s.trailerRead feed seq t head).Orderly := by
  unfold State.trailerRead
  split
  · exact (h.mapCtx ..).endLost ..
  · split
    · exact (h.mapCtx ..).endLost ..
    · exact h.of_traffic rfl

theorem State.Orderly.awaitCheck (feed : Nat) (seqs : List Nat) (trailer : Bool) (n : Nat) :
    (s.awaitCheck feed seqs trailer n).Orderly := by
  unfold State.awaitCheck
  split
  · exact h
  · exact h.of_traffic rfl

theorem State.Orderly.jobEnds (j : Job) (st : BrowseState) (count : FeedContext → FeedContext) :
    (s.jobEnds j st count).Orderly :=
  ((((h.removeJob j.uid).mapPos j.feed j.seq _).mapCtx j.feed count).completePos j.feed j.seq).afterDone j.feed

theorem State.Orderly.readyWrite (uid : Nat) : (s.readyWrite uid).Orderly := h.of_traffic rfl

theorem State.Orderly.browseOutcome (uid : Nat) (o : Handed) : (s.browseOutcome uid o).Orderly := by
  have hwritten : ∀ j, (s.jobWritten j).Orderly := fun j => by
    unfold State.jobWritten
    split <;> exact h.jobEnds ..
  have hfails : ∀ j, (s.jobFails j).Orderly := fun j => by
    unfold State.jobFails
    repeat' split
    · exact h.jobEnds ..
    · exact (h.mapJob ..).readyWrite _
    · exact (h.mapJob ..).readyWrite _
    · exact h.jobEnds ..
    · exact h.jobEnds ..
  unfold State.browseOutcome
  repeat' split
  · exact h
  · exact hwritten _
  · exact hfails _
  · exact hfails _
  · exact h.enterFaulted _

theorem State.Orderly.markOver (feed : Nat) (again : Bool) : (s.markOver feed again).Orderly := by
  unfold State.markOver
  simp only
  split
  · exact (h.mapCtx ..).markFallsDue feed
  · exact h.mapCtx ..

theorem State.Orderly.markOutcome (feed : Nat) (m : MarkState) (o : Handed) : (s.markOutcome feed m o).Orderly := by
  unfold State.markOutcome State.markDone State.markDenied
  split
  · exact h
  · next c _ =>
    have hover := h.markOver feed c.markAgain
    split
    · simp only
      repeat' split
      · exact hover.mapCtx ..
      · exact (hover.mapCtx feed _).mapCtx ..
      · exact hover
    · exact h.markOver ..
    · exact h.markOver ..
    · split
      · exact h.enterFaulted feed
      · exact ((h.mapCtx feed _).mapCtx feed _).waitMarks _

theorem State.Orderly.setLocalHold : s.setLocalHold.Orderly := by
  unfold State.setLocalHold
  split
  · exact h
  · exact State.Orderly.syncShedAges (h.of_traffic rfl)

theorem State.Orderly.clearLocalHold : s.clearLocalHold.Orderly := by
  have hlift : ({ s with localHold := false, probeTimer := none } : State).Orderly := h.of_traffic rfl
  exact .foldl (fun _ f ht => ht.noteDelay f) hlift.syncShedAges.wakeChunkless _

/-- An outcome handed to the owner of its request (R113). -/
theorem State.Orderly.handToOwner (r : Request) (entries : List (Trailer × CheckWord)) (o : Handed) :
    (s.handToOwner r entries o).Orderly := by
  have hwrite : ∀ f, (s.writeOutcome f r o).Orderly := fun f => by
    unfold State.writeOutcome
    split
    · exact h.awaitCheck ..
    · exact h.mapCtx ..
    · exact h.mapCtx ..
    · exact h.enterFaulted f
  have hfill : ∀ f, (s.fillOutcome f r o).Orderly := fun f => by
    unfold State.fillOutcome
    split
    · exact h.enterFaulted f
    · exact h
    · exact (h.mapCtx ..).endLost ..
    · exact h.awaitCheck ..
    · exact h.awaitCheck ..
  have hcheck : ∀ f, (s.checkOutcome f r entries o).Orderly := fun f => by
    unfold State.checkOutcome
    split
    · exact h.landingChecked ..
    · exact h.awaitCheck ..
    · split
      · exact h.awaitCheck ..
      · exact h.mapCtx ..
    · exact h.enterFaulted f
  have htrailer : ∀ f, (s.trailerOutcome f r entries o).Orderly := fun f => by
    unfold State.trailerOutcome
    split
    · exact h.enterFaulted f
    · exact h
    · split
      · exact h
      · exact h.trailerRead ..
    · exact h.awaitCheck ..
    · exact h.awaitCheck ..
  unfold State.handToOwner
  split
  · exact hwrite _
  · exact hwrite _
  · exact hfill _
  · exact hcheck _
  · exact htrailer _
  · exact h.markOutcome ..
  · exact h.browseOutcome ..
  · unfold State.probeOutcome
    split
    · exact h.clearLocalHold
    all_goals exact h
  · exact h

/-! ### Answers, timeouts and the service order -/

theorem State.Orderly.setEntry (tag : Fin 16) (x : TableEntry) : (s.setEntry tag x).Orderly := h.of_traffic rfl

theorem State.Orderly.takeAnswerOf (k : ReqKind) : (s.takeAnswerOf k).Orderly := by
  have heffects : ∀ (t : State) (o : AnswerOutcome), t.Orderly → (t.answerEffects o).Orderly := fun t o ht => by
    cases o with
    | full => exact State.Orderly.setLocalHold (ht.of_traffic rfl)
    | done => exact ht.of_traffic rfl
    | denied => exact ht.of_traffic rfl
    | range => exact ht.of_traffic rfl
  have htake : ∀ (t : State) (a : StorageAnswer), t.Orderly → (t.takeAnswer a).Orderly := fun t a ht => by
    unfold State.takeAnswer
    repeat' (first | split | simp only)
    · exact ht
    · exact ht
    · exact ht
    · exact ht
    · exact (heffects _ _ (ht.setEntry a.tag _)).handToOwner ..
    · exact ht
  unfold State.takeAnswerOf
  split
  · exact h
  · simp only
    split
    · exact h.of_traffic rfl
    · exact htake _ _ (h.of_traffic rfl)

theorem State.Orderly.timesOut (tag : Fin 16) : (s.timesOut tag).Orderly := by
  have hcount : s.countTimeout.Orderly := by
    unfold State.countTimeout
    simp only
    split
    · exact State.Orderly.setLocalHold (h.of_traffic rfl)
    · exact h.of_traffic rfl
  unfold State.timesOut
  repeat' (first | split | simp only)
  · exact (hcount.setEntry ..).handToOwner ..
  · exact hcount.setEntry ..
  · exact h
  · exact h
  · exact h

theorem State.Orderly.issue (tag : Fin 16) (r : Request) : (s.issue tag r).Orderly := h.of_traffic rfl

theorem State.Orderly.issueBatch (tag : Fin 16) (c : FeedContext) (purpose : Purpose) :
    (s.issueBatch tag c purpose).Orderly :=
  (((h.mapCtx c.feed _).issue tag _).syncRewrite c.feed).noteDelay c.feed

theorem State.Orderly.issueFill (tag : Fin 16) (c : FeedContext) (seq : Nat) : (s.issueFill tag c seq).Orderly :=
  (h.mapPos c.feed seq _).issue tag _

theorem State.Orderly.probeWaiting (b : Bool) : ({ s with probeWaiting := b } : State).Orderly := h.of_traffic rfl

theorem State.Orderly.waitChecks (l : List WaitCheck) : ({ s with waitChecks := l } : State).Orderly :=
  h.of_traffic rfl

theorem State.Orderly.waitRewrites (l : List WaitRewrite) : ({ s with waitRewrites := l } : State).Orderly :=
  h.of_traffic rfl

theorem State.Orderly.lastServed (f : Mark) : ({ s with lastServed := f } : State).Orderly := h.of_traffic rfl

theorem State.Orderly.browseReady (l : List Nat) : ({ s with browseReady := l } : State).Orderly :=
  h.of_traffic rfl

/-- Every turn of the service order (R115). -/
theorem State.Orderly.turns (tag : Fin 16) :
    ∀ u ∈ (s.turnProbe tag <|> s.turnCheck tag <|> s.turnRewrite tag <|> s.turnMark tag
      <|> s.turnLanding tag <|> s.turnBrowse tag), u.Orderly := by
  refine forall_mem_orElse ?_ (forall_mem_orElse ?_ (forall_mem_orElse ?_ (forall_mem_orElse ?_
    (forall_mem_orElse ?_ ?_))))
  all_goals intro u hu
  · unfold State.turnProbe at hu
    split at hu <;> cases hu
    exact (h.probeWaiting false).issue ..
  · unfold State.turnCheck at hu
    split at hu
    · cases hu
    · split at hu <;> cases hu
      exact (h.waitChecks _).issue ..
  · unfold State.turnRewrite at hu
    repeat' (first | split at hu | simp only at hu)
    all_goals cases hu
    · exact (h.waitRewrites _).issueBatch ..
    · exact (h.waitRewrites _).issueFill ..
  · unfold State.turnMark at hu
    repeat' split at hu
    all_goals cases hu
    exact ((h.waitMarks _).mapCtx ..).issue ..
  · unfold State.turnLanding at hu
    repeat' split at hu
    all_goals cases hu
    exact (h.lastServed _).issueBatch ..
  · unfold State.turnBrowse at hu
    repeat' split at hu
    all_goals cases hu
    exact ((h.browseReady _).mapJob ..).issue ..

theorem State.Orderly.serve : s.serve.Orderly := by
  unfold State.serve
  split
  · exact h
  · next tag _ =>
    split
    · have key := h.turns tag
      revert key
      cases s.turnProbe tag <|> s.turnCheck tag <|> s.turnRewrite tag <|> s.turnMark tag
          <|> s.turnLanding tag <|> s.turnBrowse tag with
      | none => exact fun _ => h
      | some u => exact fun key => key u rfl
    · exact h

/-! ### The Browse Engine -/

theorem State.Orderly.waitJobs (l : List Job) : ({ s with waitJobs := l } : State).Orderly := h.of_traffic rfl

/-- A job enters the browse queue where a place is free (R152, R153). -/
theorem State.Orderly.enterQueue : s.enterQueue.Orderly := by
  have hput : ∀ (t : State) (l : List Job), t.Orderly → l.length ≤ Config.browseQueue →
      ({ t with queueJobs := l } : State).Orderly := fun t l ⟨h1, h2, h3⟩ hl => ⟨h1, ⟨h2.1, hl⟩, h3⟩
  unfold State.enterQueue
  split
  · next hlen =>
    split
    · exact h
    · next j _ =>
      have hpos := (h.waitJobs (s.waitJobs.filter (fun k => k.uid != j.uid))).mapPos j.feed j.seq
        (fun p => { p with browse := some .queued })
      have hlong : ∀ k : Job, (s.queueJobs ++ [k]).length ≤ Config.browseQueue := fun k => by
        rw [List.length_append]
        exact hlen
      simp only
      split
      · exact (hput _ _ hpos (hlong _)).readyWrite j.uid
      · exact hput _ _ hpos (hlong _)
  · exact h

theorem State.Orderly.decodeEnds (ps : Option (List Picture)) : (s.decodeEnds ps).Orderly := by
  have hfail : ∀ j, (s.decodeFailed j).Orderly := fun j => by
    unfold State.decodeFailed
    split
    · exact (h.mapJob ..).readyWrite _
    · exact h.mapJob ..
  unfold State.decodeEnds
  repeat' split
  · exact h
  · exact (h.mapJob ..).readyWrite _
  · exact hfail _
  · exact hfail _

theorem State.Orderly.shed (feed seq : Nat) : (s.shed feed seq).Orderly := by
  unfold State.shed
  split
  · exact h
  · exact (h.removeJob _).of_traffic rfl

theorem State.Orderly.takeFragment (f : Frame) : (s.takeFragment f).Orderly := by
  have hgather : ∀ g, (s.gather g).Orderly := fun g => by
    unfold State.gather
    simp only
    split <;> exact h.of_traffic rfl
  unfold State.takeFragment
  repeat' (first | split | simp only)
  · exact h.of_traffic rfl
  · exact hgather _
  · exact hgather _
  · exact h.of_traffic rfl

/-! ### The station states -/

end

/-- A station with an empty ring, no answer and no queued job. -/
theorem State.orderly_of_empty {s : State} (hr : s.ring = []) (ha : s.answers = []) (hq : s.queueJobs = [])
    (ht : s.TransmitOk) : s.Orderly := by
  refine ⟨⟨?_, ?_, ?_, fun e he => ?_⟩, ⟨?_, ?_⟩, ht⟩
  all_goals simp_all [State.buffersUsed]

/-- Every block at its start-up value (R174, R177). -/
theorem State.orderly_powerReset (s : State) : s.powerReset.Orderly :=
  State.orderly_of_empty rfl rfl rfl ⟨fun _ => ⟨rfl, rfl, rfl, rfl⟩, fun _ => rfl⟩

theorem State.orderly_stationReset (s : State) : s.stationReset.Orderly :=
  State.orderly_of_empty rfl rfl rfl ⟨nofun, fun _ => rfl⟩

section
variable {s : State} (h : s.Orderly)
include h

/-- A station that receives frames may have its beacon timer run and frames wait (R92, R181). -/
theorem State.Orderly.receiving {t : State} (hring : t.ring = s.ring) (hans : t.answers = s.answers)
    (hq : t.queueJobs = s.queueJobs) (hr : t.receives = true) (hask : t.station ≠ .live → t.askQueue = []) :
    t.Orderly :=
  h.of_ring hring (Nat.le_of_eq (congrArg List.length hq)) (hans ▸ h.2.1.1)
    ⟨fun hn => absurd (hr.symm.trans hn) Bool.true_eq_false_eq_False, hask⟩

/-- The end of LOADING: a fault, or LISTENING or DETACHED (R177). -/
theorem State.Orderly.loadingCompletes (b : Bool) : (s.loadingCompletes b).Orderly := by
  unfold State.loadingCompletes
  split
  · exact h
  next hst =>
  have hload : s.station = .loading := by simpa using hst
  have hquiet := h.2.2.1 (by simp [State.receives, hload])
  have hask := h.2.2.2 (by simp [hload])
  have hfault : ∀ r, (s.setupFault r).Orderly := fun r =>
    h.of_ring rfl (Nat.le_refl _) h.2.1.1 ⟨fun _ => hquiet, fun _ => hask⟩
  split
  · exact hfault _
  split
  · exact hfault _
  · unfold State.loadedWell
    simp only
    split
    · exact h.receiving rfl rfl rfl rfl fun _ => hask
    · exact h.of_ring rfl (Nat.le_refl _) h.2.1.1 ⟨fun _ => hquiet, fun _ => hask⟩

/-- A lost link empties the transmit queue (R181). -/
theorem State.Orderly.linkLost : s.linkLost.Orderly := by
  unfold State.linkLost
  simp only
  split
  · exact h.of_ring rfl (Nat.le_refl _) (Nat.zero_le _) ⟨fun _ => ⟨rfl, rfl, rfl, rfl⟩, fun _ => rfl⟩
  · exact h.of_traffic rfl

theorem State.Orderly.releaseAll : s.releaseAll.Orderly := .foldl (fun _ t hu => hu.releaseTriple t) h _

theorem State.Orderly.removeAll : s.removeAll.Orderly :=
  (State.Orderly.foldl (fun _ f hu => hu.removeContext f) h _).adoptedSet []

theorem State.Orderly.stopGapWaits : s.stopGapWaits.Orderly := h.of_traffic rfl

/-- The entry to LISTENING from a station where no ask waits. -/
theorem State.Orderly.enterListening (hask : s.askQueue = []) : s.enterListening.Orderly :=
  h.receiving rfl rfl rfl rfl fun _ => hask

/-- A REJOIN empties neither ring nor queues; DETACHED left the transmit queue empty (R181, R182). -/
theorem State.Orderly.linkReturns : s.linkReturns.Orderly := by
  by_cases hst : s.station = .detached
  · rw [State.linkReturns_of_detached hst]
    have hbegin : s.rejoining.Orderly :=
      h.receiving rfl rfl rfl rfl fun _ => h.2.2.2 (by rw [hst]; decide)
    have hkept : s.rejoinKept.Orderly := by
      unfold State.rejoinKept
      split
      · exact hbegin.releaseAll.stopGapWaits
      · exact hbegin.removeAll
    have hlisten : s.rejoinKept.station = .listening := s.rejoinKept_outer.observe (·.station) fun _ => rfl
    exact hkept.enterListening (hkept.2.2.2 (by rw [hlisten]; decide))
  · have hlink : s.linkReturns = { s with linkUp := true } := by simp [State.linkReturns, hst]
    rw [hlink]
    exact h.of_traffic rfl

/-- The move to LIVE (R183). -/
theorem State.Orderly.listeningEnds : s.listeningEnds.Orderly := by
  have hlive : ({ s with station := .live, listenUntil := none } : State).Orderly :=
    h.receiving rfl rfl rfl rfl fun hne => absurd rfl hne
  unfold State.listeningEnds
  repeat' split
  · exact h.of_traffic rfl
  · exact (State.Orderly.foldl (fun _ f hu => hu.updateWindow f) hlive _).searchOrphans.recomputeCommits
  · exact h

/-! ### Peers, timers and the maintenance line -/

theorem State.Orderly.peerFallsSilent (n : Nat) : (s.peerFallsSilent n).Orderly := by
  unfold State.peerFallsSilent
  repeat' split
  · exact h
  · exact State.Orderly.afterPeerChange (h.of_traffic rfl)
  · exact h

theorem State.Orderly.peerRemoved (n : Nat) : (s.peerRemoved n).Orderly := by
  unfold State.peerRemoved
  repeat' split
  · exact h
  · exact State.Orderly.afterPeerChange (h.of_traffic rfl)
  · exact h

theorem State.Orderly.lingerExpires (feed : Nat) : (s.lingerExpires feed).Orderly := by
  unfold State.lingerExpires
  repeat' split
  · exact h
  · exact (h.removeContext feed).of_traffic rfl
  · exact h

theorem State.Orderly.pacingExpires (feed : Nat) : (s.pacingExpires feed).Orderly := by
  unfold State.pacingExpires
  repeat' split
  · exact h
  · exact (h.mapCtx ..).paceTest feed
  · exact h

theorem State.Orderly.reducerTakes : s.reducerTakes.Orderly := by
  unfold State.reducerTakes
  split
  · exact h.mapJob ..
  · exact h

theorem State.Orderly.quietEnds : s.quietEnds.Orderly := by
  unfold State.quietEnds
  repeat' split
  all_goals exact h.of_traffic rfl

theorem State.Orderly.staleEnds (tag : Fin 16) : (s.staleEnds tag).Orderly := by
  unfold State.staleEnds
  repeat' split
  all_goals exact h.of_traffic rfl

theorem State.Orderly.probeTimerExpires : s.probeTimerExpires.Orderly := by
  unfold State.probeTimerExpires
  repeat' split
  all_goals exact h.of_traffic rfl

/-! The maintenance line speaks of nothing the invariant is judged by (R184, R185). -/

theorem State.Orderly.readStatus : s.readStatus.Orderly := by
  unfold State.readStatus
  repeat' split
  all_goals exact h.of_traffic rfl

theorem State.Orderly.readRecord (b : Bool) : (s.readRecord b).Orderly := by
  unfold State.readRecord
  repeat' split
  all_goals exact h.of_traffic rfl

theorem State.Orderly.writeRecord (r : List Byte) : (s.writeRecord r).Orderly := by
  unfold State.writeRecord
  repeat' split
  all_goals exact h.of_traffic rfl

theorem State.Orderly.writeCutOff : s.writeCutOff.Orderly := by
  unfold State.writeCutOff
  split
  all_goals exact h.of_traffic rfl

theorem State.Orderly.recordWritten (b : Bool) : (s.recordWritten b).Orderly := by
  unfold State.recordWritten
  repeat' split
  · exact h
  · exact h.of_traffic rfl
  · exact h.writeCutOff.of_traffic rfl

theorem State.Orderly.answerSent : s.answerSent.Orderly := by
  unfold State.answerSent
  repeat' split
  all_goals exact h.of_traffic rfl

/-! ### Received frames -/

theorem State.Orderly.receiveDirective (body : List Byte) : (s.receiveDirective body).Orderly := by
  unfold State.receiveDirective
  split
  · exact h
  · next d _ =>
    cases d with
    | openFeed feed p => exact h.openContext ..
    | closeFeed feed e => exact h.closeContext ..
    | abortFeed feed => exact h.abortContext ..
    | hold feed land browse => exact h.applyHold ..
    | release feed land browse => exact h.applyRelease ..
    | stationReset n =>
      simp only [State.applyDirective]
      split
      · exact s.orderly_stationReset
      · exact h

theorem State.Orderly.countMalformed : s.countMalformed.Orderly := h.of_traffic rfl

theorem State.Orderly.receiveFrame (f : Frame) : (s.receiveFrame f).Orderly := by
  unfold State.receiveFrame State.sortFrame
  split
  · exact h
  next hquiet =>
  have hr : s.receives = true := by simpa using hquiet
  repeat' split
  · exact h
  · exact h.countMalformed
  · exact h.countMalformed
  · exact h.intakeCell ..
  · exact h.intakeCell ..
  · exact h.receiveBeacon _
  · exact h.receiveAsk hr _
  · exact h.receiveDirective _
  · exact h.countMalformed

/-- Every command answers a next state, in which the invariant holds again. -/
theorem State.Orderly.exec (i : Instr) : ∃ t, exec i s = .next t ∧ t.Orderly := by
  cases i with
  | powerReset => exact ⟨_, rfl, s.orderly_powerReset⟩
  | loadingComplete b => exact ⟨_, rfl, h.loadingCompletes b⟩
  | storageQuietTimeEnd => exact ⟨_, rfl, h.quietEnds⟩
  | captureLinkLost => exact ⟨_, rfl, h.linkLost⟩
  | captureLinkReturn => exact ⟨_, rfl, h.linkReturns⟩
  | listeningPeriodEnd => exact ⟨_, rfl, h.listeningEnds⟩
  | beaconTimerExpiry => exact ⟨_, rfl, h.beaconDue⟩
  | portTransmit => exact ⟨_, rfl, h.transmit⟩
  | peerSilent n => exact ⟨_, rfl, h.peerFallsSilent n⟩
  | peerRemoved n => exact ⟨_, rfl, h.peerRemoved n⟩
  | answerBackoffExpiry feed seq => exact ⟨_, rfl, h.answerDue ..⟩
  | gapWaitExpiry feed seq => exact ⟨_, rfl, h.gapExpires ..⟩
  | storageIssue => exact ⟨_, rfl, h.serve⟩
  | writeAnswer => exact ⟨_, rfl, h.takeAnswerOf _⟩
  | checkAnswer => exact ⟨_, rfl, h.takeAnswerOf _⟩
  | markAnswer => exact ⟨_, rfl, h.takeAnswerOf _⟩
  | probeAnswer => exact ⟨_, rfl, h.takeAnswerOf _⟩
  | storageTimeout tag => exact ⟨_, rfl, h.timesOut tag⟩
  | stalePeriodEnd tag => exact ⟨_, rfl, h.staleEnds tag⟩
  | probeTimerExpiry => exact ⟨_, rfl, h.probeTimerExpires⟩
  | lingerExpiry feed => exact ⟨_, rfl, h.lingerExpires feed⟩
  | pacingTimerExpiry feed => exact ⟨_, rfl, h.pacingExpires feed⟩
  | landingDelayReached feed => exact ⟨_, rfl, h.noteDelay feed⟩
  | browseQueueEntry => exact ⟨_, rfl, h.enterQueue⟩
  | reducerTakesJob => exact ⟨_, rfl, h.reducerTakes⟩
  | decodeComplete ps => exact ⟨_, rfl, h.decodeEnds ps⟩
  | shedAgeExpiry feed seq => exact ⟨_, rfl, h.shed ..⟩
  | readStatus => exact ⟨_, rfl, h.readStatus⟩
  | readRecord b => exact ⟨_, rfl, h.readRecord b⟩
  | writeRecord r => exact ⟨_, rfl, h.writeRecord r⟩
  | recordWriteComplete b => exact ⟨_, rfl, h.recordWritten b⟩
  | storageFragmentReceived f => exact ⟨_, rfl, h.takeFragment f⟩
  | maintenanceAnswerSent => exact ⟨_, rfl, h.answerSent⟩
  | _ f => exact ⟨_, rfl, h.receiveFrame f⟩

theorem State.Orderly.step {t : State} (hstep : step s = .next t) : t.Orderly := by
  unfold Machine.step at hstep
  split at hstep
  · cases hstep
    exact h.of_traffic rfl
  · next i rest _ =>
    have hrest : ({ s with pending := rest } : State).Orderly := h.of_traffic rfl
    obtain ⟨u, hu, hord⟩ := hrest.exec i
    cases hu.symm.trans hstep
    exact hord

end

/-- Settles O58: the ring, the queues and the answers stay in order, whichever command is taken. -/
theorem stepKeepsQueues : Obligations.StepKeepsQueues :=
  fun _ _ hring hqueues hsend hstep => State.Orderly.step ⟨hring, hqueues, hsend⟩ hstep

end Sys2Proof.Machine
end

