-- ==== Sys2Proof/Proofs/CellFrames.lean ====
section
/-! Frames that change nothing, frames that are counted malformed, and cells that the ring does not take
(R49 to R53, R56, R101). -/

namespace Sys2Proof.Machine

/-! ### Frames not taken, and malformed ones -/

/-- Settles O17: every receive command hands its frame to the sorter, which does not take it. -/
theorem framesNotTaken : Obligations.FramesNotTaken := by
  intro s f hf i hi
  rw [exec_receive hi, State.receiveFrame_of_not_taken hf]

/-- A capture frame to another address is counted malformed (R49). -/
theorem State.receiveFrame_elsewhere {s : State} {f : Frame} (hr : s.receives = true)
    (hf : f.ftype = Config.captureType) (hd : f.dest ≠ s.settings.groupAddr) : s.receiveFrame f = s.countMalformed := by
  simp [State.receiveFrame, hr, hf, hd]

/-- A frame of no kind that R188 names is counted malformed (R49, log 24). -/
theorem State.sortFrame_unknown {s : State} {f : Frame} (hk : ∀ k, f.body[0]? = some k → k = 0#8 ∨ 5 < k.toNat) :
    s.sortFrame f = s.countMalformed := by
  unfold State.sortFrame
  split
  · rfl
  · next k hbody =>
    have hne : ∀ n : Nat, 1 ≤ n → n ≤ 5 → k ≠ BitVec.ofNat 8 n := by
      rintro n h1 h5 rfl
      rcases hk _ hbody with h | h
      · have := congrArg BitVec.toNat h
        simp only [BitVec.toNat_ofNat] at this
        omega
      · simp only [BitVec.toNat_ofNat] at h
        omega
    rw [if_neg (hne 1 (by decide) (by decide)), if_neg (hne 2 (by decide) (by decide)),
      if_neg (hne 3 (by decide) (by decide)), if_neg (hne 4 (by decide) (by decide)),
      if_neg (hne 5 (by decide) (by decide))]

/-- A heard cell goes to Cell Intake. -/
theorem State.receiveFrame_intake {s : State} {f : Frame} {mend : Bool}
    (h : s.Hears f (if mend then 0x02#8 else 0x01#8)) : s.receiveFrame f = s.intakeCell mend f.body := by
  rw [State.receiveFrame_of_hears h]
  obtain ⟨-, -, -, hk⟩ := h
  cases mend <;> simp at hk <;> simp [State.sortFrame, hk]

/-- A cell that is too short or fails a check is counted malformed (R51, R52, R186). -/
theorem State.intakeCell_malformed {s : State} {mend : Bool} {body : List Byte} (h : parseCell body = none
    ∨ ∃ c, parseCell body = some c ∧ (c.senderOk mend = false ∨ c.contentOk = false)) :
    s.intakeCell mend body = s.countMalformed := by
  rcases h with hnone | ⟨c, hc, hbad⟩
  · simp only [State.intakeCell, hnone]
  · have hfail : (c.senderOk mend && c.contentOk) = false := by
      rcases hbad with hbad | hbad <;> simp [hbad]
    simp only [State.intakeCell, hc, hfail, Bool.false_eq_true, if_false]

/-- Settles O18: the three ways a capture frame is malformed, each counted by the sorter or by Cell Intake. -/
theorem malformedFramesCounted : Obligations.MalformedFramesCounted := by
  intro s f hr hf hbad i hi
  have hcount : s.receiveFrame f = s.countMalformed := by
    rcases hbad with hd | hk | ⟨mend, hear, hcell⟩
    · exact State.receiveFrame_elsewhere hr hf hd
    · by_cases hd : f.dest = s.settings.groupAddr
      · have hsort : s.receiveFrame f = s.sortFrame f := by simp [State.receiveFrame, hr, hf, hd]
        rw [hsort, State.sortFrame_unknown hk]
      · exact State.receiveFrame_elsewhere hr hf hd
    · rw [State.receiveFrame_intake hear, State.intakeCell_malformed hcell]
  rw [exec_receive hi, hcount]
  rfl

/-! ### The counters over a cell's steps -/

theorem State.counters_seen (s : State) (mend : Bool) (c : Cell) : (s.seen mend c).counters = s.counters := by
  cases mend <;> rfl

theorem State.ring_seen (s : State) (mend : Bool) (c : Cell) : (s.seen mend c).ring = s.ring := by
  cases mend <;> rfl

theorem State.ctx?_seen (s : State) (mend : Bool) (c : Cell) (feed : Nat) :
    (s.seen mend c).ctx? feed = s.ctx? feed := by
  cases mend <;> rfl

theorem State.station_seen (s : State) (mend : Bool) (c : Cell) : (s.seen mend c).station = s.station := by
  cases mend <;> rfl

theorem State.counters_sight (s : State) (feed seq : Nat) : (s.sight feed seq).counters = s.counters :=
  (s.frame_sight feed seq).observe (·.counters) fun _ => rfl

theorem State.counters_removeEntry (s : State) (feed seq : Nat) : (s.removeEntry feed seq).counters = s.counters :=
  ((s.dropEntry feed seq).frame_reportRemoved feed seq).observe (·.counters) fun _ => rfl

theorem State.counters_makeRoom (s : State) (feed seq : Nat) (new : Bool) :
    (s.makeRoom feed seq new).counters = s.counters := by
  unfold State.makeRoom
  generalize s.ring.length = fuel
  induction fuel generalizing s with
  | zero => rfl
  | succ fuel ih =>
    unfold State.evict
    split
    · rfl
    · split
      · rfl
      · exact (ih _).trans (s.counters_removeEntry ..)

theorem State.counters_checkChunk (s : State) (feed seq : Nat) : (s.checkChunk feed seq).counters = s.counters := by
  unfold State.checkChunk
  repeat' split
  · rfl
  · exact ((State.frame_reportWhole _ feed seq _).trans (State.frame_reportLast _ feed seq _)).observe (·.counters)
      fun _ => rfl
  · exact s.counters_removeEntry feed seq
  · rfl

/-- Placing a cell whose header fields are its entry's raises no mismatch (R56). -/
theorem State.mismatches_placeCell {s : State} {c : Cell} {e : RingEntry} (he : s.entry? c.feed c.seq = some e)
    (hh : e.hdr = c.hdr) : (s.placeCell c).counters.cellMismatches = s.counters.cellMismatches := by
  have hne : (e.hdr != c.hdr) = false := by simp [hh]
  simp only [State.placeCell, he, hne, Bool.false_eq_true, if_false]
  split
  · rfl
  · have hroom := congrArg (·.cellMismatches) (s.counters_makeRoom c.feed c.seq false)
    unfold State.storeCell
    simp only
    split
    · rw [State.counters_checkChunk]
      exact hroom
    · exact hroom

theorem State.placeCell_mismatched {s : State} {c : Cell} {e : RingEntry} (he : s.entry? c.feed c.seq = some e)
    (hh : e.hdr ≠ c.hdr) : s.placeCell c = s.countMismatch := by
  have hne : (e.hdr != c.hdr) = true := by simp [hh]
  simp only [State.placeCell, he, hne, if_true]

/-! ### Cells that the ring does not take -/

/-- A cell command hands the cell of its frame to its steps, once a mend cell has been reported (R53). -/
theorem exec_cellCommand {s : State} {f : Frame} {mend : Bool} {c : Cell} (h : s.HearsCell f mend c) :
    exec (cellCommand mend f) s = .next ((s.seen mend c).takeCell c) := by
  rw [exec_cell h (by cases mend <;> simp [cellCommand, receiveCommands]), State.reported_eq]

theorem State.takeCell_contextless {s : State} {c : Cell} (hc : s.ctx? c.feed = none) :
    s.takeCell c = s.placeCell c := by
  simp only [State.takeCell, hc]

theorem State.entry?_sight (s : State) (feed seq g n : Nat) : (s.sight feed seq).entry? g n = s.entry? g n := by
  simp only [State.entry?, State.ring_sight]

/-- A cell below C is placed in a state with the ring and the counters as they were. -/
theorem State.takeCell_places {s : State} {c : Cell}
    (hx : ∀ x, s.ctx? c.feed = some x → c.seq < x.params.slotCount) :
    ∃ w : State, s.takeCell c = w.placeCell c ∧ w.ring = s.ring ∧ w.counters = s.counters := by
  cases hc : s.ctx? c.feed with
  | none => exact ⟨s, State.takeCell_contextless hc, rfl, rfl⟩
  | some x =>
    exact ⟨_, State.takeCell_sighted hc (hx x hc), s.ring_sight .., s.counters_sight ..⟩

theorem ChunkHeader.eq_iff (a b : ChunkHeader) : a = b ↔ a.cells = b.cells ∧ a.length = b.length
    ∧ a.first = b.first ∧ a.frames = b.frames ∧ a.check = b.check ∧ a.last = b.last := by
  cases a
  cases b
  simp only [ChunkHeader.mk.injEq]

/-- Settles O22: the header fields decide, and a sighting and a mend cell's report keep ring and counters. -/
theorem mismatchedCellDiscarded : Obligations.MismatchedCellDiscarded := by
  intro s f mend c e hear hx he i hi
  have hcmd : i ∈ receiveCommands f := by
    simp only [List.mem_cons, List.not_mem_nil, or_false] at hi
    rcases hi with rfl | rfl <;> simp [receiveCommands]
  obtain ⟨w, hplace, hring, hcounters⟩ := State.takeCell_places (s := s.seen mend c) (c := c) fun x hc =>
    hx x ((s.ctx?_seen mend c c.feed).symm.trans hc)
  rw [State.ring_seen] at hring
  rw [State.counters_seen] at hcounters
  have hw : w.entry? c.feed c.seq = some e := by simpa only [State.entry?, hring] using he
  refine ⟨_, by rw [exec_cell hear hcmd, State.reported_eq, hplace], fun hdiff => ?_, fun hsame => ?_⟩
  · have hne : e.hdr ≠ c.hdr := fun heq => by simp [heq] at hdiff
    rw [State.placeCell_mismatched hw hne, ← hcounters]
    exact ⟨hring, rfl⟩
  · rw [State.mismatches_placeCell hw ((ChunkHeader.eq_iff ..).mpr hsame), hcounters]

/-- Settles O24: the WHOLE entry takes no cell, so that the report to the answering side is all there is. -/
theorem mendCellShrinksAnswers : Obligations.MendCellShrinksAnswers := by
  intro s f c e hear hc he hh hw
  have hrun : exec (.mendCell f) s = .next ((s.mendSeen c).takeCell c) := exec_cellCommand hear
  have hctx : (s.mendSeen c).ctx? c.feed = none := hc
  have hent : (s.mendSeen c).entry? c.feed c.seq = some e := he
  have hne : (e.hdr != c.hdr) = false := by simp [hh]
  rw [hrun, State.takeCell_contextless hctx]
  simp only [State.placeCell, hent, hne, hw, Bool.true_or, Bool.false_eq_true, if_true, if_false]

end Sys2Proof.Machine
end

