-- ==== Sys2Proof/Proofs/RingRoom.lean ====
section
/-! Room made in the ring for a cell, and the report of the entry that leaves for it (R65, R66, R81, R102). -/

namespace Sys2Proof.Machine

/-! ### Positions whose gap wait alone may start -/

/-- `q` is `p` but for a gap wait that has started where none ran (R83). -/
def Position.Waiting (p q : Position) : Prop :=
  q = { p with gapWait := q.gapWait } ∧ (p.gapWait ≠ none → q.gapWait = p.gapWait)

theorem Position.Waiting.refl (p : Position) : p.Waiting p := ⟨rfl, fun _ => rfl⟩

theorem Position.Waiting.trans {p q r : Position} (h : p.Waiting q) (k : q.Waiting r) : p.Waiting r := by
  obtain ⟨heq, hgap⟩ := h
  obtain ⟨keq, kgap⟩ := k
  refine ⟨keq.trans (by rw [heq]), fun hne => ?_⟩
  have hq := hgap hne
  exact (kgap (hq ▸ hne)).trans hq

theorem FeedContext.startWait_waiting (c : FeedContext) (due : Nat) (p : Position) :
    p.Waiting (c.startWait due p) :=
  ⟨c.startWait_eq due p, fun hne => by rw [c.startWait_gapWait, if_neg fun h => hne h.1]⟩

/-- Every position of `s` is in `t`, but for gap waits that have started. -/
def State.WaitsOnly (s t : State) : Prop :=
  ∀ g n p, s.pos? g n = some p → ∃ q, t.pos? g n = some q ∧ p.Waiting q

theorem State.WaitsOnly.refl (s : State) : s.WaitsOnly s := fun _ _ p hp => ⟨p, hp, .refl p⟩

theorem State.WaitsOnly.trans {s t u : State} (h : s.WaitsOnly t) (k : t.WaitsOnly u) : s.WaitsOnly u :=
  fun g n p hp => by
    obtain ⟨q, hq, hpq⟩ := h g n p hp
    obtain ⟨r, hr, hqr⟩ := k g n q hq
    exact ⟨r, hr, hpq.trans hqr⟩

theorem State.WaitsOnly.mapCtx (s : State) (feed : Nat) {f : FeedContext → FeedContext}
    (hf : ∀ c, (f c).feed = c.feed)
    (hw : ∀ c n p, c.pos? n = some p → ∃ q, (f c).pos? n = some q ∧ p.Waiting q) :
    s.WaitsOnly (s.mapCtx feed f) := fun g n p hp => by
  obtain ⟨c, hc, hcp⟩ := Option.bind_eq_some_iff.mp hp
  have hctx := s.ctx?_mapCtx feed g f hf
  rw [hc] at hctx
  by_cases hg : (g == feed) = true
  · obtain ⟨q, hq, hpq⟩ := hw c n p hcp
    exact ⟨q, by simpa [State.pos?, hctx, hg] using hq, hpq⟩
  · exact ⟨p, by simpa [State.pos?, hctx, hg] using hcp, .refl p⟩

theorem State.waitsOnly_gapTest (s : State) (feed : Nat) : s.WaitsOnly (s.gapTest feed) := by
  unfold State.gapTest
  split
  · refine .mapCtx s feed (fun _ => rfl) fun c n p hp =>
      ⟨c.startWait (s.now + s.settings.gapWait) p, ?_, c.startWait_waiting _ p⟩
    exact (c.pos?_waitsStarted (s.now + s.settings.gapWait) n).trans (by rw [hp]; rfl)
  · exact .refl s

/-- A sighting changes no position but by the gap waits it starts (R20, R83). -/
theorem State.waitsOnly_sight (s : State) (feed seq : Nat) : s.WaitsOnly (s.sight feed seq) := by
  have hfeed : ∀ c : FeedContext, (c.risen s.settings.margin seq).feed = c.feed := fun c => by
    unfold FeedContext.risen FeedContext.assessAllotment
    split <;> rfl
  have hrise : s.WaitsOnly (s.mapCtx feed (fun c => c.risen s.settings.margin seq)) :=
    .mapCtx s feed hfeed fun c n p hp => by
      obtain ⟨-, -, -, hpos, -⟩ := c.risen_fields s.settings.margin seq
      exact ⟨p, by simpa only [FeedContext.pos?, hpos] using hp, .refl p⟩
  unfold State.sight
  split
  · exact .refl s
  · split
    · exact hrise.trans (State.waitsOnly_gapTest _ feed)
    · exact .refl s

/-! ### The removal of an entry -/

theorem State.ring_removeEntry (s : State) (feed seq : Nat) :
    (s.removeEntry feed seq).ring = s.ring.filter (fun x => !(x.feed == feed && x.seq == seq)) :=
  (s.dropEntry feed seq).ring_reportRemoved feed seq

theorem State.answers_removeEntry (s : State) (feed seq : Nat) :
    (s.removeEntry feed seq).answers = s.answers.filter (fun x => !(x.feed == feed && x.seq == seq)) :=
  congrArg (List.filter _)
    (((s.dropEntry feed seq).frame_reportRemoved feed seq).observe (·.answers) fun _ => rfl)

theorem State.mendQueue_removeEntry (s : State) (feed seq : Nat) :
    (s.removeEntry feed seq).mendQueue = s.mendQueue.filter (fun m => !(m.feed == feed && m.seq == seq)) :=
  congrArg (List.filter _)
    (((s.dropEntry feed seq).frame_reportRemoved feed seq).observe (·.mendQueue) fun _ => rfl)

/-- The window's part of a removal changes the contexts alone. -/
theorem State.reportRemoved_rest (s : State) (feed seq : Nat) :
    { s.reportRemoved feed seq with contexts := s.contexts } = s := by
  unfold State.reportRemoved State.gapTestAt
  repeat' split
  all_goals rfl

/-- A removal that no position of the window follows. -/
theorem State.reportRemoved_quiet {s : State} {feed seq : Nat} (h : s.windowsRun = false
    ∨ ∀ p, s.pos? feed seq = some p → p.land ≠ .gathering ∨ p.hasRef = false) : s.reportRemoved feed seq = s := by
  unfold State.reportRemoved
  split
  · next hrun =>
    split
    · rfl
    · next p hp =>
      rcases h with h | h
      · rw [hrun] at h
        cases h
      · rw [if_neg fun hk => ?_]
        simp only [Bool.and_eq_true, beq_iff_eq] at hk
        rcases h p hp with hl | href
        · exact hl hk.1
        · rw [href] at hk
          cases hk.2
  · rfl

theorem State.pos?_gapTestAt_ne (s : State) {feed seq g n : Nat} (h : ¬(g = feed ∧ n = seq)) :
    (s.gapTestAt feed seq).pos? g n = s.pos? g n := by
  unfold State.gapTestAt
  split
  · simp only [State.pos?]
    rw [s.ctx?_mapCtx feed g (fun c => c.mapPos seq (c.startWait (s.now + s.settings.gapWait))) fun _ => rfl]
    cases s.ctx? g with
    | none => rfl
    | some c =>
      by_cases hg : g = feed
      · have hn : (n == seq) = false := by simpa using fun hn => h ⟨hg, hn⟩
        rw [Option.map_some, if_pos (by simp [hg]), Option.bind_some,
          c.pos?_mapPos seq n _ fun p => (c.startWait_seq_pinned _ p).1, hn]
        simp
      · simp [hg]
  · rfl

theorem State.waitsOnly_gapTestAt (s : State) (feed seq : Nat) : s.WaitsOnly (s.gapTestAt feed seq) := by
  unfold State.gapTestAt
  split
  · refine .mapCtx s feed (fun _ => rfl) fun c n p hp => ?_
    rw [c.pos?_mapPos seq n _ fun p => (c.startWait_seq_pinned _ p).1, hp]
    refine ⟨_, rfl, ?_⟩
    split
    · exact c.startWait_waiting _ p
    · exact .refl p
  · exact .refl s

/-- A GATHERING position whose entry leaves becomes ABSENT, a wait that runs on it going on, and every other
position stays as it is (R81). -/
theorem State.reportRemoved_gathering {s : State} {feed seq : Nat} {p : Position} (hrun : s.windowsRun = true)
    (hp : s.pos? feed seq = some p) (hl : p.land = .gathering) (href : p.hasRef = true) :
    (∃ q, (s.reportRemoved feed seq).pos? feed seq = some q
        ∧ ({ p with land := .absent, hasRef := false } : Position).Waiting q)
      ∧ ∀ g n, ¬(g = feed ∧ n = seq) → (s.reportRemoved feed seq).pos? g n = s.pos? g n := by
  have hrep : s.reportRemoved feed seq
      = (s.mapPos feed seq (fun p => { p with land := .absent, hasRef := false })).gapTestAt feed seq := by
    simp [State.reportRemoved, hrun, hp, hl, href]
  have hmap := fun g n => s.pos?_mapPos feed seq g n (fun p => { p with land := .absent, hasRef := false }) fun _ => rfl
  rw [hrep]
  refine ⟨State.waitsOnly_gapTestAt _ feed seq feed seq _ ?_, fun g n hne => ?_⟩
  · rw [hmap, hp]
    simp
  · rw [State.pos?_gapTestAt_ne _ hne, hmap]
    have hk : (g == feed && n == seq) = false := by simpa using hne
    simp [hk]

/-- What the removal of an entry does beside the ring and the counters (R66, R81, R102). -/
theorem State.removalReported (s : State) (v : RingEntry) : s.RemovalReported (s.removeEntry v.feed v.seq) v := by
  refine ⟨s.answers_removeEntry .., s.mendQueue_removeEntry .., fun hquiet => ?_, fun p hrun hp hl href => ?_, ?_⟩
  · have hsame := congrArg State.contexts (State.reportRemoved_quiet (s := s.dropEntry v.feed v.seq) hquiet)
    exact hsame
  · exact State.reportRemoved_gathering (s := s.dropEntry v.feed v.seq) hrun hp hl href
  · have hrest := congrArg (fun t : State =>
        { t with ring := s.ring, counters := s.counters, answers := s.answers, mendQueue := s.mendQueue })
      ((s.dropEntry v.feed v.seq).reportRemoved_rest v.feed v.seq)
    exact hrest

/-- What a removal tells, to a state that a sighting came before, and that more follows beside its position. -/
theorem State.RemovalReported.told {u w r t : State} {v : RingEntry} (h : w.RemovalReported r v)
    (hw : u.WaitsOnly w) (hout : { w with contexts := u.contexts } = u) (hans : t.answers = r.answers)
    (hmend : t.mendQueue = r.mendQueue) (hpos : t.pos? v.feed v.seq = r.pos? v.feed v.seq) : u.RemovalTold t v := by
  obtain ⟨h1, h2, -, h4, -⟩ := h
  refine ⟨?_, ?_, fun p hrun hp hl href => ?_⟩
  · rw [hans, h1, show w.answers = u.answers from (congrArg State.answers hout :)]
  · rw [hmend, h2, show w.mendQueue = u.mendQueue from (congrArg State.mendQueue hout :)]
  · obtain ⟨p', hp', heq, hgap⟩ := hw v.feed v.seq p hp
    have hrunw : w.windowsRun = true := (congrArg State.windowsRun hout).trans hrun
    obtain ⟨⟨q, hq, hqe, hqg⟩, -⟩ := h4 p' hrunw hp' (by rw [heq]; exact hl) (by rw [heq]; exact href)
    refine ⟨q, hpos.trans hq, hqe.trans (by rw [heq]), fun hne => ?_⟩
    have hkept := hgap hne
    exact (hqg (by rw [hkept]; exact hne)).trans hkept

/-! ### Room (R65) -/

section
variable {s : State} {feed seq : Nat}

/-- Every entry pinned, or the cell's own: no candidate. -/
theorem State.victim_none (h : ∀ x ∈ s.ring, 0 < x.pins ∨ (x.feed = feed ∧ x.seq = seq)) :
    s.victim feed seq = none := by
  refine List.find?_eq_none.mpr fun x hx => ?_
  rcases h x hx with hp | ⟨h1, h2⟩
  · simp [Nat.pos_iff_ne_zero.mp hp]
  · simp [h1, h2]

/-- The oldest entry that is neither pinned nor the cell's own is the candidate. -/
theorem State.victim_first {before after : List RingEntry} {v : RingEntry} (hr : s.ring = before ++ v :: after)
    (hb : ∀ x ∈ before, 0 < x.pins ∨ (x.feed = feed ∧ x.seq = seq)) (hv : v.pins = 0)
    (hne : ¬(v.feed = feed ∧ v.seq = seq)) : s.victim feed seq = some v := by
  have hnone : before.find? (fun e => e.pins == 0 && !(e.feed == feed && e.seq == seq)) = none :=
    State.victim_none (s := { s with ring := before }) hb
  have hown : (v.feed == feed && v.seq == seq) = false := by simpa using hne
  rw [State.victim, hr, List.find?_append, hnone, Option.none_or, List.find?_cons_of_pos]
  simp [hv, hown]

theorem State.makeRoom_stuck {new : Bool} (h : s.victim feed seq = none) : s.makeRoom feed seq new = s := by
  unfold State.makeRoom
  cases s.ring.length with
  | zero => rfl
  | succ n =>
    simp only [State.evict, h]
    split <;> rfl

/-- One entry leaves, where room is then made. -/
theorem State.makeRoom_evicts {new : Bool} {v : RingEntry} (hno : s.hasRoom new = false)
    (hv : s.victim feed seq = some v) (hroom : (s.removeEntry v.feed v.seq).hasRoom new = true) :
    s.makeRoom feed seq new = s.removeEntry v.feed v.seq := by
  have hmem : v ∈ s.ring := List.mem_of_find?_eq_some hv
  have hstop : ∀ n, State.evict feed seq new n (s.removeEntry v.feed v.seq) = s.removeEntry v.feed v.seq := fun n => by
    cases n with
    | zero => rfl
    | succ n => simp only [State.evict, hroom, if_true]
  unfold State.makeRoom
  cases hlen : s.ring.length with
  | zero =>
    rw [List.length_eq_zero_iff.mp hlen] at hmem
    cases hmem
  | succ n => simp only [State.evict, hno, hv, Bool.false_eq_true, if_false, hstop]

/-- The entry that leaves a ring with one entry for a chunk leaves the others in their order. -/
theorem State.RingOk.ring_evicted {before after : List RingEntry} {v : RingEntry} (h : s.RingOk)
    (hr : s.ring = before ++ v :: after) : (s.removeEntry v.feed v.seq).ring = before ++ after := by
  obtain ⟨hkeys, -⟩ := h
  rw [hr, List.map_append, List.map_cons, List.nodup_append] at hkeys
  obtain ⟨-, hcons, hdisjoint⟩ := hkeys
  obtain ⟨hnot, -⟩ := List.nodup_cons.mp hcons
  have hkeep : ∀ l : List RingEntry, v.key ∉ l.map RingEntry.key →
      l.filter (fun x => !(x.feed == v.feed && x.seq == v.seq)) = l := fun l hl => by
    refine List.filter_eq_self.mpr fun x hx => ?_
    simp only [Bool.not_eq_true', Bool.and_eq_false_iff, beq_eq_false_iff_ne]
    by_contra hk
    rw [not_or, not_not, not_not] at hk
    exact hl (List.mem_map.mpr ⟨x, hx, by simp [RingEntry.key, hk]⟩)
  have hbefore : v.key ∉ before.map RingEntry.key := fun hv => hdisjoint _ hv _ (List.mem_cons_self ..) rfl
  rw [State.ring_removeEntry, hr, List.filter_append, hkeep _ hbefore, List.filter_cons_of_neg (by simp),
    hkeep _ hnot]

/-- An entry with a cell leaves a buffer and a place free (R61, R62). -/
theorem State.RingOk.hasRoom_evicted {before after : List RingEntry} {v : RingEntry} (h : s.RingOk)
    (hr : s.ring = before ++ v :: after) (hcells : v.cells ≠ []) (new : Bool) :
    (s.removeEntry v.feed v.seq).hasRoom new = true := by
  have hring := h.ring_evicted hr
  obtain ⟨-, hlen, hbuf, -⟩ := h
  have hpos := List.length_pos_iff.mpr hcells
  simp only [State.buffersUsed, hr, List.map_append, List.map_cons, List.sum_append, List.sum_cons] at hbuf
  simp only [hr, List.length_append, List.length_cons] at hlen
  simp only [State.hasRoom, State.buffersUsed, hring, List.map_append, List.sum_append, List.length_append,
    Bool.and_eq_true, Bool.or_eq_true, decide_eq_true_eq]
  exact ⟨by omega, .inr (by omega)⟩

/-- Room made by the one entry that leaves. -/
theorem State.RingOk.makeRoom_eq {before after : List RingEntry} {v : RingEntry} {new : Bool} (h : s.RingOk)
    (hno : s.hasRoom new = false) (hr : s.ring = before ++ v :: after)
    (hb : ∀ x ∈ before, 0 < x.pins ∨ (x.feed = feed ∧ x.seq = seq)) (hv : v.pins = 0)
    (hne : ¬(v.feed = feed ∧ v.seq = seq)) (hcells : v.cells ≠ []) :
    s.makeRoom feed seq new = s.removeEntry v.feed v.seq :=
  State.makeRoom_evicts hno (State.victim_first hr hb hv hne) (h.hasRoom_evicted hr hcells new)

end

end Sys2Proof.Machine
end

