-- ==== Sys2Proof/Proofs/CellJoins.lean ====
section
/-! A cell that agrees with its entry: stored, a duplicate, or dropped (R57, R65, R67). -/

namespace Sys2Proof.Machine

/-! ### The steps of a cell that joins -/

theorem State.checkChunk_open {s : State} {feed seq : Nat} {e : RingEntry} (he : s.entry? feed seq = some e)
    (hn : e.cells.length ≠ e.hdr.cells) : s.checkChunk feed seq = s := by
  simp [State.checkChunk, he, RingEntry.full, hn]

/-- Without a free buffer there is no room (R61). -/
theorem State.hasRoom_of_full {s : State} (new : Bool) (h : Config.poolBuffers ≤ s.buffersUsed) :
    s.hasRoom new = false := by
  simp [State.hasRoom, Nat.not_lt.mpr h]

section
variable {s : State} {c : Cell} {e : RingEntry} (he : s.entry? c.feed c.seq = some e) (hh : e.hdr = c.hdr)
include he hh

/-- A cell for a WHOLE entry, or with an index received before, changes nothing (R57). -/
theorem State.placeCell_duplicate (hold : ¬(e.whole = false ∧ c.index ∉ e.cells.map (·.1))) :
    s.placeCell c = s := by
  have hne : (e.hdr != c.hdr) = false := by simp [hh]
  have hdup : (e.whole || (e.cells.map (·.1)).contains c.index) = true := by
    rw [Bool.or_eq_true, List.contains_iff_mem]
    by_contra hk
    rw [not_or] at hk
    exact hold ⟨by simpa using hk.1, hk.2⟩
  simp only [State.placeCell, he, hne, hdup, Bool.false_eq_true, if_true, if_false]

section
variable (hfresh : e.whole = false ∧ c.index ∉ e.cells.map (·.1))
include hfresh

theorem State.placeCell_fresh : s.placeCell c = s.storeCell c := by
  have hne : (e.hdr != c.hdr) = false := by simp [hh]
  have hnew : (e.whole || (e.cells.map (·.1)).contains c.index) = false := by
    rw [Bool.or_eq_false_iff, ← Bool.not_eq_true (List.contains ..), List.contains_iff_mem]
    exact hfresh
  simp only [State.placeCell, he, hne, hnew, Bool.false_eq_true, if_false]

/-- A new index of an entry that stays PARTIAL is stored in the room made for it (R57, R65). -/
theorem State.placeCell_joins (hopen : e.cells.length + 1 ≠ e.hdr.cells) {t : State}
    (ht : s.makeRoom c.feed c.seq false = t) (hroom : t.hasRoom false = true) : s.placeCell c = t.stored c := by
  have het : t.entry? c.feed c.seq = some e := ht ▸ (s.entry?_makeRoom ..).trans he
  have hlen : (insertCell c.index c.payload e.cells).length ≠ e.hdr.cells := by
    rw [insertCell_length]
    exact hopen
  rw [State.placeCell_fresh he hh hfresh, State.storeCell, ht]
  simp only [hroom, if_true]
  exact State.checkChunk_open (State.entry?_stored het) hlen

/-- A new index for which no room can be made is dropped (R67). -/
theorem State.placeCell_dropped (hfull : Config.poolBuffers ≤ s.buffersUsed)
    (hstuck : ∀ x ∈ s.ring, 0 < x.pins ∨ (x.feed = c.feed ∧ x.seq = c.seq)) :
    s.placeCell c = s.dropCell c.feed := by
  rw [State.placeCell_fresh he hh hfresh, State.storeCell, State.makeRoom_stuck (State.victim_none hstuck)]
  simp only [State.hasRoom_of_full false hfull, Bool.false_eq_true, if_false]

/-- A new index for which the oldest other unpinned entry leaves (R65). -/
theorem State.placeCell_evicts (hopen : e.cells.length + 1 ≠ e.hdr.cells)
    (hfull : Config.poolBuffers ≤ s.buffersUsed) (hok : s.RingOk) {before after : List RingEntry} {v : RingEntry}
    (hr : s.ring = before ++ v :: after)
    (hb : ∀ x ∈ before, 0 < x.pins ∨ (x.feed = c.feed ∧ x.seq = c.seq)) (hv : v.pins = 0)
    (hne : ¬(v.feed = c.feed ∧ v.seq = c.seq)) (hcells : v.cells ≠ []) :
    s.placeCell c = (s.removeEntry v.feed v.seq).stored c :=
  State.placeCell_joins he hh hfresh hopen
    (hok.makeRoom_eq (State.hasRoom_of_full false hfull) hr hb hv hne hcells) (hok.hasRoom_evicted hr hcells false)

end

end

/-- A dropped cell of a feed with no context (R67). -/
theorem State.dropCell_contextless {s : State} {feed : Nat} (hc : s.ctx? feed = none) :
    s.dropCell feed = s.countPoolOverrun := by
  have hsame : s.contexts.map (fun d => if d.feed == feed then d.latchPoolOverrun else d) = s.contexts := by
    refine (List.map_congr_left fun d hd => if_neg fun hk => ?_).trans (List.map_id _)
    exact List.find?_eq_none.mp hc d hd hk
  exact congrArg (fun l => { s.countPoolOverrun with contexts := l }) hsame

/-- A dropped cell latches POOL OVERRUN (R67). -/
theorem State.ctx?_dropCell {s : State} {feed : Nat} {y : FeedContext} (hc : s.ctx? feed = some y) :
    (s.dropCell feed).ctx? feed = some y.latchPoolOverrun :=
  State.ctx?_counted (s := s.countPoolOverrun) hc FeedContext.latchPoolOverrun fun _ => rfl

/-! ### A cell of a feed with a context -/

/-- A cell below C of a feed with a context: the state in which it is placed differs by its sighting alone. -/
theorem State.placed_sighted {s : State} {c : Cell} {x : FeedContext} (hc : s.ctx? c.feed = some x)
    (hseq : c.seq < x.params.slotCount) :
    ∃ y d, (s.sight c.feed c.seq).ctx? c.feed = some y ∧ (s.takeCell c).ctx? c.feed = some d
      ∧ d.h = Mark.higher x.h (some c.seq)
      ∧ (∃ h a ps, y = { x with h := h, flags := { x.flags with allotLow := a }, positions := ps })
      ∧ ∀ n, y.pos? n = none ∧ x.pos? n = none ∨ ∃ p p', x.pos? n = some p ∧ y.pos? n = some p'
          ∧ p' = { p with gapWait := p'.gapWait } := by
  obtain ⟨y, hy, hyx, hpos⟩ := State.sight_leaves hc hseq
  obtain ⟨y', hy', hyh, -⟩ := State.sight_spec hc hseq
  obtain rfl : y = y' := Option.some.inj (hy.symm.trans hy')
  obtain ⟨d, hd, hkept⟩ := State.waits_placeCell (s.sight c.feed c.seq) c (plain := false) nofun y hy
  exact ⟨y, d, hy, by rw [State.takeCell_sighted hc hseq]; exact hd, hkept.h.trans hyh, hyx, hpos⟩

/-- Settles O20: the cell is placed in a state with the ring and the counters as they were, and joins its entry
in the room that is there or that the oldest other unpinned entry leaves. -/
theorem cellJoinsEntry : Obligations.CellJoinsEntry := by
  intro s f mend c e hear he hh u i joined fresh accepted overrun stuck evicts
  have hrun : exec i s = .next (u.takeCell c) := exec_cellCommand hear
  have hring : u.ring = s.ring := s.ring_seen mend c
  have hcnt : u.counters = s.counters := s.counters_seen mend c
  have hent : ∀ w : State, w.ring = s.ring → w.entry? c.feed c.seq = some e := fun w hw => by
    simpa only [State.entry?, hw] using he
  have hused : ∀ w : State, w.ring = s.ring → w.buffersUsed = s.buffersUsed := fun w hw => by
    simp only [State.buffersUsed, hw]
  have hdup : ∀ w : State, w.ring = s.ring → ¬fresh → w.placeCell c = w := fun w hw hold =>
    State.placeCell_duplicate (hent w hw) hh hold
  have hjoin : ∀ w : State, w.ring = s.ring → fresh → e.cells.length + 1 ≠ e.hdr.cells →
      s.buffersUsed < Config.poolBuffers → w.placeCell c = w.stored c := fun w hw hf hn hb => by
    have hroom : w.hasRoom false = true := by simp [State.hasRoom, hused w hw, hb]
    exact State.placeCell_joins (hent w hw) hh hf hn (State.makeRoom_of_room hroom ..) hroom
  have hdrop : ∀ w : State, w.ring = s.ring → fresh → Config.poolBuffers ≤ s.buffersUsed → stuck →
      w.placeCell c = w.dropCell c.feed := fun w hw hf hb hs =>
    State.placeCell_dropped (hent w hw) hh hf (hused w hw ▸ hb) (hw ▸ hs)
  have hevict : ∀ w : State, w.ring = s.ring → fresh → Config.poolBuffers ≤ s.buffersUsed → s.RingOk →
      e.cells.length + 1 ≠ e.hdr.cells → ∀ before v after, evicts before v after →
      w.placeCell c = (w.removeEntry v.feed v.seq).stored c
        ∧ (w.removeEntry v.feed v.seq).ring = before ++ after := by
    rintro w hw hf hb hok hn before v after ⟨hr, hpinned, hv, hne, hcells⟩
    have hwok : w.RingOk := by simpa only [State.RingOk, State.buffersUsed, hw] using hok
    exact ⟨State.placeCell_evicts (hent w hw) hh hf hn (hused w hw ▸ hb) hwok (hw.trans hr) hpinned hv hne hcells,
      hwok.ring_evicted (hw.trans hr)⟩
  have hstored : ∀ w : State, w.counters = s.counters → (w.stored c).ring = joined w.ring
      ∧ (w.stored c).counters = accepted := fun w hw =>
    ⟨rfl, congrArg (fun k : StationCounters => { k with cellsAccepted := k.cellsAccepted + 1 }) hw⟩
  have hdropped : ∀ w : State, w.counters = s.counters → w.countPoolOverrun.counters = overrun := fun w hw =>
    congrArg (fun k : StationCounters => { k with poolOverruns := k.poolOverruns + 1 }) hw
  refine ⟨fun hc => ?none, fun x hc hseq => ?some⟩
  case none =>
    have hcu : u.ctx? c.feed = none := (s.ctx?_seen mend c c.feed).trans hc
    rw [hrun, State.takeCell_contextless hcu]
    refine ⟨fun hold => ?_, fun hf hn hb => ?_, fun hf hb hs => ?_, fun hf hb hok hn before v after hev => ?_⟩
    · rw [hdup u hring hold]
    · rw [hjoin u hring hf hn hb, ← hring, ← (hstored u hcnt).2]
      rfl
    · rw [hdrop u hring hf hb hs, State.dropCell_contextless hcu, ← hdropped u hcnt]
      rfl
    · obtain ⟨hplace, hleft⟩ := hevict u hring hf hb hok hn before v after hev
      obtain ⟨hstoredring, hstoredcnt⟩ :=
        hstored (u.removeEntry v.feed v.seq) ((u.counters_removeEntry ..).trans hcnt)
      exact ⟨_, congrArg _ hplace, hstoredring.trans (congrArg joined hleft), hstoredcnt, u.removalReported v⟩
  case some =>
    have hcu : u.ctx? c.feed = some x := (s.ctx?_seen mend c c.feed).trans hc
    obtain ⟨y, d, hy, hd, hdh, -, hpos⟩ := State.placed_sighted hcu hseq
    have hwring : (u.sight c.feed c.seq).ring = s.ring := (u.ring_sight ..).trans hring
    have hwcnt : (u.sight c.feed c.seq).counters = s.counters := (u.counters_sight ..).trans hcnt
    refine ⟨_, d, hrun, hd, hdh, ?_⟩
    rw [State.takeCell_sighted hcu hseq] at hd ⊢
    refine ⟨fun hold => ?_, fun hf hn hb => ?_, fun hf hb hs => ?_, fun hf hb hok hn before v after hev => ?_⟩
    · rw [hdup _ hwring hold]
      exact ⟨hwring, hwcnt⟩
    · rw [hjoin _ hwring hf hn hb] at hd ⊢
      obtain ⟨hstoredring, hstoredcnt⟩ := hstored _ hwcnt
      obtain rfl : y = d := Option.some.inj (hy.symm.trans hd)
      refine ⟨hstoredring.trans (congrArg joined hwring), hstoredcnt, fun n => ?_⟩
      rcases hpos n with ⟨hn1, hn2⟩ | ⟨p, p', hp, hp', heq⟩
      · rw [hn1, hn2]
      · rw [hp, hp', heq]
        rfl
    · rw [hdrop _ hwring hf hb hs] at hd ⊢
      obtain rfl := Option.some.inj ((State.ctx?_dropCell hy).symm.trans hd)
      exact ⟨hwring, hdropped _ hwcnt, rfl⟩
    · obtain ⟨hplace, hleft⟩ := hevict _ hwring hf hb hok hn before v after hev
      obtain ⟨hstoredring, hstoredcnt⟩ := hstored ((u.sight c.feed c.seq).removeEntry v.feed v.seq)
        ((State.counters_removeEntry ..).trans hwcnt)
      rw [hplace]
      have htold := ((u.sight c.feed c.seq).removalReported v).told (u.waitsOnly_sight c.feed c.seq)
        (u.sight_rest c.feed c.seq) (t := ((u.sight c.feed c.seq).removeEntry v.feed v.seq).stored c) rfl rfl rfl
      exact ⟨hstoredring.trans (congrArg joined hleft), hstoredcnt, htold⟩

end Sys2Proof.Machine
end

