-- ==== Sys2Proof/Proofs/CellCreates.lean ====
section
/-! A cell with no entry: the entry it makes, a one-cell chunk checked at once, or the cell dropped
(R55, R58, R65 to R67, R79). -/

namespace Sys2Proof.Machine

/-! ### The new entry -/

/-- The entry a cell makes (R55). -/
def Cell.entry (c : Cell) : RingEntry :=
  { feed := c.feed, seq := c.seq, whole := false, hdr := c.hdr, cells := [(c.index, c.payload)], pins := 0 }

/-- The entry of a cell made at the newest place, counted and reported to the window (R55, R79). -/
def State.entered (s : State) (c : Cell) : State :=
  (({ s with ring := s.ring ++ [c.entry] } : State).countAccepted).reportCreated c.feed c.seq

/-- The new entry of a one-cell chunk that passed its check (R58). -/
def State.enteredWhole (s : State) (c : Cell) : State :=
  (s.entered c).mapEntry c.feed c.seq (fun e => { e with whole := true })

/-- Beside the contexts, a new entry changes the ring and cells accepted alone. -/
theorem State.entered_rest (s : State) (c : Cell) : { s.entered c with contexts := s.contexts } = { s with
    ring := s.ring ++ [c.entry]
    counters := { s.counters with cellsAccepted := s.counters.cellsAccepted + 1 } } := by
  unfold State.entered State.reportCreated
  repeat' split
  all_goals rfl

theorem State.entered_contextless {s : State} {c : Cell} (hc : s.ctx? c.feed = none) : s.entered c = { s with
    ring := s.ring ++ [c.entry]
    counters := { s.counters with cellsAccepted := s.counters.cellsAccepted + 1 } } := by
  have hpos : (({ s with ring := s.ring ++ [c.entry] } : State).countAccepted).pos? c.feed c.seq = none :=
    congrArg (fun o => o.bind (fun x : FeedContext => x.pos? c.seq)) hc
  unfold State.entered State.reportCreated
  simp only [hpos, ite_self]
  rfl

theorem State.pos?_entered_ne (s : State) {c : Cell} {g n : Nat} (h : ¬(g = c.feed ∧ n = c.seq)) :
    (s.entered c).pos? g n = s.pos? g n := by
  have hk : (g == c.feed && n == c.seq) = false := by simpa using h
  have hmap := fun t : State => t.pos?_mapPos c.feed c.seq g n
    (fun p => { p with land := .gathering, hasRef := true }) fun _ => rfl
  unfold State.entered State.reportCreated
  repeat' split
  · rfl
  · rw [hmap]
    simp only [hk, Bool.false_eq_true, if_false, Option.map_id']
    rfl
  · rfl
  · rfl

/-- The position of a chunk after an entry was made for it (R79). -/
def Position.gathered (p : Position) : Position :=
  if p.land == .absent then { p with land := .gathering, hasRef := true } else p

theorem Position.gathered_absent {p : Position} (h : p.land = .absent) :
    p.gathered = { p with land := .gathering, hasRef := true } := by
  simp [Position.gathered, h]

theorem Position.gathered_of_ne {p : Position} (h : p.land ≠ .absent) : p.gathered = p := by
  simp [Position.gathered, h]

/-- What a new entry makes of its feed's context: its position becomes GATHERING where windows run (R79). -/
theorem State.entered_window {s : State} {c : Cell} {y : FeedContext} (hy : s.ctx? c.feed = some y) :
    ∃ z, (s.entered c).ctx? c.feed = some z ∧ (∃ ps, z = { y with positions := ps })
      ∧ (s.windowsRun = true → z.pos? c.seq = (y.pos? c.seq).map Position.gathered) := by
  let f : Position → Position := fun p => { p with land := .gathering, hasRef := true }
  have hpos : (({ s with ring := s.ring ++ [c.entry] } : State).countAccepted).pos? c.feed c.seq = y.pos? c.seq :=
    congrArg (fun o => o.bind (fun x : FeedContext => x.pos? c.seq)) hy
  unfold State.entered State.reportCreated
  split
  · rw [hpos]
    split
    · next hnone => exact ⟨y, hy, ⟨_, rfl⟩, fun _ => by rw [hnone]; rfl⟩
    · next p hp =>
      split
      · next hl =>
        refine ⟨y.mapPos c.seq f, State.ctx?_counted hy (fun c' => c'.mapPos c.seq f) fun _ => rfl, ⟨_, rfl⟩,
          fun _ => ?_⟩
        rw [y.pos?_mapPos c.seq c.seq f fun _ => rfl, hp, Option.map_some, Option.map_some,
          Position.gathered_absent (by simpa using hl), if_pos (by simp)]
      · next hl =>
        refine ⟨y, hy, ⟨_, rfl⟩, fun _ => ?_⟩
        rw [hp, Option.map_some, Position.gathered_of_ne (by simpa using hl)]
  · next hquiet => exact ⟨y, hy, ⟨_, rfl⟩, fun hrun => absurd hrun hquiet⟩

section
variable {s : State} {c : Cell} (hnone : s.entry? c.feed c.seq = none)
include hnone

/-- No entry of the ring is the cell's. -/
theorem State.other_entries {x : RingEntry} (hx : x ∈ s.ring) : (x.feed == c.feed && x.seq == c.seq) = false := by
  simpa using List.find?_eq_none.mp hnone x hx

theorem State.entry?_append {r : List RingEntry} (hr : r = s.ring ++ [c.entry]) :
    ({ s with ring := r } : State).entry? c.feed c.seq = some c.entry := by
  have hold : s.ring.find? (fun e => e.feed == c.feed && e.seq == c.seq) = none := hnone
  simp only [State.entry?, hr, List.find?_append, hold, Option.none_or]
  simp [Cell.entry]

theorem State.entry?_entered : (s.entered c).entry? c.feed c.seq = some c.entry :=
  State.entry?_append hnone (State.ring_reportCreated ..)

theorem State.entry?_enteredWhole :
    (s.enteredWhole c).entry? c.feed c.seq = some { c.entry with whole := true } :=
  ((s.entered c).entry?_mapEntry c.feed c.seq c.feed c.seq (fun e => { e with whole := true })
    fun _ => ⟨rfl, rfl⟩).trans (by simp [State.entry?_entered hnone])

theorem State.ring_enteredWhole : (s.enteredWhole c).ring = s.ring ++ [{ c.entry with whole := true }] := by
  have hring : (s.entered c).ring = s.ring ++ [c.entry] := State.ring_reportCreated ..
  simp only [State.enteredWhole, State.mapEntry, hring, List.map_append, List.map_singleton]
  refine congrArg₂ (· ++ ·) ((List.map_congr_left fun x hx => ?_).trans (List.map_id _)) (by simp [Cell.entry])
  rw [State.other_entries hnone hx]
  rfl

/-- The new entry removed leaves the ring as it was. -/
theorem State.ring_entered_removed : ((s.entered c).removeEntry c.feed c.seq).ring = s.ring := by
  have hring : (s.entered c).ring = s.ring ++ [c.entry] := State.ring_reportCreated ..
  rw [State.ring_removeEntry, hring, List.filter_append, List.filter_eq_self.mpr fun x hx => by
    rw [State.other_entries hnone hx]; rfl]
  simp [Cell.entry]

/-! ### Placing the cell -/

/-- An entry is made in the room made for it (R55, R65). -/
theorem State.placeCell_creates {t : State} (ht : s.makeRoom c.feed c.seq true = t) (hroom : t.hasRoom true = true) :
    s.placeCell c = (t.entered c).checkChunk c.feed c.seq := by
  simp only [State.placeCell, hnone, State.createEntry, ht, hroom, if_true, State.entered, Cell.entry]

/-- The new entry of a chunk of several cells is PARTIAL (R55). -/
theorem State.placeCell_partial {t : State} (ht : s.makeRoom c.feed c.seq true = t) (hroom : t.hasRoom true = true)
    (hcells : c.hdr.cells ≠ 1) : s.placeCell c = t.entered c := by
  have htn : t.entry? c.feed c.seq = none := ht ▸ (s.entry?_makeRoom ..).trans hnone
  rw [State.placeCell_creates hnone ht hroom]
  exact State.checkChunk_open (State.entry?_entered htn) fun h => hcells h.symm

/-- The new entry of a one-cell chunk is WHOLE or leaves the ring (R58). -/
theorem State.placeCell_single (hroom : s.hasRoom true = true) (hcells : c.hdr.cells = 1) :
    (checkWord (c.payload.take c.hdr.length) = c.hdr.check → s.placeCell c
        = ((s.enteredWhole c).reportWhole c.feed c.seq c.hdr).reportLast c.feed c.seq c.hdr)
      ∧ (checkWord (c.payload.take c.hdr.length) ≠ c.hdr.check →
        s.placeCell c = (s.entered c).removeEntry c.feed c.seq) := by
  have hword : c.entry.payload = c.payload.take c.hdr.length := by simp [RingEntry.payload, Cell.entry]
  have hent := State.entry?_entered hnone
  rw [State.placeCell_creates hnone (State.makeRoom_of_room hroom ..) hroom, ← hword]
  have hhdr : c.entry.hdr = c.hdr := rfl
  refine ⟨fun hk => ?_, fun hk => ?_⟩
  · rw [State.checkChunk_passed hent rfl hcells.symm (hk.trans (by rw [hhdr])), hhdr, State.enteredWhole]
  · exact State.checkChunk_failed hent rfl hcells.symm hk

/-- Where every entry is pinned the cell is dropped (R67). -/
theorem State.placeCell_refused (hno : s.hasRoom true = false) (hpinned : ∀ x ∈ s.ring, 0 < x.pins) :
    s.placeCell c = s.dropCell c.feed := by
  have hmake := State.makeRoom_stuck (new := true) (State.victim_none (feed := c.feed) (seq := c.seq)
    fun x hx => .inl (hpinned x hx))
  simp only [State.placeCell, hnone, State.createEntry, hmake, hno, Bool.false_eq_true, if_false]

/-- The oldest unpinned entry leaves for the new one (R65). -/
theorem State.placeCell_evicts_for (hno : s.hasRoom true = false) (hok : s.RingOk) (hcells : c.hdr.cells ≠ 1)
    {before after : List RingEntry} {v : RingEntry} (hr : s.ring = before ++ v :: after)
    (hb : ∀ x ∈ before, 0 < x.pins) (hv : v.pins = 0) (hfull : v.cells ≠ []) :
    ¬(v.feed = c.feed ∧ v.seq = c.seq) ∧ s.placeCell c = (s.removeEntry v.feed v.seq).entered c := by
  have hne : ¬(v.feed = c.feed ∧ v.seq = c.seq) := by
    simpa using State.other_entries hnone (x := v) (by rw [hr]; simp)
  exact ⟨hne, State.placeCell_partial hnone
    (hok.makeRoom_eq hno hr (fun x hx => .inl (hb x hx)) hv hne hfull) (hok.hasRoom_evicted hr hfull true) hcells⟩

end

/-! ### A feed with no context -/

section
variable {s : State} {feed seq : Nat} (hc : s.ctx? feed = none)
include hc

/-- No window and no end follow the chunk of a feed with no context. -/
theorem State.report_contextless (h : ChunkHeader) : (s.reportWhole feed seq h).reportLast feed seq h = s := by
  have hrep : s.reportWhole feed seq h = s := by simp only [State.reportWhole, hc]
  rw [hrep, State.reportLast]
  simp only [State.takeEnd, hc, ite_self]

theorem State.removeEntry_contextless : s.removeEntry feed seq = { s with
    ring := s.ring.filter (fun x => !(x.feed == feed && x.seq == seq))
    answers := s.answers.filter (fun x => !(x.feed == feed && x.seq == seq))
    mendQueue := s.mendQueue.filter (fun m => !(m.feed == feed && m.seq == seq)) } := by
  have hctx : (s.dropEntry feed seq).ctx? feed = none := hc
  have hquiet : (s.dropEntry feed seq).reportRemoved feed seq = s.dropEntry feed seq :=
    State.reportRemoved_quiet (.inr fun p hp => by simp [State.pos?, hctx] at hp)
  rw [State.removeEntry, State.reportRemoval, hquiet]
  rfl

end

/-- A removal opens and frees no context. -/
theorem State.ctx?_removeEntry_none {s : State} {feed seq g : Nat} (hc : s.ctx? g = none) :
    (s.removeEntry feed seq).ctx? g = none := by
  obtain ⟨-, hfeeds, -⟩ := (s.dropEntry feed seq).frame_reportRemoved feed seq
  rw [State.ctx?_none_iff] at hc ⊢
  exact fun hg => hc (hfeeds ▸ hg)

/-! ### A feed with a context -/

/-- The context whose position of a sequence number, where ABSENT, is made GATHERING (R79). -/
def FeedContext.gathered (x : FeedContext) (n : Nat) : FeedContext :=
  { x with positions := x.positions.map (fun p =>
      if p.seq == n && p.land == .absent then { p with land := .gathering, hasRef := true } else p) }

theorem FeedContext.pos?_gathered (x : FeedContext) (n : Nat) :
    (x.gathered n).pos? n = (x.pos? n).map Position.gathered := by
  have hk : ∀ p : Position, ((if p.seq == n && p.land == .absent then
      { p with land := .gathering, hasRef := true } else p : Position).seq == n) = (p.seq == n) := fun p => by
    split <;> rfl
  refine (find?_map_key (p := fun p : Position => p.seq == n) hk x.positions).trans ?_
  refine Option.map_congr fun p hp => ?_
  have hseq : (p.seq == n) = true := List.find?_some (p := fun p : Position => p.seq == n) hp
  simp only [hseq, Bool.true_and]
  rfl

/-- The chunk that completes the feed gives its end (R15, R59). -/
theorem State.reportLast_end {s : State} {c : Cell} {z x : FeedContext} (hz : s.ctx? c.feed = some z)
    (hxz : FeedContext.EndsAs x z) (hl : c.hdr.last = true) (hw : x.working = true) :
    ∃ d, ((s.reportWhole c.feed c.seq c.hdr).reportLast c.feed c.seq c.hdr).ctx? c.feed = some d
      ∧ d.e = x.endAfter c.seq := by
  obtain ⟨y, hy, hzy⟩ := State.reportWhole_ends (seq := c.seq) hz c.hdr
  obtain ⟨d, hd, he⟩ := State.takeEnd_e (x := c.seq) hy (hzy.1.trans (hxz.1.trans hw))
  exact ⟨d, by rw [State.reportLast, if_pos hl]; exact hd, he.trans ((hzy.2 _).trans (hxz.2 _))⟩

theorem State.sighted_position {u : State} {feed seq n : Nat} {x y : FeedContext} {p : Position}
    (hc : u.ctx? feed = some x) (hy : (u.sight feed seq).ctx? feed = some y) (hp : x.pos? n = some p) :
    ∃ p', y.pos? n = some p' ∧ p.Waiting p' := by
  obtain ⟨p', hp', hw⟩ := u.waitsOnly_sight feed seq feed n p (by simp [State.pos?, hc, hp])
  exact ⟨p', by simpa [State.pos?, hy] using hp', hw⟩

/-- A position after its sighting and the entry made for its chunk (R79, R83). -/
theorem Position.Waiting.gathers {p q : Position} (h : p.Waiting q) :
    (p.land = .absent → q.gathered.land = .gathering ∧ q.gathered.hasRef = true)
      ∧ (p.land ≠ .absent → q.gathered.land = p.land ∧ q.gathered.hasRef = p.hasRef)
      ∧ q.gathered.pinned = p.pinned ∧ (p.gapWait ≠ none → q.gathered.gapWait = p.gapWait) := by
  obtain ⟨heq, hgap⟩ := h
  have hland : q.land = p.land := by rw [heq]
  have href : q.hasRef = p.hasRef := by rw [heq]
  have hpin : q.pinned = p.pinned := by rw [heq]
  by_cases hl : p.land = .absent
  · rw [Position.gathered_absent (hland.trans hl)]
    exact ⟨fun _ => ⟨rfl, rfl⟩, fun hne => absurd hl hne, hpin, hgap⟩
  · rw [Position.gathered_of_ne (hland ▸ hl)]
    exact ⟨fun h => absurd h hl, fun _ => ⟨hland, href⟩, hpin, hgap⟩

/-- A one-cell chunk that fails its check leaves its position ABSENT (R58, R81). -/
theorem State.entered_failed {s : State} {c : Cell} {y : FeedContext} {p : Position} (hrun : s.windowsRun = true)
    (hy : s.ctx? c.feed = some y) (hp : y.pos? c.seq = some p) (hl : p.land = .absent) :
    ∃ d q, ((s.entered c).removeEntry c.feed c.seq).ctx? c.feed = some d ∧ d.pos? c.seq = some q
      ∧ q = { p with land := .absent, hasRef := false, gapWait := q.gapWait } := by
  obtain ⟨z, hz, -, hzpos⟩ := State.entered_window hy
  have hpos : (s.entered c).pos? c.feed c.seq = some { p with land := .gathering, hasRef := true } := by
    simp [State.pos?, hz, hzpos hrun, hp, Position.gathered_absent hl]
  have hruns : (s.entered c).windowsRun = true :=
    (congrArg (fun t : State => t.windowsRun) (s.entered_rest c)).trans hrun
  obtain ⟨-, -, -, hreported, -⟩ := (s.entered c).removalReported c.entry
  obtain ⟨⟨q, hq, hqe, -⟩, -⟩ := hreported _ hruns hpos rfl rfl
  obtain ⟨d, hd, hdq⟩ := Option.bind_eq_some_iff.mp hq
  exact ⟨d, q, hd, hdq, hqe⟩

/-- A one-cell chunk that passed its check, as the window of a LIVE station takes it (R80). -/
theorem State.entered_reported {u : State} {c : Cell} {x y : FeedContext} (hc : u.ctx? c.feed = some x)
    (hnone : u.entry? c.feed c.seq = none) (hrun : u.windowsRun = true)
    (hy : (u.sight c.feed c.seq).ctx? c.feed = some y)
    (hyx : ∃ h a ps, y = { x with h := h, flags := { x.flags with allotLow := a }, positions := ps })
    (hpos : y.pos? c.seq = none ∧ x.pos? c.seq = none ∨ ∃ p p', x.pos? c.seq = some p ∧ y.pos? c.seq = some p'
      ∧ p' = { p with gapWait := p'.gapWait }) :
    ∃ d, (((u.sight c.feed c.seq).enteredWhole c).reportWhole c.feed c.seq c.hdr).ctx? c.feed = some d
      ∧ ({ u with ring := u.ring ++ [c.entry] } : State).WholeReported
          (((u.sight c.feed c.seq).enteredWhole c).reportWhole c.feed c.seq c.hdr)
          (x.gathered c.seq) d c.seq c.hdr := by
  obtain ⟨z, hz, ⟨ps, hzy⟩, hzpos⟩ := State.entered_window hy
  have hwrun : (u.sight c.feed c.seq).windowsRun = true :=
    ((u.frame_sight c.feed c.seq).observe (·.windowsRun) fun _ => rfl).trans hrun
  have hrest := (u.sight c.feed c.seq).entered_rest c
  have hsight := u.sight_rest c.feed c.seq
  have hruns : ((u.sight c.feed c.seq).enteredWhole c).windowsRun = true :=
    (congrArg (fun t : State => t.windowsRun) hrest).trans hwrun
  have hfeed : (x.gathered c.seq).feed = c.feed := (State.ctx?_feed hc : x.feed = c.feed)
  have hsame : ∀ {α : Type} (g : State → α), g { (u.sight c.feed c.seq).entered c with
      contexts := (u.sight c.feed c.seq).contexts } = g { u.sight c.feed c.seq with
        ring := (u.sight c.feed c.seq).ring ++ [c.entry]
        counters := { (u.sight c.feed c.seq).counters with
          cellsAccepted := (u.sight c.feed c.seq).counters.cellsAccepted + 1 } } := fun g => congrArg g hrest
  have hsighted : ({ u with ring := u.ring ++ [c.entry] } : State).Sighted ((u.sight c.feed c.seq).enteredWhole c)
      (x.gathered c.seq) z c.seq :=
    { waitJobs := (hsame State.waitJobs).trans (congrArg State.waitJobs hsight :)
      queueJobs := (hsame State.queueJobs).trans (congrArg State.queueJobs hsight :)
      shedJobs := (hsame State.shedJobs).trans (congrArg State.shedJobs hsight :)
      asks := (hsame State.askQueue).trans (congrArg State.askQueue hsight :)
      now := (hsame State.now).trans (congrArg State.now hsight :)
      pins := by
        rw [hfeed, State.entry?_enteredWhole ((u.entry?_sight ..).trans hnone), State.entry?_append hnone rfl]
        rfl
      ctx := by
        obtain ⟨h, a, _, rfl⟩ := hyx
        exact ⟨h, a, ps, hzy⟩
      pos := by
        rw [hzpos hwrun, FeedContext.pos?_gathered]
        rcases hpos with ⟨h1, h2⟩ | ⟨p, p', h1, h2, h3⟩
        · exact .inl ⟨by rw [h1]; rfl, by rw [h2]; rfl⟩
        · refine .inr ⟨p.gathered, p'.gathered, by rw [h1]; rfl, by rw [h2]; rfl, ?_⟩
          rw [h3]
          unfold Position.gathered
          simp only
          split <;> rfl }
  have hzw : ((u.sight c.feed c.seq).enteredWhole c).ctx? (x.gathered c.seq).feed = some z := hfeed ▸ hz
  obtain ⟨d, hd, hreported⟩ := State.reportWhole_taken c.hdr hruns hzw hsighted
  rw [hfeed] at hd hreported
  exact ⟨d, hd, hreported⟩

/-- What stands in the ring and the counters once the entry is made. -/
theorem State.ring_entered (s : State) (c : Cell) : (s.entered c).ring = s.ring ++ [c.entry] :=
  State.ring_reportCreated ..

theorem State.counters_entered (s : State) (c : Cell) :
    (s.entered c).counters = { s.counters with cellsAccepted := s.counters.cellsAccepted + 1 } :=
  (congrArg State.counters (s.entered_rest c) :)

/-- The WHOLE entry of a one-cell chunk after its report (R58, R59). -/
theorem State.entry?_single {s : State} {c : Cell} (hnone : s.entry? c.feed c.seq = none) (h : ChunkHeader) :
    ∃ n, (((s.enteredWhole c).reportWhole c.feed c.seq h).reportLast c.feed c.seq h).entry? c.feed c.seq
      = some { c.entry with whole := true, pins := n } := by
  have hframe := ((s.enteredWhole c).frame_reportWhole c.feed c.seq h).trans
    (State.frame_reportLast _ c.feed c.seq h)
  exact State.entry?_of_chunks hframe.2.2 (State.entry?_enteredWhole hnone)

/-- Settles O19: the cell is placed in a state with the ring and the counters as they were; its entry is made in
the room that is there or that the oldest unpinned entry leaves, and a one-cell chunk is checked at once. -/
theorem cellCreatesEntry : Obligations.CellCreatesEntry := by
  intro s f mend c hear hnone u i room e good accepted overrun
  have hrun : exec i s = .next (u.takeCell c) := exec_cellCommand hear
  have hring : u.ring = s.ring := s.ring_seen mend c
  have hcnt : u.counters = s.counters := s.counters_seen mend c
  have hent : ∀ w : State, w.ring = s.ring → w.entry? c.feed c.seq = none := fun w hw => by
    simpa only [State.entry?, hw] using hnone
  have hroom : ∀ w : State, w.ring = s.ring → (w.hasRoom true = true ↔ room) := fun w hw => by
    simp only [State.hasRoom, State.buffersUsed, hw, Bool.not_true, Bool.false_or, Bool.and_eq_true,
      decide_eq_true_eq]
    exact Iff.rfl
  have hnoroom : ∀ w : State, w.ring = s.ring → ¬room → w.hasRoom true = false := fun w hw hno =>
    Bool.eq_false_iff.mpr fun h => hno ((hroom w hw).mp h)
  have hpartial : ∀ w : State, w.ring = s.ring → room → c.hdr.cells ≠ 1 → w.placeCell c = w.entered c :=
    fun w hw hr hn => State.placeCell_partial (hent w hw) (State.makeRoom_of_room ((hroom w hw).mpr hr) ..)
      ((hroom w hw).mpr hr) hn
  have hrefused : ∀ w : State, w.ring = s.ring → ¬room → (∀ x ∈ s.ring, 0 < x.pins) →
      w.placeCell c = w.dropCell c.feed := fun w hw hno hp =>
    State.placeCell_refused (hent w hw) (hnoroom w hw hno) (hw ▸ hp)
  have hevicts : ∀ w : State, w.ring = s.ring → ¬room → s.RingOk → c.hdr.cells ≠ 1 → ∀ before v after,
      s.ring = before ++ v :: after → (∀ x ∈ before, 0 < x.pins) → v.pins = 0 → v.cells ≠ [] →
      ¬(v.feed = c.feed ∧ v.seq = c.seq) ∧ w.placeCell c = (w.removeEntry v.feed v.seq).entered c
        ∧ (w.removeEntry v.feed v.seq).ring = before ++ after := by
    intro w hw hno hok hn before v after hr hb hv hcells
    have hwok : w.RingOk := by simpa only [State.RingOk, State.buffersUsed, hw] using hok
    obtain ⟨hne, hplace⟩ := State.placeCell_evicts_for (hent w hw) (hnoroom w hw hno) hwok hn (hw.trans hr) hb hv
      hcells
    exact ⟨hne, hplace, hwok.ring_evicted (hw.trans hr)⟩
  have hentered : ∀ w : State, w.counters = s.counters → (w.entered c).counters = accepted := fun w hw =>
    (w.counters_entered c).trans
      (congrArg (fun k : StationCounters => { k with cellsAccepted := k.cellsAccepted + 1 }) hw)
  have hdropped : ∀ w : State, w.counters = s.counters → w.countPoolOverrun.counters = overrun := fun w hw =>
    congrArg (fun k : StationCounters => { k with poolOverruns := k.poolOverruns + 1 }) hw
  refine ⟨fun hc => ?none, fun x hc hseq => ?some⟩
  case none =>
    have hcu : u.ctx? c.feed = none := (s.ctx?_seen mend c c.feed).trans hc
    rw [hrun, State.takeCell_contextless hcu]
    refine ⟨fun hr hn => ?_, fun hr hn => ?_, fun hno hp => ?_, fun hno hok hn before v after hr hb hv hcells => ?_⟩
    · rw [hpartial u hring hr hn, State.entered_contextless hcu, hring, hcnt]
      rfl
    · obtain ⟨hpass, hfail⟩ := State.placeCell_single (hent u hring) ((hroom u hring).mpr hr) hn
      have hce : (u.entered c).ctx? c.feed = none := by
        rw [State.entered_contextless hcu]
        exact hcu
      refine ⟨fun hk => ?_, fun hk => ?_⟩
      · have hwhole : u.enteredWhole c = { u.entered c with ring := s.ring ++ [{ e with whole := true }] } := by
          rw [← hring, ← show (u.enteredWhole c).ring = u.ring ++ [{ e with whole := true }] from
            State.ring_enteredWhole (hent u hring)]
          rfl
        rw [hpass hk, State.report_contextless (s := u.enteredWhole c) hce, hwhole, State.entered_contextless hcu, hcnt]
      · have hgone := State.ring_entered_removed (hent u hring)
        rw [hfail hk]
        rw [State.removeEntry_contextless hce] at hgone ⊢
        simp only at hgone
        rw [hgone, State.entered_contextless hcu, hcnt]
    · rw [hrefused u hring hno hp, State.dropCell_contextless hcu, ← hdropped u hcnt]
      rfl
    · obtain ⟨-, hplace, hleft⟩ := hevicts u hring hno hok hn before v after hr hb hv hcells
      refine ⟨_, congrArg _ hplace, (State.ring_entered ..).trans (congrArg (· ++ [e]) hleft),
        hentered _ ((u.counters_removeEntry ..).trans hcnt), ?_⟩
      rw [State.entered_contextless (State.ctx?_removeEntry_none hcu)]
      exact u.removalReported v
  case some =>
    have hcu : u.ctx? c.feed = some x := (s.ctx?_seen mend c c.feed).trans hc
    obtain ⟨y, d, hy, hd, hdh, hyx, hpos⟩ := State.placed_sighted hcu hseq
    have hwring : (u.sight c.feed c.seq).ring = s.ring := (u.ring_sight ..).trans hring
    have hwcnt : (u.sight c.feed c.seq).counters = s.counters := (u.counters_sight ..).trans hcnt
    have hlive : s.station = .live → u.windowsRun = true := fun h => by
      simp [State.windowsRun, u, s.station_seen mend c, h]
    have hwlive : s.station = .live → (u.sight c.feed c.seq).windowsRun = true := fun h =>
      ((u.frame_sight c.feed c.seq).observe (·.windowsRun) fun _ => rfl).trans (hlive h)
    refine ⟨_, d, hrun, hd, hdh, ?_⟩
    rw [State.takeCell_sighted hcu hseq] at hd ⊢
    refine ⟨fun hno hp => ?refused, fun hr hn => ?several,
      fun hno hok hn before v after hr hb hv hcells => ?evicted, fun hr hn => ?single⟩
    case refused =>
      rw [hrefused _ hwring hno hp] at hd ⊢
      obtain rfl := Option.some.inj ((State.ctx?_dropCell hy).symm.trans hd)
      exact ⟨hwring, hdropped _ hwcnt, rfl⟩
    case several =>
      rw [hpartial _ hwring hr hn] at hd ⊢
      refine ⟨(State.ring_entered ..).trans (congrArg (· ++ [e]) hwring), hentered _ hwcnt, fun hl p hp => ?_⟩
      obtain ⟨z, hz, -, hzpos⟩ := State.entered_window hy
      obtain rfl : z = d := Option.some.inj (hz.symm.trans hd)
      obtain ⟨p', hp', hw⟩ := State.sighted_position hcu hy hp
      exact ⟨p'.gathered, by rw [hzpos (hwlive hl), hp']; rfl, hw.gathers⟩
    case evicted =>
      obtain ⟨hne, hplace, hleft⟩ := hevicts _ hwring hno hok hn before v after hr hb hv hcells
      have hrest := ((u.sight c.feed c.seq).removeEntry v.feed v.seq).entered_rest c
      have htold := ((u.sight c.feed c.seq).removalReported v).told (u.waitsOnly_sight c.feed c.seq)
        (u.sight_rest c.feed c.seq) (t := ((u.sight c.feed c.seq).removeEntry v.feed v.seq).entered c)
        (congrArg State.answers hrest :) (congrArg State.mendQueue hrest :) (State.pos?_entered_ne _ hne)
      rw [hplace]
      exact ⟨(State.ring_entered ..).trans (congrArg (· ++ [e]) hleft),
        hentered _ ((State.counters_removeEntry ..).trans hwcnt), htold⟩
    case single =>
      have hwroom := (hroom _ hwring).mpr hr
      obtain ⟨hpass, hfail⟩ := State.placeCell_single (hent _ hwring) hwroom hn
      refine ⟨?_, fun hk => ?failed, fun hk => ?passed⟩
      · rw [State.placeCell_creates (hent _ hwring) (State.makeRoom_of_room hwroom ..) hwroom,
          State.counters_checkChunk]
        exact hentered _ hwcnt
      case failed =>
        have hrest := (u.sight c.feed c.seq).entered_rest c
        rw [hfail hk] at hd ⊢
        refine ⟨(State.ring_entered_removed (hent _ hwring)).trans hwring, ?_, fun p hl hp habsent => ?_⟩
        · rw [State.answers_removeEntry, show ((u.sight c.feed c.seq).entered c).answers = u.answers from
            (congrArg State.answers hrest :).trans (congrArg State.answers (u.sight_rest c.feed c.seq) :)]
        · obtain ⟨p', hp', heq, -⟩ := State.sighted_position hcu hy hp
          obtain ⟨d', q, hd', hq, hqe⟩ := State.entered_failed (hwlive hl) hy hp' (by rw [heq]; exact habsent)
          obtain rfl : d = d' := Option.some.inj (hd.symm.trans hd')
          rw [hqe] at hq
          refine ⟨_, hq, rfl, rfl, ?_, ?_⟩ <;> rw [heq]
      case passed =>
        obtain ⟨z, hz, ⟨ps, hzy⟩, -⟩ := State.entered_window hy
        have hends : FeedContext.EndsAs x z := by
          obtain ⟨_, _, _, rfl⟩ := hyx
          rw [hzy]
          exact .of_same rfl rfl rfl rfl rfl
        rw [hpass hk] at hd ⊢
        refine ⟨State.entry?_single (hent _ hwring) c.hdr, fun hl hw => ?_, fun hl => ?_⟩
        · obtain ⟨d', hd', he⟩ := State.reportLast_end (s := (u.sight c.feed c.seq).enteredWhole c) hz hends hl hw
          obtain rfl : d = d' := Option.some.inj (hd.symm.trans hd')
          exact he
        · obtain ⟨k, hk', hreported⟩ := State.entered_reported hcu (hent u hring) (hlive hl) hy hyx (hpos c.seq)
          rw [hring] at hreported
          exact ⟨_, k, hk', hreported, by rw [State.reportLast]⟩

end Sys2Proof.Machine
end
